-- ==== Sys2Proof/Word.lean ====
section
/-! DEFINITION. The types of the engine's elements: bytes, 32-bit words, node ids, node and code records, the abstract
tree of the rules, the names of the eight memories, and the record of working registers. -/

namespace Sys2Proof

/-- One byte: a symbol, a tree-byte, a payload byte (R2, R55). -/
abbrev Byte := BitVec 8

/-- One 32-bit register, count or container integer (R5: CNT_W, LEN_W; R10). -/
abbrev Word := BitVec 32

/-- A node id: an index into the arena (R5: ID_W = 9; R22). -/
abbrev NodeId := BitVec 9

/-- The eight memories of R50 other than REG, in the order in which the debug port numbers them (R18). -/
inductive Space where
  | freq | node | code | treeb | pay | bs | inp | out
deriving DecidableEq, Repr

/-- One slot of the arena NODE (R22). -/
structure Node where
  leaf  : Bool
  sym   : Byte
  freq  : Word
  left  : NodeId
  right : NodeId
deriving DecidableEq, Repr, Inhabited

/-- One entry of the table CODE (R25): `len = 0` says that the symbol has no code (R81). -/
structure Code where
  len  : BitVec 8
  bits : BitVec 256
deriving DecidableEq, Repr, Inhabited

/-- The abstract tree of 00_scope.md section 5.4: `Tree ::= Leaf(sym) | Node(left, right)`. -/
inductive CodeTree where
  | leaf (sym : Byte)
  | node (left right : CodeTree)
deriving DecidableEq, Repr

/-- The working registers of R31. Their value at rest is unspecified and no rule reads it.
The queue PQ is not among them: R32 says it is empty at rest, so it is a field of State of its own. -/
structure Work where
  ipos   : Word
  /-- MK: the number of merges done. -/
  merges : BitVec 8
  cur    : NodeId
  bpos   : Word
  acc    : BitVec 8
  accn   : BitVec 4
  tpos   : BitVec 10
  nalloc : BitVec 10
  opos   : Word
  /-- The traversal stack: the node id and the one bit that says which child is under way
  (`false` the left one, `true` the right one), innermost first. -/
  stack  : List (NodeId × Bool)
deriving DecidableEq, Repr, Inhabited

end Sys2Proof
end

