-- ==== Sys2Proof/Config.lean ====
section
/-! DEFINITION. What an instance of the engine fixes (the two capacities, R4; the constants, R5) and the values that the
spec leaves free (R31, R231), which are constants with no body. -/

namespace Sys2Proof

/-- The two build-time parameters of R4, in bytes. -/
structure Params where
  inCap  : Nat
  outCap : Nat
deriving DecidableEq, Repr

/-- The suggested default of the parameter table of 00_scope.md section 4.
DESIGN CHOICE (log 1): the instance that `State.reset` stands for. -/
def Params.suggested : Params := ⟨65536, 65536⟩

/-- PAY_CAP = IN_CAP (R5). -/
def Params.payCap (p : Params) : Nat := p.inCap

/-- BS_CAP = 8 * IN_CAP, in bits (R5). -/
def Params.bsCap (p : Params) : Nat := 8 * p.inCap

namespace Config

/-- NSYM: the size of the alphabet space (R5). -/
def nsym : Nat := 256

/-- NODE_CAP: the number of slots of the arena (R5). -/
def nodeCap : Nat := 511

/-- TREEB_CAP: the size of the tree-bytes buffer (R5). -/
def treebCap : Nat := 767

/-- CODE_MAXLEN: the longest code in bits, which is also the greatest depth of a tree (R5). -/
def codeMaxLen : Nat := 255

/-- How many entries the traversal stack has room for (R31). -/
def stackCap : Nat := 255

/-- What an element that nothing has written since the last reset reads as: some value, stable, that no proof may see
(R231). Its arguments are the memory, the number of resets so far (log 3) and the index; an element narrower than 264
bits is the value's low bits. FREE VALUE (log 2). -/
opaque unlisted : Space → (epoch : Nat) → (index : Nat) → BitVec 264

/-- What the working registers of R31 hold at rest: unspecified. The argument is the number of completions and resets
so far. Of its traversal stack the machine holds at most `stackCap` entries. FREE VALUE (log 4). -/
opaque restWork : (tick : Nat) → Work

end Config

end Sys2Proof
end

