-- ==== Sys2Proof/Syntax.lean ====
section
/-! DEFINITION. The instructions: one constructor for each row of spec/opcode_table.json. -/

namespace Sys2Proof

/-- The fifteen commands of R72, none of which has an operand field (R71), and the two tree-byte node records of R76,
which are what DESTREE interprets (R86). -/
inductive Instr where
  /-- NOP, R188. -/
  | nop
  /-- FREQ, R91. -/
  | freq
  /-- BUILD, R100. -/
  | build
  /-- GENCODE, R112. -/
  | gencode
  /-- ENCODE, R166. -/
  | encode
  /-- SERTREE, R121. -/
  | sertree
  /-- PACK, R136. -/
  | pack
  /-- WRCONT, R152. -/
  | wrcont
  /-- RDCONT, R155. -/
  | rdcont
  /-- DESTREE, R125. -/
  | destree
  /-- UNPACK, R140. -/
  | unpack
  /-- WALK, R172. -/
  | walk
  /-- COMPRESS, R190. -/
  | compress
  /-- DECOMPRESS, R191. -/
  | decompress
  /-- CLEAR, R189. -/
  | clear
  /-- The tree-byte 0x30, one Internal node of the parse of R123. -/
  | internal
  /-- The tree-byte 0x31 and the raw symbol byte after it, one Leaf of the parse of R123. -/
  | leaf (sym : Byte)
deriving DecidableEq, Repr

end Sys2Proof
end

