-- ==== Sys2Proof/WellFormed.lean ====
section
/-! DEFINITION. What is well-formed: an instance's parameters (R4) and a stream of tree-byte records (R75). Every term of
`Instr` is well-formed by its type (a command has no operand, R71, and a Leaf record's symbol is any byte, R75), so there
is no check on a single instruction. -/

namespace Sys2Proof

/-- R4 and U14: each capacity is at least 1 and at most 2^29 - 1. -/
def Params.wf (p : Params) : Bool :=
  decide (1 ≤ p.inCap ∧ p.inCap ≤ 2 ^ 29 - 1 ∧ 1 ≤ p.outCap ∧ p.outCap ≤ 2 ^ 29 - 1)

/-- Is it one of the two tree-byte records of format TB (R75)? -/
def Instr.isRecord : Instr → Bool
  | .nop => false
  | .freq => false
  | .build => false
  | .gencode => false
  | .encode => false
  | .sertree => false
  | .pack => false
  | .wrcont => false
  | .rdcont => false
  | .destree => false
  | .unpack => false
  | .walk => false
  | .compress => false
  | .decompress => false
  | .clear => false
  | .internal => true
  | .leaf _ => true

/-- Does the sequence of records close exactly `n` subtrees that are still expected, with nothing left over? This is the
grammar of R75 read from left to right: an Internal record stands for one subtree and asks for two, a Leaf stands for
one and asks for none. A command in the sequence is refused. -/
def closesSubtrees : Nat → List Instr → Bool
  | n, [] => n == 0
  | n, .internal :: rs => if n = 0 then false else closesSubtrees (n + 1) rs
  | n, .leaf _ :: rs => if n = 0 then false else closesSubtrees (n - 1) rs
  | _, _ :: _ => false

/-- A well-formed tree-byte record stream: one tree of the grammar of R75 with at most 511 nodes (R124 case (d), R129). -/
def treeRecordsWf (rs : List Instr) : Bool :=
  closesSubtrees 1 rs && decide (rs.length ≤ Config.nodeCap)

end Sys2Proof
end

