-- ==== Sys2Proof/Decode.lean ====
section
/-! DEFINITION. The decoder of the two instruction formats, CW (R71, R72) and TB (R75, R76), total on any word and any
bytes, and the encoder, both written from the tables of 30_encoding.md. -/

namespace Sys2Proof

/-- Why something decodes to no instruction. -/
inductive DecodeError where
  /-- A command word that R72 does not list (R73). -/
  | illegalCommand (w : Word)
  /-- A byte in marker position that is neither 0x30 nor 0x31 (R77). -/
  | unknownMarker (b : Byte)
  /-- A record is expected and no byte is left (R124 case (a)). -/
  | noRecord
  /-- A Leaf marker with no symbol byte after it (R124 case (b)). -/
  | truncatedLeaf
  /-- Bytes are left over after the one record that was asked for. -/
  | trailingBytes
deriving DecidableEq, Repr

/-- One row of the opcode map of R72: a word `w` selects the row when `w and mask = pattern`. -/
structure CommandRow where
  pattern : Word
  mask    : Word
  instr   : Instr
deriving DecidableEq, Repr

/-- The opcode map of R72. -/
def commandRows : List CommandRow :=
  [⟨0x00000000#32, 0xFFFFFFFF#32, .nop⟩,
   ⟨0x00000001#32, 0xFFFFFFFF#32, .freq⟩,
   ⟨0x00000002#32, 0xFFFFFFFF#32, .build⟩,
   ⟨0x00000003#32, 0xFFFFFFFF#32, .gencode⟩,
   ⟨0x00000004#32, 0xFFFFFFFF#32, .encode⟩,
   ⟨0x00000005#32, 0xFFFFFFFF#32, .sertree⟩,
   ⟨0x00000006#32, 0xFFFFFFFF#32, .pack⟩,
   ⟨0x00000007#32, 0xFFFFFFFF#32, .wrcont⟩] ++
  [⟨0x00000008#32, 0xFFFFFFFF#32, .rdcont⟩,
   ⟨0x00000009#32, 0xFFFFFFFF#32, .destree⟩,
   ⟨0x0000000A#32, 0xFFFFFFFF#32, .unpack⟩,
   ⟨0x0000000B#32, 0xFFFFFFFF#32, .walk⟩,
   ⟨0x00000010#32, 0xFFFFFFFF#32, .compress⟩,
   ⟨0x00000011#32, 0xFFFFFFFF#32, .decompress⟩,
   ⟨0x0000001F#32, 0xFFFFFFFF#32, .clear⟩]

/-- Does the word select the row (R72)? -/
def CommandRow.selects (r : CommandRow) (w : Word) : Bool := w &&& r.mask == r.pattern

/-- The command that a command word stands for, or the refusal of R73. -/
def decodeCommand (w : Word) : Except DecodeError Instr :=
  match commandRows.find? (·.selects w) with
  | some r => .ok r.instr
  | none   => .error (.illegalCommand w)

/-- One record of format TB read from the front of a byte sequence, with the bytes after it (R75, R76, R123). -/
def decodeRecord : List Byte → Except DecodeError (Instr × List Byte)
  | [] => .error .noRecord
  | m :: rest =>
    if m = 0x30#8 then .ok (.internal, rest)
    else if m = 0x31#8 then
      match rest with
      | [] => .error .truncatedLeaf
      | sym :: rest' => .ok (.leaf sym, rest')
    else .error (.unknownMarker m)

/-- An encoded instruction: a command word of format CW or the bytes of a record of format TB (R70). -/
inductive Encoded where
  | command (w : Word)
  | record (bytes : List Byte)
deriving DecidableEq, Repr

/-- Decoding either format. A record stands for an instruction only when no byte is left over. -/
def decode : Encoded → Except DecodeError Instr
  | .command w => decodeCommand w
  | .record bytes =>
    match decodeRecord bytes with
    | .error e => .error e
    | .ok (i, []) => .ok i
    | .ok (_, _ :: _) => .error .trailingBytes

/-- The encoder, from the opcode map of R72 and the grammar of R75. -/
def encode : Instr → Encoded
  | .nop        => .command 0x00000000#32
  | .freq       => .command 0x00000001#32
  | .build      => .command 0x00000002#32
  | .gencode    => .command 0x00000003#32
  | .encode     => .command 0x00000004#32
  | .sertree    => .command 0x00000005#32
  | .pack       => .command 0x00000006#32
  | .wrcont     => .command 0x00000007#32
  | .rdcont     => .command 0x00000008#32
  | .destree    => .command 0x00000009#32
  | .unpack     => .command 0x0000000A#32
  | .walk       => .command 0x0000000B#32
  | .compress   => .command 0x00000010#32
  | .decompress => .command 0x00000011#32
  | .clear      => .command 0x0000001F#32
  | .internal   => .record [0x30#8]
  | .leaf sym   => .record [0x31#8, sym]

/-- The tree-bytes of one record; a command has none. -/
def recordBytes (i : Instr) : List Byte :=
  match encode i with
  | .command _ => []
  | .record bytes => bytes

/-- The command word of a command; a record has none. -/
def commandWord (i : Instr) : Option Word :=
  match encode i with
  | .command w => some w
  | .record _ => none

/-- The records of a whole byte sequence, each decoded in turn, or the first refusal. `fuel` bounds the number of
records; a sequence of `n` bytes has at most `n`. -/
def decodeRecords : (fuel : Nat) → List Byte → Except DecodeError (List Instr)
  | _, [] => .ok []
  | 0, _ :: _ => .error .noRecord
  | fuel + 1, b :: bs =>
    match decodeRecord (b :: bs) with
    | .error e => .error e
    | .ok (i, rest) =>
      match decodeRecords fuel rest with
      | .error e => .error e
      | .ok is => .ok (i :: is)

/-- Byte `k` of a number, least significant first. -/
def byteOf (w k : Nat) : Byte := BitVec.ofNat 8 (w / 256 ^ k)

/-- The longest record of format TB, in bytes: a Leaf marker and its symbol (R75). -/
def recordWidth : Nat := 2

/-- Do `nbits` bits hold an instruction of format TB? Its rows have 8 bits and its longest instruction 16; a command
word has 32 (R70). -/
def isRecordWidth (nbits : Nat) : Bool := decide (nbits ≤ 16)

/-- The instruction that the decoder reads from an instruction whose bits are `w`, numbered as the opcode table numbers
them. A row of the table with 8 bits is of format TB and its marker is followed by the byte of bits 15 to 8, which is
the symbol of a Leaf and is not part of an Internal record. -/
def decodeTableWord (nbits w : Nat) : Option Instr :=
  if isRecordWidth nbits then
    match decodeRecord [byteOf w 0, byteOf w 1] with
    | .ok (i, _) => some i
    | .error _ => none
  else
    match decodeCommand (BitVec.ofNat 32 w) with
    | .ok i => some i
    | .error _ => none

end Sys2Proof
end

