-- ==== Sys2Proof/Machine/State.lean ====
section
/-! DEFINITION. The machine's state as plain data, its reset value, the reasons for which it stops, and the host
transactions that the state holds as pending input. -/

namespace Sys2Proof.Machine

/-- The nine error kinds of R200. Raising one is no stop: it ends the command in the next state that R210 gives. -/
inductive ErrKind where
  /-- "source or destination path unusable" (R201). -/
  | ioOpenFailure
  /-- "nothing to compress" (R202). -/
  | emptyInput
  /-- "empty/invalid frequency data" (R203). -/
  | treeConstructionFailure
  /-- Container fields inconsistent, or empty on read (R204). -/
  | formatError
  /-- Structural marker or child missing during deserialization (R205). -/
  | malformedTree
  /-- Decoding reaches an absent tree node, or ends inside a code (R206). -/
  | invalidCodeWalk
  /-- A command word that is not in the opcode map (R207). -/
  | illegalCommand
  /-- A needed table or buffer is not valid (R208). -/
  | sequenceError
  /-- A length does not fit a buffer (R209). -/
  | bufferOverflow
deriving DecidableEq, Repr

/-- The stops. Both are raised only in states that break R24 or R34, which no run from reset reaches (log 10). -/
inductive Fault where
  /-- Raised by GENCODE, SERTREE and WALK on node id 511, by SERTREE when the tree has more than 767 tree-bytes, and by
  PACK, UNPACK, WRCONT, DESTREE and WALK when a length register is above its buffer's capacity: the access is to an
  element that the spec says does not exist (R22, R28, R29, R30). Safe: the machine stops where the spec gives no
  effect. -/
  | noSuchElement (space : Space)
  /-- Raised by GENCODE and SERTREE when the traversal needs a 256th entry of the traversal stack, which has 255 (R31):
  the nodes under ROOT are no tree of depth at most 255 (R24). Safe. -/
  | traversalStackFull
deriving DecidableEq, Repr

/-- The refusals. -/
inductive Refusal where
  /-- Raised by exec's arms for an instruction that has no meaning yet. Safe. No arm raises it now. -/
  | notModelled (mnemonic : String)
  /-- Raised by a host transaction that is a register access narrower than 32 bits or not word-aligned, which R54 and U7
  ask a model to refuse (log 13). Safe. -/
  | narrowRegisterAccess
deriving DecidableEq, Repr

/-- The host transactions of R58 to R63, and the access that R54 puts outside the spec. -/
inductive Txn where
  /-- HostReset() (R63). -/
  | reset
  /-- HostWriteReg(idx, v) (R58). -/
  | writeReg (idx : Nat) (v : Word)
  /-- HostReadReg(idx) (R59). -/
  | readReg (idx : Nat)
  /-- HostWriteIN(i, b) (R60). -/
  | writeIn (i : Nat) (b : Byte)
  /-- HostReadIN(i) (R61). -/
  | readIn (i : Nat)
  /-- HostReadOUT(i) (R62). -/
  | readOut (i : Nat)
  /-- An access of `bytes` bytes at byte `offset` of register `idx`, which a platform bus may produce and the register
  space has no form for (R54). -/
  | narrowReg (idx offset bytes : Nat)
deriving DecidableEq, Repr

/-- Whose turn it is: the engine's, or the host's, with one transaction (R56) or with a comparison of its script. -/
inductive Turn where
  | engine
  | host (t : Txn)
  /-- The host compares `width` bits, from bit `low` on, of what its last read returned with `v` (R88; log 19). -/
  | compare (low width : Nat) (v : Word)
deriving DecidableEq, Repr

/-- A memory: the elements that have been written, each with its index, in the one form that `Memory.wf` describes.
`Memory Byte` is a list of `Host.Cell`. -/
abbrev Memory (α : Type) := List (Nat × α)

/-- The fields of STATUS that exist (R13); the other bits read 0. -/
structure StatusReg where
  busy  : Bool
  done  : Bool
  err   : BitVec 4
  stage : Byte
deriving DecidableEq, Repr

/-- CTRL (R16). -/
structure CtrlReg where
  srcOk : Bool
  dstOk : Bool
  ie    : Bool
deriving DecidableEq, Repr

/-- The seven flags of VALID (R15), in the order of their bits. -/
structure ValidReg where
  freq  : Bool
  tree  : Bool
  code  : Bool
  bs    : Bool
  treeb : Bool
  pay   : Bool
  out   : Bool
deriving DecidableEq, Repr

/-- The eight data registers (R17). -/
structure DataRegs where
  inLen   : Word
  outLen  : Word
  treeLen : BitVec 10
  pad     : BitVec 3
  payLen  : Word
  bsLen   : Word
  root    : NodeId
  nnode   : BitVec 10
deriving DecidableEq, Repr

/-- DBG_SPACE and DBG_INDEX (R18). -/
structure DebugRegs where
  space : BitVec 4
  word  : BitVec 4
  index : Word
deriving DecidableEq, Repr

/-- Everything the spec gives the machine (10_state.md), and seven fields of the model's own, which stand last. -/
structure State where
  /-- IN_CAP and OUT_CAP, constant along a run (R4, R20; log 1). -/
  par     : Params
  /-- STATUS (R13). -/
  status  : StatusReg
  /-- ELOG, bits 9:0 (R14). -/
  elog    : BitVec 10
  /-- CTRL (R16). -/
  ctrl    : CtrlReg
  /-- VALID (R15). -/
  valid   : ValidReg
  /-- The data registers (R17). -/
  data    : DataRegs
  /-- The debug port's two registers (R18). -/
  dbg     : DebugRegs
  /-- OPLATCH (R33). -/
  oplatch : Word
  /-- PQ (R32), a set held as a list without repeats. -/
  pq      : List NodeId
  /-- The working registers (R31). -/
  work    : Work
  /-- FREQ (R21). -/
  freq    : Memory Word
  /-- NODE (R22). -/
  node    : Memory Node
  /-- CODE (R25). -/
  code    : Memory Code
  /-- TREEB (R28). -/
  treeb   : Memory Byte
  /-- PAY (R30). -/
  pay     : Memory Byte
  /-- BS (R29). -/
  bs      : Memory Bool
  /-- IN (R26). -/
  inp     : Memory Byte
  /-- OUT (R27). -/
  out     : Memory Byte
  /-- The model's own: the parse of a DESTREE is under way, one record a step (log 8). -/
  parsing : Bool
  /-- The model's own: the arena slots that the parse under way has written and not committed (R6; log 8). -/
  draft   : Memory Node
  /-- The model's own: the number of resets so far, the index of the free contents of R231 (log 3). -/
  epoch   : Nat
  /-- The model's own: the number of completions and resets so far, the index of the free working registers (log 4). -/
  tick    : Nat
  /-- The model's own: the turns to come, the host's transactions among them (log 6). -/
  agenda  : List Turn
  /-- The model's own: what the most recent host read returned (log 7). -/
  reply   : Option Word
  /-- The model's own: how many comparisons of the host's script have failed (R88; log 19). -/
  mismatches : Nat
deriving DecidableEq, Repr

/-- The machine right after reset (R35, R230). No element of any memory is listed (R231; log 2); the working registers
are DESIGN CHOICE zero (log 4); the capacities are DESIGN CHOICE the suggested default (log 1). -/
def State.reset : State where
  par     := Params.suggested
  status  := ⟨false, false, 0, 0⟩
  elog    := 0
  ctrl    := ⟨false, false, false⟩
  valid   := ⟨false, false, false, false, false, false, false⟩
  data    := ⟨0, 0, 0, 0, 0, 0, 0, 0⟩
  dbg     := ⟨0, 0, 0⟩
  oplatch := 0
  pq      := []
  work    := ⟨0, 0, 0, 0, 0, 0, 0, 0, 0, []⟩
  freq    := []
  node    := []
  code    := []
  treeb   := []
  pay     := []
  bs      := []
  inp     := []
  out     := []
  parsing := false
  draft   := []
  epoch   := 0
  tick    := 0
  agenda  := []
  reply   := none
  mismatches := 0

end Sys2Proof.Machine
end

