-- ==== Sys2Proof/Machine/Flags.lean ====
section
/-! DEFINITION. The error codes, the STATUS, ELOG, CTRL and VALID words, the interrupt line, and which valid flags and
registers each failure clears. -/

namespace Sys2Proof.Machine

/-- The code of an error kind (R83). -/
def ErrKind.code : ErrKind → BitVec 4
  | .ioOpenFailure           => 1
  | .emptyInput              => 2
  | .treeConstructionFailure => 3
  | .formatError             => 4
  | .malformedTree           => 5
  | .invalidCodeWalk         => 6
  | .illegalCommand          => 7
  | .sequenceError           => 8
  | .bufferOverflow          => 9

/-- STATUS.ERR at a completion: the code of the error raised, 0 for success (R186). -/
def errCode : Option ErrKind → BitVec 4
  | none   => 0
  | some e => e.code

/-- The bit of ELOG that a completion sets: bit `e` for error code `e`, none for success (R14, R186). -/
def elogBit : Option ErrKind → BitVec 10
  | none   => 0
  | some e => 1#10 <<< e.code.toNat

/-- One bit as a word, in position `k`. -/
def bitAt (b : Bool) (k : Nat) : Word := (BitVec.ofBool b).setWidth 32 <<< k

/-- STATUS as it is read (R13). -/
def StatusReg.word (r : StatusReg) : Word :=
  bitAt r.busy 0 ||| bitAt r.done 1 ||| (r.err.setWidth 32 <<< 4) ||| (r.stage.setWidth 32 <<< 8)

/-- CTRL as it is read (R16). -/
def CtrlReg.word (r : CtrlReg) : Word :=
  bitAt r.srcOk 0 ||| bitAt r.dstOk 1 ||| bitAt r.ie 2

/-- CTRL as a host write leaves it (R58). -/
def CtrlReg.ofWord (v : Word) : CtrlReg :=
  ⟨v.getLsbD 0, v.getLsbD 1, v.getLsbD 2⟩

/-- VALID as it is read (R15). -/
def ValidReg.word (r : ValidReg) : Word :=
  bitAt r.freq 0 ||| bitAt r.tree 1 ||| bitAt r.code 2 ||| bitAt r.bs 3 ||| bitAt r.treeb 4 |||
    bitAt r.pay 5 ||| bitAt r.out 6

/-- ELOG after a host write of `v`: each of bits 9:1 written as 1 is cleared (R58). -/
def elogAfterWrite (elog : BitVec 10) (v : Word) : BitVec 10 :=
  elog &&& ~~~(v.setWidth 10 &&& 0x3FE#10)

/-- The interrupt line (R216). -/
def irq (s : State) : Bool := s.status.done && s.ctrl.ie

/-! ### What each failure invalidates (R211) -/

/-- FREQ failed: FREQ_V cleared. -/
def dropFreq (s : State) : State :=
  { s with valid := { s.valid with freq := false } }

/-- BUILD or DESTREE failed: TREE_V cleared, ROOT and NNODE zeroed. -/
def dropTree (s : State) : State :=
  { s with valid := { s.valid with tree := false }, data := { s.data with root := 0, nnode := 0 } }

/-- GENCODE failed: CODE_V cleared. -/
def dropCode (s : State) : State :=
  { s with valid := { s.valid with code := false } }

/-- ENCODE or UNPACK failed: BS_V cleared, BS_LEN zeroed. -/
def dropBits (s : State) : State :=
  { s with valid := { s.valid with bs := false }, data := { s.data with bsLen := 0 } }

/-- SERTREE failed: TREEB_V cleared, TREE_LEN zeroed. -/
def dropTreeBytes (s : State) : State :=
  { s with valid := { s.valid with treeb := false }, data := { s.data with treeLen := 0 } }

/-- PACK failed: PAY_V cleared, PAY_LEN and PAD zeroed. -/
def dropPayload (s : State) : State :=
  { s with valid := { s.valid with pay := false }, data := { s.data with payLen := 0, pad := 0 } }

/-- WRCONT or WALK failed: OUT_V cleared, OUT_LEN zeroed. -/
def dropOutput (s : State) : State :=
  { s with valid := { s.valid with out := false }, data := { s.data with outLen := 0 } }

/-- RDCONT failed: TREEB_V and PAY_V cleared, TREE_LEN, PAY_LEN and PAD zeroed. -/
def dropContainer (s : State) : State :=
  { s with valid := { s.valid with treeb := false, pay := false },
           data := { s.data with treeLen := 0, payLen := 0, pad := 0 } }

/-- `invalidate_all` of R192: every valid flag and every register that a command writes. -/
def invalidateAll (s : State) : State :=
  { s with valid := ⟨false, false, false, false, false, false, false⟩,
           data := { s.data with outLen := 0, treeLen := 0, pad := 0, payLen := 0, bsLen := 0, root := 0, nnode := 0 } }

end Sys2Proof.Machine
end

