-- ==== Sys2Proof/Machine/Ops.lean ====
section
/-! DEFINITION. The named operations over memories and registers: reading and writing elements, accepting a command,
completing it, running a primitive, and raising an error, each once. -/

namespace Sys2Proof.Machine

/-! ### Memories -/

/-- The element listed at an index, `none` where nothing is listed. -/
def Memory.read? {α : Type} : Memory α → Nat → Option α
  | [], _ => none
  | (k, v) :: m, i => if k = i then some v else Memory.read? m i

/-- A run of elements at consecutive indices from `start` on, as entries. -/
def cellsFrom {α : Type} (start : Nat) : List α → Memory α
  | [] => []
  | x :: xs => (start, x) :: cellsFrom (start + 1) xs

/-- Write a run of elements from `start` on, and nothing else. -/
def Memory.writeRange {α : Type} (m : Memory α) (start : Nat) (xs : List α) : Memory α :=
  m.filter (fun c => decide (c.1 < start)) ++ cellsFrom start xs ++
    m.filter (fun c => decide (start + xs.length ≤ c.1))

/-- Write one element. -/
def Memory.write {α : Type} (m : Memory α) (i : Nat) (v : α) : Memory α := m.writeRange i [v]

/-- Write every entry of `d`. -/
def Memory.overlay {α : Type} (m : Memory α) : Memory α → Memory α
  | [] => m
  | (i, v) :: d => Memory.overlay (m.write i v) d

/-- The one form of a memory: indices strictly rising. An unlisted index has no value of its own (`read?` answers
`none`, which no entry can hold); what the machine reads there is the free value below (log 2). -/
abbrev Memory.wf {α : Type} (m : Memory α) : Prop := m.Pairwise (fun a b => a.1 < b.1)

/-- Every listed index is below the memory's capacity. -/
abbrev Memory.below {α : Type} (m : Memory α) (cap : Nat) : Prop := ∀ c ∈ m, c.1 < cap

/-! ### What an unlisted element reads as: `Config.unlisted`, cut to the element's width -/

/-- A free value as a NODE record, field by field (R22). -/
def nodeOfFree (v : BitVec 264) : Node :=
  ⟨v.getLsbD 0, v.extractLsb' 1 8, v.extractLsb' 9 32, v.extractLsb' 41 9, v.extractLsb' 50 9⟩

/-- A free value as a CODE record (R25). -/
def codeOfFree (v : BitVec 264) : Code := ⟨v.extractLsb' 0 8, v.extractLsb' 8 256⟩

/-- `NODE[i]` in a memory of the arena after `epoch` resets. -/
def readNode (epoch : Nat) (m : Memory Node) (i : Nat) : Node :=
  (m.read? i).getD (nodeOfFree (Config.unlisted .node epoch i))

/-! ### Reading one element of the state -/

/-- `FREQ[i]` (R21). -/
def State.freqAt (s : State) (i : Nat) : Word :=
  (s.freq.read? i).getD ((Config.unlisted .freq s.epoch i).setWidth 32)

/-- `NODE[i]` (R22). -/
def State.nodeAt (s : State) (i : Nat) : Node := readNode s.epoch s.node i

/-- `CODE[i]` (R25). -/
def State.codeAt (s : State) (i : Nat) : Code :=
  (s.code.read? i).getD (codeOfFree (Config.unlisted .code s.epoch i))

/-- `TREEB[i]` (R28). -/
def State.treebAt (s : State) (i : Nat) : Byte :=
  (s.treeb.read? i).getD ((Config.unlisted .treeb s.epoch i).setWidth 8)

/-- `PAY[i]` (R30). -/
def State.payAt (s : State) (i : Nat) : Byte :=
  (s.pay.read? i).getD ((Config.unlisted .pay s.epoch i).setWidth 8)

/-- `BS[i]` (R29). -/
def State.bsAt (s : State) (i : Nat) : Bool :=
  (s.bs.read? i).getD ((Config.unlisted .bs s.epoch i).getLsbD 0)

/-- `IN[i]` (R26). -/
def State.inAt (s : State) (i : Nat) : Byte :=
  (s.inp.read? i).getD ((Config.unlisted .inp s.epoch i).setWidth 8)

/-- `OUT[i]` (R27). -/
def State.outAt (s : State) (i : Nat) : Byte :=
  (s.out.read? i).getD ((Config.unlisted .out s.epoch i).setWidth 8)

/-- The number of elements of each memory (R50). -/
def State.capacity (s : State) : Space → Nat
  | .freq  => Config.nsym
  | .node  => Config.nodeCap
  | .code  => Config.nsym
  | .treeb => Config.treebCap
  | .pay   => s.par.payCap
  | .bs    => s.par.bsCap
  | .inp   => s.par.inCap
  | .out   => s.par.outCap

/-! ### How a command ends -/

/-- How the body of a primitive ends: with its writes made, with an error raised (R213), or at an access that the spec
gives no effect (log 10). -/
inductive Effect where
  | done (s : State)
  | raise (e : ErrKind)
  | stop (f : Fault)

/-- `require c else e` of 00_scope.md section 5.3, and then the rest of the command. -/
def require (c : Prop) [Decidable c] (e : ErrKind) (k : Unit → Effect) : Effect :=
  if c then k () else .raise e

/-- The elements with index below `n` are accessed, and `cap` of them exist. -/
def within (space : Space) (n cap : Nat) (k : Unit → Effect) : Effect :=
  if n ≤ cap then k () else .stop (.noSuchElement space)

/-- A command that has ended, with the error it raised if any, before its completion is reported; or a stop. -/
inductive Ran where
  | ended (s : State) (e : Option ErrKind)
  | stopped (f : Fault)

/-- STAGE <- op (R194). -/
def State.setStage (op : Byte) (s : State) : State :=
  { s with status := { s.status with stage := op } }

/-- Run a primitive (R187): its first statement sets STAGE; when it raises an error, every write it made is discarded
(R6) and `drop` makes the failure effects of R211. -/
def runPrimitive (op : Byte) (drop : State → State) (body : State → Effect) (s : State) : Ran :=
  match body (s.setStage op) with
  | .done t  => .ended t none
  | .raise e => .ended (drop (s.setStage op)) (some e)
  | .stop f  => .stopped f

/-- Run primitives one after another and stop at the first that fails (R190, R191). -/
def runAll : List (State → Ran) → State → Ran
  | [], s => .ended s none
  | p :: ps, s =>
    match p s with
    | .ended t none     => runAll ps t
    | .ended t (some e) => .ended t (some e)
    | .stopped f        => .stopped f

/-- The working registers at rest: a free value, the traversal stack no longer than it is (R31; log 4). -/
def State.restingWork (s : State) : Work :=
  let w := Config.restWork s.tick
  { w with stack := w.stack.take Config.stackCap }

/-- The completion step of R186: ERR, ELOG, BUSY and DONE are written together with the command's results. The working
registers are left at a free value (R31; log 4), and no parse is under way any more (log 8). -/
def State.complete (e : Option ErrKind) (s : State) : State :=
  { s with
    status  := ⟨false, true, errCode e, s.status.stage⟩
    elog    := s.elog ||| elogBit e
    work    := s.restingWork
    parsing := false
    draft   := []
    tick    := s.tick + 1 }

/-- TAKING AN ERROR, the shared operation of R210: the failing primitive's opcode stays in STAGE, its outputs are
invalidated by `drop`, and the completion step reports the error. Nothing else is saved, there is no handler, and so
there is no return from one (R212). -/
def errorEntry (op : Byte) (drop : State → State) (e : ErrKind) (s : State) : State :=
  (drop (s.setStage op)).complete (some e)

/-- Report a command that has ended. -/
def conclude : Ran → Host.Outcome State Fault Refusal
  | .ended s e => .next (s.complete e)
  | .stopped f => .fault f

/-! ### How a command begins -/

/-- Acceptance of a command word (R185). -/
def State.accept (w : Word) (s : State) : State :=
  { s with oplatch := w, status := { s.status with busy := true, done := false } }

end Sys2Proof.Machine
end

