-- ==== Sys2Proof/Machine/Operands.lean ====
section
/-! DEFINITION. The operands of the commands: the live part of each buffer, the container integers, codes as bit-strings,
and the tree under ROOT. -/

namespace Sys2Proof.Machine

/-- The elements with indices `start`, ..., `start + n - 1`, in order. -/
def slice {α : Type} (read : Nat → α) (start n : Nat) : List α :=
  (List.range n).map (fun i => read (start + i))

/-- `IN[0..IN_LEN)` (R26). -/
def State.input (s : State) : List Byte := slice s.inAt 0 s.data.inLen.toNat

/-- `TREEB[0..TREE_LEN)` (R28). -/
def State.treeBytes (s : State) : List Byte := slice s.treebAt 0 s.data.treeLen.toNat

/-- `PAY[0..PAY_LEN)` (R30). -/
def State.payload (s : State) : List Byte := slice s.payAt 0 s.data.payLen.toNat

/-- `BS[0..BS_LEN)` (R29). -/
def State.bitString (s : State) : List Bool := slice s.bsAt 0 s.data.bsLen.toNat

/-- `OUT[0..OUT_LEN)` (R27). -/
def State.output (s : State) : List Byte := slice s.outAt 0 s.data.outLen.toNat

/-! ### Container integers (R51, R79, R85 (a)) -/

/-- `le32(v)` of R150: four bytes, the least significant first. -/
def le32 (v : Nat) : List Byte :=
  [BitVec.ofNat 8 (v % 256), BitVec.ofNat 8 (v / 256 % 256), BitVec.ofNat 8 (v / 65536 % 256),
   BitVec.ofNat 8 (v / 16777216)]

/-- `MemRead(IN, a, 4)` (00_scope.md section 5.2). -/
def State.inWord (s : State) (a : Nat) : Nat :=
  (s.inAt a).toNat + 256 * (s.inAt (a + 1)).toNat + 65536 * (s.inAt (a + 2)).toNat +
    16777216 * (s.inAt (a + 3)).toNat

/-! ### Bit-strings in bytes and codes (R53, R81, R85 (b)) -/

/-- The number that a bit-string writes, its first bit the most significant. -/
def bitsToNat (bits : List Bool) : Nat := bits.foldl (fun n b => 2 * n + b.toNat) 0

/-- Bit `7 - k` of a byte, the bit at stream position `k` of it (R53). -/
def byteBit (b : Byte) (k : Nat) : Bool := b.getLsbD (7 - k)

/-- A code in its CODE entry: left-aligned in 256 bits, `c[i]` is bit `255 - i` (R81). -/
def codeOfBits (c : List Bool) : Code :=
  ⟨BitVec.ofNat 8 c.length, BitVec.ofNat 256 (bitsToNat c * 2 ^ (256 - c.length))⟩

/-- The code that a CODE entry holds, as a bit-string (R81). -/
def codeBits (c : Code) : List Bool :=
  (List.range c.len.toNat).map (fun k => c.bits.getLsbD (255 - k))

/-! ### The tree under an arena entry -/

/-- `tree_of(id)` of 00_scope.md section 5.4, read with a traversal stack that has room for `depth - 1` entries. Where
R24 holds the answer is a tree; a node id that does not exist or a deeper tree is a stop (log 10). -/
def treeOf (epoch : Nat) (m : Memory Node) : (depth : Nat) → (id : Nat) → Except Fault CodeTree
  | 0, _ => .error .traversalStackFull
  | depth + 1, id =>
    if Config.nodeCap ≤ id then .error (.noSuchElement .node)
    else
      let n := readNode epoch m id
      if n.leaf then .ok (.leaf n.sym)
      else
        match treeOf epoch m depth n.left.toNat with
        | .error f => .error f
        | .ok l =>
          match treeOf epoch m depth n.right.toNat with
          | .error f => .error f
          | .ok r => .ok (.node l r)

/-- `tree_of(ROOT)`, of depth at most 255 (R24, R31). -/
def State.tree (s : State) : Except Fault CodeTree :=
  treeOf s.epoch s.node (Config.codeMaxLen + 1) s.data.root.toNat

end Sys2Proof.Machine
end

