-- ==== Sys2Proof/Machine/BitPacker.lean ====
section
/-! DEFINITION. The bit-packer: commands PACK and UNPACK, and the two shifters (44_bit_packer.md). -/

namespace Sys2Proof.Machine

/-- `paddingCount = (8 - n mod 8) mod 8` (R135). -/
def padCount (n : Nat) : Nat := (8 - n % 8) % 8

/-- `pack(s)` of R135 less the padding count: the bit-string filled up with zeros, eight bits a byte, the first the most
significant. -/
def packBytes (bits : List Bool) : List Byte :=
  let filled := bits ++ List.replicate (padCount bits.length) false
  (List.range ((bits.length + 7) / 8)).map (fun j => BitVec.ofNat 8 (bitsToNat ((filled.drop (8 * j)).take 8)))

/-- The body of PACK (R136). -/
def packBody (s : State) : Effect :=
  require (s.valid.bs = true) .sequenceError fun _ =>
  within .bs s.data.bsLen.toNat s.par.bsCap fun _ =>
  let bytes := packBytes s.bitString
  .done { s with
    pay   := s.pay.writeRange 0 bytes
    data  := { s.data with payLen := BitVec.ofNat 32 bytes.length, pad := BitVec.ofNat 3 (padCount s.data.bsLen.toNat) }
    valid := { s.valid with pay := true } }

/-- PACK as a primitive (R187, R211). -/
def runPack (s : State) : Ran := runPrimitive 0x06 dropPayload packBody s

/-- PACK (R136). -/
def execPack (s : State) : Host.Outcome State Fault Refusal := conclude (runPack s)

/-- `unpack(bytes, pc)` of R139. The filler bits are not examined (R141). -/
def unpackBits (bytes : List Byte) (pc : Nat) : List Bool :=
  (List.range (8 * bytes.length - pc)).map (fun i => byteBit (bytes.getD (i / 8) 0) (i % 8))

/-- The body of UNPACK (R140). `8 * PAY_LEN - PAD` is never negative where R34 item 6 holds (log 15). -/
def unpackBody (s : State) : Effect :=
  require (s.valid.pay = true) .sequenceError fun _ =>
  within .pay s.data.payLen.toNat s.par.payCap fun _ =>
  let bits := unpackBits s.payload s.data.pad.toNat
  .done { s with
    bs    := s.bs.writeRange 0 bits
    data  := { s.data with bsLen := BitVec.ofNat 32 bits.length }
    valid := { s.valid with bs := true } }

/-- UNPACK as a primitive (R187, R211). -/
def runUnpack (s : State) : Ran := runPrimitive 0x0A dropBits unpackBody s

/-- UNPACK (R140). -/
def execUnpack (s : State) : Host.Outcome State Fault Refusal := conclude (runUnpack s)

/-! ### The shifters, which compute the same (R138, R143) -/

/-- The packer's shift register ACC, its fill count ACCN and the bytes delivered so far (R138). -/
structure PackShifter where
  acc  : BitVec 8
  accn : Nat
  sent : List Byte
deriving DecidableEq, Repr

/-- One bit enters at bit 0; a full register is delivered (R138). -/
def packShift (p : PackShifter) (b : Bool) : PackShifter :=
  let acc := (p.acc <<< 1) ||| (BitVec.ofBool b).setWidth 8
  if p.accn + 1 = 8 then ⟨0, 0, p.sent ++ [acc]⟩ else ⟨acc, p.accn + 1, p.sent⟩

/-- The flush of the partial last byte, left-aligned by the barrel shifter, and the padding count (R138). -/
def packFlush (p : PackShifter) : List Byte × Nat :=
  if 0 < p.accn then (p.sent ++ [p.acc <<< (8 - p.accn)], 8 - p.accn) else (p.sent, 0)

/-- PACK as the shifter carries it out (R138). -/
def packByShifter (bits : List Bool) : List Byte × Nat :=
  packFlush (bits.foldl packShift ⟨0, 0, []⟩)

/-- The bit-stream shifter's register ACC, its count ACCN and the bytes not loaded yet (R143). -/
structure StreamShifter where
  acc   : BitVec 8
  accn  : Nat
  queue : List Byte
deriving DecidableEq, Repr

/-- Load the next payload byte when the register is empty (R143). -/
def StreamShifter.load (r : StreamShifter) : StreamShifter :=
  match r.accn, r.queue with
  | 0, b :: rest => ⟨b, 8, rest⟩
  | _, _ => r

/-- Deliver `n` bits, each bit 7 of ACC, shifting left by one after each (R143). -/
def streamBits : (n : Nat) → StreamShifter → List Bool
  | 0, _ => []
  | n + 1, r =>
    let q := r.load
    q.acc.getLsbD 7 :: streamBits n ⟨q.acc <<< 1, q.accn - 1, q.queue⟩

/-- UNPACK as the bit-stream shifter carries it out: it stops after `8 * PAY_LEN - PAD` bits (R143). -/
def unpackByShifter (bytes : List Byte) (pc : Nat) : List Bool :=
  streamBits (8 * bytes.length - pc) ⟨0, 0, bytes⟩

end Sys2Proof.Machine
end

