-- ==== Sys2Proof/Machine/CodeGenerator.lean ====
section
/-! DEFINITION. The code generator: command GENCODE (42_code_generator.md). -/

namespace Sys2Proof.Machine

/-- `walk(t, acc)` of R110: one (symbol, bit-string) pair per leaf, left before right; a left edge appends 0 (`false`),
a right edge 1 (`true`). -/
def codesFrom : CodeTree → List Bool → List (Byte × List Bool)
  | .leaf sym, acc => [(sym, acc)]
  | .node l r, acc => codesFrom l (acc ++ [false]) ++ codesFrom r (acc ++ [true])

/-- `codes(t)` of R110. -/
def codes (t : CodeTree) : List (Byte × List Bool) := codesFrom t []

/-- The single-leaf special case: an empty bit-string becomes the one bit 0 (R111). -/
def nonEmptyCode (c : List Bool) : List Bool := if c = [] then [false] else c

/-- The code that GENCODE leaves for a symbol: that of the last pair with it (R112, R115), `none` if there is none. -/
def codeOf (t : CodeTree) (sym : Byte) : Option (List Bool) :=
  (((codes t).filter (fun p => p.1 == sym)).getLast?).map (fun p => nonEmptyCode p.2)

/-- The 256 entries of CODE for a tree (R112). -/
def codeTable (t : CodeTree) : List Code :=
  (List.range Config.nsym).map (fun s =>
    match codeOf t (BitVec.ofNat 8 s) with
    | none => ⟨0, 0⟩
    | some c => codeOfBits c)

/-- The body of GENCODE (R112). -/
def gencodeBody (s : State) : Effect :=
  require (s.valid.tree = true) .sequenceError fun _ =>
  match s.tree with
  | .error f => .stop f
  | .ok t =>
    .done { s with
      code  := s.code.writeRange 0 (codeTable t)
      valid := { s.valid with code := true } }

/-- GENCODE as a primitive (R187, R211). -/
def runGencode (s : State) : Ran := runPrimitive 0x03 dropCode gencodeBody s

/-- GENCODE (R112). -/
def execGencode (s : State) : Host.Outcome State Fault Refusal := conclude (runGencode s)

end Sys2Proof.Machine
end

