-- ==== Sys2Proof/Machine/Container.lean ====
section
/-! DEFINITION. The container unit: commands WRCONT and RDCONT (45_container.md). -/

namespace Sys2Proof.Machine

/-- `cont(tb, pc, pay)` of R150. -/
def cont (tb : List Byte) (pc : Nat) (pay : List Byte) : List Byte :=
  le32 tb.length ++ tb ++ le32 pc ++ le32 pay.length ++ pay

/-- The body of WRCONT (R152). All checks come before the first write. -/
def wrcontBody (s : State) : Effect :=
  require (s.valid.treeb = true ∧ s.valid.pay = true) .sequenceError fun _ =>
  require (s.ctrl.dstOk = true) .ioOpenFailure fun _ =>
  let n := 12 + s.data.treeLen.toNat + s.data.payLen.toNat
  require (n ≤ s.par.outCap) .bufferOverflow fun _ =>
  within .treeb s.data.treeLen.toNat Config.treebCap fun _ =>
  within .pay s.data.payLen.toNat s.par.payCap fun _ =>
  .done { s with
    out   := s.out.writeRange 0 (cont s.treeBytes s.data.pad.toNat s.payload)
    data  := { s.data with outLen := BitVec.ofNat 32 n }
    valid := { s.valid with out := true } }

/-- WRCONT as a primitive (R187, R211). -/
def runWrcont (s : State) : Ran := runPrimitive 0x07 dropOutput wrcontBody s

/-- WRCONT (R152). -/
def execWrcont (s : State) : Host.Outcome State Fault Refusal := conclude (runWrcont s)

/-- The body of RDCONT (R155). All sums are exact (R7). -/
def rdcontBody (s : State) : Effect :=
  require (s.ctrl.srcOk = true) .ioOpenFailure fun _ =>
  let n := s.data.inLen.toNat
  require (n ≤ s.par.inCap) .bufferOverflow fun _ =>
  require (4 ≤ n) .formatError fun _ =>
  let T := s.inWord 0
  require (4 + T + 8 ≤ n) .formatError fun _ =>
  let pc := s.inWord (4 + T)
  let P := s.inWord (8 + T)
  require (12 + T + P = n) .formatError fun _ =>
  require (pc ≤ 7) .formatError fun _ =>
  require (1 ≤ T ∧ 1 ≤ P) .formatError fun _ =>
  require (T ≤ Config.treebCap) .malformedTree fun _ =>
  .done { s with
    treeb := s.treeb.writeRange 0 (slice s.inAt 4 T)
    pay   := s.pay.writeRange 0 (slice s.inAt (12 + T) P)
    data  := { s.data with
      treeLen := BitVec.ofNat 10 T, pad := BitVec.ofNat 3 pc, payLen := BitVec.ofNat 32 P }
    valid := { s.valid with treeb := true, pay := true } }

/-- RDCONT as a primitive (R187, R211). -/
def runRdcont (s : State) : Ran := runPrimitive 0x08 dropContainer rdcontBody s

/-- RDCONT (R155). -/
def execRdcont (s : State) : Host.Outcome State Fault Refusal := conclude (runRdcont s)

end Sys2Proof.Machine
end

