-- ==== Sys2Proof/Machine/EncodeWalk.lean ====
section
/-! DEFINITION. The encoder and the tree-walk unit: commands ENCODE and WALK (46_encode_decode.md). -/

namespace Sys2Proof.Machine

/-! ### Encoding -/

/-- `enc(b, code)` of R165. -/
def enc (code : Byte → List Bool) (b : List Byte) : List Bool := b.flatMap code

/-- The loop of ENCODE (R166): for each input byte the code is appended to the bits so far, if there is a code and if it
still fits BS. -/
def encodeLoop (codeAt : Byte → Code) (bsCap : Nat) : List Byte → List Bool → Except ErrKind (List Bool)
  | [], bits => .ok bits
  | b :: rest, bits =>
    let L := (codeAt b).len.toNat
    if L = 0 then .error .sequenceError
    else if bsCap < bits.length + L then .error .bufferOverflow
    else encodeLoop codeAt bsCap rest (bits ++ codeBits (codeAt b))

/-- The body of ENCODE (R166). -/
def encodeBody (s : State) : Effect :=
  require (s.valid.code = true) .sequenceError fun _ =>
  require (s.ctrl.srcOk = true) .ioOpenFailure fun _ =>
  require (s.data.inLen.toNat ≤ s.par.inCap) .bufferOverflow fun _ =>
  match encodeLoop (fun b => s.codeAt b.toNat) s.par.bsCap s.input [] with
  | .error e => .raise e
  | .ok bits =>
    .done { s with
      bs    := s.bs.writeRange 0 bits
      data  := { s.data with bsLen := BitVec.ofNat 32 bits.length }
      valid := { s.valid with bs := true } }

/-- ENCODE as a primitive (R187, R211). -/
def runEncode (s : State) : Ran := runPrimitive 0x04 dropBits encodeBody s

/-- ENCODE (R166). -/
def execEncode (s : State) : Host.Outcome State Fault Refusal := conclude (runEncode s)

/-! ### The tree-walk unit -/

/-- What one bit does to the walk (R170): it moves to a node, it arrives at a Leaf and emits its symbol, or it meets an
absent node (R173). The last case is a node id that does not exist (log 10). -/
inductive WalkStep where
  | move (cur : NodeId)
  | emit (sym : Byte)
  | absent
  | noNode
deriving DecidableEq, Repr

/-- `NODE[id]` for an id that exists. -/
def State.node? (s : State) (id : NodeId) : Option Node :=
  if Config.nodeCap ≤ id.toNat then none else some (s.nodeAt id.toNat)

/-- The second half of `step(b)` of R170: arriving at `nxt`. -/
def walkArrive (s : State) (nxt : NodeId) : WalkStep :=
  match s.node? nxt with
  | none => .noNode
  | some m => if m.leaf then .emit m.sym else .move nxt

/-- `step(b)` of R170. -/
def walkStep (s : State) (cur : NodeId) (b : Bool) : WalkStep :=
  match s.node? cur with
  | none => .noNode
  | some n =>
    if n.leaf then (if b then .absent else walkArrive s cur)
    else walkArrive s (if b then n.right else n.left)

/-- How a walk ends: where it stands and the symbols emitted, an error, or a node that does not exist. -/
inductive Walked where
  | ended (cur : NodeId) (syms : List Byte)
  | raised (e : ErrKind)
  | noNode
deriving DecidableEq, Repr

/-- The loop of WALK over the bits, from node `cur` with `syms` emitted so far (R172, R176). -/
def walkLoop (s : State) : List Bool → NodeId → List Byte → Walked
  | [], cur, syms => .ended cur syms
  | b :: bits, cur, syms =>
    match walkStep s cur b with
    | .noNode => .noNode
    | .absent => .raised .invalidCodeWalk
    | .move nxt => walkLoop s bits nxt syms
    | .emit sym =>
      if syms.length < s.par.outCap then walkLoop s bits s.data.root (syms ++ [sym])
      else .raised .bufferOverflow

/-- The body of WALK (R172). -/
def walkBody (s : State) : Effect :=
  require (s.valid.tree = true ∧ s.valid.bs = true) .sequenceError fun _ =>
  require (s.ctrl.dstOk = true) .ioOpenFailure fun _ =>
  within .bs s.data.bsLen.toNat s.par.bsCap fun _ =>
  match walkLoop s s.bitString s.data.root [] with
  | .noNode => .stop (.noSuchElement .node)
  | .raised e => .raise e
  | .ended cur syms =>
    require (cur = s.data.root) .invalidCodeWalk fun _ =>
    .done { s with
      out   := s.out.writeRange 0 syms
      data  := { s.data with outLen := BitVec.ofNat 32 syms.length }
      valid := { s.valid with out := true } }

/-- WALK as a primitive (R187, R211). -/
def runWalk (s : State) : Ran := runPrimitive 0x0B dropOutput walkBody s

/-- WALK (R172). -/
def execWalk (s : State) : Host.Outcome State Fault Refusal := conclude (runWalk s)

/-- The walk on the abstract tree: from subtree `at?` of `root`, the symbols emitted by the bits, `none` where R172
raises InvalidCodeWalk (R170, R173, R175). -/
def walkTree (root : CodeTree) : List Bool → CodeTree → Option (List Byte)
  | [], t => if t = root then some [] else none
  | b :: bits, t =>
    match t with
    | .leaf sym => if b then none else (walkTree root bits root).map (fun r => sym :: r)
    | .node l r =>
      match (if b then r else l) with
      | .leaf sym => (walkTree root bits root).map (fun rest => sym :: rest)
      | .node l' r' => walkTree root bits (.node l' r')

end Sys2Proof.Machine
end

