-- ==== Sys2Proof/Machine/Frequency.lean ====
section
/-! DEFINITION. The frequency counter: command FREQ (40_frequency.md). -/

namespace Sys2Proof.Machine

/-- `count(b)` of R90, as the 256 counts in symbol order. R94: no count exceeds 32 bits when `b` fits IN. -/
def countTable (b : List Byte) : List Word :=
  (List.range Config.nsym).map (fun s => BitVec.ofNat 32 (b.count (BitVec.ofNat 8 s)))

/-- The body of FREQ (R91). -/
def freqBody (s : State) : Effect :=
  require (s.ctrl.srcOk = true) .ioOpenFailure fun _ =>
  require (s.data.inLen.toNat ≤ s.par.inCap) .bufferOverflow fun _ =>
  require (1 ≤ s.data.inLen.toNat) .emptyInput fun _ =>
  .done { s with
    freq  := s.freq.writeRange 0 (countTable s.input)
    valid := { s.valid with freq := true } }

/-- FREQ as a primitive (R187, R211). -/
def runFreq (s : State) : Ran := runPrimitive 0x01 dropFreq freqBody s

/-- FREQ (R91). -/
def execFreq (s : State) : Host.Outcome State Fault Refusal := conclude (runFreq s)

end Sys2Proof.Machine
end

