-- ==== Sys2Proof/Machine/TreeBuilder.lean ====
section
/-! DEFINITION. The tree builder: the priority queue, the merge step and command BUILD (41_tree_builder.md). -/

namespace Sys2Proof.Machine

/-- The key of a queue member: (frequency, node id) (R95). -/
abbrev Key := Nat × Nat

/-- `(f1, id1) < (f2, id2)`, lexicographically, unsigned (R95, R104). -/
def keyLt (a b : Key) : Bool := decide (a.1 < b.1) || (decide (a.1 = b.1) && decide (a.2 < b.2))

/-- The key of a node id, read from the arena (R95). -/
def pqKey (epoch : Nat) (m : Memory Node) (id : NodeId) : Key :=
  ((readNode epoch m id.toNat).freq.toNat, id.toNat)

/-- `PQ.insert(id)`: the union with {id} (R96). -/
def pqInsert (id : NodeId) (pq : List NodeId) : List NodeId :=
  if id ∈ pq then pq else pq ++ [id]

/-- The member with the least key, `none` of an empty queue (R97). -/
def pqLeast (key : NodeId → Key) : List NodeId → Option NodeId
  | [] => none
  | id :: pq =>
    match pqLeast key pq with
    | none => some id
    | some m => if keyLt (key id) (key m) then some id else some m

/-- `PQ.extract_min()`: the member with the least key and the queue without it (R97). -/
def pqExtractMin (key : NodeId → Key) (pq : List NodeId) : Option (NodeId × List NodeId) :=
  match pqLeast key pq with
  | none => none
  | some m => some (m, pq.erase m)

/-- What one BUILD works on: the arena, the queue and the merge counter MK (R31, R32). -/
structure Builder where
  node : Memory Node
  pq   : List NodeId
  merges : Nat
deriving DecidableEq, Repr

/-- The key of a member under the builder's arena. -/
def Builder.key (epoch : Nat) (b : Builder) (id : NodeId) : Key := pqKey epoch b.node id

/-- One merge step (R99): the node extracted first is the left child, the second the right one. The sum is that of two
unsigned 32-bit values, which R104 shows cannot overflow (log 11). With fewer than two members no step is defined and
the builder stays as it is. -/
def mergeStep (epoch : Nat) (b : Builder) : Builder :=
  match pqExtractMin (b.key epoch) b.pq with
  | none => b
  | some (x, pq1) =>
    match pqExtractMin (b.key epoch) pq1 with
    | none => b
    | some (y, pq2) =>
      let sum := (readNode epoch b.node x.toNat).freq + (readNode epoch b.node y.toNat).freq
      { node := b.node.write (256 + b.merges) ⟨false, 0, sum, x, y⟩
        pq   := pqInsert (BitVec.ofNat 9 (256 + b.merges)) pq2
        merges := b.merges + 1 }

/-- The merge loop `while |PQ| >= 2` (R100), at most `bound` iterations; each takes one member away. -/
def mergeLoop (epoch : Nat) : (bound : Nat) → Builder → Builder
  | 0, b => b
  | bound + 1, b => if 2 ≤ b.pq.length then mergeLoop epoch bound (mergeStep epoch b) else b

/-- One turn of the leaf initialisation: symbol `sym` gets a Leaf and enters the queue if it was observed (R100). -/
def addLeaf (freqOf : Nat → Word) (b : Builder) (sym : Nat) : Builder :=
  if freqOf sym = 0 then b
  else { b with
    node := b.node.write sym ⟨true, BitVec.ofNat 8 sym, freqOf sym, 0, 0⟩
    pq   := pqInsert (BitVec.ofNat 9 sym) b.pq }

/-- The leaf initialisation, symbols in ascending order, from an empty queue and MK = 0 (R100, R101). -/
def leafInit (freqOf : Nat → Word) (node : Memory Node) : Builder :=
  (List.range Config.nsym).foldl (addLeaf freqOf) ⟨node, [], 0⟩

/-- The builder after every merge, from the counts and the arena found (R100, R105). -/
def mergeAll (epoch : Nat) (freqOf : Nat → Word) (node : Memory Node) : Builder :=
  let b := leafInit freqOf node
  mergeLoop epoch b.pq.length b

/-- The body of BUILD (R100). `L` is the number of members after the leaf initialisation. The last arm is dead: a queue
that starts with a member keeps one. -/
def buildBody (s : State) : Effect :=
  require (s.valid.freq = true) .sequenceError fun _ =>
  let L := (leafInit s.freqAt s.node).pq.length
  require (1 ≤ L) .treeConstructionFailure fun _ =>
  let b := mergeAll s.epoch s.freqAt s.node
  match pqExtractMin (b.key s.epoch) b.pq with
  | none => .raise .treeConstructionFailure
  | some (root, pq) =>
    .done { s with
      node  := b.node
      pq    := pq
      data  := { s.data with root := root, nnode := BitVec.ofNat 10 (2 * L - 1) }
      valid := { s.valid with tree := true } }

/-- BUILD as a primitive (R187, R211). -/
def runBuild (s : State) : Ran := runPrimitive 0x02 dropTree buildBody s

/-- BUILD (R100). -/
def execBuild (s : State) : Host.Outcome State Fault Refusal := conclude (runBuild s)

end Sys2Proof.Machine
end

