-- ==== Sys2Proof/Machine/TreeCodec.lean ====
section
/-! DEFINITION. The tree codec: commands SERTREE and DESTREE, and the two tree-byte records that DESTREE interprets
(43_tree_codec.md). -/

namespace Sys2Proof.Machine

/-! ### Serialization -/

/-- `ser(t)` of R120. -/
def ser : CodeTree → List Byte
  | .leaf sym => [0x31#8, sym]
  | .node l r => 0x30#8 :: (ser l ++ ser r)

/-- The body of SERTREE (R121). R122: a tree that R24 allows has at most 767 tree-bytes. -/
def sertreeBody (s : State) : Effect :=
  require (s.valid.tree = true) .sequenceError fun _ =>
  match s.tree with
  | .error f => .stop f
  | .ok t =>
    within .treeb (ser t).length Config.treebCap fun _ =>
    .done { s with
      treeb := s.treeb.writeRange 0 (ser t)
      data  := { s.data with treeLen := BitVec.ofNat 10 (ser t).length }
      valid := { s.valid with treeb := true } }

/-- SERTREE as a primitive (R187, R211). -/
def runSertree (s : State) : Ran := runPrimitive 0x05 dropTreeBytes sertreeBody s

/-- SERTREE (R121). -/
def execSertree (s : State) : Host.Outcome State Fault Refusal := conclude (runSertree s)

/-! ### Deserialization: the parser of R123 with its recursion on the traversal stack of R31 -/

/-- What the parser works on: NALLOC, the traversal stack and the arena slots written so far. -/
structure Parser where
  nalloc : BitVec 10
  stack  : List (NodeId × Bool)
  draft  : Memory Node
deriving DecidableEq, Repr

/-- How a record leaves the parser: a subtree is still expected, the root's subtree is complete, or there was no room
for the record's node (R124). -/
inductive ParseStep where
  | more (p : Parser)
  | root (id : NodeId) (p : Parser)
  | full
deriving DecidableEq, Repr

/-- `NALLOC <- 0` and an empty stack (R125). -/
def Parser.start : Parser := ⟨0, [], []⟩

/-- The subtree `id` is complete: it is the left child of the innermost open node, whose right child comes next, or its
right child, which completes that node too (R123). An open node's slot is written when its children are known. -/
def closeSubtree (nalloc : BitVec 10) : NodeId → List (NodeId × Bool) → Memory Node → ParseStep
  | id, [], draft => .root id ⟨nalloc, [], draft⟩
  | id, (parent, false) :: stack, draft =>
    .more ⟨nalloc, (parent, true) :: stack, draft.write parent.toNat ⟨false, 0, 0, id, 0⟩⟩
  | id, (parent, true) :: stack, draft =>
    closeSubtree nalloc parent stack
      (draft.write parent.toNat { (draft.read? parent.toNat).getD default with right := id })

/-- The record 0x30: allocate an arena slot and open it (R123; ids in preorder, R127). There is no room for it in a full
arena (R124 case (d)), nor on a full traversal stack (R31): R124 says that a stream which nests deeper always fails, and
leaves it open whether the parse stops there. DESIGN CHOICE (log 18): this one stops there. -/
def parseInternal (p : Parser) : ParseStep :=
  if Config.nodeCap ≤ p.nalloc.toNat ∨ Config.stackCap ≤ p.stack.length then .full
  else .more ⟨p.nalloc + 1, (p.nalloc.setWidth 9, false) :: p.stack, p.draft⟩

/-- The record 0x31 and its symbol: allocate an arena slot, write the Leaf with frequency 0 (R128), close it (R123). -/
def parseLeaf (sym : Byte) (p : Parser) : ParseStep :=
  if Config.nodeCap ≤ p.nalloc.toNat then .full
  else closeSubtree (p.nalloc + 1) (p.nalloc.setWidth 9) p.stack
    (p.draft.write p.nalloc.toNat ⟨true, sym, 0, 0, 0⟩)

/-- The parse of a whole byte sequence (R123, R125): `none` is MalformedTree, in the cases (a) to (f) of R124. -/
def parseBytes : List Byte → Parser → Option (NodeId × Parser)
  | [], _ => none
  | m :: rest, p =>
    if m = 0x30#8 then
      match parseInternal p with
      | .more q => parseBytes rest q
      | .root _ _ => none
      | .full => none
    else if m = 0x31#8 then
      match rest with
      | [] => none
      | sym :: rest' =>
        match parseLeaf sym p with
        | .more q => parseBytes rest' q
        | .root id q => if rest' = [] then some (id, q) else none
        | .full => none
    else none

/-- Commit a finished parse: its slots enter the arena, ROOT and NNODE are set (R125). -/
def commitTree (root : NodeId) (p : Parser) (s : State) : State :=
  { s with
    node  := s.node.overlay p.draft
    data  := { s.data with root := root, nnode := p.nalloc }
    valid := { s.valid with tree := true } }

/-- The body of DESTREE (R125). -/
def destreeBody (s : State) : Effect :=
  require (s.valid.treeb = true) .sequenceError fun _ =>
  within .treeb s.data.treeLen.toNat Config.treebCap fun _ =>
  match parseBytes s.treeBytes Parser.start with
  | none => .raise .malformedTree
  | some (root, p) => .done (commitTree root p s)

/-- DESTREE as a primitive (R187, R211). -/
def runDestree (s : State) : Ran := runPrimitive 0x09 dropTree destreeBody s

/-- DESTREE (R125). -/
def execDestree (s : State) : Host.Outcome State Fault Refusal := conclude (runDestree s)

/-! ### The same parse one record a step: the meaning of a record by itself (log 8) -/

/-- The parser that stands in the working registers and the draft. -/
def State.parser (s : State) : Parser := ⟨s.work.nalloc, s.work.stack, s.draft⟩

/-- The parse goes on: its state back in the working registers, TPOS past the record's `n` bytes. -/
def State.keepParsing (n : Nat) (p : Parser) (s : State) : State :=
  { s with
    work  := { s.work with nalloc := p.nalloc, stack := p.stack, tpos := s.work.tpos + BitVec.ofNat 10 n }
    draft := p.draft }

/-- DESTREE begins to parse: NALLOC and TPOS 0, an empty stack, nothing written (R125). -/
def State.startParse (s : State) : State :=
  { s with
    work    := { s.work with nalloc := 0, stack := [], tpos := 0 }
    draft   := []
    parsing := true }

/-- The parse fails with MalformedTree: the error entry of DESTREE (R124, R211). -/
def malformedRecord (s : State) : State := errorEntry 0x09 dropTree .malformedTree s

/-- How a record ends in a parse under way: the parse goes on, or the root's subtree is complete and DESTREE commits it
if no tree-byte is left over (R124 case (f), R125), or it fails. `n` is the number of the record's bytes. -/
def finishRecord (n : Nat) (r : ParseStep) (s : State) : Host.Outcome State Fault Refusal :=
  match r with
  | .more p => .next (s.keepParsing n p)
  | .full => .next (malformedRecord s)
  | .root id p =>
    conclude (runPrimitive 0x09 dropTree
      (fun u => require (s.work.tpos.toNat + n = s.data.treeLen.toNat) .malformedTree fun _ => .done (commitTree id p u)) s)

/-- The record INTERNAL (R123). -/
def execInternal (s : State) : Host.Outcome State Fault Refusal := finishRecord 1 (parseInternal s.parser) s

/-- The record LEAF (R123). -/
def execLeaf (sym : Byte) (s : State) : Host.Outcome State Fault Refusal := finishRecord 2 (parseLeaf sym s.parser) s

end Sys2Proof.Machine
end

