-- ==== Sys2Proof/Machine/Sequencer.lean ====
section
/-! DEFINITION. The sequencer: commands NOP, CLEAR, COMPRESS and DECOMPRESS, and the illegal command word
(47_orchestrator.md). -/

namespace Sys2Proof.Machine

/-- NOP (R188). -/
def execNop (s : State) : Host.Outcome State Fault Refusal :=
  conclude (runPrimitive 0x00 id .done s)

/-- CLEAR (R189). -/
def execClear (s : State) : Host.Outcome State Fault Refusal :=
  conclude (runPrimitive 0x1F id (fun u => .done (invalidateAll u)) s)

/-- The seven primitives of COMPRESS, in order (R190). -/
def compressSteps : List (State → Ran) :=
  [runFreq, runBuild, runGencode, runEncode, runSertree, runPack, runWrcont]

/-- COMPRESS (R190). -/
def execCompress (s : State) : Host.Outcome State Fault Refusal :=
  conclude (runAll compressSteps (invalidateAll s))

/-- The four primitives of DECOMPRESS, in order (R191). -/
def decompressSteps : List (State → Ran) :=
  [runRdcont, runDestree, runUnpack, runWalk]

/-- DECOMPRESS (R191). -/
def execDecompress (s : State) : Host.Outcome State Fault Refusal :=
  conclude (runAll decompressSteps (invalidateAll s))

/-- A command word that is no command: STAGE is its low byte, nothing is invalidated (R73, R187, R207, R211). -/
def illegalCommand (s : State) : State := errorEntry (s.oplatch.setWidth 8) id .illegalCommand s

end Sys2Proof.Machine
end

