-- ==== Sys2Proof/Machine/Dispatch.lean ====
section
/-! DEFINITION. One arm per instruction, each one call of its meaning. -/

namespace Sys2Proof.Machine

def exec (i : Instr) (s : State) : Host.Outcome State Fault Refusal :=
  match i with
  | .nop => Sys2Proof.Machine.execNop s
  | .freq => Sys2Proof.Machine.execFreq s
  | .build => Sys2Proof.Machine.execBuild s
  | .gencode => Sys2Proof.Machine.execGencode s
  | .encode => Sys2Proof.Machine.execEncode s
  | .sertree => Sys2Proof.Machine.execSertree s
  | .pack => Sys2Proof.Machine.execPack s
  | .wrcont => Sys2Proof.Machine.execWrcont s
  | .rdcont => Sys2Proof.Machine.execRdcont s
  | .destree => Sys2Proof.Machine.execDestree s
  | .unpack => Sys2Proof.Machine.execUnpack s
  | .walk => Sys2Proof.Machine.execWalk s
  | .compress => Sys2Proof.Machine.execCompress s
  | .decompress => Sys2Proof.Machine.execDecompress s
  | .clear => Sys2Proof.Machine.execClear s
  | .internal => Sys2Proof.Machine.execInternal s
  | .leaf sym => Sys2Proof.Machine.execLeaf sym s

end Sys2Proof.Machine
end

