-- ==== Sys2Proof/Machine/Fetch.lean ====
section
/-! DEFINITION. Where the engine's next instruction comes from: the command word in OPLATCH (R65), or, while a parse is
under way, the record in TREEB at TPOS (R123; log 8). -/

namespace Sys2Proof.Machine

/-- The tree-bytes that the parse under way has not read yet: `TREEB[TPOS..TREE_LEN)`. -/
def State.treeBytesLeft (s : State) : List Byte :=
  slice s.treebAt s.work.tpos.toNat (s.data.treeLen.toNat - s.work.tpos.toNat)

/-- The instruction that a busy engine executes next. -/
def fetch (s : State) : Except DecodeError Instr :=
  if s.parsing then
    match decodeRecord s.treeBytesLeft with
    | .ok (i, _) => .ok i
    | .error e => .error e
  else decodeCommand s.oplatch

/-- What the engine does when nothing can be decoded: MalformedTree in a parse (R124), IllegalCommand otherwise
(R187). -/
def undecodable (s : State) : State :=
  if s.parsing then malformedRecord s else illegalCommand s

/-- A command word placed where the engine fetches: accepted (R185), and no parse under way. -/
def placeCommand (w : Word) (s : State) : State := { s.accept w with parsing := false }

/-- A record placed where the engine fetches: a DESTREE that has just begun to parse tree-bytes that are valid and start
with the record (R125), two bytes long, since the longest record has two. -/
def placeRecord (bytes : List Byte) (s : State) : State :=
  let t := (s.accept 0x00000009#32).startParse
  { t with
    treeb := t.treeb.writeRange 0 bytes
    data  := { t.data with treeLen := BitVec.ofNat 10 bytes.length }
    valid := { t.valid with treeb := true } }

end Sys2Proof.Machine
end

