-- ==== Sys2Proof/Machine/HostPort.lean ====
section
/-! DEFINITION. The host's side: the register space, the debug port and the six host transactions (20_memory.md section
6, 10_state.md section 1). -/

namespace Sys2Proof.Machine

/-- The identification constant (R11). -/
def idWord : Word := 0x48434531

/-- The packed link word of a NODE entry (R82). -/
def nodeLinkWord (n : Node) : Word :=
  bitAt n.leaf 31 ||| (n.sym.setWidth 32 <<< 18) ||| (n.left.setWidth 32 <<< 9) ||| n.right.setWidth 32

/-- A byte as a 32-bit value. -/
def byteWord (b : Byte) : Word := b.setWidth 32

/-- DBG_DATA: the word selected by DBG_SPACE and DBG_INDEX, 0 for any selection outside the table of R18. -/
def dbgData (s : State) : Word :=
  let i := s.dbg.index.toNat
  let w := s.dbg.word.toNat
  match s.dbg.space.toNat with
  | 0 => if i < Config.nsym ∧ w = 0 then s.freqAt i else 0
  | 1 =>
    if i < Config.nodeCap then
      (if w = 0 then (s.nodeAt i).freq else if w = 1 then nodeLinkWord (s.nodeAt i) else 0)
    else 0
  | 2 =>
    if i < Config.nsym then
      (if w < 8 then (s.codeAt i).bits.extractLsb' (224 - 32 * w) 32
       else if w = 8 then (s.codeAt i).len.setWidth 32 else 0)
    else 0
  | 3 => if i < Config.treebCap ∧ w = 0 then byteWord (s.treebAt i) else 0
  | 4 => if i < s.par.payCap ∧ w = 0 then byteWord (s.payAt i) else 0
  | 5 => if i < s.par.bsCap ∧ w = 0 then bitAt (s.bsAt i) 0 else 0
  | 6 => if i < s.par.inCap ∧ w = 0 then byteWord (s.inAt i) else 0
  | 7 => if i < s.par.outCap ∧ w = 0 then byteWord (s.outAt i) else 0
  | _ => 0

/-- `HostReadReg(idx)`: the register's value (R10, R59). CMD and the reserved indices read 0 (R12, R19). -/
def readReg (s : State) : Nat → Word
  | 0  => idWord
  | 2  => s.status.word
  | 3  => s.elog.setWidth 32
  | 4  => s.ctrl.word
  | 5  => s.valid.word
  | 6  => s.data.inLen
  | 7  => s.data.outLen
  | 8  => s.data.treeLen.setWidth 32
  | 9  => s.data.pad.setWidth 32
  | 10 => s.data.payLen
  | 11 => s.data.bsLen
  | 12 => s.data.root.setWidth 32
  | 13 => s.data.nnode.setWidth 32
  | 14 => (s.dbg.word.setWidth 32 <<< 4) ||| s.dbg.space.setWidth 32
  | 15 => s.dbg.index
  | 16 => dbgData s
  | 17 => BitVec.ofNat 32 s.par.inCap
  | 18 => BitVec.ofNat 32 s.par.outCap
  | _  => 0

/-- `HostWriteReg(idx, v)` at rest (R58). -/
def writeRegAtRest (idx : Nat) (v : Word) (s : State) : State :=
  match idx with
  | 1  => s.accept v
  | 2  => if v.getLsbD 1 then { s with status := { s.status with done := false } } else s
  | 3  => { s with elog := elogAfterWrite s.elog v }
  | 4  => { s with ctrl := CtrlReg.ofWord v }
  | 6  => { s with data := { s.data with inLen := v } }
  | 14 => { s with dbg := { s.dbg with space := v.extractLsb' 0 4, word := v.extractLsb' 4 4 } }
  | 15 => { s with dbg := { s.dbg with index := v } }
  | _  => s

/-- `HostWriteReg(idx, v)`: ignored while BUSY (R58). -/
def hostWriteReg (idx : Nat) (v : Word) (s : State) : State :=
  if s.status.busy then s else writeRegAtRest idx v s

/-- `HostWriteIN(i, b)`: ignored while BUSY and beyond IN_CAP (R60). -/
def hostWriteIn (i : Nat) (b : Byte) (s : State) : State :=
  if s.status.busy then s
  else if s.par.inCap ≤ i then s
  else { s with inp := s.inp.write i b }

/-- `HostReadIN(i)` (R61). -/
def readIn (s : State) (i : Nat) : Byte := if i < s.par.inCap then s.inAt i else 0

/-- `HostReadOUT(i)` (R62). -/
def readOut (s : State) (i : Nat) : Byte := if i < s.par.outCap then s.outAt i else 0

/-- `HostReset()` (R63, R230, R232): the reset state, at any time; a command under way commits nothing. The capacities
are constants of the instance; the contents of every memory and the working registers are unspecified anew (R231, R31;
log 3, log 4). The host's own agenda, its last reply and the count of its failed comparisons are no part of the engine. -/
def hostReset (s : State) : State :=
  { State.reset with
    par    := s.par
    work   := s.restingWork
    epoch  := s.epoch + 1
    tick   := s.tick + 1
    agenda := s.agenda
    reply  := s.reply
    mismatches := s.mismatches }

/-- One host transaction (R58 to R63). A read changes nothing but the value that the port returned (R67; log 7). -/
def hostTurn (t : Txn) (s : State) : Host.Outcome State Fault Refusal :=
  match t with
  | .reset => .next (hostReset s)
  | .writeReg idx v => .next (hostWriteReg idx v s)
  | .readReg idx => .next { s with reply := some (readReg s idx) }
  | .writeIn i b => .next (hostWriteIn i b s)
  | .readIn i => .next { s with reply := some (byteWord (readIn s i)) }
  | .readOut i => .next { s with reply := some (byteWord (readOut s i)) }
  | .narrowReg _ _ _ => .refused .narrowRegisterAccess

/-- The comparison of R88: do the `width` bits from bit `low` on of what the last read returned read as `v`? -/
def replyAgrees (low width : Nat) (v : Word) : Option Word → Bool
  | none => false
  | some x => decide (x.toNat / 2 ^ low % 2 ^ width = v.toNat)

/-- The host's comparison changes nothing but the count of the failed ones (R88; DESIGN CHOICE, log 19: the spec does not
say what a script does after one, and this one goes on). -/
def hostCompare (low width : Nat) (v : Word) (s : State) : State :=
  if replyAgrees low width v s.reply then s else { s with mismatches := s.mismatches + 1 }

end Sys2Proof.Machine
end

