-- ==== Sys2Proof/Machine/Script.lean ====
section
/-! DEFINITION. The host script of R88, the "program" of this hardware, and the turns that it stands for. -/

namespace Sys2Proof.Machine

/-- The fields that `expect <REG>.<FIELD>` may name: those of STATUS (R13), CTRL (R16), VALID (R15) and DBG_SPACE (R18). -/
inductive RegField where
  | busy | done | err | stage
  | srcOk | dstOk | ie
  | freqV | treeV | codeV | bsV | treebV | payV | outV
  | space | word
deriving DecidableEq, Repr

/-- The index of a field's register, its lowest bit and its width. -/
def RegField.place : RegField → Nat × Nat × Nat
  | .busy   => (2, 0, 1)
  | .done   => (2, 1, 1)
  | .err    => (2, 4, 4)
  | .stage  => (2, 8, 8)
  | .srcOk  => (4, 0, 1)
  | .dstOk  => (4, 1, 1)
  | .ie     => (4, 2, 1)
  | .freqV  => (5, 0, 1)
  | .treeV  => (5, 1, 1)
  | .codeV  => (5, 2, 1)
  | .bsV    => (5, 3, 1)
  | .treebV => (5, 4, 1)
  | .payV   => (5, 5, 1)
  | .outV   => (5, 6, 1)
  | .space  => (14, 0, 4)
  | .word   => (14, 4, 4)

/-- The lines of R88. -/
inductive ScriptLine where
  /-- `reset`. -/
  | reset
  /-- `in <bytes>`. -/
  | input (bytes : List Byte)
  /-- `wr <REG>, <value>`. -/
  | wr (idx : Nat) (v : Word)
  /-- `cmd <MNEMONIC>`. -/
  | cmd (i : Instr)
  /-- `raw <value>`. -/
  | raw (w : Word)
  /-- `expect <REG> = <value>`. -/
  | expectReg (idx : Nat) (v : Word)
  /-- `expect <REG>.<FIELD> = <value>`. -/
  | expectField (f : RegField) (v : Word)
  /-- `expect out = <bytes>`. -/
  | expectOut (bytes : List Byte)
  /-- `expect dbg <SPACE>[<index>].w<WORD> = <value>`; a line without `.w<WORD>` has WORD 0. -/
  | expectDbg (space word : BitVec 4) (index v : Word)
deriving DecidableEq, Repr

/-- A command word and its completion: the write to CMD, the engine's turn, the poll of STATUS that sees BUSY = 0. -/
def commandTurns (w : Word) : List Turn := [.host (.writeReg 1 w), .engine, .host (.readReg 2)]

/-- One read and the comparison of `width` bits of what it returns, from bit `low` on, with `v`. -/
def readAndCompare (t : Txn) (low width : Nat) (v : Word) : List Turn := [.host t, .compare low width v]

/-- The turns of one line (R88). -/
def ScriptLine.turns : ScriptLine → List Turn
  | .reset => [.host .reset]
  | .input bytes =>
    bytes.zipIdx.map (fun p => .host (.writeIn p.2 p.1)) ++ [.host (.writeReg 6 (BitVec.ofNat 32 bytes.length))]
  | .wr idx v => [.host (.writeReg idx v)]
  | .cmd i =>
    match commandWord i with
    | some w => commandTurns w
    | none => []
  | .raw w => commandTurns w
  | .expectReg idx v => readAndCompare (.readReg idx) 0 32 v
  | .expectField f v => readAndCompare (.readReg f.place.1) f.place.2.1 f.place.2.2 v
  | .expectOut bytes =>
    readAndCompare (.readReg 7) 0 32 (BitVec.ofNat 32 bytes.length) ++
      bytes.zipIdx.flatMap (fun p => readAndCompare (.readOut p.2) 0 32 (byteWord p.1))
  | .expectDbg space word index v =>
    [.host (.writeReg 14 ((word.setWidth 32 <<< 4) ||| space.setWidth 32)), .host (.writeReg 15 index)] ++
      readAndCompare (.readReg 16) 0 32 v

/-- Put a script at the end of the agenda. -/
def loadScript (ls : List ScriptLine) (s : State) : State :=
  { s with agenda := s.agenda ++ ls.flatMap ScriptLine.turns }

end Sys2Proof.Machine
end

