-- ==== Sys2Proof/Machine/Step.lean ====
section
/-! DEFINITION. One step of the machine: whose turn it is, and that turn (R56, R57). -/

namespace Sys2Proof.Machine

/-- The engine's turn: at rest it does nothing (R56); busy, it executes the instruction it fetches and completes
(R186). -/
def engineTurn (s : State) : Host.Outcome State Fault Refusal :=
  if s.status.busy then
    match fetch s with
    | .ok i => exec i s
    | .error _ => .next (undecodable s)
  else .next s

/-- One step: the agenda says whose turn it is and the turn leaves the agenda; with nothing on it the turn is the
engine's, so that a busy engine always completes (R196; log 6). -/
def step (s : State) : Host.Outcome State Fault Refusal :=
  match s.agenda with
  | [] => engineTurn s
  | .engine :: rest => engineTurn { s with agenda := rest }
  | .host t :: rest => hostTurn t { s with agenda := rest }
  | .compare low width v :: rest => .next (hostCompare low width v { s with agenda := rest })

/-- The state with an instruction placed where the next step fetches it, and the next turn the engine's (log 9). A row
of 32 bits is a command word, accepted (R185); a row of at most 16 bits is a tree-byte record, at the head of the
tree-bytes that a DESTREE has just begun to parse. -/
def State.withFetchWord (s : State) (nbits w : Nat) : State :=
  let t :=
    if isRecordWidth nbits then placeRecord [byteOf w 0, byteOf w 1] s
    else placeCommand (BitVec.ofNat 32 w) s
  { t with agenda := .engine :: s.agenda }

end Sys2Proof.Machine
end

