-- ==== Sys2Proof/Safety.lean ====
section
/-! DEFINITION. The terms in which the claims are made: what a command leaves unchanged and what it reports, the verdict
that the order of tests gives, the abstract trees and codes of the rules, and the invariants of R24 and R34. -/

namespace Sys2Proof.Machine

/-! ### Frames -/

/-- Element `i` of a memory reads in `t` as it reads in `s`. -/
def sameAt (s t : State) : Space → Nat → Prop
  | .freq, i  => t.freqAt i = s.freqAt i
  | .node, i  => t.nodeAt i = s.nodeAt i
  | .code, i  => t.codeAt i = s.codeAt i
  | .treeb, i => t.treebAt i = s.treebAt i
  | .pay, i   => t.payAt i = s.payAt i
  | .bs, i    => t.bsAt i = s.bsAt i
  | .inp, i   => t.inAt i = s.inAt i
  | .out, i   => t.outAt i = s.outAt i

/-- What no command writes: the capacities, CTRL, the debug registers, OPLATCH, IN_LEN (R16, R17, R217), and the model's
own epoch, agenda, reply and mismatches. That OPLATCH stays is log 12. -/
def hostSideSame (s t : State) : Prop :=
  t.par = s.par ∧ t.ctrl = s.ctrl ∧ t.dbg = s.dbg ∧ t.oplatch = s.oplatch ∧ t.data.inLen = s.data.inLen ∧
    t.epoch = s.epoch ∧ t.agenda = s.agenda ∧ t.reply = s.reply ∧ t.mismatches = s.mismatches

/-- The completion of R186: what STATUS and ELOG hold, and that no parse is under way. -/
def completed (s t : State) (op : Byte) (e : Option ErrKind) : Prop :=
  t.status = ⟨false, true, errCode e, op⟩ ∧ t.elog = s.elog ||| elogBit e ∧ t.parsing = false ∧ t.draft = []

/-- A command completes at stage `op` with error `e`, and of the memories it changes at most the elements that `written`
names. VALID, the data registers and PQ are left to say. -/
def reports (s t : State) (op : Byte) (e : Option ErrKind) (written : Space → Nat → Prop) : Prop :=
  completed s t op e ∧ hostSideSame s t ∧ ∀ sp i, ¬ written sp i → sameAt s t sp i

/-- A primitive fails at stage `op` with error `e`: no memory element changes, and VALID and the data registers are
what R211 makes them. -/
def failsWith (s t : State) (op : Byte) (e : ErrKind) (valid : ValidReg) (data : DataRegs) : Prop :=
  reports s t op (some e) (fun _ _ => False) ∧ t.valid = valid ∧ t.data = data ∧ t.pq = s.pq

/-! ### The order of tests (R213), command by command, as far as registers and flags decide it -/

/-- The tests of FREQ (R91). -/
def freqVerdict (s : State) : Option ErrKind :=
  if s.ctrl.srcOk = false then some .ioOpenFailure
  else if s.par.inCap < s.data.inLen.toNat then some .bufferOverflow
  else if s.data.inLen.toNat = 0 then some .emptyInput
  else none

/-- The symbols with a count above 0, in ascending order (R2, R21). -/
def observed (s : State) : List Nat := (List.range Config.nsym).filter (fun c => decide (s.freqAt c ≠ 0))

/-- The tests of BUILD (R100). -/
def buildVerdict (s : State) : Option ErrKind :=
  if s.valid.freq = false then some .sequenceError
  else if observed s = [] then some .treeConstructionFailure
  else none

/-- The tests of ENCODE that come before the first input byte (R166). -/
def encodeVerdict (s : State) : Option ErrKind :=
  if s.valid.code = false then some .sequenceError
  else if s.ctrl.srcOk = false then some .ioOpenFailure
  else if s.par.inCap < s.data.inLen.toNat then some .bufferOverflow
  else none

/-- The tests of WRCONT (R152). -/
def wrcontVerdict (s : State) : Option ErrKind :=
  if s.valid.treeb = false ∨ s.valid.pay = false then some .sequenceError
  else if s.ctrl.dstOk = false then some .ioOpenFailure
  else if s.par.outCap < 12 + s.data.treeLen.toNat + s.data.payLen.toNat then some .bufferOverflow
  else none

/-- The tests of RDCONT (R155), with T = tree-length, pc = padding-count and P = payload-length as read from IN. -/
def rdcontVerdict (s : State) : Option ErrKind :=
  let n := s.data.inLen.toNat
  let T := s.inWord 0
  let pc := s.inWord (4 + T)
  let P := s.inWord (8 + T)
  if s.ctrl.srcOk = false then some .ioOpenFailure
  else if s.par.inCap < n then some .bufferOverflow
  else if n < 4 ∨ n < 4 + T + 8 ∨ 12 + T + P ≠ n ∨ 7 < pc ∨ T = 0 ∨ P = 0 then some .formatError
  else if 767 < T then some .malformedTree
  else none

/-- The tests of WALK that come before the first bit (R172). -/
def walkVerdict (s : State) : Option ErrKind :=
  if s.valid.tree = false ∨ s.valid.bs = false then some .sequenceError
  else if s.ctrl.dstOk = false then some .ioOpenFailure
  else none

/-- A node that the merges numbered below `k` have left in the queue: the leaf of an observed symbol or an internal node
created before merge `k`, and the child of no internal node created before merge `k`. -/
def inQueueAt (s t : State) (k id : Nat) : Prop :=
  (id ∈ observed s ∨ (256 ≤ id ∧ id < 256 + k)) ∧
    ∀ j, j < k → (t.nodeAt (256 + j)).left.toNat ≠ id ∧ (t.nodeAt (256 + j)).right.toNat ≠ id

/-! ### Trees -/

/-- The number of nodes. -/
def treeSize : CodeTree → Nat
  | .leaf _ => 1
  | .node l r => 1 + treeSize l + treeSize r

/-- The symbols of the leaves, from left to right. -/
def treeSymbols : CodeTree → List Byte
  | .leaf sym => [sym]
  | .node l r => treeSymbols l ++ treeSymbols r

/-- The arena records of a loaded tree, in preorder, the first with id `base` (R127, R128). -/
def preorderNodes : CodeTree → (base : Nat) → List Node
  | .leaf sym, _ => [⟨true, sym, 0, 0, 0⟩]
  | .node l r, base =>
    ⟨false, 0, 0, BitVec.ofNat 9 (base + 1), BitVec.ofNat 9 (base + 1 + treeSize l)⟩ ::
      (preorderNodes l (base + 1) ++ preorderNodes r (base + 1 + treeSize l))

/-- The node ids reachable from `id`, in preorder, as deep as `depth` levels; `none` where the traversal does not end
there. -/
def reachableIds (s : State) : (depth : Nat) → (id : Nat) → Option (List Nat)
  | 0, _ => none
  | depth + 1, id =>
    let n := s.nodeAt id
    if n.leaf then some [id]
    else
      match reachableIds s depth n.left.toNat, reachableIds s depth n.right.toNat with
      | some l, some r => some (id :: (l ++ r))
      | _, _ => none

/-- The tree that FREQ and BUILD make of an input: the tree under the root of the arena that the merges of its counts
leave (R90, R100). -/
def treeOfInput (b : List Byte) : Option CodeTree :=
  let freqOf := fun i => (countTable b).getD i 0
  let builder := mergeAll 0 freqOf []
  match pqExtractMin (builder.key 0) builder.pq with
  | none => none
  | some (root, _) =>
    match treeOf 0 builder.node (Config.codeMaxLen + 1) root.toNat with
    | .ok t => some t
    | .error _ => none

/-- The code of a symbol in a tree, empty where it has none. -/
def codeIn (t : CodeTree) (sym : Byte) : List Bool := (codeOf t sym).getD []

/-- The container that COMPRESS makes of an input with tree `t` (R190). -/
def containerOf (t : CodeTree) (b : List Byte) : List Byte :=
  let bits := enc (codeIn t) b
  cont (ser t) (padCount bits.length) (packBytes bits)

/-- The symbols that the first bits of a bit-string decode to outnumber OUT (R176). -/
def overflowsOut (t : CodeTree) (bits : List Bool) (outCap : Nat) : Prop :=
  ∃ k syms, k ≤ bits.length ∧ walkTree t (bits.take k) t = some syms ∧ outCap < syms.length

/-- The engine has the next turn, and `rest` is what the agenda holds after it. -/
def engineNext (s : State) (rest : List Turn) : Prop :=
  (s.agenda = [] ∧ rest = []) ∨ s.agenda = .engine :: rest

/-! ### Commands one after another -/

/-- Execute commands one after another and stop at the first that ends with an error code (R89). -/
def runCommands : List Instr → State → Host.Outcome State Fault Refusal
  | [], s => .next s
  | i :: is, s =>
    match exec i s with
    | .next t => if t.status.err = 0 then runCommands is t else .next t
    | .fault f => .fault f
    | .refused r => .refused r

/-- Two states agree in everything but the free working registers and the counter that indexes them. -/
def sameButWork (t u : State) : Prop := { t with work := u.work, tick := u.tick } = u

/-- The parser after a sequence of records, while a subtree is still expected. -/
def feedRecords : List Instr → Parser → ParseStep
  | [], p => .more p
  | .internal :: rs, p =>
    match parseInternal p with
    | .more q => feedRecords rs q
    | r => r
  | .leaf sym :: rs, p =>
    match parseLeaf sym p with
    | .more q => feedRecords rs q
    | r => r
  | _ :: _, _ => .full

/-! ### Invariants -/

/-- A parser that stands in the middle of a parse (log 8): NALLOC counts slots that exist (R22); the open nodes on the
traversal stack, which has room for them (R31), are distinct and allocated; one whose right child is under way has its
left child recorded (R123); and the slots written so far are a memory in its one form. -/
structure ParserOk (p : Parser) : Prop where
  nalloc : p.nalloc.toNat ≤ Config.nodeCap
  room   : p.stack.length ≤ Config.stackCap
  opened : ∀ e ∈ p.stack, e.1.toNat < p.nalloc.toNat
  nodup  : (p.stack.map Prod.fst).Nodup
  left   : ∀ e ∈ p.stack, e.2 = true → ∃ l, p.draft.read? e.1.toNat = some ⟨false, 0, 0, l, 0⟩
  form   : p.draft.wf ∧ p.draft.below Config.nodeCap

/-- Every memory is in its one form and lists no element that does not exist (R50), the traversal stack has at most 255
entries (R31), and a parse under way stands in its middle (log 8). -/
def MemoryInv (s : State) : Prop :=
  (s.freq.wf ∧ s.freq.below (s.capacity .freq)) ∧ (s.node.wf ∧ s.node.below (s.capacity .node)) ∧
  (s.code.wf ∧ s.code.below (s.capacity .code)) ∧ (s.treeb.wf ∧ s.treeb.below (s.capacity .treeb)) ∧
  (s.pay.wf ∧ s.pay.below (s.capacity .pay)) ∧ (s.bs.wf ∧ s.bs.below (s.capacity .bs)) ∧
  (s.inp.wf ∧ s.inp.below (s.capacity .inp)) ∧ (s.out.wf ∧ s.out.below (s.capacity .out)) ∧
  s.work.stack.length ≤ Config.stackCap ∧ (s.parsing = true → ParserOk s.parser)

/-- R34 items 4 to 9, the second half of item 2, R4, and that DONE and a parse go with BUSY as R185 and log 8 say. -/
structure RegisterInv (s : State) : Prop where
  params  : s.par.wf = true
  noTree  : s.valid.tree = false → s.data.root = 0 ∧ s.data.nnode = 0
  bits    : s.valid.bs = true → s.data.bsLen.toNat ≤ s.par.bsCap
  noBits  : s.valid.bs = false → s.data.bsLen = 0
  treeb   : s.valid.treeb = true → 1 ≤ s.data.treeLen.toNat ∧ s.data.treeLen.toNat ≤ 767
  noTreeb : s.valid.treeb = false → s.data.treeLen = 0
  pay     : s.valid.pay = true → s.data.payLen.toNat ≤ s.par.payCap ∧ (s.data.payLen = 0 → s.data.pad = 0)
  noPay   : s.valid.pay = false → s.data.payLen = 0 ∧ s.data.pad = 0
  out     : s.valid.out = true → s.data.outLen.toNat ≤ s.par.outCap
  noOut   : s.valid.out = false → s.data.outLen = 0
  queue   : s.pq = []
  elog    : s.elog.getLsbD 0 = false
  err     : s.status.err.toNat ≤ 9
  done    : s.status.busy = true → s.status.done = false
  parsing : s.parsing = true → s.status.busy = true

/-- R34 item 1: while FREQ_V = 1 the counts sum to at least 1 and at most IN_CAP. -/
def FreqInv (s : State) : Prop :=
  s.par.wf = true ∧
    (s.valid.freq = true →
      1 ≤ ((List.range Config.nsym).map (fun c => (s.freqAt c).toNat)).sum ∧
        ((List.range Config.nsym).map (fun c => (s.freqAt c).toNat)).sum ≤ s.par.inCap)

/-- R24: the slots under ROOT form a tree of depth at most 255 without sharing, with NNODE slots. -/
def TreeOk (s : State) : Prop :=
  ∃ t ids, s.tree = .ok t ∧ reachableIds s (Config.codeMaxLen + 1) s.data.root.toNat = some ids ∧ ids.Nodup ∧
    (∀ id ∈ ids, id < Config.nodeCap) ∧ ids.length = s.data.nnode.toNat ∧ treeSize t = s.data.nnode.toNat ∧
    s.data.nnode.toNat ≤ Config.nodeCap

/-- R24 while TREE_V = 1; and a parse under way stands where its records have brought it (log 8). -/
def TreeInv (s : State) : Prop :=
  (s.valid.tree = true → TreeOk s) ∧
    (s.parsing = true → ∃ rs, feedRecords rs Parser.start = .more s.parser)

/-- R34 item 3: the codes in CODE are not all absent, none is a prefix of another, and the bits after each are 0. -/
def CodeOk (s : State) : Prop :=
  (∃ c, c < Config.nsym ∧ (s.codeAt c).len ≠ 0) ∧
  (∀ a b, a < Config.nsym → b < Config.nsym → a ≠ b → (s.codeAt a).len ≠ 0 → (s.codeAt b).len ≠ 0 →
    ¬ codeBits (s.codeAt a) <+: codeBits (s.codeAt b)) ∧
  (∀ c k, c < Config.nsym → k < 256 - (s.codeAt c).len.toNat → (s.codeAt c).bits.getLsbD k = false)

/-- R34 item 3, while CODE_V = 1. -/
def CodeInv (s : State) : Prop := s.valid.code = true → CodeOk s

/-- A safe step: it ends in a next state. -/
def stepsOn (s : State) : Prop := ∃ t, step s = .next t

end Sys2Proof.Machine
end

