-- ==== Sys2Proof/Certificates/Slice0/Obligations.lean ====
section
/-! DEFINITION. The statements for the provers. Each docstring says which rule of spec/ it formalises. -/

open Sys2Proof Sys2Proof.Machine

/-! ## Encodings -/

/-- R72, R76: command words and marker bytes written out from the opcode map stand for their instructions. -/
def Obligations.OpcodeMapWordsDecode : Prop :=
  decodeCommand 0x00000000#32 = .ok .nop ∧ decodeCommand 0x00000001#32 = .ok .freq ∧
  decodeCommand 0x00000002#32 = .ok .build ∧ decodeCommand 0x00000003#32 = .ok .gencode ∧
  decodeCommand 0x00000004#32 = .ok .encode ∧ decodeCommand 0x00000005#32 = .ok .sertree ∧
  decodeCommand 0x00000006#32 = .ok .pack ∧ decodeCommand 0x00000007#32 = .ok .wrcont ∧
  decodeCommand 0x00000008#32 = .ok .rdcont ∧ decodeCommand 0x00000009#32 = .ok .destree ∧
  decodeCommand 0x0000000A#32 = .ok .unpack ∧ decodeCommand 0x0000000B#32 = .ok .walk ∧
  decodeCommand 0x00000010#32 = .ok .compress ∧ decodeCommand 0x00000011#32 = .ok .decompress ∧
  decodeCommand 0x0000001F#32 = .ok .clear ∧
  (∀ rest, decodeRecord (0x30#8 :: rest) = .ok (.internal, rest)) ∧
  (∀ sym rest, decodeRecord (0x31#8 :: sym :: rest) = .ok (.leaf sym, rest))

/-- R71, R72, R75, R76: decoding gives back every encoded instruction, nothing else decodes to it, and the bytes of a
sequence of records decode to that sequence whatever the symbols are. -/
def Obligations.DecodeAndEncodeAgree : Prop :=
  (∀ i, decode (encode i) = .ok i) ∧
  (∀ e i, decode e = .ok i → e = encode i) ∧
  (∀ rs : List Instr, (∀ r ∈ rs, r.isRecord = true) →
    ∀ fuel, rs.length ≤ fuel → decodeRecords fuel (rs.flatMap recordBytes) = .ok rs)

/-- R73, R207: the listed command words are the only legal ones; an illegal word is accepted like any other, and a busy
engine that holds it completes with ERR 7, STAGE its low byte and ELOG bit 7 set, and changes nothing else. -/
def Obligations.UnlistedCommandWordsAreIllegal : Prop :=
  (∀ w : Word,
    (256 ≤ w.toNat ∨ (0x0C ≤ w.toNat ∧ w.toNat ≤ 0x0F) ∨ (0x12 ≤ w.toNat ∧ w.toNat ≤ 0x1E) ∨
      (0x20 ≤ w.toNat ∧ w.toNat ≤ 0xFF)) ↔ decodeCommand w = .error (.illegalCommand w)) ∧
  (∀ (s : State) (w : Word) (rest : List Turn), s.agenda = .host (.writeReg 1 w) :: rest → s.status.busy = false →
    decodeCommand w = .error (.illegalCommand w) →
    ∃ u, step s = .next u ∧ u.status.busy = true ∧ u.oplatch = w ∧ u.agenda = rest) ∧
  (∀ (s : State) (rest : List Turn), engineNext s rest → s.status.busy = true → s.parsing = false →
    decodeCommand s.oplatch = .error (.illegalCommand s.oplatch) →
    ∃ t, step s = .next t ∧
      reports { s with agenda := rest } t (s.oplatch.setWidth 8) (some .illegalCommand) (fun _ _ => False) ∧
      t.valid = s.valid ∧ t.data = s.data ∧ t.pq = s.pq)

/-! ## The step, the lifecycle of a command and the host's transactions -/

/-- R65, R187, R123: a busy engine whose turn it is executes the instruction it decodes: the command word in OPLATCH, or,
while a parse is under way, the record at TPOS. The step adds nothing to exec but the turn's leaving the agenda (log 6,
log 8). At rest the engine does nothing (R56). -/
def Obligations.StepExecutesDecodedInstruction : Prop :=
  ∀ (s : State) (rest : List Turn), engineNext s rest →
    (∀ i, s.status.busy = true → s.parsing = false → decodeCommand s.oplatch = .ok i →
      step s = exec i { s with agenda := rest }) ∧
    (∀ i left, s.status.busy = true → s.parsing = true →
      decodeRecord (slice s.treebAt s.work.tpos.toNat (s.data.treeLen.toNat - s.work.tpos.toNat)) = .ok (i, left) →
      step s = exec i { s with agenda := rest }) ∧
    (s.status.busy = false → step s = .next { s with agenda := rest })

/-- R185: a write of `w` to CMD at rest latches the word, sets BUSY and clears DONE, and nothing else changes but the
turn's leaving the agenda; while BUSY the write is ignored. -/
def Obligations.CmdWriteAtRestIsAccepted : Prop :=
  ∀ (s : State) (w : Word) (rest : List Turn), s.agenda = .host (.writeReg 1 w) :: rest →
    (s.status.busy = false → step s = .next { s with
      agenda := rest, oplatch := w, status := ⟨true, false, s.status.err, s.status.stage⟩ }) ∧
    (s.status.busy = true → step s = .next { s with agenda := rest })

/-- R234: while BUSY every HostWriteReg and every HostWriteIN is ignored, and a read is harmless and returns the register
as it stands, STATUS with BUSY = 1. -/
def Obligations.HostWritesWhileBusyAreIgnored : Prop :=
  ∀ (s : State) (rest : List Turn), s.status.busy = true →
    (∀ idx v, s.agenda = .host (.writeReg idx v) :: rest → step s = .next { s with agenda := rest }) ∧
    (∀ i b, s.agenda = .host (.writeIn i b) :: rest → step s = .next { s with agenda := rest }) ∧
    (∀ idx, s.agenda = .host (.readReg idx) :: rest →
      step s = .next { s with agenda := rest, reply := some (readReg s idx) } ∧ (readReg s 2).getLsbD 0 = true)

/-- R58, register by register: what each writable register holds after a write at rest, bit by bit, that a write to any
other index is ignored, and that every write is ignored while BUSY. -/
def Obligations.HostRegisterWrites : Prop :=
  ∀ (s : State) (idx : Nat) (v : Word) (rest : List Turn), s.agenda = .host (.writeReg idx v) :: rest →
    ∃ t, step s = .next t ∧ t.agenda = rest ∧
      (s.status.busy = true ∨ idx ∉ [1, 2, 3, 4, 6, 14, 15] → t = { s with agenda := rest }) ∧
      (s.status.busy = false →
        (idx = 1 → t = { s with agenda := rest, oplatch := v, status := ⟨true, false, s.status.err, s.status.stage⟩ }) ∧
        (idx = 2 → t = { s with agenda := rest, status := { s.status with done := s.status.done && !v.getLsbD 1 } }) ∧
        (idx = 3 → t = { s with agenda := rest, elog := t.elog } ∧
          ∀ k, t.elog.getLsbD k = (s.elog.getLsbD k && !(decide (1 ≤ k ∧ k ≤ 9) && v.getLsbD k))) ∧
        (idx = 4 → t = { s with agenda := rest, ctrl := ⟨v.getLsbD 0, v.getLsbD 1, v.getLsbD 2⟩ }) ∧
        (idx = 6 → t = { s with agenda := rest, data := { s.data with inLen := v } }) ∧
        (idx = 14 → t = { s with agenda := rest, dbg := ⟨t.dbg.space, t.dbg.word, s.dbg.index⟩ } ∧
          ∀ k, k < 4 → t.dbg.space.getLsbD k = v.getLsbD k ∧ t.dbg.word.getLsbD k = v.getLsbD (4 + k)) ∧
        (idx = 15 → t = { s with agenda := rest, dbg := { s.dbg with index := v } }))

/-- R60: HostWriteIN at rest stores the byte when the index is below IN_CAP and is ignored otherwise and while BUSY; every
other element of every memory, and everything that is no memory, stays. -/
def Obligations.HostWriteInStoresOneByte : Prop :=
  ∀ (s : State) (i : Nat) (b : Byte) (rest : List Turn), s.agenda = .host (.writeIn i b) :: rest →
    ∃ t, step s = .next t ∧ t = { s with agenda := rest, inp := t.inp } ∧
      (s.status.busy = false → i < s.par.inCap → t.inAt i = b) ∧
      (∀ sp k, ¬ (sp = .inp ∧ k = i ∧ i < s.par.inCap ∧ s.status.busy = false) → sameAt s t sp k) ∧
      (s.status.busy = true ∨ s.par.inCap ≤ i → t.inp = s.inp)

/-- R59, R61, R62, R67: a host read returns the register or the byte, 0 beyond the capacity or for CMD and the reserved
indices, and changes nothing; `reply` is where the model keeps what was returned (log 7). -/
def Obligations.HostReadsChangeNothing : Prop :=
  ∀ (s : State) (rest : List Turn),
    (∀ idx, s.agenda = .host (.readReg idx) :: rest →
      step s = .next { s with agenda := rest, reply := some (readReg s idx) } ∧
        (idx = 1 ∨ 19 ≤ idx → readReg s idx = 0)) ∧
    (∀ i, s.agenda = .host (.readIn i) :: rest →
      ∃ v, step s = .next { s with agenda := rest, reply := some v } ∧
        v = (if i < s.par.inCap then s.inAt i else 0).setWidth 32) ∧
    (∀ i, s.agenda = .host (.readOut i) :: rest →
      ∃ v, step s = .next { s with agenda := rest, reply := some v } ∧
        v = (if i < s.par.outCap then s.outAt i else 0).setWidth 32)

/-- R13 to R18, R10, R11, R20: what each register reads, bit by bit for the four registers that are made of fields. -/
def Obligations.RegistersReadTheirFields : Prop :=
  ∀ s : State,
    readReg s 0 = 0x48434531#32 ∧
    (∀ k, (readReg s 2).getLsbD k =
      (if k = 0 then s.status.busy else if k = 1 then s.status.done
       else if 4 ≤ k ∧ k ≤ 7 then s.status.err.getLsbD (k - 4)
       else if 8 ≤ k ∧ k ≤ 15 then s.status.stage.getLsbD (k - 8) else false)) ∧
    (∀ k, (readReg s 3).getLsbD k = s.elog.getLsbD k) ∧
    (∀ k, (readReg s 4).getLsbD k =
      (if k = 0 then s.ctrl.srcOk else if k = 1 then s.ctrl.dstOk else if k = 2 then s.ctrl.ie else false)) ∧
    (∀ k, (readReg s 5).getLsbD k =
      (if k = 0 then s.valid.freq else if k = 1 then s.valid.tree else if k = 2 then s.valid.code
       else if k = 3 then s.valid.bs else if k = 4 then s.valid.treeb else if k = 5 then s.valid.pay
       else if k = 6 then s.valid.out else false)) ∧
    readReg s 6 = s.data.inLen ∧ readReg s 7 = s.data.outLen ∧ (readReg s 8).toNat = s.data.treeLen.toNat ∧
    (readReg s 9).toNat = s.data.pad.toNat ∧ readReg s 10 = s.data.payLen ∧ readReg s 11 = s.data.bsLen ∧
    (readReg s 12).toNat = s.data.root.toNat ∧ (readReg s 13).toNat = s.data.nnode.toNat ∧
    (∀ k, (readReg s 14).getLsbD k =
      (if k < 4 then s.dbg.space.getLsbD k else if k < 8 then s.dbg.word.getLsbD (k - 4) else false)) ∧
    readReg s 15 = s.dbg.index ∧
    (s.par.wf = true → (readReg s 17).toNat = s.par.inCap ∧ (readReg s 18).toNat = s.par.outCap)

/-- R18, R82: the debug port returns the selected word of the selected element, bit by bit for the link word of NODE,
and 0 for any other selection. -/
def Obligations.DebugPortReadsTheSelectedWord : Prop :=
  ∀ (s : State) (i w : Nat), i = s.dbg.index.toNat → w = s.dbg.word.toNat →
    (s.dbg.space = 0 → i < 256 → w = 0 → readReg s 16 = s.freqAt i) ∧
    (s.dbg.space = 1 → i < 511 → w = 0 → readReg s 16 = (s.nodeAt i).freq) ∧
    (s.dbg.space = 1 → i < 511 → w = 1 → ∀ k, (readReg s 16).getLsbD k =
      (if k ≤ 8 then (s.nodeAt i).right.getLsbD k else if k ≤ 17 then (s.nodeAt i).left.getLsbD (k - 9)
       else if k ≤ 25 then (s.nodeAt i).sym.getLsbD (k - 18) else if k = 31 then (s.nodeAt i).leaf else false)) ∧
    (s.dbg.space = 2 → i < 256 → w < 8 → ∀ k, k < 32 →
      (readReg s 16).getLsbD k = (s.codeAt i).bits.getLsbD (224 - 32 * w + k)) ∧
    (s.dbg.space = 2 → i < 256 → w = 8 → readReg s 16 = (s.codeAt i).len.setWidth 32) ∧
    (s.dbg.space = 3 → i < 767 → w = 0 → readReg s 16 = (s.treebAt i).setWidth 32) ∧
    (s.dbg.space = 4 → i < s.par.inCap → w = 0 → readReg s 16 = (s.payAt i).setWidth 32) ∧
    (s.dbg.space = 5 → i < 8 * s.par.inCap → w = 0 → (readReg s 16).toNat = (s.bsAt i).toNat) ∧
    (s.dbg.space = 6 → i < s.par.inCap → w = 0 → readReg s 16 = (s.inAt i).setWidth 32) ∧
    (s.dbg.space = 7 → i < s.par.outCap → w = 0 → readReg s 16 = (s.outAt i).setWidth 32) ∧
    (7 < s.dbg.space.toNat ∨ (s.dbg.space = 0 ∧ (256 ≤ i ∨ w ≠ 0)) ∨ (s.dbg.space = 1 ∧ (511 ≤ i ∨ 1 < w)) ∨
      (s.dbg.space = 2 ∧ (256 ≤ i ∨ 8 < w)) ∨ (s.dbg.space = 3 ∧ (767 ≤ i ∨ w ≠ 0)) ∨
      (s.dbg.space = 4 ∧ (s.par.inCap ≤ i ∨ w ≠ 0)) ∨ (s.dbg.space = 5 ∧ (8 * s.par.inCap ≤ i ∨ w ≠ 0)) ∨
      (s.dbg.space = 6 ∧ (s.par.inCap ≤ i ∨ w ≠ 0)) ∨ (s.dbg.space = 7 ∧ (s.par.outCap ≤ i ∨ w ≠ 0)) →
      readReg s 16 = 0)

/-- R230, R232: HostReset puts every register in its reset value at any time, a command under way included; ID, IN_CAP and
OUT_CAP stay, the interrupt line is low and the engine is at rest. The contents of the memories are unspecified (R231), so
nothing is said about them. -/
def Obligations.HostResetAtAnyTime : Prop :=
  ∀ (s : State) (rest : List Turn), s.agenda = .host .reset :: rest →
    ∃ t, step s = .next t ∧ t.status = ⟨false, false, 0, 0⟩ ∧ t.elog = 0 ∧ t.ctrl = ⟨false, false, false⟩ ∧
      t.valid = ⟨false, false, false, false, false, false, false⟩ ∧ t.data = ⟨0, 0, 0, 0, 0, 0, 0, 0⟩ ∧
      t.dbg = ⟨0, 0, 0⟩ ∧ t.oplatch = 0 ∧ t.pq = [] ∧ t.par = s.par ∧ irq t = false ∧
      readReg t 0 = 0x48434531#32 ∧ readReg t 17 = readReg s 17 ∧ readReg t 18 = readReg s 18

/-- R35: what the registers read right after reset. IN_CAP and OUT_CAP read the suggested default that log 1 gives
State.reset. -/
def Obligations.RegistersAfterReset : Prop :=
  readReg State.reset 0 = 0x48434531#32 ∧ readReg State.reset 17 = 65536#32 ∧ readReg State.reset 18 = 65536#32 ∧
  (∀ idx, 1 ≤ idx → idx ≤ 15 → readReg State.reset idx = 0) ∧ State.reset.pq = [] ∧ State.reset.oplatch = 0 ∧
  irq State.reset = false

/-- R216: the interrupt line is DONE and IE; so it is high after a completion exactly when IE = 1, low after an
acceptance, low after DONE is cleared or a reset, and follows IE when the host writes CTRL. -/
def Obligations.InterruptLineFollowsDoneAndEnable : Prop :=
  ∀ (s t : State), irq s = ((readReg s 2).getLsbD 1 && (readReg s 4).getLsbD 2) ∧ (step s = .next t →
    (s.status.busy = true → t.status.busy = false → (∀ rest, s.agenda ≠ .host .reset :: rest) → irq t = s.ctrl.ie) ∧
    (∀ w rest, s.agenda = .host (.writeReg 1 w) :: rest → s.status.busy = false → irq t = false) ∧
    (∀ v rest, s.agenda = .host (.writeReg 2 v) :: rest → s.status.busy = false →
      irq t = (irq s && !v.getLsbD 1)) ∧
    (∀ v rest, s.agenda = .host (.writeReg 4 v) :: rest → s.status.busy = false →
      irq t = (s.status.done && v.getLsbD 2)) ∧
    (∀ rest, s.agenda = .host .reset :: rest → irq t = false))

/-! ## Rules about every command -/

/-- R186, R194, R14, R83: a command that ends leaves BUSY 0 and DONE 1, an error code of at most 9, in STAGE the opcode of
a primitive (never 0x10 or 0x11), and ELOG with exactly the bit of a nonzero error code added. -/
def Obligations.CompletionIsReported : Prop :=
  ∀ (i : Instr) (s t : State), i.isRecord = false → exec i s = .next t →
    t.status.busy = false ∧ t.status.done = true ∧ t.status.err.toNat ≤ 9 ∧
    (∀ k, t.elog.getLsbD k = (s.elog.getLsbD k || (decide (k ≠ 0) && decide (k = t.status.err.toNat)))) ∧
    (∀ w, commandWord i = some w →
      (w.toNat < 0x10 ∨ w.toNat = 0x1F → t.status.stage = w.setWidth 8) ∧
      (w.toNat = 0x10 → 1 ≤ t.status.stage.toNat ∧ t.status.stage.toNat ≤ 7) ∧
      (w.toNat = 0x11 → 8 ≤ t.status.stage.toNat ∧ t.status.stage.toNat ≤ 0xB))

/-- R16, R17, R26, R217, R218: whatever the engine executes, it never writes IN, IN_LEN, CTRL or the debug registers, and
the capacities are constants. That OPLATCH stays is the model's reading (log 12: R33 gives it no value after completion),
and the epoch, agenda, reply and mismatches are the model's own fields. -/
def Obligations.EngineNeverWritesTheHostsState : Prop :=
  ∀ (i : Instr) (s t : State), exec i s = .next t →
    hostSideSame s t ∧ ∀ k, sameAt s t .inp k

/-- R211, R6: what a failing primitive changes, row by row: its output flags are cleared, its registers zeroed, and no
element of a memory, no other flag, no other data register, no queue member and nothing on the host's side changes; an
illegal command word clears nothing. That OPLATCH stays, which hostSideSame contains, is the model's reading (log 12). -/
def Obligations.FailingPrimitiveOnlyInvalidatesItsOutputs : Prop :=
  ∀ (s t : State), t.status.err ≠ 0 →
    let unwritten := (∀ sp k, sameAt s t sp k) ∧ t.pq = s.pq
    let kept := hostSideSame s t ∧ unwritten
    (exec .freq s = .next t → kept ∧ t.valid = { s.valid with freq := false } ∧ t.data = s.data) ∧
    (exec .build s = .next t ∨ exec .destree s = .next t → kept ∧ t.valid = { s.valid with tree := false } ∧
      t.data = { s.data with root := 0, nnode := 0 }) ∧
    (exec .gencode s = .next t → kept ∧ t.valid = { s.valid with code := false } ∧ t.data = s.data) ∧
    (exec .encode s = .next t ∨ exec .unpack s = .next t → kept ∧ t.valid = { s.valid with bs := false } ∧
      t.data = { s.data with bsLen := 0 }) ∧
    (exec .sertree s = .next t → kept ∧ t.valid = { s.valid with treeb := false } ∧
      t.data = { s.data with treeLen := 0 }) ∧
    (exec .pack s = .next t → kept ∧ t.valid = { s.valid with pay := false } ∧
      t.data = { s.data with payLen := 0, pad := 0 }) ∧
    (exec .wrcont s = .next t ∨ exec .walk s = .next t → kept ∧ t.valid = { s.valid with out := false } ∧
      t.data = { s.data with outLen := 0 }) ∧
    (exec .rdcont s = .next t → kept ∧ t.valid = { s.valid with treeb := false, pay := false } ∧
      t.data = { s.data with treeLen := 0, payLen := 0, pad := 0 }) ∧
    (∀ rest w, engineNext s rest → s.status.busy = true → s.parsing = false →
      decodeCommand s.oplatch = .error (.illegalCommand w) → step s = .next t →
      hostSideSame { s with agenda := rest } t ∧ unwritten ∧ t.valid = s.valid ∧ t.data = s.data)

/-- R14: a bit of ELOG is set by the completion with that error code and by nothing else, stays set until the host writes
it as 1 at rest or resets the engine, and is cleared then; bit 0 and bits 31:10 read 0. -/
def Obligations.ElogIsTheStickyLogOfErrors : Prop :=
  ∀ (s t : State) (k : Nat), step s = .next t →
    let noReset := ∀ rest, s.agenda ≠ .host .reset :: rest
    let completes := s.status.busy = true ∧ t.status.busy = false ∧ noReset
    (completes → t.status.err.toNat = k → k ≠ 0 → t.elog.getLsbD k = true) ∧
    (s.elog.getLsbD k = false → t.elog.getLsbD k = true → completes ∧ t.status.err.toNat = k) ∧
    (s.elog.getLsbD k = true → noReset →
      (∀ v rest, s.agenda = .host (.writeReg 3 v) :: rest → v.getLsbD k = false ∨ s.status.busy = true) →
      t.elog.getLsbD k = true) ∧
    (∀ v rest, s.agenda = .host (.writeReg 3 v) :: rest → s.status.busy = false → v.getLsbD k = true → 1 ≤ k → k ≤ 9 →
      t.elog.getLsbD k = false) ∧
    (∀ rest, s.agenda = .host .reset :: rest → t.elog.getLsbD k = false) ∧
    (s.elog.getLsbD 0 = false → t.elog.getLsbD 0 = false ∧ (readReg s 3).getLsbD 0 = false) ∧
    (10 ≤ k → (readReg s 3).getLsbD k = false)

/-- R215: a failed command that is issued again without a change of the state fails with the same code at the same
stage. -/
def Obligations.FailedCommandsFailAgain : Prop :=
  ∀ (i : Instr) (s t : State), i.isRecord = false → s.par.wf = true → exec i s = .next t → t.status.err ≠ 0 →
    ∃ u, exec i t = .next u ∧ u.status.err = t.status.err ∧ u.status.stage = t.status.stage

/-! ## The commands -/

/-- R188, R189, R192: NOP changes only STATUS (and never fails); CLEAR clears every valid flag and zeroes every register
that commands write, and changes nothing else. -/
def Obligations.NopAndClearComplete : Prop :=
  ∀ s : State,
    (∃ t, exec .nop s = .next t ∧ reports s t 0x00 none (fun _ _ => False) ∧ t.valid = s.valid ∧ t.data = s.data ∧
      t.pq = s.pq) ∧
    (∃ t, exec .clear s = .next t ∧ reports s t 0x1F none (fun _ _ => False) ∧
      t.valid = ⟨false, false, false, false, false, false, false⟩ ∧ t.data = ⟨s.data.inLen, 0, 0, 0, 0, 0, 0, 0⟩ ∧
      t.pq = s.pq)

/-- R91, R92: FREQ with its tests in order. On success FREQ holds, for each symbol, how often it occurs in
`IN[0..IN_LEN)`. -/
def Obligations.FreqCountsTheInput : Prop :=
  ∀ s : State,
    (s.ctrl.srcOk = true → s.data.inLen.toNat ≤ s.par.inCap → 1 ≤ s.data.inLen.toNat →
      ∃ t, exec .freq s = .next t ∧ reports s t 0x01 none (fun sp k => sp = .freq ∧ k < 256) ∧
        t.valid = { s.valid with freq := true } ∧ t.data = s.data ∧ t.pq = s.pq ∧
        ∀ c : Byte, t.freqAt c.toNat = BitVec.ofNat 32 (s.input.count c)) ∧
    (∀ e, freqVerdict s = some e →
      ∃ t, exec .freq s = .next t ∧ failsWith s t 0x01 e { s.valid with freq := false } s.data)

/-- R95, R97: extraction takes the member with the least key, where keys are compared by frequency and then by id, and
leaves the other members. -/
def Obligations.QueueExtractsTheLeastKey : Prop :=
  ∀ (key : NodeId → Key) (pq : List NodeId), pq.Nodup → (∀ id ∈ pq, (key id).2 = id.toNat) →
    (pq = [] → pqExtractMin key pq = none) ∧
    (pq ≠ [] → ∃ m rest, pqExtractMin key pq = some (m, rest) ∧ m ∈ pq ∧ rest.Nodup ∧
      (∀ id, id ∈ rest ↔ id ∈ pq ∧ id ≠ m) ∧
      ∀ id ∈ rest, (key m).1 < (key id).1 ∨ ((key m).1 = (key id).1 ∧ m.toNat < id.toNat))

/-- R100, with R99, R98 and R95: BUILD with its tests in order. On success the leaf of each observed symbol is its slot;
merge `k` makes slot 256 + k of the two nodes of least (frequency, id) then in the queue, the least on the left, with the
sum of their frequencies; ROOT is the last node, NNODE is 2L - 1, and every other slot stays. Where the counts break R34
item 1 the sum is taken modulo 2^32, which is the model's reading (log 11). -/
def Obligations.BuildMergesTheTwoLeastNodes : Prop :=
  ∀ s : State,
    (s.valid.freq = true → observed s ≠ [] →
      let L := (observed s).length
      ∃ t, exec .build s = .next t ∧
        reports s t 0x02 none (fun sp id => sp = .node ∧ (id ∈ observed s ∨ (256 ≤ id ∧ id < 256 + (L - 1)))) ∧
        t.valid = { s.valid with tree := true } ∧
        t.data = { s.data with root := t.data.root, nnode := BitVec.ofNat 10 (2 * L - 1) } ∧ t.pq = [] ∧
        (∀ c ∈ observed s, t.nodeAt c = ⟨true, BitVec.ofNat 8 c, s.freqAt c, 0, 0⟩ ∧
          (L = 1 → t.data.root.toNat = c)) ∧
        (2 ≤ L → t.data.root.toNat = 256 + L - 2) ∧
        (∀ k, k < L - 1 →
          let n := t.nodeAt (256 + k)
          let keyOf := fun id : Nat => ((t.nodeAt id).freq.toNat, id)
          n = ⟨false, 0, (t.nodeAt n.left.toNat).freq + (t.nodeAt n.right.toNat).freq, n.left, n.right⟩ ∧
          inQueueAt s t k n.left.toNat ∧ inQueueAt s t k n.right.toNat ∧
          keyLt (keyOf n.left.toNat) (keyOf n.right.toNat) = true ∧
          (∀ id, inQueueAt s t k id → id ≠ n.left.toNat → id ≠ n.right.toNat →
            keyLt (keyOf n.right.toNat) (keyOf id) = true))) ∧
    (∀ e, buildVerdict s = some e →
      ∃ t, exec .build s = .next t ∧
        failsWith s t 0x02 e { s.valid with tree := false } { s.data with root := 0, nnode := 0 })

/-- R102 items 2 to 5: after a successful BUILD the slots under ROOT are a tree (R24) whose leaves are the observed
symbols, each once, and which is no single leaf when two symbols were observed; with counts that sum to less than 2^32,
as R34 item 1 makes them, the root's frequency is their sum. -/
def Obligations.BuildLeavesATreeOfTheObservedSymbols : Prop :=
  ∀ s t : State, exec .build s = .next t → t.status.err = 0 →
    TreeOk t ∧
    (∃ tr, t.tree = .ok tr ∧ (treeSymbols tr).Perm ((observed s).map (fun c => BitVec.ofNat 8 c)) ∧
      (2 ≤ (observed s).length → ∀ c, tr ≠ .leaf c)) ∧
    (((List.range 256).map (fun c => (s.freqAt c).toNat)).sum < 2 ^ 32 →
      (t.nodeAt t.data.root.toNat).freq.toNat = ((List.range 256).map (fun c => (s.freqAt c).toNat)).sum)

/-- R105: BUILD is a function of FREQ: the same counts give the same verdict, ROOT, NNODE and, slot by slot, the same
nodes. -/
def Obligations.BuildIsAFunctionOfTheCounts : Prop :=
  ∀ s s' t t' : State, (∀ c, c < 256 → s.freqAt c = s'.freqAt c) → s.valid.freq = true → s'.valid.freq = true →
    exec .build s = .next t → exec .build s' = .next t' →
    t.status.err = t'.status.err ∧ t.data.root = t'.data.root ∧ t.data.nnode = t'.data.nnode ∧
    (t.status.err = 0 → ∀ id, (id ∈ observed s ∨ (256 ≤ id ∧ id < 256 + ((observed s).length - 1))) →
      t.nodeAt id = t'.nodeAt id)

/-- R112, R110, R111, R115, R81: GENCODE with its test. On success each symbol of a leaf has the path to the last such
leaf as its code, "0" at a leaf root, left-aligned with zeros after it, and every other symbol has no code. -/
def Obligations.GencodeRecordsEachLeafsPath : Prop :=
  ∀ s : State,
    (∀ tr, s.valid.tree = true → s.tree = .ok tr →
      ∃ t, exec .gencode s = .next t ∧ reports s t 0x03 none (fun sp k => sp = .code ∧ k < 256) ∧
        t.valid = { s.valid with code := true } ∧ t.data = s.data ∧ t.pq = s.pq ∧
        ∀ c : Byte,
          (∀ before path after, codes tr = before ++ (c, path) :: after → (∀ p ∈ after, p.1 ≠ c) →
            codeBits (t.codeAt c.toNat) = (if path = [] then [false] else path) ∧
            (t.codeAt c.toNat).len.toNat = (if path = [] then 1 else path.length) ∧
            ∀ k, k < 256 - (t.codeAt c.toNat).len.toNat → (t.codeAt c.toNat).bits.getLsbD k = false) ∧
          ((∀ p ∈ codes tr, p.1 ≠ c) → t.codeAt c.toNat = ⟨0, 0⟩)) ∧
    (s.valid.tree = false →
      ∃ t, exec .gencode s = .next t ∧ failsWith s t 0x03 .sequenceError { s.valid with code := false } s.data)

/-- R114: after a successful GENCODE the codes of two distinct symbols that have one are neither equal nor is one a
prefix of the other. -/
def Obligations.GeneratedCodesArePrefixFree : Prop :=
  ∀ s t : State, exec .gencode s = .next t → t.status.err = 0 →
    ∀ a b : Byte, a ≠ b → (t.codeAt a.toNat).len ≠ 0 → (t.codeAt b.toNat).len ≠ 0 →
      ¬ codeBits (t.codeAt a.toNat) <+: codeBits (t.codeAt b.toNat) ∧
      codeBits (t.codeAt a.toNat) ≠ codeBits (t.codeAt b.toNat)

/-- R166, R165: ENCODE with its tests in order. When every input byte has a code and the codes fit BS, BS holds their
concatenation in input order; otherwise the first byte at which a code is missing or does not fit decides between
SequenceError and BufferOverflow. -/
def Obligations.EncodeConcatenatesTheCodes : Prop :=
  ∀ s : State, s.par.wf = true →
    let codeOfByte := fun b : Byte => codeBits (s.codeAt b.toNat)
    (encodeVerdict s = none → (∀ b ∈ s.input, (s.codeAt b.toNat).len ≠ 0) →
      (enc codeOfByte s.input).length ≤ s.par.bsCap →
      ∃ t, exec .encode s = .next t ∧
        reports s t 0x04 none (fun sp k => sp = .bs ∧ k < (enc codeOfByte s.input).length) ∧
        t.valid = { s.valid with bs := true } ∧ t.data = { s.data with bsLen := t.data.bsLen } ∧ t.pq = s.pq ∧
        t.data.bsLen.toNat = (enc codeOfByte s.input).length ∧ t.bitString = enc codeOfByte s.input) ∧
    (∀ before b after e, encodeVerdict s = none → s.input = before ++ b :: after →
      (∀ x ∈ before, (s.codeAt x.toNat).len ≠ 0) → (enc codeOfByte before).length ≤ s.par.bsCap →
      ((s.codeAt b.toNat).len = 0 ∧ e = .sequenceError ∨
        (s.codeAt b.toNat).len ≠ 0 ∧ s.par.bsCap < (enc codeOfByte (before ++ [b])).length ∧ e = .bufferOverflow) →
      ∃ t, exec .encode s = .next t ∧
        failsWith s t 0x04 e { s.valid with bs := false } { s.data with bsLen := 0 }) ∧
    (∀ e, encodeVerdict s = some e →
      ∃ t, exec .encode s = .next t ∧
        failsWith s t 0x04 e { s.valid with bs := false } { s.data with bsLen := 0 })

/-- R121, R120, R122: SERTREE with its test. On success TREEB holds the preorder bytes of the tree under ROOT, and
TREE_LEN is three times its leaves less one. -/
def Obligations.SertreeWritesThePreorderBytes : Prop :=
  ∀ s : State,
    (∀ tr, s.valid.tree = true → s.tree = .ok tr → (treeSymbols tr).length ≤ 256 →
      ∃ t, exec .sertree s = .next t ∧ reports s t 0x05 none (fun sp k => sp = .treeb ∧ k < (ser tr).length) ∧
        t.valid = { s.valid with treeb := true } ∧ t.data = { s.data with treeLen := t.data.treeLen } ∧ t.pq = s.pq ∧
        t.data.treeLen.toNat = 3 * (treeSymbols tr).length - 1 ∧ t.treeBytes = ser tr) ∧
    (s.valid.tree = false →
      ∃ t, exec .sertree s = .next t ∧
        failsWith s t 0x05 .sequenceError { s.valid with treeb := false } { s.data with treeLen := 0 })

/-- R125, R123, R124, R127, R128: DESTREE with its tests. It accepts exactly the preorder bytes of a tree of at most 511
nodes; the nodes enter the arena in preorder from slot 0 with frequency 0, ROOT is 0 and NNODE their number. -/
def Obligations.DestreeLoadsExactlyTheSerializedTrees : Prop :=
  ∀ s : State,
    (∀ tr, s.valid.treeb = true → s.treeBytes = ser tr → treeSize tr ≤ 511 →
      ∃ t, exec .destree s = .next t ∧ reports s t 0x09 none (fun sp k => sp = .node ∧ k < treeSize tr) ∧
        t.valid = { s.valid with tree := true } ∧
        t.data = { s.data with root := 0, nnode := BitVec.ofNat 10 (treeSize tr) } ∧ t.pq = s.pq ∧
        (∀ k, k < treeSize tr → some (t.nodeAt k) = (preorderNodes tr 0)[k]?) ∧
        t.tree = .ok tr ∧ TreeOk t) ∧
    (s.valid.treeb = false →
      ∃ t, exec .destree s = .next t ∧
        failsWith s t 0x09 .sequenceError { s.valid with tree := false } { s.data with root := 0, nnode := 0 }) ∧
    (s.valid.treeb = true → s.data.treeLen.toNat ≤ 767 → (∀ tr, s.treeBytes = ser tr → 511 < treeSize tr) →
      ∃ t, exec .destree s = .next t ∧
        failsWith s t 0x09 .malformedTree { s.valid with tree := false } { s.data with root := 0, nnode := 0 })

/-- R129, R75: whether DESTREE succeeds is decided by the grammar alone: the tree-bytes are those of a well-formed record
stream of at most 511 records. -/
def Obligations.DestreeAcceptsTheGrammarOfTreeBytes : Prop :=
  ∀ s : State, s.valid.treeb = true → s.data.treeLen.toNat ≤ 767 →
    ∃ t, exec .destree s = .next t ∧
      (t.status.err = 0 ↔ ∃ rs, treeRecordsWf rs = true ∧ s.treeBytes = rs.flatMap recordBytes)

/-- R130: after SERTREE and DESTREE the tree under ROOT is the same tree and GENCODE gives the same codes; after DESTREE and SERTREE the tree-bytes are
the same bytes. -/
def Obligations.SerializationIsATwoSidedInverse : Prop :=
  (∀ s tr, s.valid.tree = true → TreeOk s → s.tree = .ok tr →
    ∃ t u, exec .sertree s = .next t ∧ exec .destree t = .next u ∧ t.status.err = 0 ∧ u.status.err = 0 ∧
      u.tree = .ok tr ∧
      ∀ g h, exec .gencode s = .next g → exec .gencode u = .next h → ∀ c, c < 256 → h.codeAt c = g.codeAt c) ∧
  (∀ s t, exec .destree s = .next t → t.status.err = 0 →
    ∃ u, exec .sertree t = .next u ∧ u.status.err = 0 ∧ u.data.treeLen = s.data.treeLen ∧ u.treeBytes = s.treeBytes)

/-- R136, R135, R137: PACK with its test. On success PAY holds the bits of BS eight to a byte, the first the most
significant, the last byte filled up with zeros, and PAD is `(8 - n mod 8) mod 8`. -/
def Obligations.PackFillsBytesMostSignificantFirst : Prop :=
  ∀ s : State,
    (s.par.wf = true → s.valid.bs = true → s.data.bsLen.toNat ≤ s.par.bsCap →
      let n := s.data.bsLen.toNat
      ∃ t, exec .pack s = .next t ∧ reports s t 0x06 none (fun sp k => sp = .pay ∧ k < (n + 7) / 8) ∧
        t.valid = { s.valid with pay := true } ∧
        t.data = { s.data with payLen := t.data.payLen, pad := t.data.pad } ∧ t.pq = s.pq ∧
        t.data.payLen.toNat = (n + 7) / 8 ∧ t.data.pad.toNat = (8 - n % 8) % 8 ∧
        8 * t.data.payLen.toNat = n + t.data.pad.toNat ∧
        (∀ j k, j < (n + 7) / 8 → k < 8 →
          (t.payAt j).getLsbD (7 - k) = (if 8 * j + k < n then s.bsAt (8 * j + k) else false))) ∧
    (s.valid.bs = false →
      ∃ t, exec .pack s = .next t ∧
        failsWith s t 0x06 .sequenceError { s.valid with pay := false } { s.data with payLen := 0, pad := 0 })

/-- R140, R139, R141: UNPACK with its test. On success BS holds the bits of PAY, the most significant of each byte first,
less PAD bits at the end, whatever those are. -/
def Obligations.UnpackDropsThePaddingBits : Prop :=
  ∀ s : State,
    (s.par.wf = true → s.valid.pay = true → s.data.payLen.toNat ≤ s.par.payCap →
      (s.data.payLen = 0 → s.data.pad = 0) →
      let n := 8 * s.data.payLen.toNat - s.data.pad.toNat
      ∃ t, exec .unpack s = .next t ∧ reports s t 0x0A none (fun sp k => sp = .bs ∧ k < n) ∧
        t.valid = { s.valid with bs := true } ∧ t.data = { s.data with bsLen := t.data.bsLen } ∧ t.pq = s.pq ∧
        t.data.bsLen.toNat + s.data.pad.toNat = 8 * s.data.payLen.toNat ∧
        (∀ i, i < n → t.bsAt i = (s.payAt (i / 8)).getLsbD (7 - i % 8))) ∧
    (s.valid.pay = false →
      ∃ t, exec .unpack s = .next t ∧
        failsWith s t 0x0A .sequenceError { s.valid with bs := false } { s.data with bsLen := 0 })

/-- R142: PACK and then UNPACK give back BS_LEN and the bit-string; UNPACK and then PACK give back PAY_LEN, PAD and PAY
but for the PAD low bits of the last byte, which are 0 then. -/
def Obligations.PackAndUnpackRoundTrip : Prop :=
  ∀ s : State, s.par.wf = true →
    (s.valid.bs = true → s.data.bsLen.toNat ≤ s.par.bsCap →
      ∃ t u, exec .pack s = .next t ∧ exec .unpack t = .next u ∧ u.status.err = 0 ∧ u.data.bsLen = s.data.bsLen ∧
        u.bitString = s.bitString) ∧
    (s.valid.pay = true → s.data.payLen.toNat ≤ s.par.payCap → (s.data.payLen = 0 → s.data.pad = 0) →
      ∃ t u, exec .unpack s = .next t ∧ exec .pack t = .next u ∧ u.status.err = 0 ∧
        u.data.payLen = s.data.payLen ∧ u.data.pad = s.data.pad ∧
        (∀ j k, j < s.data.payLen.toNat → k < 8 →
          (u.payAt j).getLsbD k =
            if j + 1 = s.data.payLen.toNat ∧ k < s.data.pad.toNat then false else (s.payAt j).getLsbD k))

/-- R138, R143: the packer's shift register with its flush computes the pack function of R135 for every bit-string, and the
bit-stream shifter the unpack function of R139. -/
def Obligations.ShiftersComputePackAndUnpack : Prop :=
  (∀ bits : List Bool, packByShifter bits = (packBytes bits, padCount bits.length)) ∧
  (∀ (bytes : List Byte) (pc : Nat), unpackByShifter bytes pc = unpackBits bytes pc)

/-- R152, R150, R151: WRCONT with its tests in order. On success OUT holds the container, field after field, little-endian
counts; on failure no byte of OUT is written. -/
def Obligations.WrcontWritesTheContainer : Prop :=
  ∀ s : State,
    (s.par.wf = true → wrcontVerdict s = none → s.data.treeLen.toNat ≤ 767 → s.data.payLen.toNat ≤ s.par.payCap →
      let T := s.data.treeLen.toNat
      let P := s.data.payLen.toNat
      ∃ t, exec .wrcont s = .next t ∧ reports s t 0x07 none (fun sp k => sp = .out ∧ k < 12 + T + P) ∧
        t.valid = { s.valid with out := true } ∧ t.data = { s.data with outLen := t.data.outLen } ∧ t.pq = s.pq ∧
        t.data.outLen.toNat = 12 + T + P ∧
        (∀ k, k < 4 → (t.outAt k).toNat = T / 256 ^ k % 256 ∧
          (t.outAt (4 + T + k)).toNat = s.data.pad.toNat / 256 ^ k % 256 ∧
          (t.outAt (8 + T + k)).toNat = P / 256 ^ k % 256) ∧
        (∀ i, i < T → t.outAt (4 + i) = s.treebAt i) ∧
        (∀ i, i < P → t.outAt (12 + T + i) = s.payAt i)) ∧
    (∀ e, wrcontVerdict s = some e →
      ∃ t, exec .wrcont s = .next t ∧
        failsWith s t 0x07 e { s.valid with out := false } { s.data with outLen := 0 })

/-- R155: RDCONT with its tests in order. On success TREE_LEN, PAD and PAY_LEN are the three little-endian counts and TREEB
and PAY the bytes that they frame. -/
def Obligations.RdcontReadsTheContainer : Prop :=
  ∀ s : State,
    (rdcontVerdict s = none →
      let T := s.inWord 0
      let P := s.inWord (8 + T)
      ∃ t, exec .rdcont s = .next t ∧
        reports s t 0x08 none (fun sp k => (sp = .treeb ∧ k < T) ∨ (sp = .pay ∧ k < P)) ∧
        t.valid = { s.valid with treeb := true, pay := true } ∧
        t.data = { s.data with treeLen := t.data.treeLen, pad := t.data.pad, payLen := t.data.payLen } ∧
        t.pq = s.pq ∧ t.data.treeLen.toNat = T ∧ t.data.pad.toNat = s.inWord (4 + T) ∧ t.data.payLen.toNat = P ∧
        (∀ i, i < T → t.treebAt i = s.inAt (4 + i)) ∧ (∀ i, i < P → t.payAt i = s.inAt (12 + T + i))) ∧
    (∀ e, rdcontVerdict s = some e →
      ∃ t, exec .rdcont s = .next t ∧
        failsWith s t 0x08 e { s.valid with treeb := false, pay := false }
          { s.data with treeLen := 0, payLen := 0, pad := 0 })

/-- R157: a container that WRCONT wrote from non-empty tree-bytes and payload, copied to IN, is read back by RDCONT as the
same tree-bytes, padding count and payload; and RDCONT followed by WRCONT reproduces the container byte for byte. -/
def Obligations.ContainerRoundTrip : Prop :=
  (∀ s t u, s.par.wf = true → exec .wrcont s = .next t → t.status.err = 0 → 1 ≤ s.data.treeLen.toNat →
    1 ≤ s.data.payLen.toNat → u.par = s.par → u.ctrl.srcOk = true → u.data.inLen = t.data.outLen →
    t.data.outLen.toNat ≤ s.par.inCap → u.input = t.output →
    ∃ v, exec .rdcont u = .next v ∧ v.status.err = 0 ∧ v.data.treeLen = s.data.treeLen ∧ v.data.pad = s.data.pad ∧
      v.data.payLen = s.data.payLen ∧ v.treeBytes = s.treeBytes ∧ v.payload = s.payload) ∧
  (∀ s t, exec .rdcont s = .next t → t.status.err = 0 → s.ctrl.dstOk = true →
    s.data.inLen.toNat ≤ s.par.outCap →
    ∃ u, exec .wrcont t = .next u ∧ u.status.err = 0 ∧ u.data.outLen = s.data.inLen ∧ u.output = s.input)

/-- R172, R170, R173, R175, R176: WALK with its tests in order. When the bits of BS walk the tree under ROOT from the root
back to the root and the symbols fit OUT, OUT holds them; a symbol that does not fit raises BufferOverflow; a 1 at a leaf
root or an end away from the root raises InvalidCodeWalk. -/
def Obligations.WalkEmitsTheSymbolsOfTheTree : Prop :=
  ∀ s : State, s.par.wf = true →
    (∀ tr syms, walkVerdict s = none → s.data.bsLen.toNat ≤ s.par.bsCap → s.tree = .ok tr →
      walkTree tr s.bitString tr = some syms → syms.length ≤ s.par.outCap →
      ∃ t, exec .walk s = .next t ∧ reports s t 0x0B none (fun sp k => sp = .out ∧ k < syms.length) ∧
        t.valid = { s.valid with out := true } ∧ t.data = { s.data with outLen := t.data.outLen } ∧ t.pq = s.pq ∧
        t.data.outLen.toNat = syms.length ∧ t.output = syms) ∧
    (∀ tr e, walkVerdict s = none → s.data.bsLen.toNat ≤ s.par.bsCap → s.tree = .ok tr →
      (overflowsOut tr s.bitString s.par.outCap ∧ e = .bufferOverflow ∨
        ¬ overflowsOut tr s.bitString s.par.outCap ∧ walkTree tr s.bitString tr = none ∧ e = .invalidCodeWalk) →
      ∃ t, exec .walk s = .next t ∧
        failsWith s t 0x0B e { s.valid with out := false } { s.data with outLen := 0 }) ∧
    (∀ e, walkVerdict s = some e →
      ∃ t, exec .walk s = .next t ∧
        failsWith s t 0x0B e { s.valid with out := false } { s.data with outLen := 0 })

/-- R177: GENCODE, ENCODE and WALK against a valid tree with distinct symbols give back the input bytes, when each of them
has a leaf and the buffers hold the code and the symbols. -/
def Obligations.WalkInvertsEncode : Prop :=
  ∀ (s : State) (tr : CodeTree), s.par.wf = true → s.valid.tree = true → TreeOk s → s.tree = .ok tr →
    (treeSymbols tr).Nodup → s.ctrl.srcOk = true → s.ctrl.dstOk = true → s.data.inLen.toNat ≤ s.par.inCap →
    s.data.inLen.toNat ≤ s.par.outCap → (∀ b ∈ s.input, b ∈ treeSymbols tr) →
    (enc (codeIn tr) s.input).length ≤ s.par.bsCap →
    ∃ t u v, exec .gencode s = .next t ∧ exec .encode t = .next u ∧ exec .walk u = .next v ∧
      v.status.err = 0 ∧ v.output = s.input

/-! ## The macro commands -/

/-- R89, R190, R191: each macro is CLEAR's invalidation and its fixed sequence of primitives, ended by the first failure:
it leaves what the same commands issued one by one leave, or stops where they stop, in everything but the free working
registers. -/
def Obligations.MacrosAreTheirPrimitivesInSequence : Prop :=
  ∀ (s : State) (macroCommand : Instr) (parts : List Instr),
    (macroCommand = .compress ∧ parts = [.clear, .freq, .build, .gencode, .encode, .sertree, .pack, .wrcont] ∨
      macroCommand = .decompress ∧ parts = [.clear, .rdcont, .destree, .unpack, .walk]) →
    (∀ t, exec macroCommand s = .next t → ∃ u, runCommands parts s = .next u ∧ sameButWork t u) ∧
    (∀ f, exec macroCommand s = .fault f ↔ runCommands parts s = .fault f)

/-- R190: COMPRESS completes with the container of the input's tree when the source and the destination are usable, the
input is not empty and fits IN, its code fits BS and the container fits OUT. That there is a tree and that its code fits
are statements of their own (EveryInputHasATree, InputsCodeFitsEightBitsAByte). -/
def Obligations.CompressWritesTheContainerOfTheInput : Prop :=
  ∀ (s : State) (tr : CodeTree), s.par.wf = true → s.ctrl.srcOk = true → s.ctrl.dstOk = true →
    1 ≤ s.data.inLen.toNat → s.data.inLen.toNat ≤ s.par.inCap → treeOfInput s.input = some tr →
    (enc (codeIn tr) s.input).length ≤ s.par.bsCap → (containerOf tr s.input).length ≤ s.par.outCap →
    ∃ t, exec .compress s = .next t ∧ t.status = ⟨false, true, 0, 0x07⟩ ∧ t.elog = s.elog ∧
      t.valid = ⟨true, true, true, true, true, true, true⟩ ∧ t.output = containerOf tr s.input ∧
      t.tree = .ok tr ∧ hostSideSame s t ∧ (∀ k, sameAt s t .inp k) ∧
      (∀ k, (containerOf tr s.input).length ≤ k → sameAt s t .out k)

/-- R90, R100, R102: every input that is not empty and fits IN has a tree, whose symbols are the bytes of the input, each
once. So the hypothesis on the tree in the statement about COMPRESS shuts nothing out. -/
def Obligations.EveryInputHasATree : Prop :=
  ∀ b : List Byte, b ≠ [] → b.length < 2 ^ 29 →
    ∃ tr, treeOfInput b = some tr ∧ (treeSymbols tr).Nodup ∧ (∀ c, c ∈ treeSymbols tr ↔ c ∈ b) ∧
      treeSize tr = 2 * (treeSymbols tr).length - 1

/-- R168, R102 item 7: the code of the tree that an input makes takes at most eight bits a byte, and at least one. So the
hypothesis on BS in the statement about COMPRESS shuts nothing out, and ENCODE's BufferOverflow never fires there. -/
def Obligations.InputsCodeFitsEightBitsAByte : Prop :=
  ∀ (b : List Byte) (tr : CodeTree), b.length < 2 ^ 29 → treeOfInput b = some tr →
    b.length ≤ (enc (codeIn tr) b).length ∧ (enc (codeIn tr) b).length ≤ 8 * b.length

/-- R190: COMPRESS reports no error but those of its table: one of FREQ's at stage 0x01, or at stage 0x07 IOOpenFailure for
DST_OK = 0 or else BufferOverflow for a container that does not fit OUT. -/
def Obligations.CompressReportsNoOtherError : Prop :=
  ∀ s t : State, s.par.wf = true → exec .compress s = .next t → t.status.err ≠ 0 →
    (∃ e, freqVerdict s = some e ∧ t.status.err = e.code ∧ t.status.stage = 0x01) ∨
    (freqVerdict s = none ∧ t.status.stage = 0x07 ∧
      (s.ctrl.dstOk = false ∧ t.status.err = 1 ∨
        s.ctrl.dstOk = true ∧ t.status.err = 9 ∧
          s.par.outCap < 12 + t.data.treeLen.toNat + t.data.payLen.toNat))

/-- R190's table of errors as far as registers and the container's size decide them: SRC_OK = 0, IN_LEN above IN_CAP and
IN_LEN = 0 are reported at stage 0x01; DST_OK = 0 and a container that does not fit OUT at stage 0x07. OUT_V and OUT_LEN
are 0 after each. -/
def Obligations.CompressReportsItsFailures : Prop :=
  ∀ s : State, s.par.wf = true →
    (∀ e, freqVerdict s = some e →
      ∃ t, exec .compress s = .next t ∧ t.status = ⟨false, true, e.code, 0x01⟩ ∧
        t.valid = ⟨false, false, false, false, false, false, false⟩ ∧ t.data = ⟨s.data.inLen, 0, 0, 0, 0, 0, 0, 0⟩) ∧
    (∀ tr (e : ErrKind), freqVerdict s = none → treeOfInput s.input = some tr → (enc (codeIn tr) s.input).length ≤ s.par.bsCap →
      (s.ctrl.dstOk = false ∧ e = .ioOpenFailure ∨
        s.ctrl.dstOk = true ∧ s.par.outCap < (containerOf tr s.input).length ∧ e = .bufferOverflow) →
      ∃ t, exec .compress s = .next t ∧ t.status = ⟨false, true, e.code, 0x07⟩ ∧
        t.valid = ⟨true, true, true, true, true, true, false⟩ ∧ t.data.outLen = 0)

/-- R191: DECOMPRESS completes with the symbols that the payload walks to when IN holds a consistent container of the bytes
of a tree of at most 511 nodes, the walk ends at the root and the symbols fit OUT; and its table of errors, each with its
stage. -/
def Obligations.DecompressDecodesTheContainer : Prop :=
  ∀ s : State, s.par.wf = true →
    let endsWith := fun (e : ErrKind) (stage : Byte) => ∃ t, exec .decompress s = .next t ∧
      t.status = ⟨false, true, e.code, stage⟩ ∧ t.valid.out = false ∧ t.data.outLen = 0
    (∀ e, rdcontVerdict s = some e → endsWith e 0x08) ∧
    (∀ tb pc pay, rdcontVerdict s = none → s.input = cont tb pc pay → (∀ tr, tb = ser tr → 511 < treeSize tr) →
      endsWith .malformedTree 0x09) ∧
    (∀ tr pc pay, rdcontVerdict s = none → s.input = cont (ser tr) pc pay → pc ≤ 7 → treeSize tr ≤ 511 →
      let bits := unpackBits pay pc
      (s.ctrl.dstOk = false → endsWith .ioOpenFailure 0x0B) ∧
      (s.ctrl.dstOk = true → overflowsOut tr bits s.par.outCap → endsWith .bufferOverflow 0x0B) ∧
      (s.ctrl.dstOk = true → ¬ overflowsOut tr bits s.par.outCap → walkTree tr bits tr = none →
        endsWith .invalidCodeWalk 0x0B) ∧
      (∀ syms, s.ctrl.dstOk = true → walkTree tr bits tr = some syms → syms.length ≤ s.par.outCap →
        ∃ t, exec .decompress s = .next t ∧ t.status = ⟨false, true, 0, 0x0B⟩ ∧ t.elog = s.elog ∧
          t.valid = ⟨false, true, false, true, true, true, true⟩ ∧ t.output = syms ∧ t.tree = .ok tr ∧
          t.data.root = 0 ∧ t.data.nnode.toNat = treeSize tr ∧ t.treeBytes = ser tr ∧ t.payload = pay ∧
          t.bitString = bits ∧ hostSideSame s t ∧ (∀ k, sameAt s t .inp k) ∧
          (∀ k, syms.length ≤ k → sameAt s t .out k)))

/-- R178: what COMPRESS wrote from an input, placed in IN, DECOMPRESS turns back into that input, whenever the container
fits IN and the input fits OUT. -/
def Obligations.CompressThenDecompressIsTheIdentity : Prop :=
  ∀ s t u : State, s.par.wf = true → u.par.wf = true → exec .compress s = .next t → t.status.err = 0 →
    u.ctrl.srcOk = true → u.ctrl.dstOk = true → u.data.inLen = t.data.outLen → u.input = t.output →
    u.data.inLen.toNat ≤ u.par.inCap → s.data.inLen.toNat ≤ u.par.outCap →
    ∃ v, exec .decompress u = .next v ∧ v.status.err = 0 ∧ v.data.outLen = s.data.inLen ∧ v.output = s.input

/-- R195: the result of COMPRESS and of DECOMPRESS depends only on CTRL, IN_LEN, the input bytes and the capacities: nothing
that earlier commands or the unspecified contents after reset left can be seen in it. -/
def Obligations.MacroResultsDependOnlyOnTheInput : Prop :=
  ∀ (macroCommand : Instr) (s s' t t' : State), (macroCommand = .compress ∨ macroCommand = .decompress) →
    s.par = s'.par → s.par.wf = true → s.ctrl = s'.ctrl → s.data.inLen = s'.data.inLen → s.input = s'.input →
    exec macroCommand s = .next t → exec macroCommand s' = .next t' →
    t.status = t'.status ∧ t.valid = t'.valid ∧ t.data = t'.data ∧ t.output = t'.output

/-! ## The records that DESTREE interprets -/

/-- R123, R31: an Internal record allocates the next slot and opens it on the traversal stack; with 511 slots allocated, or
with 255 nodes open, DESTREE fails with MalformedTree. No memory changes before the parse commits. That a record executes
by itself is the model's choice (log 8), and so is the stop at depth 256, which R124 allows (log 18). -/
def Obligations.InternalRecordOpensASlot : Prop :=
  ∀ s : State,
    (s.work.nalloc.toNat < 511 → s.work.stack.length < 255 →
      ∃ t, exec .internal s = .next t ∧
        t = { s with work := { s.work with
          nalloc := t.work.nalloc, tpos := s.work.tpos + 1, stack := t.work.stack } } ∧
        t.work.nalloc.toNat = s.work.nalloc.toNat + 1 ∧
        ∃ id : NodeId, id.toNat = s.work.nalloc.toNat ∧ t.work.stack = (id, false) :: s.work.stack) ∧
    (511 ≤ s.work.nalloc.toNat ∨ 255 ≤ s.work.stack.length →
      ∃ t, exec .internal s = .next t ∧
        failsWith s t 0x09 .malformedTree { s.valid with tree := false } { s.data with root := 0, nnode := 0 })

/-- R123, R125: a Leaf record allocates the next slot with its symbol and frequency 0 and gives every innermost open node
whose right child is under way, `closing`, that child. Then the node left to close is the left child of the innermost node
still open, whose right child comes next; or it is the root, and DESTREE commits the slots when no byte is left over and
fails with MalformedTree otherwise. Every slot is said, and all else stays. The premise ParserOk is kept by every step
(StepKeepsTheMemoriesInForm); that a record executes by itself is the model's choice (log 8). -/
def Obligations.LeafRecordClosesSubtrees : Prop :=
  ∀ (s : State) (sym : Byte),
    let id := s.work.nalloc.toNat
    let closing := (s.work.stack.takeWhile (fun e => e.2)).map (fun e => e.1)
    let stillOpen := s.work.stack.dropWhile (fun e => e.2)
    let rightChildren := closing.zip (s.work.nalloc.setWidth 9 :: closing)
    let lastClosed := closing.getLast?.getD (s.work.nalloc.setWidth 9)
    let untouched := fun k => k ≠ id ∧ ∀ p ∈ closing, k ≠ p.toNat
    (id < 511 → ParserOk s.parser →
      (∀ parent rest, stillOpen = (parent, false) :: rest →
        ∃ t, exec (.leaf sym) s = .next t ∧
          t = { s with
            work := { s.work with nalloc := s.work.nalloc + 1, tpos := s.work.tpos + 2, stack := (parent, true) :: rest },
            draft := t.draft } ∧
          t.draft.read? id = some ⟨true, sym, 0, 0, 0⟩ ∧
          (∀ e ∈ rightChildren, ∃ l, s.draft.read? e.1.toNat = some ⟨false, 0, 0, l, 0⟩ ∧
            t.draft.read? e.1.toNat = some ⟨false, 0, 0, l, e.2⟩) ∧
          t.draft.read? parent.toNat = some ⟨false, 0, 0, lastClosed, 0⟩ ∧
          (∀ k, untouched k → k ≠ parent.toNat → t.draft.read? k = s.draft.read? k)) ∧
      (stillOpen = [] → s.work.tpos.toNat + 2 = s.data.treeLen.toNat →
        ∃ t, exec (.leaf sym) s = .next t ∧ reports s t 0x09 none (fun sp _ => sp = .node) ∧
          t.valid = { s.valid with tree := true } ∧
          t.data = { s.data with root := lastClosed, nnode := s.work.nalloc + 1 } ∧ t.pq = s.pq ∧
          t.nodeAt id = ⟨true, sym, 0, 0, 0⟩ ∧
          (∀ e ∈ rightChildren, ∃ l, s.draft.read? e.1.toNat = some ⟨false, 0, 0, l, 0⟩ ∧
            t.nodeAt e.1.toNat = ⟨false, 0, 0, l, e.2⟩) ∧
          (∀ k, untouched k → t.nodeAt k = (s.draft.read? k).getD (s.nodeAt k))) ∧
      (stillOpen = [] → s.work.tpos.toNat + 2 ≠ s.data.treeLen.toNat →
        ∃ t, exec (.leaf sym) s = .next t ∧
          failsWith s t 0x09 .malformedTree { s.valid with tree := false } { s.data with root := 0, nnode := 0 })) ∧
    (511 ≤ id →
      ∃ t, exec (.leaf sym) s = .next t ∧
        failsWith s t 0x09 .malformedTree { s.valid with tree := false } { s.data with root := 0, nnode := 0 })

/-- R123, R125, R186: executing the tree-byte records one a step from the beginning of the parse ends in exactly the state
in which DESTREE ends as one command (log 8). -/
def Obligations.RecordByRecordParseIsDestree : Prop :=
  ∀ (s : State) (n : Nat), s.agenda = [] → s.status.busy = true → s.parsing = false → s.valid.treeb = true →
    s.data.treeLen.toNat ≤ 767 → 768 ≤ n →
    Host.Core.run Sys2Proof.core n s.startParse = exec .destree s

/-! ## Invariants and whole-machine rules -/

/-- Every step keeps every memory in its one form and inside its capacity (R50, log 2), the traversal stack within its 255
entries (R31), and a parse under way in its middle (log 8). -/
def Obligations.StepKeepsTheMemoriesInForm : Prop :=
  ∀ s t : State, MemoryInv s → step s = .next t → MemoryInv t

/-- R34 items 4 to 9: every step keeps the lengths, flags, queue and status within their bounds. -/
def Obligations.StepKeepsTheRegisterInvariant : Prop :=
  ∀ s t : State, RegisterInv s → step s = .next t → RegisterInv t

/-- R34 item 1: every step keeps the counts' sum between 1 and IN_CAP while FREQ_V = 1. -/
def Obligations.StepKeepsTheCountsInvariant : Prop :=
  ∀ s t : State, FreqInv s → step s = .next t → FreqInv t

/-- R24: every step keeps a tree under ROOT while TREE_V = 1. -/
def Obligations.StepKeepsTheTreeInvariant : Prop :=
  ∀ s t : State, TreeInv s → step s = .next t → TreeInv t

/-- R34 item 3: every step keeps the codes prefix-free while CODE_V = 1. -/
def Obligations.StepKeepsTheCodesPrefixFree : Prop :=
  ∀ s t : State, CodeInv s → step s = .next t → CodeInv t

/-- The state after reset meets every invariant, and HostReset with any legal capacities does too (R35, R34). -/
def Obligations.ResetMeetsTheInvariants : Prop :=
  MemoryInv State.reset ∧ RegisterInv State.reset ∧ FreqInv State.reset ∧ TreeInv State.reset ∧ CodeInv State.reset ∧
  ∀ s : State, s.par.wf = true →
    MemoryInv (hostReset s) ∧ RegisterInv (hostReset s) ∧ FreqInv (hostReset s) ∧ TreeInv (hostReset s) ∧
      CodeInv (hostReset s)

/-- R214, R196: where the invariants hold no step stops the machine, but for the narrow register access that R54 puts outside
the spec; and a busy engine's turn outside a parse ends with BUSY = 0. -/
def Obligations.NoStepStopsAndEveryCommandCompletes : Prop :=
  ∀ s : State, RegisterInv s → TreeInv s →
    ((∀ idx offset bytes rest, s.agenda ≠ .host (.narrowReg idx offset bytes) :: rest) → stepsOn s) ∧
    (∀ rest, engineNext s rest → s.status.busy = true → s.parsing = false →
      ∃ t, step s = .next t ∧ t.status.busy = false ∧ t.status.done = true)
end

