-- ==== Sys2Proof/Laws/Memory.lean ====
section
/-! SUPPORT. The laws of the memories: what a read after a write gives, and that every operation keeps the one form and
the capacity. -/

namespace Sys2Proof.Machine

variable {α : Type}

/-! ### Runs of entries -/

theorem cellsFrom_mem (xs : List α) (start : Nat) (c : Nat × α) (h : c ∈ cellsFrom start xs) :
    start ≤ c.1 ∧ c.1 < start + xs.length := by
  induction xs generalizing start with
  | nil => simp [cellsFrom] at h
  | cons x xs ih =>
    rcases List.mem_cons.1 h with rfl | h
    · simp
    · have := ih (start + 1) h
      simp only [List.length_cons]
      omega

theorem cellsFrom_wf (xs : List α) (start : Nat) : Memory.wf (cellsFrom start xs) := by
  induction xs generalizing start with
  | nil => exact List.Pairwise.nil
  | cons x xs ih =>
    refine List.Pairwise.cons (fun c hc => ?_) (ih (start + 1))
    have := cellsFrom_mem xs (start + 1) c hc
    show start < c.1
    omega

/-! ### Reading -/

@[simp] theorem read?_nil (i : Nat) : Memory.read? ([] : Memory α) i = none := rfl

theorem read?_append (m n : Memory α) (i : Nat) :
    Memory.read? (m ++ n) i = (Memory.read? m i).or (Memory.read? n i) := by
  induction m with
  | nil => rfl
  | cons c m ih =>
    by_cases h : c.1 = i
    · simp [Memory.read?, h]
    · simpa [Memory.read?, h] using ih

theorem read?_filter (p : Nat → Bool) (m : Memory α) (i : Nat) :
    Memory.read? (m.filter (fun c => p c.1)) i = if p i then Memory.read? m i else none := by
  induction m with
  | nil => simp
  | cons c m ih =>
    by_cases hp : p c.1
    · by_cases h : c.1 = i
      · subst h; simp [Memory.read?, hp]
      · simpa [Memory.read?, hp, h] using ih
    · by_cases h : c.1 = i
      · subst h; simpa [hp] using ih
      · simpa [Memory.read?, hp, h] using ih

theorem read?_cellsFrom (xs : List α) (start i : Nat) :
    Memory.read? (cellsFrom start xs) i = if start ≤ i then xs[i - start]? else none := by
  induction xs generalizing start with
  | nil => simp [cellsFrom]
  | cons x xs ih =>
    by_cases h : start = i
    · subst h; simp [cellsFrom, Memory.read?]
    · by_cases hlt : start ≤ i
      · have hi : i - start = i - (start + 1) + 1 := by omega
        simp [cellsFrom, Memory.read?, ih, h, hlt, hi, show start + 1 ≤ i by omega]
      · simp [cellsFrom, Memory.read?, ih, h, hlt, show ¬ start + 1 ≤ i by omega]

/-- What a memory reads after a run of elements is written: the run at its indices, the earlier element elsewhere. -/
theorem read?_writeRange (m : Memory α) (start : Nat) (xs : List α) (i : Nat) :
    (m.writeRange start xs).read? i =
      if start ≤ i ∧ i < start + xs.length then xs[i - start]? else m.read? i := by
  rw [Memory.writeRange, read?_append, read?_append, read?_filter (fun k => decide (k < start)),
    read?_filter (fun k => decide (start + xs.length ≤ k)), read?_cellsFrom]
  by_cases h1 : start ≤ i
  · by_cases h2 : i < start + xs.length
    · simp [h1, h2, Nat.not_lt.2 h1, show i - start < xs.length by omega]
    · simp [h1, h2, Nat.not_lt.2 h1, Nat.not_lt.1 h2, show xs.length ≤ i - start by omega]
  · simp [h1, Nat.not_le.1 h1, show ¬ start + xs.length ≤ i by omega]

theorem read?_writeRange_in (m : Memory α) (start : Nat) (xs : List α) (k : Nat) (h : k < xs.length) :
    (m.writeRange start xs).read? (start + k) = some xs[k] := by
  simp [read?_writeRange, h]

theorem read?_writeRange_out (m : Memory α) (start : Nat) (xs : List α) (i : Nat)
    (h : i < start ∨ start + xs.length ≤ i) : (m.writeRange start xs).read? i = m.read? i := by
  rw [read?_writeRange, if_neg (by omega)]

@[simp] theorem read?_write (m : Memory α) (i j : Nat) (v : α) :
    (m.write i v).read? j = if j = i then some v else m.read? j := by
  rw [Memory.write, read?_writeRange]
  by_cases h : j = i
  · subst h; simp
  · rw [if_neg (by simp; omega), if_neg h]

/-- An index that the draft does not list reads through it. -/
theorem read?_overlay_out (d m : Memory α) (i : Nat) (h : ∀ c ∈ d, c.1 ≠ i) :
    (Memory.overlay m d).read? i = m.read? i := by
  induction d generalizing m with
  | nil => rfl
  | cons c d ih =>
    obtain ⟨k, v⟩ := c
    rw [Memory.overlay, ih (m.write k v) (fun c hc => h c (List.mem_cons_of_mem _ hc)), read?_write,
      if_neg (fun e => h (k, v) (List.mem_cons_self ..) e.symm)]

/-- A draft in the one form reads as itself where it is listed. -/
theorem read?_overlay (d m : Memory α) (hd : d.wf) (i : Nat) :
    (Memory.overlay m d).read? i = (d.read? i).or (m.read? i) := by
  induction d generalizing m with
  | nil => rfl
  | cons c d ih =>
    obtain ⟨k, v⟩ := c
    obtain ⟨hk, hd⟩ := List.pairwise_cons.1 hd
    rw [Memory.overlay]
    by_cases h : k = i
    · subst h
      rw [read?_overlay_out d (m.write k v) k (fun c hc => (Nat.ne_of_lt (hk c hc)).symm)]
      simp [Memory.read?]
    · rw [ih (m.write k v) hd, read?_write, if_neg (fun e => h e.symm)]
      simp [Memory.read?, h]

/-- In the one form the entries are exactly what reads give. -/
theorem mem_iff_read? (m : Memory α) (hm : m.wf) (i : Nat) (v : α) : (i, v) ∈ m ↔ m.read? i = some v := by
  induction m with
  | nil => simp
  | cons c m ih =>
    obtain ⟨k, w⟩ := c
    obtain ⟨hk, hm⟩ := List.pairwise_cons.1 hm
    by_cases h : k = i
    · subst h
      have : (k, v) ∉ m := fun hc => absurd (hk _ hc) (Nat.lt_irrefl _)
      simp [Memory.read?, this, eq_comm]
    · have h' : ¬ i = k := fun e => h e.symm
      simp [Memory.read?, h, h', ih hm]

/-- Two memories in the one form that read alike are the same data. -/
theorem Memory.ext_of_wf (m n : Memory α) (hm : m.wf) (hn : n.wf) (h : ∀ i, m.read? i = n.read? i) : m = n := by
  refine List.Perm.eq_of_pairwise (le := fun a b => a.1 < b.1) (fun a b _ _ hab hba => absurd hab (Nat.lt_asymm hba))
    hm hn ((List.perm_ext_iff_of_nodup ?_ ?_).2 fun c => ?_)
  · exact hm.imp fun hab e => absurd (e ▸ hab) (Nat.lt_irrefl _)
  · exact hn.imp fun hab e => absurd (e ▸ hab) (Nat.lt_irrefl _)
  · obtain ⟨i, v⟩ := c
    rw [mem_iff_read? m hm, mem_iff_read? n hn, h]

/-! ### The one form and the capacity -/

theorem writeRange_wf (m : Memory α) (hm : m.wf) (start : Nat) (xs : List α) : (m.writeRange start xs).wf := by
  rw [Memory.writeRange]
  refine List.pairwise_append.2 ⟨List.pairwise_append.2 ⟨hm.filter _, cellsFrom_wf xs start, ?_⟩, hm.filter _, ?_⟩
  · intro a ha b hb
    have h1 : a.1 < start := by simpa using (List.mem_filter.1 ha).2
    have h2 := cellsFrom_mem xs start b hb
    omega
  · intro a ha b hb
    have h2 : start + xs.length ≤ b.1 := by simpa using (List.mem_filter.1 hb).2
    rcases List.mem_append.1 ha with ha | ha
    · have h1 : a.1 < start := by simpa using (List.mem_filter.1 ha).2
      omega
    · have h1 := cellsFrom_mem xs start a ha
      omega

theorem writeRange_below (m : Memory α) (cap : Nat) (hm : m.below cap) (start : Nat) (xs : List α)
    (h : start + xs.length ≤ cap) : (m.writeRange start xs).below cap := by
  intro c hc
  rw [Memory.writeRange] at hc
  rcases List.mem_append.1 hc with hc | hc
  · rcases List.mem_append.1 hc with hc | hc
    · exact hm c (List.mem_filter.1 hc).1
    · have := cellsFrom_mem xs start c hc
      omega
  · exact hm c (List.mem_filter.1 hc).1

theorem write_wf (m : Memory α) (hm : m.wf) (i : Nat) (v : α) : (m.write i v).wf := writeRange_wf m hm i [v]

theorem write_below (m : Memory α) (cap : Nat) (hm : m.below cap) (i : Nat) (v : α) (h : i < cap) :
    (m.write i v).below cap := writeRange_below m cap hm i [v] h

theorem overlay_wf (d m : Memory α) (hm : m.wf) : (Memory.overlay m d).wf := by
  induction d generalizing m with
  | nil => exact hm
  | cons c d ih => exact ih _ (write_wf m hm c.1 c.2)

theorem overlay_below (d m : Memory α) (cap : Nat) (hm : m.below cap) (hd : d.below cap) :
    (Memory.overlay m d).below cap := by
  induction d generalizing m with
  | nil => exact hm
  | cons c d ih =>
    exact ih _ (write_below m cap hm c.1 c.2 (hd c (List.mem_cons_self ..)))
      (fun e he => hd e (List.mem_cons_of_mem _ he))

/-- The memories of the reset state are in the one form. -/
theorem reset_memories_wf :
    State.reset.freq.wf ∧ State.reset.node.wf ∧ State.reset.code.wf ∧ State.reset.treeb.wf ∧ State.reset.pay.wf ∧
      State.reset.bs.wf ∧ State.reset.inp.wf ∧ State.reset.out.wf := by decide

end Sys2Proof.Machine
end

