-- ==== Sys2Proof/Laws/Merging.lean ====
section
/-! SUPPORT. The cost of merging the two least weights again and again, bounded by the cost of a fixed-length code: what
R102 item 7 and R168 rest on, for weights alone. -/

namespace Sys2Proof.Laws

/-- `GreedyCost ws c`: merging the two least weights of `ws` until one is left makes sums that add up to `c`, which is the
sum over the weights of weight times depth. -/
inductive GreedyCost : Multiset Nat → Nat → Prop
  | one (w : Nat) : GreedyCost {w} 0
  | merge (x y : Nat) (m : Multiset Nat) (c : Nat) (hxy : x ≤ y) (hmin : ∀ z ∈ m, y ≤ z)
      (h : GreedyCost ((x + y) ::ₘ m) c) : GreedyCost (x ::ₘ y ::ₘ m) (x + y + c)

theorem sum_le_of_le {D ws : Multiset Nat} (h : D ≤ ws) : D.sum ≤ ws.sum := by
  obtain ⟨E, rfl⟩ := Multiset.le_iff_exists_add.1 h
  simp

theorem exists_le_of_card {ws : Multiset Nat} {n : Nat} (h : n ≤ ws.card) : ∃ D ≤ ws, D.card = n := by
  induction ws using Quotient.inductionOn with
  | h l => exact ⟨(l.take n : Multiset Nat), (List.take_sublist n l).subperm, by simpa using h⟩

/-- A selection that may use a least weight can do without it and weigh no less. -/
theorem exchange_least {a : Nat} {m D : Multiset Nat} (hD : D ≤ a ::ₘ m) (hcard : D.card ≤ m.card)
    (hmin : ∀ z ∈ m, a ≤ z) : ∃ E ≤ m, E.card = D.card ∧ D.sum ≤ E.sum := by
  by_cases ha : a ∈ D
  · obtain ⟨F, rfl⟩ := Multiset.exists_cons_of_mem ha
    obtain ⟨G, rfl⟩ := Multiset.le_iff_exists_add.1 ((Multiset.cons_le_cons_iff a).1 hD)
    have hG : 0 < G.card := by simp only [Multiset.card_cons, Multiset.card_add] at hcard; omega
    obtain ⟨z, hz⟩ := Multiset.card_pos_iff_exists_mem.1 hG
    obtain ⟨H, rfl⟩ := Multiset.exists_cons_of_mem hz
    refine ⟨z ::ₘ F, ?_, by simp, ?_⟩
    · rw [Multiset.add_cons, Multiset.cons_le_cons_iff]
      exact Multiset.le_add_right F H
    · simpa using hmin z (by simp)
  · exact ⟨D, (Multiset.le_cons_of_notMem ha).1 hD, rfl, le_rfl⟩

/-- With `2 ^ k` places of depth `k` for `n` weights, any `2 ^ k - n` of them may stand one level higher. -/
theorem GreedyCost.add_sum_le {ws : Multiset Nat} {c : Nat} (h : GreedyCost ws c) :
    ∀ k, ws.card ≤ 2 ^ k → 2 ^ k ≤ 2 * ws.card → ∀ D ≤ ws, D.card = 2 ^ k - ws.card → c + D.sum ≤ k * ws.sum := by
  induction h with
  | one w =>
    intro k h1 h2 D hD hcard
    simp only [Multiset.card_singleton] at h1 h2 hcard
    have hk : k ≤ 1 := by
      by_contra hk
      have : 2 ^ 2 ≤ 2 ^ k := Nat.pow_le_pow_right (by decide) (by omega)
      omega
    interval_cases k
    · obtain rfl : D = 0 := Multiset.card_eq_zero.1 (by simpa using hcard)
      simp
    · have := sum_le_of_le hD
      simpa using this
  | merge x y m c hxy hmin _ ih =>
    simp only [Multiset.card_cons, Multiset.sum_cons] at ih ⊢
    -- below the top of the range one weight moves up a level with the merge
    have main : ∀ k, m.card + 1 + 1 ≤ 2 ^ k → 2 ^ k < 2 * (m.card + 1 + 1) → ∀ D ≤ x ::ₘ y ::ₘ m,
        D.card = 2 ^ k - (m.card + 1 + 1) → x + y + c + D.sum ≤ k * (x + (y + m.sum)) := by
      intro k h1 h2 D hD hcard
      obtain ⟨j, rfl⟩ : ∃ j, k = j + 1 := Nat.exists_eq_succ_of_ne_zero (by rintro rfl; simp at h1)
      rw [pow_succ] at h1 h2 hcard
      obtain ⟨D₁, hD₁, hc₁, hs₁⟩ := exchange_least hD (by simp only [Multiset.card_cons]; omega)
        (fun z hz => by
          rcases Multiset.mem_cons.1 hz with rfl | hz
          · exact hxy
          · exact hxy.trans (hmin z hz))
      obtain ⟨D₂, hD₂, hc₂, hs₂⟩ := exchange_least hD₁ (by omega) hmin
      have := ih (j + 1) (by rw [pow_succ]; omega) (by rw [pow_succ]; omega) ((x + y) ::ₘ D₂)
        ((Multiset.cons_le_cons_iff _).2 hD₂) (by rw [pow_succ, Multiset.card_cons]; omega)
      rw [Multiset.sum_cons] at this
      calc x + y + c + D.sum ≤ c + (x + y + D₂.sum) := by omega
        _ ≤ (j + 1) * (x + y + m.sum) := this
        _ = (j + 1) * (x + (y + m.sum)) := by rw [add_assoc]
    intro k h1 h2 D hD hcard
    rcases Nat.lt_or_eq_of_le h2 with h2 | h2
    · exact main k h1 h2 D hD hcard
    · obtain ⟨j, rfl⟩ : ∃ j, k = j + 1 := Nat.exists_eq_succ_of_ne_zero (by rintro rfl; simp at h1)
      rw [pow_succ] at h2
      have h0 := main j (by omega) (by omega) 0 (Multiset.zero_le _) (by simp; omega)
      have hs := sum_le_of_le hD
      simp only [Multiset.sum_cons, Multiset.sum_zero, Nat.add_zero] at h0 hs
      rw [Nat.add_mul, Nat.one_mul]
      omega

/-- At most `2 ^ k` weights cost at most `k` times their sum. -/
theorem GreedyCost.le_mul_sum {ws : Multiset Nat} {c : Nat} (h : GreedyCost ws c) (k : Nat) (hk : ws.card ≤ 2 ^ k) :
    c ≤ k * ws.sum := by
  induction k with
  | zero =>
    have hpos : 1 ≤ ws.card := by cases h <;> simp
    have := h.add_sum_le 0 hk (by omega) 0 (Multiset.zero_le _) (by simp; omega)
    simpa using this
  | succ k ih =>
    rcases Nat.lt_or_ge (2 ^ k) ws.card with hlt | hle
    · obtain ⟨D, hD, hc⟩ := exists_le_of_card (show 2 ^ (k + 1) - ws.card ≤ ws.card by rw [pow_succ]; omega)
      have := h.add_sum_le (k + 1) hk (by rw [pow_succ]; omega) D hD hc
      omega
    · exact (ih hle).trans (Nat.mul_le_mul_right _ (Nat.le_succ k))

end Sys2Proof.Laws
end

