-- ==== Sys2Proof/Laws/State.lean ====
section
/-! SUPPORT. What each named update of the state leaves in each field, one lemma per field per update. -/

namespace Sys2Proof.Machine

section

variable (w : Word) (s : State)

@[simp] theorem accept_par : (s.accept w).par = s.par := rfl
@[simp] theorem accept_status : (s.accept w).status = { s.status with busy := true, done := false } := rfl
@[simp] theorem accept_elog : (s.accept w).elog = s.elog := rfl
@[simp] theorem accept_ctrl : (s.accept w).ctrl = s.ctrl := rfl
@[simp] theorem accept_valid : (s.accept w).valid = s.valid := rfl
@[simp] theorem accept_data : (s.accept w).data = s.data := rfl
@[simp] theorem accept_dbg : (s.accept w).dbg = s.dbg := rfl
@[simp] theorem accept_oplatch : (s.accept w).oplatch = w := rfl
@[simp] theorem accept_pq : (s.accept w).pq = s.pq := rfl
@[simp] theorem accept_work : (s.accept w).work = s.work := rfl
@[simp] theorem accept_freq : (s.accept w).freq = s.freq := rfl
@[simp] theorem accept_node : (s.accept w).node = s.node := rfl
@[simp] theorem accept_code : (s.accept w).code = s.code := rfl
@[simp] theorem accept_treeb : (s.accept w).treeb = s.treeb := rfl
@[simp] theorem accept_pay : (s.accept w).pay = s.pay := rfl
@[simp] theorem accept_bs : (s.accept w).bs = s.bs := rfl
@[simp] theorem accept_inp : (s.accept w).inp = s.inp := rfl
@[simp] theorem accept_out : (s.accept w).out = s.out := rfl
@[simp] theorem accept_parsing : (s.accept w).parsing = s.parsing := rfl
@[simp] theorem accept_draft : (s.accept w).draft = s.draft := rfl
@[simp] theorem accept_epoch : (s.accept w).epoch = s.epoch := rfl
@[simp] theorem accept_tick : (s.accept w).tick = s.tick := rfl
@[simp] theorem accept_agenda : (s.accept w).agenda = s.agenda := rfl
@[simp] theorem accept_reply : (s.accept w).reply = s.reply := rfl
@[simp] theorem accept_mismatches : (s.accept w).mismatches = s.mismatches := rfl

end

section

variable (op : Byte) (s : State)

@[simp] theorem setStage_par : (s.setStage op).par = s.par := rfl
@[simp] theorem setStage_status : (s.setStage op).status = { s.status with stage := op } := rfl
@[simp] theorem setStage_elog : (s.setStage op).elog = s.elog := rfl
@[simp] theorem setStage_ctrl : (s.setStage op).ctrl = s.ctrl := rfl
@[simp] theorem setStage_valid : (s.setStage op).valid = s.valid := rfl
@[simp] theorem setStage_data : (s.setStage op).data = s.data := rfl
@[simp] theorem setStage_dbg : (s.setStage op).dbg = s.dbg := rfl
@[simp] theorem setStage_oplatch : (s.setStage op).oplatch = s.oplatch := rfl
@[simp] theorem setStage_pq : (s.setStage op).pq = s.pq := rfl
@[simp] theorem setStage_work : (s.setStage op).work = s.work := rfl
@[simp] theorem setStage_freq : (s.setStage op).freq = s.freq := rfl
@[simp] theorem setStage_node : (s.setStage op).node = s.node := rfl
@[simp] theorem setStage_code : (s.setStage op).code = s.code := rfl
@[simp] theorem setStage_treeb : (s.setStage op).treeb = s.treeb := rfl
@[simp] theorem setStage_pay : (s.setStage op).pay = s.pay := rfl
@[simp] theorem setStage_bs : (s.setStage op).bs = s.bs := rfl
@[simp] theorem setStage_inp : (s.setStage op).inp = s.inp := rfl
@[simp] theorem setStage_out : (s.setStage op).out = s.out := rfl
@[simp] theorem setStage_parsing : (s.setStage op).parsing = s.parsing := rfl
@[simp] theorem setStage_draft : (s.setStage op).draft = s.draft := rfl
@[simp] theorem setStage_epoch : (s.setStage op).epoch = s.epoch := rfl
@[simp] theorem setStage_tick : (s.setStage op).tick = s.tick := rfl
@[simp] theorem setStage_agenda : (s.setStage op).agenda = s.agenda := rfl
@[simp] theorem setStage_reply : (s.setStage op).reply = s.reply := rfl
@[simp] theorem setStage_mismatches : (s.setStage op).mismatches = s.mismatches := rfl

end

section

variable (e : Option ErrKind) (s : State)

@[simp] theorem complete_par : (s.complete e).par = s.par := rfl
@[simp] theorem complete_status : (s.complete e).status = ⟨false, true, errCode e, s.status.stage⟩ := rfl
@[simp] theorem complete_elog : (s.complete e).elog = s.elog ||| elogBit e := rfl
@[simp] theorem complete_ctrl : (s.complete e).ctrl = s.ctrl := rfl
@[simp] theorem complete_valid : (s.complete e).valid = s.valid := rfl
@[simp] theorem complete_data : (s.complete e).data = s.data := rfl
@[simp] theorem complete_dbg : (s.complete e).dbg = s.dbg := rfl
@[simp] theorem complete_oplatch : (s.complete e).oplatch = s.oplatch := rfl
@[simp] theorem complete_pq : (s.complete e).pq = s.pq := rfl
@[simp] theorem complete_work : (s.complete e).work = s.restingWork := rfl
@[simp] theorem complete_freq : (s.complete e).freq = s.freq := rfl
@[simp] theorem complete_node : (s.complete e).node = s.node := rfl
@[simp] theorem complete_code : (s.complete e).code = s.code := rfl
@[simp] theorem complete_treeb : (s.complete e).treeb = s.treeb := rfl
@[simp] theorem complete_pay : (s.complete e).pay = s.pay := rfl
@[simp] theorem complete_bs : (s.complete e).bs = s.bs := rfl
@[simp] theorem complete_inp : (s.complete e).inp = s.inp := rfl
@[simp] theorem complete_out : (s.complete e).out = s.out := rfl
@[simp] theorem complete_parsing : (s.complete e).parsing = false := rfl
@[simp] theorem complete_draft : (s.complete e).draft = [] := rfl
@[simp] theorem complete_epoch : (s.complete e).epoch = s.epoch := rfl
@[simp] theorem complete_tick : (s.complete e).tick = s.tick + 1 := rfl
@[simp] theorem complete_agenda : (s.complete e).agenda = s.agenda := rfl
@[simp] theorem complete_reply : (s.complete e).reply = s.reply := rfl
@[simp] theorem complete_mismatches : (s.complete e).mismatches = s.mismatches := rfl

end

section

variable (s : State)

@[simp] theorem dropFreq_par : (dropFreq s).par = s.par := rfl
@[simp] theorem dropFreq_status : (dropFreq s).status = s.status := rfl
@[simp] theorem dropFreq_elog : (dropFreq s).elog = s.elog := rfl
@[simp] theorem dropFreq_ctrl : (dropFreq s).ctrl = s.ctrl := rfl
@[simp] theorem dropFreq_valid : (dropFreq s).valid = { s.valid with freq := false } := rfl
@[simp] theorem dropFreq_data : (dropFreq s).data = s.data := rfl
@[simp] theorem dropFreq_dbg : (dropFreq s).dbg = s.dbg := rfl
@[simp] theorem dropFreq_oplatch : (dropFreq s).oplatch = s.oplatch := rfl
@[simp] theorem dropFreq_pq : (dropFreq s).pq = s.pq := rfl
@[simp] theorem dropFreq_work : (dropFreq s).work = s.work := rfl
@[simp] theorem dropFreq_freq : (dropFreq s).freq = s.freq := rfl
@[simp] theorem dropFreq_node : (dropFreq s).node = s.node := rfl
@[simp] theorem dropFreq_code : (dropFreq s).code = s.code := rfl
@[simp] theorem dropFreq_treeb : (dropFreq s).treeb = s.treeb := rfl
@[simp] theorem dropFreq_pay : (dropFreq s).pay = s.pay := rfl
@[simp] theorem dropFreq_bs : (dropFreq s).bs = s.bs := rfl
@[simp] theorem dropFreq_inp : (dropFreq s).inp = s.inp := rfl
@[simp] theorem dropFreq_out : (dropFreq s).out = s.out := rfl
@[simp] theorem dropFreq_parsing : (dropFreq s).parsing = s.parsing := rfl
@[simp] theorem dropFreq_draft : (dropFreq s).draft = s.draft := rfl
@[simp] theorem dropFreq_epoch : (dropFreq s).epoch = s.epoch := rfl
@[simp] theorem dropFreq_tick : (dropFreq s).tick = s.tick := rfl
@[simp] theorem dropFreq_agenda : (dropFreq s).agenda = s.agenda := rfl
@[simp] theorem dropFreq_reply : (dropFreq s).reply = s.reply := rfl
@[simp] theorem dropFreq_mismatches : (dropFreq s).mismatches = s.mismatches := rfl

end

section

variable (s : State)

@[simp] theorem dropTree_par : (dropTree s).par = s.par := rfl
@[simp] theorem dropTree_status : (dropTree s).status = s.status := rfl
@[simp] theorem dropTree_elog : (dropTree s).elog = s.elog := rfl
@[simp] theorem dropTree_ctrl : (dropTree s).ctrl = s.ctrl := rfl
@[simp] theorem dropTree_valid : (dropTree s).valid = { s.valid with tree := false } := rfl
@[simp] theorem dropTree_data : (dropTree s).data = { s.data with root := 0, nnode := 0 } := rfl
@[simp] theorem dropTree_dbg : (dropTree s).dbg = s.dbg := rfl
@[simp] theorem dropTree_oplatch : (dropTree s).oplatch = s.oplatch := rfl
@[simp] theorem dropTree_pq : (dropTree s).pq = s.pq := rfl
@[simp] theorem dropTree_work : (dropTree s).work = s.work := rfl
@[simp] theorem dropTree_freq : (dropTree s).freq = s.freq := rfl
@[simp] theorem dropTree_node : (dropTree s).node = s.node := rfl
@[simp] theorem dropTree_code : (dropTree s).code = s.code := rfl
@[simp] theorem dropTree_treeb : (dropTree s).treeb = s.treeb := rfl
@[simp] theorem dropTree_pay : (dropTree s).pay = s.pay := rfl
@[simp] theorem dropTree_bs : (dropTree s).bs = s.bs := rfl
@[simp] theorem dropTree_inp : (dropTree s).inp = s.inp := rfl
@[simp] theorem dropTree_out : (dropTree s).out = s.out := rfl
@[simp] theorem dropTree_parsing : (dropTree s).parsing = s.parsing := rfl
@[simp] theorem dropTree_draft : (dropTree s).draft = s.draft := rfl
@[simp] theorem dropTree_epoch : (dropTree s).epoch = s.epoch := rfl
@[simp] theorem dropTree_tick : (dropTree s).tick = s.tick := rfl
@[simp] theorem dropTree_agenda : (dropTree s).agenda = s.agenda := rfl
@[simp] theorem dropTree_reply : (dropTree s).reply = s.reply := rfl
@[simp] theorem dropTree_mismatches : (dropTree s).mismatches = s.mismatches := rfl

end

section

variable (s : State)

@[simp] theorem dropCode_par : (dropCode s).par = s.par := rfl
@[simp] theorem dropCode_status : (dropCode s).status = s.status := rfl
@[simp] theorem dropCode_elog : (dropCode s).elog = s.elog := rfl
@[simp] theorem dropCode_ctrl : (dropCode s).ctrl = s.ctrl := rfl
@[simp] theorem dropCode_valid : (dropCode s).valid = { s.valid with code := false } := rfl
@[simp] theorem dropCode_data : (dropCode s).data = s.data := rfl
@[simp] theorem dropCode_dbg : (dropCode s).dbg = s.dbg := rfl
@[simp] theorem dropCode_oplatch : (dropCode s).oplatch = s.oplatch := rfl
@[simp] theorem dropCode_pq : (dropCode s).pq = s.pq := rfl
@[simp] theorem dropCode_work : (dropCode s).work = s.work := rfl
@[simp] theorem dropCode_freq : (dropCode s).freq = s.freq := rfl
@[simp] theorem dropCode_node : (dropCode s).node = s.node := rfl
@[simp] theorem dropCode_code : (dropCode s).code = s.code := rfl
@[simp] theorem dropCode_treeb : (dropCode s).treeb = s.treeb := rfl
@[simp] theorem dropCode_pay : (dropCode s).pay = s.pay := rfl
@[simp] theorem dropCode_bs : (dropCode s).bs = s.bs := rfl
@[simp] theorem dropCode_inp : (dropCode s).inp = s.inp := rfl
@[simp] theorem dropCode_out : (dropCode s).out = s.out := rfl
@[simp] theorem dropCode_parsing : (dropCode s).parsing = s.parsing := rfl
@[simp] theorem dropCode_draft : (dropCode s).draft = s.draft := rfl
@[simp] theorem dropCode_epoch : (dropCode s).epoch = s.epoch := rfl
@[simp] theorem dropCode_tick : (dropCode s).tick = s.tick := rfl
@[simp] theorem dropCode_agenda : (dropCode s).agenda = s.agenda := rfl
@[simp] theorem dropCode_reply : (dropCode s).reply = s.reply := rfl
@[simp] theorem dropCode_mismatches : (dropCode s).mismatches = s.mismatches := rfl

end

section

variable (s : State)

@[simp] theorem dropBits_par : (dropBits s).par = s.par := rfl
@[simp] theorem dropBits_status : (dropBits s).status = s.status := rfl
@[simp] theorem dropBits_elog : (dropBits s).elog = s.elog := rfl
@[simp] theorem dropBits_ctrl : (dropBits s).ctrl = s.ctrl := rfl
@[simp] theorem dropBits_valid : (dropBits s).valid = { s.valid with bs := false } := rfl
@[simp] theorem dropBits_data : (dropBits s).data = { s.data with bsLen := 0 } := rfl
@[simp] theorem dropBits_dbg : (dropBits s).dbg = s.dbg := rfl
@[simp] theorem dropBits_oplatch : (dropBits s).oplatch = s.oplatch := rfl
@[simp] theorem dropBits_pq : (dropBits s).pq = s.pq := rfl
@[simp] theorem dropBits_work : (dropBits s).work = s.work := rfl
@[simp] theorem dropBits_freq : (dropBits s).freq = s.freq := rfl
@[simp] theorem dropBits_node : (dropBits s).node = s.node := rfl
@[simp] theorem dropBits_code : (dropBits s).code = s.code := rfl
@[simp] theorem dropBits_treeb : (dropBits s).treeb = s.treeb := rfl
@[simp] theorem dropBits_pay : (dropBits s).pay = s.pay := rfl
@[simp] theorem dropBits_bs : (dropBits s).bs = s.bs := rfl
@[simp] theorem dropBits_inp : (dropBits s).inp = s.inp := rfl
@[simp] theorem dropBits_out : (dropBits s).out = s.out := rfl
@[simp] theorem dropBits_parsing : (dropBits s).parsing = s.parsing := rfl
@[simp] theorem dropBits_draft : (dropBits s).draft = s.draft := rfl
@[simp] theorem dropBits_epoch : (dropBits s).epoch = s.epoch := rfl
@[simp] theorem dropBits_tick : (dropBits s).tick = s.tick := rfl
@[simp] theorem dropBits_agenda : (dropBits s).agenda = s.agenda := rfl
@[simp] theorem dropBits_reply : (dropBits s).reply = s.reply := rfl
@[simp] theorem dropBits_mismatches : (dropBits s).mismatches = s.mismatches := rfl

end

section

variable (s : State)

@[simp] theorem dropTreeBytes_par : (dropTreeBytes s).par = s.par := rfl
@[simp] theorem dropTreeBytes_status : (dropTreeBytes s).status = s.status := rfl
@[simp] theorem dropTreeBytes_elog : (dropTreeBytes s).elog = s.elog := rfl
@[simp] theorem dropTreeBytes_ctrl : (dropTreeBytes s).ctrl = s.ctrl := rfl
@[simp] theorem dropTreeBytes_valid : (dropTreeBytes s).valid = { s.valid with treeb := false } := rfl
@[simp] theorem dropTreeBytes_data : (dropTreeBytes s).data = { s.data with treeLen := 0 } := rfl
@[simp] theorem dropTreeBytes_dbg : (dropTreeBytes s).dbg = s.dbg := rfl
@[simp] theorem dropTreeBytes_oplatch : (dropTreeBytes s).oplatch = s.oplatch := rfl
@[simp] theorem dropTreeBytes_pq : (dropTreeBytes s).pq = s.pq := rfl
@[simp] theorem dropTreeBytes_work : (dropTreeBytes s).work = s.work := rfl
@[simp] theorem dropTreeBytes_freq : (dropTreeBytes s).freq = s.freq := rfl
@[simp] theorem dropTreeBytes_node : (dropTreeBytes s).node = s.node := rfl
@[simp] theorem dropTreeBytes_code : (dropTreeBytes s).code = s.code := rfl
@[simp] theorem dropTreeBytes_treeb : (dropTreeBytes s).treeb = s.treeb := rfl
@[simp] theorem dropTreeBytes_pay : (dropTreeBytes s).pay = s.pay := rfl
@[simp] theorem dropTreeBytes_bs : (dropTreeBytes s).bs = s.bs := rfl
@[simp] theorem dropTreeBytes_inp : (dropTreeBytes s).inp = s.inp := rfl
@[simp] theorem dropTreeBytes_out : (dropTreeBytes s).out = s.out := rfl
@[simp] theorem dropTreeBytes_parsing : (dropTreeBytes s).parsing = s.parsing := rfl
@[simp] theorem dropTreeBytes_draft : (dropTreeBytes s).draft = s.draft := rfl
@[simp] theorem dropTreeBytes_epoch : (dropTreeBytes s).epoch = s.epoch := rfl
@[simp] theorem dropTreeBytes_tick : (dropTreeBytes s).tick = s.tick := rfl
@[simp] theorem dropTreeBytes_agenda : (dropTreeBytes s).agenda = s.agenda := rfl
@[simp] theorem dropTreeBytes_reply : (dropTreeBytes s).reply = s.reply := rfl
@[simp] theorem dropTreeBytes_mismatches : (dropTreeBytes s).mismatches = s.mismatches := rfl

end

section

variable (s : State)

@[simp] theorem dropPayload_par : (dropPayload s).par = s.par := rfl
@[simp] theorem dropPayload_status : (dropPayload s).status = s.status := rfl
@[simp] theorem dropPayload_elog : (dropPayload s).elog = s.elog := rfl
@[simp] theorem dropPayload_ctrl : (dropPayload s).ctrl = s.ctrl := rfl
@[simp] theorem dropPayload_valid : (dropPayload s).valid = { s.valid with pay := false } := rfl
@[simp] theorem dropPayload_data : (dropPayload s).data = { s.data with payLen := 0, pad := 0 } := rfl
@[simp] theorem dropPayload_dbg : (dropPayload s).dbg = s.dbg := rfl
@[simp] theorem dropPayload_oplatch : (dropPayload s).oplatch = s.oplatch := rfl
@[simp] theorem dropPayload_pq : (dropPayload s).pq = s.pq := rfl
@[simp] theorem dropPayload_work : (dropPayload s).work = s.work := rfl
@[simp] theorem dropPayload_freq : (dropPayload s).freq = s.freq := rfl
@[simp] theorem dropPayload_node : (dropPayload s).node = s.node := rfl
@[simp] theorem dropPayload_code : (dropPayload s).code = s.code := rfl
@[simp] theorem dropPayload_treeb : (dropPayload s).treeb = s.treeb := rfl
@[simp] theorem dropPayload_pay : (dropPayload s).pay = s.pay := rfl
@[simp] theorem dropPayload_bs : (dropPayload s).bs = s.bs := rfl
@[simp] theorem dropPayload_inp : (dropPayload s).inp = s.inp := rfl
@[simp] theorem dropPayload_out : (dropPayload s).out = s.out := rfl
@[simp] theorem dropPayload_parsing : (dropPayload s).parsing = s.parsing := rfl
@[simp] theorem dropPayload_draft : (dropPayload s).draft = s.draft := rfl
@[simp] theorem dropPayload_epoch : (dropPayload s).epoch = s.epoch := rfl
@[simp] theorem dropPayload_tick : (dropPayload s).tick = s.tick := rfl
@[simp] theorem dropPayload_agenda : (dropPayload s).agenda = s.agenda := rfl
@[simp] theorem dropPayload_reply : (dropPayload s).reply = s.reply := rfl
@[simp] theorem dropPayload_mismatches : (dropPayload s).mismatches = s.mismatches := rfl

end

section

variable (s : State)

@[simp] theorem dropOutput_par : (dropOutput s).par = s.par := rfl
@[simp] theorem dropOutput_status : (dropOutput s).status = s.status := rfl
@[simp] theorem dropOutput_elog : (dropOutput s).elog = s.elog := rfl
@[simp] theorem dropOutput_ctrl : (dropOutput s).ctrl = s.ctrl := rfl
@[simp] theorem dropOutput_valid : (dropOutput s).valid = { s.valid with out := false } := rfl
@[simp] theorem dropOutput_data : (dropOutput s).data = { s.data with outLen := 0 } := rfl
@[simp] theorem dropOutput_dbg : (dropOutput s).dbg = s.dbg := rfl
@[simp] theorem dropOutput_oplatch : (dropOutput s).oplatch = s.oplatch := rfl
@[simp] theorem dropOutput_pq : (dropOutput s).pq = s.pq := rfl
@[simp] theorem dropOutput_work : (dropOutput s).work = s.work := rfl
@[simp] theorem dropOutput_freq : (dropOutput s).freq = s.freq := rfl
@[simp] theorem dropOutput_node : (dropOutput s).node = s.node := rfl
@[simp] theorem dropOutput_code : (dropOutput s).code = s.code := rfl
@[simp] theorem dropOutput_treeb : (dropOutput s).treeb = s.treeb := rfl
@[simp] theorem dropOutput_pay : (dropOutput s).pay = s.pay := rfl
@[simp] theorem dropOutput_bs : (dropOutput s).bs = s.bs := rfl
@[simp] theorem dropOutput_inp : (dropOutput s).inp = s.inp := rfl
@[simp] theorem dropOutput_out : (dropOutput s).out = s.out := rfl
@[simp] theorem dropOutput_parsing : (dropOutput s).parsing = s.parsing := rfl
@[simp] theorem dropOutput_draft : (dropOutput s).draft = s.draft := rfl
@[simp] theorem dropOutput_epoch : (dropOutput s).epoch = s.epoch := rfl
@[simp] theorem dropOutput_tick : (dropOutput s).tick = s.tick := rfl
@[simp] theorem dropOutput_agenda : (dropOutput s).agenda = s.agenda := rfl
@[simp] theorem dropOutput_reply : (dropOutput s).reply = s.reply := rfl
@[simp] theorem dropOutput_mismatches : (dropOutput s).mismatches = s.mismatches := rfl

end

section

variable (s : State)

@[simp] theorem dropContainer_par : (dropContainer s).par = s.par := rfl
@[simp] theorem dropContainer_status : (dropContainer s).status = s.status := rfl
@[simp] theorem dropContainer_elog : (dropContainer s).elog = s.elog := rfl
@[simp] theorem dropContainer_ctrl : (dropContainer s).ctrl = s.ctrl := rfl
@[simp] theorem dropContainer_valid : (dropContainer s).valid = { s.valid with treeb := false, pay := false } := rfl
@[simp] theorem dropContainer_data : (dropContainer s).data = { s.data with treeLen := 0, payLen := 0, pad := 0 } := rfl
@[simp] theorem dropContainer_dbg : (dropContainer s).dbg = s.dbg := rfl
@[simp] theorem dropContainer_oplatch : (dropContainer s).oplatch = s.oplatch := rfl
@[simp] theorem dropContainer_pq : (dropContainer s).pq = s.pq := rfl
@[simp] theorem dropContainer_work : (dropContainer s).work = s.work := rfl
@[simp] theorem dropContainer_freq : (dropContainer s).freq = s.freq := rfl
@[simp] theorem dropContainer_node : (dropContainer s).node = s.node := rfl
@[simp] theorem dropContainer_code : (dropContainer s).code = s.code := rfl
@[simp] theorem dropContainer_treeb : (dropContainer s).treeb = s.treeb := rfl
@[simp] theorem dropContainer_pay : (dropContainer s).pay = s.pay := rfl
@[simp] theorem dropContainer_bs : (dropContainer s).bs = s.bs := rfl
@[simp] theorem dropContainer_inp : (dropContainer s).inp = s.inp := rfl
@[simp] theorem dropContainer_out : (dropContainer s).out = s.out := rfl
@[simp] theorem dropContainer_parsing : (dropContainer s).parsing = s.parsing := rfl
@[simp] theorem dropContainer_draft : (dropContainer s).draft = s.draft := rfl
@[simp] theorem dropContainer_epoch : (dropContainer s).epoch = s.epoch := rfl
@[simp] theorem dropContainer_tick : (dropContainer s).tick = s.tick := rfl
@[simp] theorem dropContainer_agenda : (dropContainer s).agenda = s.agenda := rfl
@[simp] theorem dropContainer_reply : (dropContainer s).reply = s.reply := rfl
@[simp] theorem dropContainer_mismatches : (dropContainer s).mismatches = s.mismatches := rfl

end

section

variable (s : State)

@[simp] theorem invalidateAll_par : (invalidateAll s).par = s.par := rfl
@[simp] theorem invalidateAll_status : (invalidateAll s).status = s.status := rfl
@[simp] theorem invalidateAll_elog : (invalidateAll s).elog = s.elog := rfl
@[simp] theorem invalidateAll_ctrl : (invalidateAll s).ctrl = s.ctrl := rfl
@[simp] theorem invalidateAll_valid : (invalidateAll s).valid = ⟨false, false, false, false, false, false, false⟩ := rfl
@[simp] theorem invalidateAll_data : (invalidateAll s).data = ⟨s.data.inLen, 0, 0, 0, 0, 0, 0, 0⟩ := rfl
@[simp] theorem invalidateAll_dbg : (invalidateAll s).dbg = s.dbg := rfl
@[simp] theorem invalidateAll_oplatch : (invalidateAll s).oplatch = s.oplatch := rfl
@[simp] theorem invalidateAll_pq : (invalidateAll s).pq = s.pq := rfl
@[simp] theorem invalidateAll_work : (invalidateAll s).work = s.work := rfl
@[simp] theorem invalidateAll_freq : (invalidateAll s).freq = s.freq := rfl
@[simp] theorem invalidateAll_node : (invalidateAll s).node = s.node := rfl
@[simp] theorem invalidateAll_code : (invalidateAll s).code = s.code := rfl
@[simp] theorem invalidateAll_treeb : (invalidateAll s).treeb = s.treeb := rfl
@[simp] theorem invalidateAll_pay : (invalidateAll s).pay = s.pay := rfl
@[simp] theorem invalidateAll_bs : (invalidateAll s).bs = s.bs := rfl
@[simp] theorem invalidateAll_inp : (invalidateAll s).inp = s.inp := rfl
@[simp] theorem invalidateAll_out : (invalidateAll s).out = s.out := rfl
@[simp] theorem invalidateAll_parsing : (invalidateAll s).parsing = s.parsing := rfl
@[simp] theorem invalidateAll_draft : (invalidateAll s).draft = s.draft := rfl
@[simp] theorem invalidateAll_epoch : (invalidateAll s).epoch = s.epoch := rfl
@[simp] theorem invalidateAll_tick : (invalidateAll s).tick = s.tick := rfl
@[simp] theorem invalidateAll_agenda : (invalidateAll s).agenda = s.agenda := rfl
@[simp] theorem invalidateAll_reply : (invalidateAll s).reply = s.reply := rfl
@[simp] theorem invalidateAll_mismatches : (invalidateAll s).mismatches = s.mismatches := rfl

end

section

variable (n : Nat) (p : Parser) (s : State)

@[simp] theorem keepParsing_par : (s.keepParsing n p).par = s.par := rfl
@[simp] theorem keepParsing_status : (s.keepParsing n p).status = s.status := rfl
@[simp] theorem keepParsing_elog : (s.keepParsing n p).elog = s.elog := rfl
@[simp] theorem keepParsing_ctrl : (s.keepParsing n p).ctrl = s.ctrl := rfl
@[simp] theorem keepParsing_valid : (s.keepParsing n p).valid = s.valid := rfl
@[simp] theorem keepParsing_data : (s.keepParsing n p).data = s.data := rfl
@[simp] theorem keepParsing_dbg : (s.keepParsing n p).dbg = s.dbg := rfl
@[simp] theorem keepParsing_oplatch : (s.keepParsing n p).oplatch = s.oplatch := rfl
@[simp] theorem keepParsing_pq : (s.keepParsing n p).pq = s.pq := rfl
@[simp] theorem keepParsing_work : (s.keepParsing n p).work = { s.work with nalloc := p.nalloc, stack := p.stack, tpos := s.work.tpos + BitVec.ofNat 10 n } := rfl
@[simp] theorem keepParsing_freq : (s.keepParsing n p).freq = s.freq := rfl
@[simp] theorem keepParsing_node : (s.keepParsing n p).node = s.node := rfl
@[simp] theorem keepParsing_code : (s.keepParsing n p).code = s.code := rfl
@[simp] theorem keepParsing_treeb : (s.keepParsing n p).treeb = s.treeb := rfl
@[simp] theorem keepParsing_pay : (s.keepParsing n p).pay = s.pay := rfl
@[simp] theorem keepParsing_bs : (s.keepParsing n p).bs = s.bs := rfl
@[simp] theorem keepParsing_inp : (s.keepParsing n p).inp = s.inp := rfl
@[simp] theorem keepParsing_out : (s.keepParsing n p).out = s.out := rfl
@[simp] theorem keepParsing_parsing : (s.keepParsing n p).parsing = s.parsing := rfl
@[simp] theorem keepParsing_draft : (s.keepParsing n p).draft = p.draft := rfl
@[simp] theorem keepParsing_epoch : (s.keepParsing n p).epoch = s.epoch := rfl
@[simp] theorem keepParsing_tick : (s.keepParsing n p).tick = s.tick := rfl
@[simp] theorem keepParsing_agenda : (s.keepParsing n p).agenda = s.agenda := rfl
@[simp] theorem keepParsing_reply : (s.keepParsing n p).reply = s.reply := rfl
@[simp] theorem keepParsing_mismatches : (s.keepParsing n p).mismatches = s.mismatches := rfl

end

section

variable (s : State)

@[simp] theorem startParse_par : (s.startParse).par = s.par := rfl
@[simp] theorem startParse_status : (s.startParse).status = s.status := rfl
@[simp] theorem startParse_elog : (s.startParse).elog = s.elog := rfl
@[simp] theorem startParse_ctrl : (s.startParse).ctrl = s.ctrl := rfl
@[simp] theorem startParse_valid : (s.startParse).valid = s.valid := rfl
@[simp] theorem startParse_data : (s.startParse).data = s.data := rfl
@[simp] theorem startParse_dbg : (s.startParse).dbg = s.dbg := rfl
@[simp] theorem startParse_oplatch : (s.startParse).oplatch = s.oplatch := rfl
@[simp] theorem startParse_pq : (s.startParse).pq = s.pq := rfl
@[simp] theorem startParse_work : (s.startParse).work = { s.work with nalloc := 0, stack := [], tpos := 0 } := rfl
@[simp] theorem startParse_freq : (s.startParse).freq = s.freq := rfl
@[simp] theorem startParse_node : (s.startParse).node = s.node := rfl
@[simp] theorem startParse_code : (s.startParse).code = s.code := rfl
@[simp] theorem startParse_treeb : (s.startParse).treeb = s.treeb := rfl
@[simp] theorem startParse_pay : (s.startParse).pay = s.pay := rfl
@[simp] theorem startParse_bs : (s.startParse).bs = s.bs := rfl
@[simp] theorem startParse_inp : (s.startParse).inp = s.inp := rfl
@[simp] theorem startParse_out : (s.startParse).out = s.out := rfl
@[simp] theorem startParse_parsing : (s.startParse).parsing = true := rfl
@[simp] theorem startParse_draft : (s.startParse).draft = [] := rfl
@[simp] theorem startParse_epoch : (s.startParse).epoch = s.epoch := rfl
@[simp] theorem startParse_tick : (s.startParse).tick = s.tick := rfl
@[simp] theorem startParse_agenda : (s.startParse).agenda = s.agenda := rfl
@[simp] theorem startParse_reply : (s.startParse).reply = s.reply := rfl
@[simp] theorem startParse_mismatches : (s.startParse).mismatches = s.mismatches := rfl

end

section

variable (r : NodeId) (p : Parser) (s : State)

@[simp] theorem commitTree_par : (commitTree r p s).par = s.par := rfl
@[simp] theorem commitTree_status : (commitTree r p s).status = s.status := rfl
@[simp] theorem commitTree_elog : (commitTree r p s).elog = s.elog := rfl
@[simp] theorem commitTree_ctrl : (commitTree r p s).ctrl = s.ctrl := rfl
@[simp] theorem commitTree_valid : (commitTree r p s).valid = { s.valid with tree := true } := rfl
@[simp] theorem commitTree_data : (commitTree r p s).data = { s.data with root := r, nnode := p.nalloc } := rfl
@[simp] theorem commitTree_dbg : (commitTree r p s).dbg = s.dbg := rfl
@[simp] theorem commitTree_oplatch : (commitTree r p s).oplatch = s.oplatch := rfl
@[simp] theorem commitTree_pq : (commitTree r p s).pq = s.pq := rfl
@[simp] theorem commitTree_work : (commitTree r p s).work = s.work := rfl
@[simp] theorem commitTree_freq : (commitTree r p s).freq = s.freq := rfl
@[simp] theorem commitTree_node : (commitTree r p s).node = s.node.overlay p.draft := rfl
@[simp] theorem commitTree_code : (commitTree r p s).code = s.code := rfl
@[simp] theorem commitTree_treeb : (commitTree r p s).treeb = s.treeb := rfl
@[simp] theorem commitTree_pay : (commitTree r p s).pay = s.pay := rfl
@[simp] theorem commitTree_bs : (commitTree r p s).bs = s.bs := rfl
@[simp] theorem commitTree_inp : (commitTree r p s).inp = s.inp := rfl
@[simp] theorem commitTree_out : (commitTree r p s).out = s.out := rfl
@[simp] theorem commitTree_parsing : (commitTree r p s).parsing = s.parsing := rfl
@[simp] theorem commitTree_draft : (commitTree r p s).draft = s.draft := rfl
@[simp] theorem commitTree_epoch : (commitTree r p s).epoch = s.epoch := rfl
@[simp] theorem commitTree_tick : (commitTree r p s).tick = s.tick := rfl
@[simp] theorem commitTree_agenda : (commitTree r p s).agenda = s.agenda := rfl
@[simp] theorem commitTree_reply : (commitTree r p s).reply = s.reply := rfl
@[simp] theorem commitTree_mismatches : (commitTree r p s).mismatches = s.mismatches := rfl

end

section

variable (s : State)

@[simp] theorem hostReset_par : (hostReset s).par = s.par := rfl
@[simp] theorem hostReset_status : (hostReset s).status = ⟨false, false, 0, 0⟩ := rfl
@[simp] theorem hostReset_elog : (hostReset s).elog = 0 := rfl
@[simp] theorem hostReset_ctrl : (hostReset s).ctrl = ⟨false, false, false⟩ := rfl
@[simp] theorem hostReset_valid : (hostReset s).valid = ⟨false, false, false, false, false, false, false⟩ := rfl
@[simp] theorem hostReset_data : (hostReset s).data = ⟨0, 0, 0, 0, 0, 0, 0, 0⟩ := rfl
@[simp] theorem hostReset_dbg : (hostReset s).dbg = ⟨0, 0, 0⟩ := rfl
@[simp] theorem hostReset_oplatch : (hostReset s).oplatch = 0 := rfl
@[simp] theorem hostReset_pq : (hostReset s).pq = [] := rfl
@[simp] theorem hostReset_work : (hostReset s).work = s.restingWork := rfl
@[simp] theorem hostReset_freq : (hostReset s).freq = [] := rfl
@[simp] theorem hostReset_node : (hostReset s).node = [] := rfl
@[simp] theorem hostReset_code : (hostReset s).code = [] := rfl
@[simp] theorem hostReset_treeb : (hostReset s).treeb = [] := rfl
@[simp] theorem hostReset_pay : (hostReset s).pay = [] := rfl
@[simp] theorem hostReset_bs : (hostReset s).bs = [] := rfl
@[simp] theorem hostReset_inp : (hostReset s).inp = [] := rfl
@[simp] theorem hostReset_out : (hostReset s).out = [] := rfl
@[simp] theorem hostReset_parsing : (hostReset s).parsing = false := rfl
@[simp] theorem hostReset_draft : (hostReset s).draft = [] := rfl
@[simp] theorem hostReset_epoch : (hostReset s).epoch = s.epoch + 1 := rfl
@[simp] theorem hostReset_tick : (hostReset s).tick = s.tick + 1 := rfl
@[simp] theorem hostReset_agenda : (hostReset s).agenda = s.agenda := rfl
@[simp] theorem hostReset_reply : (hostReset s).reply = s.reply := rfl
@[simp] theorem hostReset_mismatches : (hostReset s).mismatches = s.mismatches := rfl

end

end Sys2Proof.Machine
end

