-- ==== Sys2Proof/Laws/Operations.lean ====
section
/-! SUPPORT. For each shared operation, everything it can do, said once: tests, primitives, macros, completion, error entry,
the turns of a step, and how an element reads after a memory was written. -/

namespace Sys2Proof.Machine

/-! ### Tests -/

@[simp] theorem require_of {c : Prop} [Decidable c] {e : ErrKind} {k : Unit → Effect} (h : c) :
    require c e k = k () := if_pos h

@[simp] theorem require_of_not {c : Prop} [Decidable c] {e : ErrKind} {k : Unit → Effect} (h : ¬ c) :
    require c e k = .raise e := if_neg h

/-- A test is passed and the rest decides, or its error is raised. -/
theorem require_cases {c : Prop} [Decidable c] {e : ErrKind} {k : Unit → Effect} {r : Effect}
    (h : require c e k = r) : (c ∧ k () = r) ∨ (¬ c ∧ r = .raise e) := by
  by_cases hc : c
  · exact .inl ⟨hc, by rwa [require_of hc] at h⟩
  · exact .inr ⟨hc, by rw [← h, require_of_not hc]⟩

/-- A body ends well exactly when the test is passed and the rest ends well. -/
theorem require_done {c : Prop} [Decidable c] {e : ErrKind} {k : Unit → Effect} {t : State} :
    require c e k = .done t ↔ c ∧ k () = .done t := by
  by_cases hc : c <;> simp [require, hc]

theorem require_stop {c : Prop} [Decidable c] {e : ErrKind} {k : Unit → Effect} {f : Fault} :
    require c e k = .stop f ↔ c ∧ k () = .stop f := by
  by_cases hc : c <;> simp [require, hc]

theorem within_of {sp : Space} {n cap : Nat} {k : Unit → Effect} (h : n ≤ cap) : within sp n cap k = k () := if_pos h

theorem within_done {sp : Space} {n cap : Nat} {k : Unit → Effect} {t : State} :
    within sp n cap k = .done t ↔ n ≤ cap ∧ k () = .done t := by
  by_cases h : n ≤ cap <;> simp [within, h]

theorem within_raise {sp : Space} {n cap : Nat} {k : Unit → Effect} {e : ErrKind} :
    within sp n cap k = .raise e ↔ n ≤ cap ∧ k () = .raise e := by
  by_cases h : n ≤ cap <;> simp [within, h]

/-! ### Primitives and macros -/

@[simp] theorem conclude_ended (s : State) (e : Option ErrKind) : conclude (.ended s e) = .next (s.complete e) := rfl
@[simp] theorem conclude_stopped (f : Fault) : conclude (.stopped f) = .fault f := rfl

theorem runPrimitive_done {op : Byte} {drop : State → State} {body : State → Effect} {s t : State}
    (h : body (s.setStage op) = .done t) : runPrimitive op drop body s = .ended t none := by
  simp [runPrimitive, h]

theorem runPrimitive_raise {op : Byte} {drop : State → State} {body : State → Effect} {s : State} {e : ErrKind}
    (h : body (s.setStage op) = .raise e) : runPrimitive op drop body s = .ended (drop (s.setStage op)) (some e) := by
  simp [runPrimitive, h]

theorem runPrimitive_stop {op : Byte} {drop : State → State} {body : State → Effect} {s : State} {f : Fault}
    (h : body (s.setStage op) = .stop f) : runPrimitive op drop body s = .stopped f := by
  simp [runPrimitive, h]

/-- Everything a primitive command can leave: its completed writes, or the error entry. -/
theorem conclude_runPrimitive_next {op : Byte} {drop : State → State} {body : State → Effect} {s t : State} :
    conclude (runPrimitive op drop body s) = .next t ↔
      (∃ u, body (s.setStage op) = .done u ∧ t = u.complete none) ∨
        (∃ e, body (s.setStage op) = .raise e ∧ t = errorEntry op drop e s) := by
  cases h : body (s.setStage op) <;> simp [runPrimitive, h, conclude, errorEntry, eq_comm]

/-- A primitive command faults exactly where its body stops. -/
theorem conclude_runPrimitive_fault {op : Byte} {drop : State → State} {body : State → Effect} {s : State} {f : Fault} :
    conclude (runPrimitive op drop body s) = .fault f ↔ body (s.setStage op) = .stop f := by
  cases h : body (s.setStage op) <;> simp [runPrimitive, h, conclude]

/-- No command ends in a refusal. -/
theorem conclude_not_refused (r : Ran) (x : Refusal) : conclude r ≠ .refused x := by
  cases r <;> simp [conclude]

@[simp] theorem runAll_nil (s : State) : runAll [] s = .ended s none := rfl

theorem runAll_cons_ok {p : State → Ran} {ps : List (State → Ran)} {s t : State} (h : p s = .ended t none) :
    runAll (p :: ps) s = runAll ps t := by
  simp [runAll, h]

theorem runAll_cons_failed {p : State → Ran} {ps : List (State → Ran)} {s t : State} {e : ErrKind}
    (h : p s = .ended t (some e)) : runAll (p :: ps) s = .ended t (some e) := by
  simp [runAll, h]

theorem runAll_cons_stopped {p : State → Ran} {ps : List (State → Ran)} {s : State} {f : Fault}
    (h : p s = .stopped f) : runAll (p :: ps) s = .stopped f := by
  simp [runAll, h]

/-- A property that every part of a macro hands on holds where the macro ends, with or without an error. -/
theorem runAll_keeps (P : State → Prop) (ps : List (State → Ran))
    (hp : ∀ p ∈ ps, ∀ s t e, P s → p s = .ended t e → P t) (s t : State) (e : Option ErrKind) (hs : P s)
    (h : runAll ps s = .ended t e) : P t := by
  induction ps generalizing s with
  | nil =>
    obtain ⟨rfl, rfl⟩ : s = t ∧ none = e := by simpa using h
    exact hs
  | cons p ps ih =>
    cases hps : p s with
    | stopped f => simp [runAll_cons_stopped hps] at h
    | ended u x =>
      have hu : P u := hp p (List.mem_cons_self ..) s u x hs hps
      cases x with
      | none =>
        rw [runAll_cons_ok hps] at h
        exact ih (fun q hq => hp q (List.mem_cons_of_mem _ hq)) u hu h
      | some x =>
        rw [runAll_cons_failed hps] at h
        obtain ⟨rfl, -⟩ : u = t ∧ some x = e := by simpa using h
        exact hu

/-! ### The error entry -/

@[simp] theorem errorEntry_status (op : Byte) (drop : State → State) (e : ErrKind) (s : State) :
    (errorEntry op drop e s).status = ⟨false, true, e.code, (drop (s.setStage op)).status.stage⟩ := rfl

@[simp] theorem errorEntry_elog (op : Byte) (drop : State → State) (e : ErrKind) (s : State) :
    (errorEntry op drop e s).elog = (drop (s.setStage op)).elog ||| elogBit (some e) := rfl

@[simp] theorem errorEntry_valid (op : Byte) (drop : State → State) (e : ErrKind) (s : State) :
    (errorEntry op drop e s).valid = (drop (s.setStage op)).valid := rfl

@[simp] theorem errorEntry_data (op : Byte) (drop : State → State) (e : ErrKind) (s : State) :
    (errorEntry op drop e s).data = (drop (s.setStage op)).data := rfl

/-- Error codes are 1 to 9 (R83). -/
theorem errKind_code_pos (e : ErrKind) : 1 ≤ e.code.toNat ∧ e.code.toNat ≤ 9 := by cases e <;> decide

/-- A completion adds to ELOG the bit of its error code and no other (R14). -/
theorem elogBit_getLsbD (e : Option ErrKind) (k : Nat) :
    (elogBit e).getLsbD k = (decide (k ≠ 0) && decide (k = (errCode e).toNat)) := by
  rcases e with _ | e
  · by_cases hk : k = 0 <;> simp [elogBit, errCode, hk]
  · by_cases hk : k < 10
    · revert e
      interval_cases k <;> (intro e; cases e <;> decide)
    · have h1 := (errKind_code_pos e).2
      have h2 : k ≠ (errCode (some e)).toNat := by simp only [errCode]; omega
      rw [BitVec.getLsbD_of_ge _ _ (by omega)]
      simp [h2]

/-! ### The turns of a step -/

/-- A step is the engine's turn, one host transaction or a comparison of the host's script. -/
theorem step_cases (s : State) :
    (∃ rest, engineNext s rest ∧ step s = engineTurn { s with agenda := rest }) ∨
      (∃ t rest, s.agenda = .host t :: rest ∧ step s = hostTurn t { s with agenda := rest }) ∨
      (∃ low width v rest, s.agenda = .compare low width v :: rest ∧
        step s = .next (hostCompare low width v { s with agenda := rest })) := by
  cases h : s.agenda with
  | nil =>
    have hs : { s with agenda := [] } = s := by rw [← h]
    exact .inl ⟨[], .inl ⟨h, rfl⟩, by rw [hs]; unfold step; rw [h]⟩
  | cons turn rest =>
    cases turn with
    | engine => exact .inl ⟨rest, .inr h, by simp [step, h]⟩
    | host t => exact .inr (.inl ⟨t, rest, rfl, by simp [step, h]⟩)
    | compare low width v => exact .inr (.inr ⟨low, width, v, rest, rfl, by simp [step, h]⟩)

/-- What the engine's turn is: nothing at rest, else the fetched instruction or the error of what cannot be decoded. -/
theorem engineTurn_cases (s : State) :
    (s.status.busy = false ∧ engineTurn s = .next s) ∨
      (∃ i, s.status.busy = true ∧ fetch s = .ok i ∧ engineTurn s = exec i s) ∨
      (∃ e, s.status.busy = true ∧ fetch s = .error e ∧ engineTurn s = .next (undecodable s)) := by
  cases hb : s.status.busy with
  | false => exact .inl ⟨rfl, by simp [engineTurn, hb]⟩
  | true =>
    cases hf : fetch s with
    | ok i => exact .inr (.inl ⟨i, rfl, rfl, by simp [engineTurn, hb, hf]⟩)
    | error e => exact .inr (.inr ⟨e, rfl, rfl, by simp [engineTurn, hb, hf]⟩)

/-- A comparison changes nothing but the count of the failed ones. -/
theorem hostCompare_eq (low width : Nat) (v : Word) (s : State) :
    hostCompare low width v s =
      { s with mismatches := s.mismatches + if replyAgrees low width v s.reply = true then 0 else 1 } := by
  unfold hostCompare
  split <;> rfl

/-- A host turn moves on, but for the narrow register access. -/
theorem hostTurn_next (t : Txn) (s : State) (h : ∀ i o b, t ≠ .narrowReg i o b) : ∃ u, hostTurn t s = .next u := by
  cases t with
  | narrowReg i o b => exact absurd rfl (h i o b)
  | reset => exact ⟨_, rfl⟩
  | writeReg i v => exact ⟨_, rfl⟩
  | readReg i => exact ⟨_, rfl⟩
  | writeIn i b => exact ⟨_, rfl⟩
  | readIn i => exact ⟨_, rfl⟩
  | readOut i => exact ⟨_, rfl⟩

/-! ### Elements after a change of the state -/

/-- The element that a memory of the state lists at an index, with what an unlisted one reads as. -/
theorem sameAt_refl (s : State) (sp : Space) (i : Nat) : sameAt s s sp i := by cases sp <;> rfl

theorem sameAt_trans {s t u : State} {sp : Space} {i : Nat} (h : sameAt s t sp i) (h' : sameAt t u sp i) :
    sameAt s u sp i := by
  cases sp <;> exact Eq.trans h' h

/-- With the same memories and the same epoch every element reads alike. -/
theorem sameAt_of_memories {s t : State} (he : t.epoch = s.epoch) (h1 : t.freq = s.freq) (h2 : t.node = s.node)
    (h3 : t.code = s.code) (h4 : t.treeb = s.treeb) (h5 : t.pay = s.pay) (h6 : t.bs = s.bs) (h7 : t.inp = s.inp)
    (h8 : t.out = s.out) (sp : Space) (i : Nat) : sameAt s t sp i := by
  cases sp <;>
    simp [sameAt, State.freqAt, State.nodeAt, State.codeAt, State.treebAt, State.payAt, State.bsAt, State.inAt,
      State.outAt, readNode, *]

theorem freqAt_writeRange {s t : State} {start : Nat} {xs : List Word} (h : t.freq = s.freq.writeRange start xs)
    (he : t.epoch = s.epoch) (i : Nat) :
    t.freqAt i = if start ≤ i ∧ i < start + xs.length then xs.getD (i - start) 0 else s.freqAt i := by
  unfold State.freqAt
  rw [h, he, read?_writeRange]
  split
  · next hi => simp [List.getElem?_eq_getElem (show i - start < xs.length by omega)]
  · rfl

theorem codeAt_writeRange {s t : State} {start : Nat} {xs : List Code} (h : t.code = s.code.writeRange start xs)
    (he : t.epoch = s.epoch) (i : Nat) :
    t.codeAt i = if start ≤ i ∧ i < start + xs.length then xs.getD (i - start) default else s.codeAt i := by
  unfold State.codeAt
  rw [h, he, read?_writeRange]
  split
  · next hi => simp [List.getElem?_eq_getElem (show i - start < xs.length by omega)]
  · rfl

theorem treebAt_writeRange {s t : State} {start : Nat} {xs : List Byte} (h : t.treeb = s.treeb.writeRange start xs)
    (he : t.epoch = s.epoch) (i : Nat) :
    t.treebAt i = if start ≤ i ∧ i < start + xs.length then xs.getD (i - start) 0 else s.treebAt i := by
  unfold State.treebAt
  rw [h, he, read?_writeRange]
  split
  · next hi => simp [List.getElem?_eq_getElem (show i - start < xs.length by omega)]
  · rfl

theorem payAt_writeRange {s t : State} {start : Nat} {xs : List Byte} (h : t.pay = s.pay.writeRange start xs)
    (he : t.epoch = s.epoch) (i : Nat) :
    t.payAt i = if start ≤ i ∧ i < start + xs.length then xs.getD (i - start) 0 else s.payAt i := by
  unfold State.payAt
  rw [h, he, read?_writeRange]
  split
  · next hi => simp [List.getElem?_eq_getElem (show i - start < xs.length by omega)]
  · rfl

theorem bsAt_writeRange {s t : State} {start : Nat} {xs : List Bool} (h : t.bs = s.bs.writeRange start xs)
    (he : t.epoch = s.epoch) (i : Nat) :
    t.bsAt i = if start ≤ i ∧ i < start + xs.length then xs.getD (i - start) false else s.bsAt i := by
  unfold State.bsAt
  rw [h, he, read?_writeRange]
  split
  · next hi => simp [List.getElem?_eq_getElem (show i - start < xs.length by omega)]
  · rfl

theorem inAt_writeRange {s t : State} {start : Nat} {xs : List Byte} (h : t.inp = s.inp.writeRange start xs)
    (he : t.epoch = s.epoch) (i : Nat) :
    t.inAt i = if start ≤ i ∧ i < start + xs.length then xs.getD (i - start) 0 else s.inAt i := by
  unfold State.inAt
  rw [h, he, read?_writeRange]
  split
  · next hi => simp [List.getElem?_eq_getElem (show i - start < xs.length by omega)]
  · rfl

theorem outAt_writeRange {s t : State} {start : Nat} {xs : List Byte} (h : t.out = s.out.writeRange start xs)
    (he : t.epoch = s.epoch) (i : Nat) :
    t.outAt i = if start ≤ i ∧ i < start + xs.length then xs.getD (i - start) 0 else s.outAt i := by
  unfold State.outAt
  rw [h, he, read?_writeRange]
  split
  · next hi => simp [List.getElem?_eq_getElem (show i - start < xs.length by omega)]
  · rfl

/-- One slot of the arena after a write. -/
@[simp] theorem readNode_write (epoch : Nat) (m : Memory Node) (i j : Nat) (n : Node) :
    readNode epoch (m.write i n) j = if j = i then n else readNode epoch m j := by
  unfold readNode
  rw [read?_write]
  split <;> rfl

/-! ### Slices -/

@[simp] theorem length_slice {β : Type} (read : Nat → β) (start n : Nat) : (slice read start n).length = n := by
  simp [slice]

theorem getElem?_slice {β : Type} (read : Nat → β) (start n i : Nat) :
    (slice read start n)[i]? = if i < n then some (read (start + i)) else none := by
  by_cases h : i < n <;> simp [slice, h]

/-- A live part that was written as one run reads back as that run. -/
theorem slice_eq {β : Type} (read : Nat → β) (start : Nat) (xs : List β)
    (h : ∀ i (hi : i < xs.length), read (start + i) = xs[i]) : slice read start xs.length = xs := by
  refine List.ext_getElem? fun i => ?_
  rw [getElem?_slice]
  split
  · next hi => simp [h i hi, hi]
  · next hi => simp [Nat.not_lt.1 hi]

theorem slice_congr {β : Type} (f g : Nat → β) (start n : Nat) (h : ∀ i, i < n → f (start + i) = g (start + i)) :
    slice f start n = slice g start n :=
  List.map_congr_left fun i hi => h i (List.mem_range.1 hi)

end Sys2Proof.Machine
end

