-- ==== Sys2Proof/Laws/Parsing.lean ====
section
/-! SUPPORT. What one record can do to the parser: which slots closing a subtree writes, and that a parser in the middle
of a parse stays one. -/

namespace Sys2Proof.Machine

/-- At rest the traversal stack is no longer than it is (R31). -/
theorem restingWork_stack (s : State) : s.restingWork.stack.length ≤ Config.stackCap := by
  simp [State.restingWork]

/-! ### Closing subtrees -/

/-- The slots after the open nodes `closing` got their right children, the first of them `id`. -/
def recordRights : NodeId → List NodeId → Memory Node → Memory Node
  | _, [], draft => draft
  | id, p :: ps, draft =>
    recordRights p ps (draft.write p.toNat { (draft.read? p.toNat).getD default with right := id })

/-- Closing a subtree completes every innermost open node whose right child is under way; what is left to close is the
last of them. -/
theorem closeSubtree_rights (nalloc : BitVec 10) (closing : List NodeId) (rest : List (NodeId × Bool)) (id : NodeId)
    (draft : Memory Node) :
    closeSubtree nalloc id (closing.map (fun p => (p, true)) ++ rest) draft =
      closeSubtree nalloc (closing.getLast?.getD id) rest (recordRights id closing draft) := by
  induction closing generalizing id draft with
  | nil => rfl
  | cons p ps ih =>
    rw [List.map_cons, List.cons_append, closeSubtree, ih, recordRights]
    cases ps <;> rfl

/-- A slot that is none of the closed nodes' stays. -/
theorem recordRights_out (closing : List NodeId) (id : NodeId) (draft : Memory Node) (k : Nat)
    (h : ∀ p ∈ closing, k ≠ p.toNat) : (recordRights id closing draft).read? k = draft.read? k := by
  induction closing generalizing id draft with
  | nil => rfl
  | cons p ps ih =>
    rw [recordRights, ih p _ (fun q hq => h q (List.mem_cons_of_mem _ hq)), read?_write, if_neg (h p List.mem_cons_self)]

/-- Each closed node keeps what its slot held and gets the node completed before it as its right child. -/
theorem recordRights_in (closing : List NodeId) (id : NodeId) (draft : Memory Node) (hn : closing.Nodup) :
    ∀ e ∈ closing.zip (id :: closing), (recordRights id closing draft).read? e.1.toNat =
      some { (draft.read? e.1.toNat).getD default with right := e.2 } := by
  induction closing generalizing id draft with
  | nil => simp
  | cons p ps ih =>
    obtain ⟨hp, hn⟩ := List.nodup_cons.1 hn
    intro e he
    rcases List.mem_cons.1 he with rfl | he
    · rw [recordRights, recordRights_out ps p _ p.toNat
        (fun q hq e => hp (BitVec.eq_of_toNat_eq e ▸ hq)), read?_write, if_pos rfl]
    · have hm := (List.of_mem_zip he).1
      rw [recordRights, ih p _ hn e he, read?_write, if_neg]
      intro x
      exact hp ((BitVec.eq_of_toNat_eq x : e.1 = p) ▸ hm)

/-! ### A parser in the middle of a parse -/

theorem parserOk_start : ParserOk Parser.start :=
  ⟨by decide, by decide, by simp [Parser.start], by simp [Parser.start], by simp [Parser.start], by simp [Parser.start]⟩

/-- Opening a node keeps the parser in the middle of a parse. -/
theorem parseInternal_more {p q : Parser} (hp : ParserOk p) (h : parseInternal p = .more q) : ParserOk q := by
  unfold parseInternal at h
  split at h
  · cases h
  · next hc =>
    obtain ⟨h1, h2⟩ := not_or.1 hc
    obtain rfl := ParseStep.more.inj h
    have hlt : p.nalloc.toNat < 511 := Nat.not_le.1 h1
    have hadd : (p.nalloc + 1).toNat = p.nalloc.toNat + 1 := by simp [BitVec.toNat_add]; omega
    have hid : (p.nalloc.setWidth 9).toNat = p.nalloc.toNat := by simp; omega
    refine ⟨?_, ?_, ?_, ?_, ?_, hp.form⟩
    · show (p.nalloc + 1).toNat ≤ 511
      omega
    · show (_ :: p.stack).length ≤ Config.stackCap
      have := Nat.not_le.1 h2
      simp only [List.length_cons]
      omega
    · intro e he
      show e.1.toNat < (p.nalloc + 1).toNat
      rcases List.mem_cons.1 he with rfl | he
      · show (p.nalloc.setWidth 9).toNat < _
        omega
      · have := hp.opened e he
        omega
    · show ((p.nalloc.setWidth 9) :: p.stack.map Prod.fst).Nodup
      refine List.nodup_cons.2 ⟨fun hm => ?_, hp.nodup⟩
      obtain ⟨e, he, hx⟩ := List.mem_map.1 hm
      have := hp.opened e he
      rw [hx] at this
      omega
    · intro e he ht
      rcases List.mem_cons.1 he with rfl | he
      · cases ht
      · exact hp.left e he ht

/-- A write of an existing slot keeps the slots of a parse in their form. -/
theorem draft_write {draft : Memory Node} (h : draft.wf ∧ draft.below Config.nodeCap) {i : Nat} (hi : i < Config.nodeCap)
    (n : Node) : (draft.write i n).wf ∧ (draft.write i n).below Config.nodeCap :=
  ⟨write_wf draft h.1 i n, write_below draft _ h.2 i n hi⟩

/-- What closing subtrees leaves is in the middle of a parse, from a stack of distinct open nodes. -/
theorem closeSubtree_more {nalloc : BitVec 10} {id : NodeId} {stack : List (NodeId × Bool)} {draft : Memory Node}
    {q : Parser} (hp : ParserOk ⟨nalloc, stack, draft⟩) (h : closeSubtree nalloc id stack draft = .more q) :
    ParserOk q := by
  induction stack generalizing id draft with
  | nil => cases h
  | cons e stack ih =>
    obtain ⟨parent, right⟩ := e
    obtain ⟨hnew, hn⟩ := List.nodup_cons.1 hp.nodup
    have hid : parent.toNat < nalloc.toNat := hp.opened (parent, right) List.mem_cons_self
    have hcap : parent.toNat < Config.nodeCap := Nat.lt_of_lt_of_le hid hp.nalloc
    have hne : ∀ x ∈ stack, x.1.toNat ≠ parent.toNat := by
      intro x hx e
      have hm : x.1 ∈ stack.map Prod.fst := List.mem_map_of_mem hx
      exact hnew (BitVec.eq_of_toNat_eq e ▸ hm)
    have hroom : stack.length + 1 ≤ Config.stackCap := hp.room
    cases right with
    | false =>
      obtain rfl := ParseStep.more.inj h
      refine ⟨hp.nalloc, hp.room, ?_, hp.nodup, ?_, draft_write hp.form hcap _⟩
      · intro x hx
        rcases List.mem_cons.1 hx with rfl | hx
        · exact hid
        · exact hp.opened x (List.mem_cons_of_mem _ hx)
      · intro x hx ht
        rcases List.mem_cons.1 hx with rfl | hx
        · exact ⟨id, (read?_write ..).trans (if_pos rfl)⟩
        · obtain ⟨l, hl⟩ := hp.left x (List.mem_cons_of_mem _ hx) ht
          exact ⟨l, (read?_write ..).trans ((if_neg (hne x hx)).trans hl)⟩
    | true =>
      have hk : ParserOk ⟨nalloc, stack, draft.write parent.toNat
          { (draft.read? parent.toNat).getD default with right := id }⟩ := by
        refine ⟨hp.nalloc, by show stack.length ≤ _; omega, fun x hx => hp.opened x (List.mem_cons_of_mem _ hx), hn,
          fun x hx ht => ?_, draft_write hp.form hcap _⟩
        obtain ⟨l, hl⟩ := hp.left x (List.mem_cons_of_mem _ hx) ht
        exact ⟨l, (read?_write ..).trans ((if_neg (hne x hx)).trans hl)⟩
      exact ih hk h

/-- A Leaf keeps the parser in the middle of a parse, while a subtree is still expected. -/
theorem parseLeaf_more {sym : Byte} {p q : Parser} (hp : ParserOk p) (h : parseLeaf sym p = .more q) : ParserOk q := by
  unfold parseLeaf at h
  split at h
  · cases h
  · next hc =>
    have hlt : p.nalloc.toNat < 511 := Nat.not_le.1 hc
    have hadd : (p.nalloc + 1).toNat = p.nalloc.toNat + 1 := by simp [BitVec.toNat_add]; omega
    refine closeSubtree_more (draft := p.draft.write p.nalloc.toNat ⟨true, sym, 0, 0, 0⟩) ?_ h
    refine ⟨?_, hp.room, ?_, hp.nodup, ?_, draft_write hp.form hlt _⟩
    · show (p.nalloc + 1).toNat ≤ 511
      omega
    · intro e he
      have := hp.opened e he
      show e.1.toNat < (p.nalloc + 1).toNat
      omega
    · intro e he ht
      obtain ⟨l, hl⟩ := hp.left e he ht
      have := hp.opened e he
      exact ⟨l, (read?_write ..).trans ((if_neg (by omega)).trans hl)⟩

/-- The slots of a finished parse are a memory in its one form, inside the arena. -/
theorem closeSubtree_root {nalloc : BitVec 10} {id r : NodeId} {stack : List (NodeId × Bool)} {draft : Memory Node}
    {q : Parser} (hf : draft.wf ∧ draft.below Config.nodeCap) (hs : ∀ e ∈ stack, e.1.toNat < Config.nodeCap)
    (h : closeSubtree nalloc id stack draft = .root r q) : q.draft.wf ∧ q.draft.below Config.nodeCap := by
  induction stack generalizing id draft with
  | nil =>
    obtain ⟨-, rfl⟩ := ParseStep.root.inj h
    exact hf
  | cons e stack ih =>
    obtain ⟨parent, right⟩ := e
    cases right with
    | false => cases h
    | true =>
      exact ih (draft_write hf (hs (parent, true) List.mem_cons_self) _) (fun x hx => hs x (List.mem_cons_of_mem _ hx)) h

theorem parseLeaf_root {sym : Byte} {p q : Parser} {r : NodeId} (hp : ParserOk p) (h : parseLeaf sym p = .root r q) :
    q.draft.wf ∧ q.draft.below Config.nodeCap := by
  unfold parseLeaf at h
  split at h
  · cases h
  · next hc =>
    exact closeSubtree_root (draft_write hp.form (Nat.not_le.1 hc) _)
      (fun e he => Nat.lt_of_lt_of_le (hp.opened e he) hp.nalloc) h

end Sys2Proof.Machine
end

