-- ==== Sys2Proof/Laws/PerInstr.lean ====
section
/-! SUPPORT. The families of statements that are made instruction by instruction. -/

/-- The form of an encoding (R70, R71, R75): a command is one command word whose bits 31:8 are zero, and its low byte is
at most 0x1F; a record starts with one of the two markers and has one byte (Internal) or two (Leaf). -/
def Sys2Proof.Laws.Format.Statement (i : Sys2Proof.Instr) : Prop :=
  match Sys2Proof.encode i with
  | .command w => i.isRecord = false ∧ w.toNat ≤ 0x1F ∧ w.extractLsb' 8 24 = 0
  | .record bytes =>
    i.isRecord = true ∧
      ((i = .internal ∧ bytes = [0x30#8]) ∨ (∃ sym, i = .leaf sym ∧ bytes = [0x31#8, sym]))

theorem Sys2Proof.Laws.Format.nop : Sys2Proof.Laws.Format.Statement .nop := by
  refine ⟨rfl, ?_, ?_⟩ <;> decide

theorem Sys2Proof.Laws.Format.freq : Sys2Proof.Laws.Format.Statement .freq := by
  refine ⟨rfl, ?_, ?_⟩ <;> decide

theorem Sys2Proof.Laws.Format.build : Sys2Proof.Laws.Format.Statement .build := by
  refine ⟨rfl, ?_, ?_⟩ <;> decide

theorem Sys2Proof.Laws.Format.gencode : Sys2Proof.Laws.Format.Statement .gencode := by
  refine ⟨rfl, ?_, ?_⟩ <;> decide

theorem Sys2Proof.Laws.Format.encode : Sys2Proof.Laws.Format.Statement .encode := by
  refine ⟨rfl, ?_, ?_⟩ <;> decide

theorem Sys2Proof.Laws.Format.sertree : Sys2Proof.Laws.Format.Statement .sertree := by
  refine ⟨rfl, ?_, ?_⟩ <;> decide

theorem Sys2Proof.Laws.Format.pack : Sys2Proof.Laws.Format.Statement .pack := by
  refine ⟨rfl, ?_, ?_⟩ <;> decide

theorem Sys2Proof.Laws.Format.wrcont : Sys2Proof.Laws.Format.Statement .wrcont := by
  refine ⟨rfl, ?_, ?_⟩ <;> decide

theorem Sys2Proof.Laws.Format.rdcont : Sys2Proof.Laws.Format.Statement .rdcont := by
  refine ⟨rfl, ?_, ?_⟩ <;> decide

theorem Sys2Proof.Laws.Format.destree : Sys2Proof.Laws.Format.Statement .destree := by
  refine ⟨rfl, ?_, ?_⟩ <;> decide

theorem Sys2Proof.Laws.Format.unpack : Sys2Proof.Laws.Format.Statement .unpack := by
  refine ⟨rfl, ?_, ?_⟩ <;> decide

theorem Sys2Proof.Laws.Format.walk : Sys2Proof.Laws.Format.Statement .walk := by
  refine ⟨rfl, ?_, ?_⟩ <;> decide

theorem Sys2Proof.Laws.Format.compress : Sys2Proof.Laws.Format.Statement .compress := by
  refine ⟨rfl, ?_, ?_⟩ <;> decide

theorem Sys2Proof.Laws.Format.decompress : Sys2Proof.Laws.Format.Statement .decompress := by
  refine ⟨rfl, ?_, ?_⟩ <;> decide

theorem Sys2Proof.Laws.Format.clear : Sys2Proof.Laws.Format.Statement .clear := by
  refine ⟨rfl, ?_, ?_⟩ <;> decide

theorem Sys2Proof.Laws.Format.internal : Sys2Proof.Laws.Format.Statement .internal :=
  ⟨rfl, .inl ⟨rfl, rfl⟩⟩

theorem Sys2Proof.Laws.Format.leaf (sym : Sys2Proof.Byte) : Sys2Proof.Laws.Format.Statement (.leaf sym) :=
  ⟨rfl, .inr ⟨sym, rfl, rfl⟩⟩
end

