-- ==== Sys2Proof/Laws/Script.lean ====
section
/-! SUPPORT. What the expect lines of a host script do: a read and a comparison, two steps. -/

namespace Sys2Proof.Machine

/-- `expect <REG> = <value>` (R88): two steps that change nothing but the reply, and count a mismatch exactly when the
register does not read as the value. -/
theorem expectReg_steps (s : State) (idx : Nat) (v : Word) (rest : List Turn)
    (h : s.agenda = (ScriptLine.expectReg idx v).turns ++ rest) :
    ∃ t, step s = .next t ∧ step t = .next { s with
      agenda := rest, reply := some (readReg s idx),
      mismatches := s.mismatches + if readReg s idx = v then 0 else 1 } := by
  refine ⟨{ s with agenda := .compare 0 32 v :: rest, reply := some (readReg s idx) }, ?_, ?_⟩
  · simp only [step, h, ScriptLine.turns, readAndCompare, List.cons_append, List.nil_append, hostTurn]
    rfl
  · have hv : replyAgrees 0 32 v (some (readReg s idx)) = decide (readReg s idx = v) := by
      simp [replyAgrees, BitVec.toNat_eq, Nat.mod_eq_of_lt (readReg s idx).isLt]
    simp only [step, hostCompare_eq, hv, decide_eq_true_eq]

/-- `expect <REG>.<FIELD> = <value>` (R88): the same of the bits that the field names. -/
theorem expectField_steps (s : State) (f : RegField) (v : Word) (rest : List Turn)
    (h : s.agenda = (ScriptLine.expectField f v).turns ++ rest) :
    ∃ t, step s = .next t ∧ step t = .next { s with
      agenda := rest, reply := some (readReg s f.place.1),
      mismatches := s.mismatches +
        if (readReg s f.place.1).toNat / 2 ^ f.place.2.1 % 2 ^ f.place.2.2 = v.toNat then 0 else 1 } := by
  refine ⟨{ s with agenda := .compare f.place.2.1 f.place.2.2 v :: rest, reply := some (readReg s f.place.1) }, ?_, ?_⟩
  · simp only [step, h, ScriptLine.turns, readAndCompare, List.cons_append, List.nil_append, hostTurn]
    rfl
  · simp only [step, hostCompare_eq, replyAgrees, decide_eq_true_eq]

end Sys2Proof.Machine
end

