-- ==== Sys2Proof/Tests/Slice0.lean ====
section
/-! SUPPORT. The model's own tests: the well-formedness checks, decoding of words written out from 30_encoding.md, vectors
of 95_test_vectors.md on one step each, and for every statement that has hypotheses a state that meets them. -/

namespace Sys2Proof.Tests

open Sys2Proof Sys2Proof.Machine

set_option maxRecDepth 100000

/-! ### Helpers -/

/-- The state that a command leaves; the state itself where it stops. -/
def after (i : Instr) (s : State) : State :=
  match exec i s with
  | .next t => t
  | .fault _ => s
  | .refused _ => s

/-- Does the command end in a next state? -/
def completes (i : Instr) (s : State) : Bool :=
  match exec i s with
  | .next _ => true
  | .fault _ => false
  | .refused _ => false

theorem exec_after {i : Instr} {s : State} (h : completes i s = true) : exec i s = .next (after i s) := by
  unfold completes at h
  unfold after
  split at h <;> simp_all

/-- The state after one step; the state itself where the step stops. -/
def stepped (s : State) : State :=
  match step s with
  | .next t => t
  | .fault _ => s
  | .refused _ => s

/-- Does the step end in a next state? -/
def moves (s : State) : Bool :=
  match step s with
  | .next _ => true
  | .fault _ => false
  | .refused _ => false

theorem step_stepped {s : State} (h : moves s = true) : step s = .next (stepped s) := by
  unfold moves at h
  unfold stepped
  split at h <;> simp_all

def bytes (l : List Nat) : List Byte := l.map (BitVec.ofNat 8)

/-- "1" is a true bit. -/
def bitsOf (l : List Nat) : List Bool := l.map (fun k => k == 1)

/-- An engine with IN_CAP = 16, OUT_CAP = 64, SRC_OK and DST_OK set. -/
def base : State := { State.reset with par := ⟨16, 64⟩, ctrl := ⟨true, true, false⟩ }

def withInput (l : List Nat) (s : State) : State :=
  { s with inp := s.inp.writeRange 0 (bytes l), data := { s.data with inLen := BitVec.ofNat 32 l.length } }

def withBits (l : List Nat) (s : State) : State :=
  { s with
    bs    := s.bs.writeRange 0 (bitsOf l)
    data  := { s.data with bsLen := BitVec.ofNat 32 l.length }
    valid := { s.valid with bs := true } }

def withTreeBytes (l : List Nat) (s : State) : State :=
  { s with
    treeb := s.treeb.writeRange 0 (bytes l)
    data  := { s.data with treeLen := BitVec.ofNat 10 l.length }
    valid := { s.valid with treeb := true } }

def withPayload (pad : Nat) (l : List Nat) (s : State) : State :=
  { s with
    pay   := s.pay.writeRange 0 (bytes l)
    data  := { s.data with payLen := BitVec.ofNat 32 l.length, pad := BitVec.ofNat 3 pad }
    valid := { s.valid with pay := true } }

/-- The counts of the pairs (symbol, count), 0 for every other symbol. -/
def withCounts (l : List (Nat × Nat)) (s : State) : State :=
  { s with
    freq  := s.freq.writeRange 0 ((List.range 256).map fun c => BitVec.ofNat 32 ((l.lookup c).getD 0))
    valid := { s.valid with freq := true } }

/-- The arena of V-T1 as DESTREE loads it: root Node(61, Node(63, 62)). -/
def withTree (s : State) : State :=
  { s with
    node  := s.node.writeRange 0
      [⟨false, 0, 0, 1, 2⟩, ⟨true, 0x61, 0, 0, 0⟩, ⟨false, 0, 0, 3, 4⟩, ⟨true, 0x63, 0, 0, 0⟩, ⟨true, 0x62, 0, 0, 0⟩]
    data  := { s.data with root := 0, nnode := 5 }
    valid := { s.valid with tree := true } }

/-- The abstract tree of `withTree`. -/
def tree1 : CodeTree := .node (.leaf 0x61) (.node (.leaf 0x63) (.leaf 0x62))

/-- The arena of V-T2: a Leaf root 61. -/
def withLeafTree (s : State) : State :=
  { s with
    node  := s.node.writeRange 0 [⟨true, 0x61, 0, 0, 0⟩]
    data  := { s.data with root := 0, nnode := 1 }
    valid := { s.valid with tree := true } }

/-- The codes of V-G3, "0" for 61 and "1" for 62, none for 63. -/
def withCodes (s : State) : State :=
  { s with
    code  := s.code.writeRange 0x61 [⟨1, 0⟩, ⟨1, BitVec.ofNat 256 (2 ^ 255)⟩, ⟨0, 0⟩]
    valid := { s.valid with code := true } }

/-- The word accepted, nothing else on the agenda. -/
def busyWith (w : Word) (s : State) : State := { s.accept w with agenda := [] }

/-- The next turn is the host's. -/
def hostNext (t : Txn) (s : State) : State := { s with agenda := [.host t] }

def statusOf (s : State) : Nat := (readReg s 2).toNat

/-- The 22 bytes of V-C1. -/
def container1 : List Nat := [8, 0, 0, 0, 0x30, 0x31, 0x61, 0x30, 0x31, 0x63, 0x31, 0x62, 7, 0, 0, 0, 2, 0, 0, 0, 0x1F, 0]

/-! ### Well-formedness (R4, U14; R75, R124): each check refuses an ill-formed term -/

theorem test_params_suggested : Params.suggested.wf = true := by decide
theorem test_params_greatest : Params.wf ⟨2 ^ 29 - 1, 2 ^ 29 - 1⟩ = true := by decide
theorem test_params_inCap_zero : Params.wf ⟨0, 1⟩ = false := by decide
theorem test_params_outCap_zero : Params.wf ⟨1, 0⟩ = false := by decide
theorem test_params_inCap_too_large : Params.wf ⟨2 ^ 29, 1⟩ = false := by decide
theorem test_params_outCap_too_large : Params.wf ⟨1, 2 ^ 29⟩ = false := by decide
theorem test_records_well_formed : treeRecordsWf [.internal, .leaf 0x30, .leaf 0x31] = true := by decide
theorem test_records_empty : treeRecordsWf [] = false := by decide
theorem test_records_missing_child : treeRecordsWf [.internal, .leaf 0x61] = false := by decide
theorem test_records_left_over : treeRecordsWf [.leaf 0x61, .leaf 0x62] = false := by decide
theorem test_records_command_inside : treeRecordsWf [.internal, .leaf 0x61, .nop] = false := by decide
theorem test_records_too_many :
    closesSubtrees 1 (List.replicate 256 .internal ++ List.replicate 257 (.leaf 0)) = true ∧
      treeRecordsWf (List.replicate 256 .internal ++ List.replicate 257 (.leaf 0)) = false := by decide

/-! ### Decoding: words written out from R71, R72, R75, R76 -/

theorem test_decode_nop : decodeCommand 0b00000000000000000000000000000000#32 = .ok .nop := by decide
theorem test_decode_freq : decodeCommand 0b00000000000000000000000000000001#32 = .ok .freq := by decide
theorem test_decode_build : decodeCommand 0b00000000000000000000000000000010#32 = .ok .build := by decide
theorem test_decode_gencode : decodeCommand 0b00000000000000000000000000000011#32 = .ok .gencode := by decide
theorem test_decode_encode : decodeCommand 0b00000000000000000000000000000100#32 = .ok .encode := by decide
theorem test_decode_sertree : decodeCommand 0b00000000000000000000000000000101#32 = .ok .sertree := by decide
theorem test_decode_pack : decodeCommand 0b00000000000000000000000000000110#32 = .ok .pack := by decide
theorem test_decode_wrcont : decodeCommand 0b00000000000000000000000000000111#32 = .ok .wrcont := by decide
theorem test_decode_rdcont : decodeCommand 0b00000000000000000000000000001000#32 = .ok .rdcont := by decide
theorem test_decode_destree : decodeCommand 0b00000000000000000000000000001001#32 = .ok .destree := by decide
theorem test_decode_unpack : decodeCommand 0b00000000000000000000000000001010#32 = .ok .unpack := by decide
theorem test_decode_walk : decodeCommand 0b00000000000000000000000000001011#32 = .ok .walk := by decide
theorem test_decode_compress : decodeCommand 0b00000000000000000000000000010000#32 = .ok .compress := by decide
theorem test_decode_decompress : decodeCommand 0b00000000000000000000000000010001#32 = .ok .decompress := by decide
theorem test_decode_clear : decodeCommand 0b00000000000000000000000000011111#32 = .ok .clear := by decide
theorem test_decode_internal : decode (.record [0b00110000#8]) = .ok .internal := by decide
theorem test_decode_leaf : decode (.record [0b00110001#8, 0b01100001#8]) = .ok (.leaf 0x61) := by decide
theorem test_decode_leaf_marker_as_symbol : decode (.record [0b00110001#8, 0b00110000#8]) = .ok (.leaf 0x30) := by decide
/-- R73: bits 31:8 must be zero; the low byte alone would be NOP. -/
theorem test_decode_high_bits : decodeCommand 0x80000000#32 = .error (.illegalCommand 0x80000000#32) := by decide
theorem test_decode_gap : decodeCommand 0x0000000C#32 = .error (.illegalCommand 0x0000000C#32) := by decide
theorem test_decode_unknown_marker : decode (.record [0x32#8, 0x61#8]) = .error (.unknownMarker 0x32#8) := by decide
theorem test_decode_truncated_leaf : decode (.record [0x31#8]) = .error .truncatedLeaf := by decide
theorem test_decode_no_record : decode (.record []) = .error .noRecord := by decide
theorem test_decode_trailing : decode (.record [0x30#8, 0x30#8]) = .error .trailingBytes := by decide
/-- V-T1's bytes, record by record. -/
theorem test_decode_records :
    decodeRecords 5 (bytes [0x30, 0x31, 0x61, 0x30, 0x31, 0x63, 0x31, 0x62]) =
      .ok [.internal, .leaf 0x61, .internal, .leaf 0x63, .leaf 0x62] := by decide
theorem test_table_word_command : decodeTableWord 32 0x10 = some .compress := by decide
theorem test_table_word_internal : decodeTableWord 8 0x30 = some .internal := by decide
theorem test_table_word_leaf : decodeTableWord 8 0x31 = some (.leaf 0) ∧ decodeTableWord 16 0x6131 = some (.leaf 0x61) := by
  decide
theorem test_table_word_refused : decodeTableWord 32 0x12 = none ∧ decodeTableWord 8 0x32 = none := by decide
/-- A placed word is the one that is fetched. -/
theorem test_fetch_placed_command : fetch (State.reset.withFetchWord 32 0x10) = .ok .compress ∧
    fetch (State.reset.withFetchWord 32 0x1F) = .ok .clear := by decide
theorem test_fetch_placed_record :
    fetch (State.reset.withFetchWord 8 0x30) = .ok .internal ∧
      fetch (State.reset.withFetchWord 16 0x6131) = .ok (.leaf 0x61) := by decide

/-! ### One step each -/

/-- R188: DONE, ERR 0, STAGE 0 (P8). -/
theorem test_nop : statusOf (stepped (State.reset.withFetchWord 32 0)) = 0x002 := by decide

/-- P8: an illegal word. -/
theorem test_illegal_command :
    statusOf (stepped (State.reset.withFetchWord 32 0x0C)) = 0xC72 ∧
      (stepped (State.reset.withFetchWord 32 0x0C)).elog = 0x080 := by decide

/-- P4: CLEAR does not clear the log. -/
theorem test_clear :
    let s := stepped ({ withTree base with elog := 4 }.withFetchWord 32 0x1F)
    statusOf s = 0x1F02 ∧ s.elog = 4 ∧ readReg s 5 = 0 ∧ s.data.nnode = 0 := by decide

/-- V-F1. -/
theorem test_freq_counts :
    let s := after .freq (withInput [0x61, 0x61, 0x61, 0x62, 0x62, 0x63] base)
    s.freqAt 0x61 = 3 ∧ s.freqAt 0x62 = 2 ∧ s.freqAt 0x63 = 1 ∧ s.freqAt 0x64 = 0 ∧ statusOf s = 0x102 := by
  decide

/-- V-F4: IOOpenFailure wins over EmptyInput. -/
theorem test_freq_order :
    statusOf (after .freq State.reset) = 0x112 ∧ (after .freq State.reset).elog = 0x002 := by decide

/-- V-B1: the tie on frequency 3 goes to the lower id. -/
theorem test_build_tie :
    let s := after .build (withCounts [(0x61, 3), (0x62, 2), (0x63, 1)] base)
    s.nodeAt 256 = ⟨false, 0, 3, 0x63, 0x62⟩ ∧ s.nodeAt 257 = ⟨false, 0, 6, 0x61, 256⟩ ∧ s.data.root = 257 ∧
      s.data.nnode = 5 := by decide

/-- V-B10. -/
theorem test_build_no_counts : statusOf (after .build State.reset) = 0x282 := by decide

/-- V-G1: left edge 0, right edge 1, left-aligned. -/
theorem test_gencode_paths :
    let s := after .gencode (withTree base)
    codeBits (s.codeAt 0x61) = [false] ∧ codeBits (s.codeAt 0x63) = [true, false] ∧
      (s.codeAt 0x62).bits = BitVec.ofNat 256 (3 * 2 ^ 254) ∧ (s.codeAt 0x64).len = 0 := by decide

/-- V-G2: the lone leaf's code is "0". -/
theorem test_gencode_single_leaf : codeBits ((after .gencode (withLeafTree base)).codeAt 0x61) = [false] := by decide

/-- V-E4. -/
theorem test_encode_order :
    (after .encode (withInput [0x62, 0x61] (withCodes base))).bitString = [true, false] := by decide

/-- V-E11: a symbol without a code. -/
theorem test_encode_no_code :
    statusOf (after .encode (withInput [0x61, 0x62, 0x63] (withCodes base))) = 0x482 := by decide

/-- V-T1. -/
theorem test_sertree_preorder :
    (after .sertree (withTree base)).treeBytes = bytes [0x30, 0x31, 0x61, 0x30, 0x31, 0x63, 0x31, 0x62] := by decide

/-- V-T1: preorder ids, frequency 0. -/
theorem test_destree_ids :
    let s := after .destree (withTreeBytes [0x30, 0x31, 0x61, 0x30, 0x31, 0x63, 0x31, 0x62] base)
    s.node = (withTree base).node ∧ s.data.root = 0 ∧ s.data.nnode = 5 ∧ statusOf s = 0x902 := by decide

/-- V-T11: a byte is left over. -/
theorem test_destree_left_over :
    let s := after .destree (withTreeBytes [0x31, 0x61, 0x00] (withTree base))
    statusOf s = 0x952 ∧ s.node = (withTree base).node ∧ s.data.nnode = 0 := by decide

/-- V-P5. -/
theorem test_pack_order :
    let s := after .pack (withBits [0, 0, 0, 1, 1, 1, 1, 1, 0] base)
    s.payload = bytes [0x1F, 0x00] ∧ s.data.pad = 7 := by decide

/-- V-P4: no padding at a multiple of 8. -/
theorem test_pack_whole_byte :
    let s := after .pack (withBits [1, 0, 1, 0, 1, 0, 1, 0] base)
    s.payload = bytes [0xAA] ∧ s.data.pad = 0 := by decide

/-- V-P12: the filler bits are dropped unexamined. -/
theorem test_unpack_filler :
    (after .unpack (withPayload 7 [0x1F, 0xFF] base)).bitString = bitsOf [0, 0, 0, 1, 1, 1, 1, 1, 1] := by decide

/-- V-C1. -/
theorem test_wrcont_layout :
    let s := after .wrcont (withPayload 7 [0x1F, 0] (withTreeBytes [0x30, 0x31, 0x61, 0x30, 0x31, 0x63, 0x31, 0x62] base))
    s.output = bytes container1 ∧ statusOf s = 0x702 := by decide

/-- V-O1: SequenceError wins over IOOpenFailure. -/
theorem test_wrcont_order : statusOf (after .wrcont State.reset) = 0x782 := by decide

/-- V-C1 read back. -/
theorem test_rdcont_fields :
    let s := after .rdcont (withInput container1 { base with par := ⟨32, 64⟩ })
    s.treeBytes = bytes [0x30, 0x31, 0x61, 0x30, 0x31, 0x63, 0x31, 0x62] ∧ s.data.pad = 7 ∧
      s.payload = bytes [0x1F, 0x00] := by decide

/-- V-C14: 4 + T + 8 does not wrap. -/
theorem test_rdcont_no_wrap :
    statusOf (after .rdcont (withInput [255, 255, 255, 255, 0, 0, 0, 0, 0, 0, 0, 0] base)) = 0x842 := by decide

/-- V-W1. -/
theorem test_walk_symbols :
    (after .walk (withBits [0, 0, 0, 1, 1, 1, 1, 1, 0] (withTree base))).output =
      bytes [0x61, 0x61, 0x61, 0x62, 0x62, 0x63] := by decide

/-- R173: bit 1 at a Leaf root. -/
theorem test_walk_leaf_root : statusOf (after .walk (withBits [0, 1] (withLeafTree base))) = 0xB62 := by decide

/-- P1. -/
theorem test_compress :
    let s := after .compress (withInput [0x61, 0x61, 0x61, 0x62, 0x62, 0x63] base)
    s.output = bytes container1 ∧ statusOf s = 0x702 ∧ readReg s 5 = 0x7F := by decide

/-- V-M14: the destination is tested last. -/
theorem test_compress_destination :
    let s := after .compress (withInput [0x61] { base with ctrl := ⟨true, false, false⟩ })
    statusOf s = 0x712 ∧ readReg s 5 = 0x3F ∧ s.data.root = 97 := by decide

/-- P2. -/
theorem test_decompress :
    let s := after .decompress (withInput container1 { base with par := ⟨32, 64⟩ })
    s.output = bytes [0x61, 0x61, 0x61, 0x62, 0x62, 0x63] ∧ statusOf s = 0xB02 ∧ readReg s 5 = 0x7A := by decide

/-- V-M19: a payload bit 1 at a Leaf root. -/
theorem test_decompress_walk_error :
    let s := after .decompress (withInput [2, 0, 0, 0, 0x31, 0x61, 7, 0, 0, 0, 1, 0, 0, 0, 0x80] base)
    statusOf s = 0xB62 ∧ readReg s 5 = 0x3A ∧ s.data.nnode = 1 := by decide

/-- R123: the first Internal record allocates slot 0. -/
theorem test_internal :
    let s := stepped (State.reset.withFetchWord 8 0x30)
    s.work.nalloc = 1 ∧ s.work.stack = [(0, false)] ∧ s.work.tpos = 1 ∧ s.status.busy = true := by decide

/-- R123, R125: a Leaf as the whole tree. -/
theorem test_leaf :
    let s := after (.leaf 0x61) { (withTreeBytes [0x31, 0x61] base).startParse with agenda := [] }
    s.nodeAt 0 = ⟨true, 0x61, 0, 0, 0⟩ ∧ s.data.nnode = 1 ∧ s.parsing = false := by decide

/-- A parse with NALLOC slots allocated, the nodes of `stack` open and the slots of `draft` written. -/
def inParse (nalloc : Nat) (stack : List (NodeId × Bool)) (draft : Memory Node) (s : State) : State :=
  { s with work := { s.work with nalloc := BitVec.ofNat 10 nalloc, stack := stack }, draft := draft, parsing := true }

/-- The open nodes 0, ..., n - 1, each in its left subtree. -/
def openLefts (n : Nat) : List (NodeId × Bool) := (List.range n).reverse.map fun k => (BitVec.ofNat 9 k, false)

/-- R31, R124: the 255th open node fits the traversal stack, and the parse stops at the 256th (log 18). -/
theorem test_internal_depth :
    (after .internal (inParse 254 (openLefts 254) [] base)).work.stack = openLefts 255 ∧
      statusOf (after .internal (inParse 255 (openLefts 255) [] base)) = 0x952 := by decide

/-- R123: a Leaf that ends two right subtrees and the left one of the root. -/
theorem test_leaf_closes :
    let s := after (.leaf 0x62) (inParse 5 [(3, true), (1, true), (0, false)] [(1, ⟨false, 0, 0, 2, 0⟩),
      (2, ⟨true, 0x61, 0, 0, 0⟩), (3, ⟨false, 0, 0, 4, 0⟩), (4, ⟨true, 0x63, 0, 0, 0⟩)] base)
    s.work.stack = [(0, true)] ∧ s.draft = [(0, ⟨false, 0, 0, 1, 0⟩), (1, ⟨false, 0, 0, 2, 3⟩),
      (2, ⟨true, 0x61, 0, 0, 0⟩), (3, ⟨false, 0, 0, 4, 5⟩), (4, ⟨true, 0x63, 0, 0, 0⟩), (5, ⟨true, 0x62, 0, 0, 0⟩)] := by
  decide

/-- P8: the interrupt line, and DONE cleared by a write to STATUS. -/
theorem test_irq :
    let s := { base with status := ⟨false, true, 0, 0⟩, ctrl := ⟨true, true, true⟩ }
    irq s = true ∧ irq (stepped (hostNext (.writeReg 2 2) s)) = false ∧ irq (stepped (hostNext (.writeReg 2 1) s)) = true := by
  decide

/-- P1's debug reads: CODE[0x62] word 8, and the link word 0xC662 of a node. -/
theorem test_debug_port :
    dbgData { after .gencode (withTree base) with dbg := ⟨2, 8, 0x62⟩ } = 2 ∧
      nodeLinkWord ⟨false, 0, 3, 0x63, 0x62⟩ = 0xC662 ∧ nodeLinkWord ⟨true, 0x61, 3, 0, 0⟩ = 0x81840000 := by decide

/-- R88: a command line is a write to CMD, the completion and a poll. -/
theorem test_script :
    (loadScript [.wr 4 3, .cmd .clear] State.reset).agenda =
      [.host (.writeReg 4 3), .host (.writeReg 1 0x1F), .engine, .host (.readReg 2)] := by decide

/-- R88: an expect line reads and compares; `expect out` does so for OUT_LEN and each byte. -/
theorem test_script_expect :
    ScriptLine.turns (.expectField .stage 7) = [.host (.readReg 2), .compare 8 8 7] ∧
      ScriptLine.turns (.expectOut [0x61, 0x62]) = [.host (.readReg 7), .compare 0 32 2, .host (.readOut 0),
        .compare 0 32 0x61, .host (.readOut 1), .compare 0 32 0x62] := by decide

/-- R88, R13: STATUS 0x0712 has STAGE 7 and ERR 1, not 2. -/
theorem test_compare :
    let s := { base with reply := some 0x0712 }
    (stepped { s with agenda := [.compare 8 8 7] }).mismatches = 0 ∧
      (stepped { s with agenda := [.compare 4 4 2] }).mismatches = 1 := by decide

/-! ### Witnesses: for each statement with hypotheses, states that meet them, clause by clause -/

/-- A tree under ROOT that meets R24, from its tree and its node ids. -/
theorem treeOk_of {s : State} (t : CodeTree) (ids : List Nat)
    (h : s.tree = .ok t ∧ reachableIds s (Config.codeMaxLen + 1) s.data.root.toNat = some ids ∧ ids.Nodup ∧
      (∀ id ∈ ids, id < Config.nodeCap) ∧ ids.length = s.data.nnode.toNat ∧ treeSize t = s.data.nnode.toNat ∧
      s.data.nnode.toNat ≤ Config.nodeCap) : TreeOk s := ⟨t, ids, h⟩

theorem witness_treeOk : TreeOk (withTree base) := treeOk_of tree1 [0, 1, 2, 3, 4] (by decide)

theorem witness_DecodeAndEncodeAgree :
    decode (.record [0x31#8, 0x30#8]) = .ok (.leaf 0x30) ∧
      (∀ r ∈ [Instr.internal, .leaf 0x31, .leaf 0x30], r.isRecord = true) ∧
      [Instr.internal, .leaf 0x31, .leaf 0x30].length ≤ 3 := by decide

theorem witness_UnlistedCommandWordsAreIllegal :
    (let s := hostNext (.writeReg 1 0x100#32) base
     s.agenda = .host (.writeReg 1 0x100#32) :: [] ∧ s.status.busy = false ∧
       decodeCommand 0x100#32 = .error (.illegalCommand 0x100#32)) ∧
    (let s := busyWith 0x000000FF#32 base
     engineNext s [] ∧ s.status.busy = true ∧ s.parsing = false ∧
       decodeCommand s.oplatch = .error (.illegalCommand s.oplatch)) :=
  ⟨by decide, .inl ⟨rfl, rfl⟩, by decide⟩

/-- The three clauses, each with both forms of an engine's turn. -/
theorem witness_StepExecutesDecodedInstruction :
    (engineNext (busyWith 0x1F base) [] ∧ (busyWith 0x1F base).status.busy = true ∧
      (busyWith 0x1F base).parsing = false ∧ decodeCommand (busyWith 0x1F base).oplatch = .ok .clear) ∧
    (let s := base.withFetchWord 8 0x30
     engineNext s [] ∧ s.status.busy = true ∧ s.parsing = true ∧
       decodeRecord (slice s.treebAt s.work.tpos.toNat (s.data.treeLen.toNat - s.work.tpos.toNat)) =
         .ok (.internal, [0x00#8])) ∧
    (engineNext base [] ∧ base.status.busy = false) := by
  refine ⟨⟨.inl ⟨rfl, rfl⟩, ?_⟩, ⟨.inr rfl, ?_⟩, .inl ⟨rfl, rfl⟩, rfl⟩ <;> decide

theorem witness_CmdWriteAtRestIsAccepted :
    (hostNext (.writeReg 1 0xFFFFFFFF) base).agenda = .host (.writeReg 1 0xFFFFFFFF) :: [] ∧
      (hostNext (.writeReg 1 0xFFFFFFFF) base).status.busy = false ∧
      (hostNext (.writeReg 1 0) (busyWith 1 base)).agenda = .host (.writeReg 1 0) :: [] ∧
      (hostNext (.writeReg 1 0) (busyWith 1 base)).status.busy = true := by decide

theorem witness_HostWritesWhileBusyAreIgnored :
    (hostNext (.writeReg 4 0) (busyWith 1 base)).status.busy = true ∧
    (hostNext (.writeReg 4 0) (busyWith 1 base)).agenda = .host (.writeReg 4 0) :: [] ∧
    (hostNext (.writeIn 0 1) (busyWith 1 base)).status.busy = true ∧
    (hostNext (.writeIn 0 1) (busyWith 1 base)).agenda = .host (.writeIn 0 1) :: [] ∧
    (hostNext (.readReg 2) (busyWith 1 base)).status.busy = true ∧
    (hostNext (.readReg 2) (busyWith 1 base)).agenda = .host (.readReg 2) :: [] := by decide

/-- Every index of the clauses, at rest, and a write while BUSY. -/
theorem witness_HostRegisterWrites :
    (∀ idx ∈ [1, 2, 3, 4, 6, 14, 15],
      (hostNext (.writeReg idx 7) base).agenda = .host (.writeReg idx 7) :: [] ∧
        (hostNext (.writeReg idx 7) base).status.busy = false) ∧
    (∀ idx ∈ [0, 5, 7, 13, 16, 18, 19],
      (hostNext (.writeReg idx 7) base).agenda = .host (.writeReg idx 7) :: [] ∧ idx ∉ [1, 2, 3, 4, 6, 14, 15]) ∧
    (hostNext (.writeReg 4 0) (busyWith 1 base)).agenda = .host (.writeReg 4 0) :: [] ∧
    (hostNext (.writeReg 4 0) (busyWith 1 base)).status.busy = true := by decide

/-- The last index of IN and the first beyond it. -/
theorem witness_HostWriteInStoresOneByte :
    ((hostNext (.writeIn 15 1) base).agenda = .host (.writeIn 15 1) :: [] ∧ 15 < base.par.inCap) ∧
    ((hostNext (.writeIn 16 1) base).agenda = .host (.writeIn 16 1) :: [] ∧ base.par.inCap ≤ 16) ∧
    base.status.busy = false := by decide

theorem witness_HostReadsChangeNothing :
    (hostNext (.readReg 1) base).agenda = .host (.readReg 1) :: [] ∧
    (hostNext (.readReg 19) base).agenda = .host (.readReg 19) :: [] ∧
    (hostNext (.readIn 16) base).agenda = .host (.readIn 16) :: [] ∧
    (hostNext (.readOut 63) base).agenda = .host (.readOut 63) :: [] := by decide

/-- A selection at the last element of each space, and one beyond each. -/
theorem witness_DebugPortReadsTheSelectedWord :
    (∀ d ∈ [(0, 0, 255), (1, 0, 510), (1, 1, 510), (2, 0, 255), (2, 7, 255), (2, 8, 255), (3, 0, 766), (4, 0, 15),
        (5, 0, 127), (6, 0, 15), (7, 0, 63)],
      let s := { base with dbg := ⟨BitVec.ofNat 4 d.1, BitVec.ofNat 4 d.2.1, BitVec.ofNat 32 d.2.2⟩ }
      let i := s.dbg.index.toNat
      let w := s.dbg.word.toNat
      (s.dbg.space = 0 ∧ i < 256 ∧ w = 0) ∨ (s.dbg.space = 1 ∧ i < 511 ∧ w = 0) ∨ (s.dbg.space = 1 ∧ i < 511 ∧ w = 1) ∨
        (s.dbg.space = 2 ∧ i < 256 ∧ w < 8) ∨ (s.dbg.space = 2 ∧ i < 256 ∧ w = 8) ∨
        (s.dbg.space = 3 ∧ i < 767 ∧ w = 0) ∨ (s.dbg.space = 4 ∧ i < s.par.inCap ∧ w = 0) ∨
        (s.dbg.space = 5 ∧ i < 8 * s.par.inCap ∧ w = 0) ∨ (s.dbg.space = 6 ∧ i < s.par.inCap ∧ w = 0) ∨
        (s.dbg.space = 7 ∧ i < s.par.outCap ∧ w = 0)) ∧
    (∀ d ∈ [(8, 0, 0), (0, 0, 256), (0, 1, 0), (1, 0, 511), (1, 2, 0), (2, 0, 256), (2, 9, 0), (3, 0, 767), (4, 0, 16),
        (5, 0, 128), (6, 0, 16), (7, 0, 64)],
      let s := { base with dbg := ⟨BitVec.ofNat 4 d.1, BitVec.ofNat 4 d.2.1, BitVec.ofNat 32 d.2.2⟩ }
      let i := s.dbg.index.toNat
      let w := s.dbg.word.toNat
      7 < s.dbg.space.toNat ∨ (s.dbg.space = 0 ∧ (256 ≤ i ∨ w ≠ 0)) ∨ (s.dbg.space = 1 ∧ (511 ≤ i ∨ 1 < w)) ∨
        (s.dbg.space = 2 ∧ (256 ≤ i ∨ 8 < w)) ∨ (s.dbg.space = 3 ∧ (767 ≤ i ∨ w ≠ 0)) ∨
        (s.dbg.space = 4 ∧ (s.par.inCap ≤ i ∨ w ≠ 0)) ∨ (s.dbg.space = 5 ∧ (8 * s.par.inCap ≤ i ∨ w ≠ 0)) ∨
        (s.dbg.space = 6 ∧ (s.par.inCap ≤ i ∨ w ≠ 0)) ∨ (s.dbg.space = 7 ∧ (s.par.outCap ≤ i ∨ w ≠ 0))) := by decide

theorem witness_HostResetAtAnyTime :
    (hostNext .reset (busyWith 1 base)).agenda = .host .reset :: [] ∧ (busyWith 1 base).status.busy = true := by decide

theorem witness_RegistersReadTheirFields : base.par.wf = true := by decide

theorem witness_RegistersAfterReset : (1 ≤ 1 ∧ 1 ≤ 15) ∧ (1 ≤ 15 ∧ 15 ≤ 15) := by decide

theorem witness_InterruptLineFollowsDoneAndEnable :
    (step (busyWith 0 base) = .next (stepped (busyWith 0 base)) ∧ (busyWith 0 base).status.busy = true ∧
      (stepped (busyWith 0 base)).status.busy = false ∧ ∀ rest, (busyWith 0 base).agenda ≠ .host .reset :: rest) ∧
    ((hostNext (.writeReg 1 0) base).status.busy = false ∧
      step (hostNext (.writeReg 1 0) base) = .next (stepped (hostNext (.writeReg 1 0) base))) ∧
    ((hostNext (.writeReg 2 2) base).status.busy = false ∧
      step (hostNext (.writeReg 2 2) base) = .next (stepped (hostNext (.writeReg 2 2) base))) ∧
    ((hostNext (.writeReg 4 4) base).status.busy = false ∧
      step (hostNext (.writeReg 4 4) base) = .next (stepped (hostNext (.writeReg 4 4) base))) ∧
    step (hostNext .reset base) = .next (stepped (hostNext .reset base)) :=
  ⟨⟨step_stepped (by decide), by decide, by decide, (fun _ h => by cases h)⟩, ⟨rfl, step_stepped (by decide)⟩,
    ⟨rfl, step_stepped (by decide)⟩, ⟨rfl, step_stepped (by decide)⟩, step_stepped (by decide)⟩

/-- The word's ranges: 0x0B and 0x1F of the first clause, 0x10, 0x11. -/
theorem witness_CompletionIsReported :
    (exec .walk base = .next (after .walk base) ∧ commandWord .walk = some 0x0B) ∧
    (exec .clear base = .next (after .clear base) ∧ commandWord .clear = some 0x1F) ∧
    (exec .compress base = .next (after .compress base) ∧ commandWord .compress = some 0x10) ∧
    (exec .decompress base = .next (after .decompress base) ∧ commandWord .decompress = some 0x11) :=
  ⟨⟨exec_after (by decide), rfl⟩, ⟨exec_after (by decide), rfl⟩, ⟨exec_after (by decide), rfl⟩,
    ⟨exec_after (by decide), rfl⟩⟩

theorem witness_EngineNeverWritesTheHostsState :
    exec .sertree (withTree base) = .next (after .sertree (withTree base)) := exec_after (by decide)

/-- Each primitive fails somewhere, and an illegal word. -/
theorem witness_FailingPrimitiveOnlyInvalidatesItsOutputs :
    (∀ i ∈ [Instr.freq, .build, .destree, .gencode, .encode, .unpack, .sertree, .pack, .wrcont, .walk, .rdcont],
      exec i State.reset = .next (after i State.reset) ∧ (after i State.reset).status.err ≠ 0) ∧
    (let s := busyWith 0x20 base
     engineNext s [] ∧ s.status.busy = true ∧ s.parsing = false ∧
       decodeCommand s.oplatch = .error (.illegalCommand 0x20) ∧ step s = .next (stepped s) ∧
       (stepped s).status.err ≠ 0) := by
  have h : ∀ i ∈ [Instr.freq, .build, .destree, .gencode, .encode, .unpack, .sertree, .pack, .wrcont, .walk, .rdcont],
    completes i State.reset = true ∧ (after i State.reset).status.err ≠ 0 := by decide
  exact ⟨fun i hi => ⟨exec_after (h i hi).1, (h i hi).2⟩, .inl ⟨rfl, rfl⟩, by decide, by decide, by decide,
    step_stepped (by decide), by decide⟩

theorem witness_FailedCommandsFailAgain :
    Instr.isRecord .decompress = false ∧ base.par.wf = true ∧ exec .decompress base = .next (after .decompress base) ∧
      (after .decompress base).status.err ≠ 0 := ⟨rfl, by decide, exec_after (by decide), by decide⟩

/-- A completion with error 8, a bit that stays through it, a write that clears a bit, and a reset. -/
theorem witness_ElogIsTheStickyLogOfErrors :
    (let s := busyWith 2 { base with elog := 0x200 }
     step s = .next (stepped s) ∧ s.status.busy = true ∧ (stepped s).status.busy = false ∧
       (∀ rest, s.agenda ≠ .host .reset :: rest) ∧ (∀ v rest, s.agenda ≠ .host (.writeReg 3 v) :: rest) ∧
       (stepped s).status.err.toNat = 8 ∧ s.elog.getLsbD 8 = false ∧ (stepped s).elog.getLsbD 8 = true ∧
       s.elog.getLsbD 9 = true ∧ s.elog.getLsbD 0 = false) ∧
    (let s := hostNext (.writeReg 3 0x202) { base with elog := 0x202 }
     step s = .next (stepped s) ∧ s.status.busy = false ∧ (0x202#32).getLsbD 1 = true ∧ (0x202#32).getLsbD 9 = true) ∧
    step (hostNext .reset base) = .next (stepped (hostNext .reset base)) :=
  ⟨⟨step_stepped (by decide), by decide, by decide, (fun _ h => by cases h), (fun _ _ h => by cases h), by decide,
    by decide, by decide, by decide, by decide⟩, ⟨step_stepped (by decide), by decide⟩, step_stepped (by decide)⟩

/-- Success with IN_LEN = 1 and IN_LEN = IN_CAP; each verdict. -/
theorem witness_FreqCountsTheInput :
    (let s := withInput [0x61] base
     s.ctrl.srcOk = true ∧ s.data.inLen.toNat ≤ s.par.inCap ∧ 1 ≤ s.data.inLen.toNat) ∧
    (let s := withInput (List.replicate 16 0x61) base
     s.ctrl.srcOk = true ∧ s.data.inLen.toNat ≤ s.par.inCap ∧ 1 ≤ s.data.inLen.toNat) ∧
    freqVerdict State.reset = some .ioOpenFailure ∧
    freqVerdict { base with data := { base.data with inLen := 17 } } = some .bufferOverflow ∧
    freqVerdict base = some .emptyInput := by decide

theorem witness_QueueExtractsTheLeastKey :
    ([] : List NodeId).Nodup ∧ [5, 3, 4].Nodup ∧ [(5 : NodeId), 3, 4] ≠ [] ∧
      ∀ id ∈ [(5 : NodeId), 3, 4], ((fun x : NodeId => ((1, x.toNat) : Key)) id).2 = id.toNat := by decide

theorem observed_one : observed (withCounts [(0x61, 4)] base) = [0x61] := by decide
theorem observed_two : observed (withCounts [(0x61, 1), (0xFF, 1)] base) = [0x61, 0xFF] := by decide
theorem observed_none : observed (withCounts [] base) = [] := by decide

/-- One symbol, two symbols, and the two verdicts. -/
theorem witness_BuildMergesTheTwoLeastNodes :
    (let s := withCounts [(0x61, 4)] base
     s.valid.freq = true ∧ observed s ≠ [] ∧ (observed s).length = 1) ∧
    (let s := withCounts [(0x61, 1), (0xFF, 1)] base
     s.valid.freq = true ∧ observed s ≠ [] ∧ 2 ≤ (observed s).length ∧ 0 < (observed s).length - 1) ∧
    buildVerdict base = some .sequenceError ∧ buildVerdict (withCounts [] base) = some .treeConstructionFailure := by
  refine ⟨?_, ?_, rfl, ?_⟩
  · simp only [observed_one]; decide
  · simp only [observed_two]; decide
  · unfold buildVerdict; rw [observed_none]; rfl

theorem witness_BuildLeavesATreeOfTheObservedSymbols :
    let s := withCounts [(0x61, 1), (0xFF, 1)] base
    exec .build s = .next (after .build s) ∧ (after .build s).status.err = 0 ∧ 2 ≤ (observed s).length ∧
      ((List.range 256).map (fun c => (s.freqAt c).toNat)).sum < 2 ^ 32 := by
  have h : completes .build (withCounts [(0x61, 1), (0xFF, 1)] base) = true ∧
      (after .build (withCounts [(0x61, 1), (0xFF, 1)] base)).status.err = 0 := by decide
  exact ⟨exec_after h.1, h.2, by rw [observed_two]; decide, by decide⟩

theorem witness_BuildIsAFunctionOfTheCounts :
    let s := withCounts [(0x61, 4)] base
    let s' := withCounts [(0x61, 4)] (withTree { base with epoch := 1 })
    (∀ c, c < 256 → s.freqAt c = s'.freqAt c) ∧ s.valid.freq = true ∧ s'.valid.freq = true ∧
      exec .build s = .next (after .build s) ∧ exec .build s' = .next (after .build s') ∧
      (after .build s).status.err = 0 := by
  have h : completes .build (withCounts [(0x61, 4)] base) = true ∧
      (after .build (withCounts [(0x61, 4)] base)).status.err = 0 := by decide
  exact ⟨by decide, rfl, rfl, exec_after h.1, exec_after (by decide), h.2⟩

/-- A tree, a leaf's path with none after it, a symbol with no leaf, a leaf root with the empty path, no tree. -/
theorem witness_GencodeRecordsEachLeafsPath :
    ((withTree base).valid.tree = true ∧ (withTree base).tree = .ok tree1 ∧
      codes tree1 = [(0x61, [false])] ++ (0x63, [true, false]) :: [(0x62, [true, true])] ∧
      (∀ p ∈ [((0x62 : Byte), [true, true])], p.1 ≠ 0x63) ∧ ∀ p ∈ codes tree1, p.1 ≠ 0x64) ∧
    ((withLeafTree base).tree = .ok (.leaf 0x61) ∧ codes (.leaf 0x61) = [] ++ (0x61, []) :: []) ∧
    base.valid.tree = false := by decide

theorem witness_GeneratedCodesArePrefixFree :
    let t := after .gencode (withTree base)
    exec .gencode (withTree base) = .next t ∧ t.status.err = 0 ∧ (0x61 : Byte) ≠ 0x62 ∧
      (t.codeAt (0x61 : Byte).toNat).len ≠ 0 ∧ (t.codeAt (0x62 : Byte).toNat).len ≠ 0 :=
  ⟨exec_after (by decide), by decide, by decide, by decide, by decide⟩

/-- Every byte coded; a byte without a code; a code that does not fit; each verdict. -/
theorem witness_EncodeConcatenatesTheCodes :
    (let s := withInput [0x62, 0x61] (withCodes base)
     s.par.wf = true ∧ encodeVerdict s = none ∧ (∀ b ∈ s.input, (s.codeAt b.toNat).len ≠ 0) ∧
       (enc (fun b => codeBits (s.codeAt b.toNat)) s.input).length ≤ s.par.bsCap) ∧
    (let s := withInput [0x61, 0x63] (withCodes base)
     encodeVerdict s = none ∧ s.input = [0x61] ++ 0x63 :: [] ∧ (∀ x ∈ [(0x61 : Byte)], (s.codeAt x.toNat).len ≠ 0) ∧
       (enc (fun b => codeBits (s.codeAt b.toNat)) [0x61]).length ≤ s.par.bsCap ∧
       (s.codeAt (0x63 : Byte).toNat).len = 0) ∧
    (let s := withInput [0x61] { withCodes base with par := ⟨1, 1⟩, code := [(0x61, ⟨9, 0⟩)] }
     s.par.wf = true ∧ encodeVerdict s = none ∧ s.input = [] ++ 0x61 :: [] ∧
       (enc (fun b => codeBits (s.codeAt b.toNat)) []).length ≤ s.par.bsCap ∧
       (s.codeAt (0x61 : Byte).toNat).len ≠ 0 ∧
       s.par.bsCap < (enc (fun b => codeBits (s.codeAt b.toNat)) ([] ++ [0x61])).length) ∧
    encodeVerdict base = some .sequenceError ∧
    encodeVerdict (withCodes { base with ctrl := ⟨false, true, false⟩ }) = some .ioOpenFailure ∧
    encodeVerdict { withCodes base with data := { base.data with inLen := 17 } } = some .bufferOverflow := by decide

theorem witness_SertreeWritesThePreorderBytes :
    ((withTree base).valid.tree = true ∧ (withTree base).tree = .ok tree1 ∧ (treeSymbols tree1).length ≤ 256) ∧
      base.valid.tree = false := by decide

theorem witness_not_a_tree (t : CodeTree) : bytes [0x30] ≠ ser t := by
  cases t with
  | leaf sym => intro h; simp [bytes, ser] at h
  | node l r => cases l <;> intro h <;> simp [bytes, ser] at h

theorem witness_DestreeLoadsExactlyTheSerializedTrees :
    (let s := withTreeBytes [0x30, 0x31, 0x61, 0x30, 0x31, 0x63, 0x31, 0x62] base
     s.valid.treeb = true ∧ s.treeBytes = ser tree1 ∧ treeSize tree1 ≤ 511) ∧
    base.valid.treeb = false ∧
    (let s := withTreeBytes [0x30] base
     s.valid.treeb = true ∧ s.data.treeLen.toNat ≤ 767 ∧ ∀ t, s.treeBytes = ser t → 511 < treeSize t) := by
  refine ⟨by decide, by decide, by decide, by decide, fun t h => ?_⟩
  rw [show (withTreeBytes [0x30] base).treeBytes = bytes [0x30] by decide] at h
  exact absurd h (witness_not_a_tree t)

theorem witness_DestreeAcceptsTheGrammarOfTreeBytes :
    let s := withTreeBytes [0x30, 0x31, 0x30, 0x31, 0x31] base
    s.valid.treeb = true ∧ s.data.treeLen.toNat ≤ 767 := by decide

theorem witness_SerializationIsATwoSidedInverse :
    ((withTree base).valid.tree = true ∧ TreeOk (withTree base) ∧ (withTree base).tree = .ok tree1) ∧
    exec .gencode (withTree base) = .next (after .gencode (withTree base)) ∧
    (let s := withTreeBytes [0x31, 0x61] base
     exec .destree s = .next (after .destree s) ∧ (after .destree s).status.err = 0) :=
  ⟨⟨rfl, witness_treeOk, by decide⟩, exec_after (by decide), exec_after (by decide), by decide⟩

/-- BS_LEN = 0 and BS_LEN = 9; no bits. -/
theorem witness_PackFillsBytesMostSignificantFirst :
    (let s := withBits [] base
     s.par.wf = true ∧ s.valid.bs = true ∧ s.data.bsLen.toNat ≤ s.par.bsCap) ∧
    (let s := withBits [0, 0, 0, 1, 1, 1, 1, 1, 0] base
     s.par.wf = true ∧ s.valid.bs = true ∧ s.data.bsLen.toNat ≤ s.par.bsCap) ∧ base.valid.bs = false := by decide

theorem witness_UnpackDropsThePaddingBits :
    (let s := withPayload 0 [] base
     s.par.wf = true ∧ s.valid.pay = true ∧ s.data.payLen.toNat ≤ s.par.payCap ∧ (s.data.payLen = 0 → s.data.pad = 0)) ∧
    (let s := withPayload 7 [0x1F, 0xFF] base
     s.par.wf = true ∧ s.valid.pay = true ∧ s.data.payLen.toNat ≤ s.par.payCap ∧ (s.data.payLen = 0 → s.data.pad = 0)) ∧
    base.valid.pay = false := by decide

theorem witness_PackAndUnpackRoundTrip :
    (let s := withBits [1, 0, 1] base
     s.par.wf = true ∧ s.valid.bs = true ∧ s.data.bsLen.toNat ≤ s.par.bsCap) ∧
    (let s := withPayload 7 [0x1F, 0xFF] base
     s.par.wf = true ∧ s.valid.pay = true ∧ s.data.payLen.toNat ≤ s.par.payCap ∧
       (s.data.payLen = 0 → s.data.pad = 0)) := by decide

theorem witness_WrcontWritesTheContainer :
    (let s := withPayload 7 [0x1F, 0] (withTreeBytes [0x31, 0x61] base)
     s.par.wf = true ∧ wrcontVerdict s = none ∧ s.data.treeLen.toNat ≤ 767 ∧ s.data.payLen.toNat ≤ s.par.payCap) ∧
    (let s := withPayload 7 [0x1F, 0] (withTreeBytes [0x31, 0x61] { base with par := ⟨16, 16⟩ })
     s.par.wf = true ∧ wrcontVerdict s = none ∧ s.data.treeLen.toNat ≤ 767 ∧ s.data.payLen.toNat ≤ s.par.payCap) ∧
    wrcontVerdict base = some .sequenceError ∧
    wrcontVerdict (withPayload 7 [0] (withTreeBytes [0x31, 0x61] { base with ctrl := ⟨true, false, false⟩ })) =
      some .ioOpenFailure ∧
    wrcontVerdict (withPayload 7 [0x1F, 0] (withTreeBytes [0x31, 0x61] { base with par := ⟨16, 15⟩ })) =
      some .bufferOverflow := by decide

theorem witness_RdcontReadsTheContainer :
    rdcontVerdict (withInput container1 { base with par := ⟨22, 64⟩ }) = none ∧
    rdcontVerdict (withInput container1 { base with ctrl := ⟨false, true, false⟩ }) = some .ioOpenFailure ∧
    rdcontVerdict (withInput container1 base) = some .bufferOverflow ∧
    rdcontVerdict base = some .formatError ∧
    rdcontVerdict { (withInput [0, 3, 0, 0] { base with par := ⟨781, 64⟩ }) with
      inp := [(0, 0), (1, 3), (2, 0), (3, 0), (772, 0), (773, 0), (774, 0), (775, 0), (776, 1), (777, 0), (778, 0), (779, 0)],
      data := { base.data with inLen := 781 } } = some .malformedTree := by decide

theorem witness_ContainerRoundTrip :
    (let s := withPayload 7 [0] (withTreeBytes [0x31, 0x61] base)
     let t := after .wrcont s
     let u := withInput [2, 0, 0, 0, 0x31, 0x61, 7, 0, 0, 0, 1, 0, 0, 0, 0] base
     s.par.wf = true ∧ exec .wrcont s = .next t ∧ t.status.err = 0 ∧ 1 ≤ s.data.treeLen.toNat ∧
       1 ≤ s.data.payLen.toNat ∧ u.par = s.par ∧ u.ctrl.srcOk = true ∧ u.data.inLen = t.data.outLen ∧
       t.data.outLen.toNat ≤ s.par.inCap ∧ u.input = t.output) ∧
    (let s := withInput [2, 0, 0, 0, 0x31, 0x61, 7, 0, 0, 0, 1, 0, 0, 0, 0] base
     exec .rdcont s = .next (after .rdcont s) ∧ (after .rdcont s).status.err = 0 ∧ s.ctrl.dstOk = true ∧
       s.data.inLen.toNat ≤ s.par.outCap) :=
  ⟨⟨by decide, exec_after (by decide), by decide, by decide, by decide, by decide, by decide, by decide, by decide,
    by decide⟩, exec_after (by decide), by decide, by decide, by decide⟩

/-- A walk that ends at the root; one symbol too many; an end inside a code; each verdict. -/
theorem witness_WalkEmitsTheSymbolsOfTheTree :
    (let s := withBits [0, 1, 1] (withTree { base with par := ⟨16, 2⟩ })
     s.par.wf = true ∧ walkVerdict s = none ∧ s.data.bsLen.toNat ≤ s.par.bsCap ∧ s.tree = .ok tree1 ∧
       walkTree tree1 s.bitString tree1 = some [0x61, 0x62] ∧ [(0x61 : Byte), 0x62].length ≤ s.par.outCap) ∧
    (let s := withBits [0, 1, 1] (withTree { base with par := ⟨16, 1⟩ })
     s.par.wf = true ∧ walkVerdict s = none ∧ s.data.bsLen.toNat ≤ s.par.bsCap ∧ s.tree = .ok tree1 ∧
       overflowsOut tree1 s.bitString s.par.outCap) ∧
    (let s := withBits [1] (withTree base)
     walkVerdict s = none ∧ s.data.bsLen.toNat ≤ s.par.bsCap ∧ s.tree = .ok tree1 ∧
       ¬ overflowsOut tree1 s.bitString s.par.outCap ∧ walkTree tree1 s.bitString tree1 = none) ∧
    walkVerdict base = some .sequenceError ∧
    walkVerdict (withBits [0] (withTree { base with ctrl := ⟨true, false, false⟩ })) = some .ioOpenFailure := by
  refine ⟨by decide, ⟨by decide, by decide, by decide, by decide, 3, [0x61, 0x62], by decide, by decide, by decide⟩,
    ⟨by decide, by decide, by decide, ?_, by decide⟩, by decide, by decide⟩
  rintro ⟨k, syms, hk, hw, hlen⟩
  have hbits : (withBits [1] (withTree base)).bitString = [true] := by decide
  rw [hbits] at hk hw
  have hk : k ≤ 1 := hk
  have h0 : walkTree tree1 ([true].take 0) tree1 = some [] := by decide
  have h1 : walkTree tree1 ([true].take 1) tree1 = none := by decide
  rcases (show k = 0 ∨ k = 1 by omega) with rfl | rfl
  · rw [h0] at hw
    obtain rfl : [] = syms := by simpa using hw
    simp at hlen
  · rw [h1] at hw
    simp at hw

theorem witness_WalkInvertsEncode :
    let s := withInput [0x62, 0x63] (withTree base)
    s.par.wf = true ∧ s.valid.tree = true ∧ TreeOk s ∧ s.tree = .ok tree1 ∧ (treeSymbols tree1).Nodup ∧
      s.ctrl.srcOk = true ∧ s.ctrl.dstOk = true ∧ s.data.inLen.toNat ≤ s.par.inCap ∧
      s.data.inLen.toNat ≤ s.par.outCap ∧ (∀ b ∈ s.input, b ∈ treeSymbols tree1) ∧
      (enc (codeIn tree1) s.input).length ≤ s.par.bsCap :=
  ⟨by decide, by decide, treeOk_of tree1 [0, 1, 2, 3, 4] (by decide), by decide, by decide, by decide, by decide,
    by decide, by decide, by decide, by decide⟩

/-- A macro that ends early and one that completes. -/
theorem witness_MacrosAreTheirPrimitivesInSequence :
    exec .compress base = .next (after .compress base) ∧
      exec .decompress (withInput container1 { base with par := ⟨32, 64⟩ }) =
        .next (after .decompress (withInput container1 { base with par := ⟨32, 64⟩ })) :=
  ⟨exec_after (by decide), exec_after (by decide)⟩

theorem witness_CompressWritesTheContainerOfTheInput :
    let s := withInput [0x61] { base with par := ⟨1, 15⟩ }
    s.par.wf = true ∧ s.ctrl.srcOk = true ∧ s.ctrl.dstOk = true ∧ 1 ≤ s.data.inLen.toNat ∧
      s.data.inLen.toNat ≤ s.par.inCap ∧ treeOfInput s.input = some (.leaf 0x61) ∧
      (enc (codeIn (.leaf 0x61)) s.input).length ≤ s.par.bsCap ∧
      (containerOf (.leaf 0x61) s.input).length ≤ s.par.outCap := by decide

theorem witness_InputsCodeFitsEightBitsAByte :
    [(0x61 : Byte)].length < 2 ^ 29 ∧ treeOfInput [0x61] = some (.leaf 0x61) := by decide

theorem witness_CompressReportsNoOtherError :
    base.par.wf = true ∧ exec .compress base = .next (after .compress base) ∧ (after .compress base).status.err ≠ 0 :=
  ⟨by decide, exec_after (by decide), by decide⟩

theorem witness_EveryInputHasATree : [(0x61 : Byte)] ≠ [] ∧ [(0x61 : Byte)].length < 2 ^ 29 := by decide

theorem witness_CompressReportsItsFailures :
    (base.par.wf = true ∧ freqVerdict base = some .emptyInput) ∧
    (let s := withInput [0x61] { base with ctrl := ⟨true, false, false⟩ }
     freqVerdict s = none ∧ treeOfInput s.input = some (.leaf 0x61) ∧
       (enc (codeIn (.leaf 0x61)) s.input).length ≤ s.par.bsCap ∧ s.ctrl.dstOk = false) ∧
    (let s := withInput [0x61] { base with par := ⟨1, 14⟩ }
     s.par.wf = true ∧ freqVerdict s = none ∧ treeOfInput s.input = some (.leaf 0x61) ∧
       (enc (codeIn (.leaf 0x61)) s.input).length ≤ s.par.bsCap ∧ s.ctrl.dstOk = true ∧
       s.par.outCap < (containerOf (.leaf 0x61) s.input).length) := by decide

/-- Each clause: a verdict of RDCONT, malformed tree-bytes, DST_OK = 0, one symbol too many, an end inside a code, success. -/
theorem witness_DecompressDecodesTheContainer :
    (base.par.wf = true ∧ rdcontVerdict base = some .formatError) ∧
    (let s := withInput [1, 0, 0, 0, 0x30, 7, 0, 0, 0, 1, 0, 0, 0, 0] base
     rdcontVerdict s = none ∧ s.input = cont (bytes [0x30]) 7 [0] ∧ ∀ tr, bytes [0x30] = ser tr → 511 < treeSize tr) ∧
    (let s := withInput container1 { base with par := ⟨22, 6⟩, ctrl := ⟨true, false, false⟩ }
     s.par.wf = true ∧ rdcontVerdict s = none ∧ s.input = cont (ser tree1) 7 [0x1F, 0x00] ∧ 7 ≤ 7 ∧
       treeSize tree1 ≤ 511 ∧ s.ctrl.dstOk = false) ∧
    (let s := withInput container1 { base with par := ⟨22, 5⟩ }
     s.par.wf = true ∧ rdcontVerdict s = none ∧ s.ctrl.dstOk = true ∧
       overflowsOut tree1 (unpackBits [0x1F, 0x00] 7) s.par.outCap) ∧
    (let s := withInput [2, 0, 0, 0, 0x31, 0x61, 7, 0, 0, 0, 1, 0, 0, 0, 0x80] base
     rdcontVerdict s = none ∧ s.input = cont (ser (.leaf 0x61)) 7 [0x80] ∧ s.ctrl.dstOk = true ∧
       ¬ overflowsOut (.leaf 0x61) (unpackBits [0x80] 7) s.par.outCap ∧
       walkTree (.leaf 0x61) (unpackBits [0x80] 7) (.leaf 0x61) = none) ∧
    (let s := withInput container1 { base with par := ⟨22, 6⟩ }
     s.par.wf = true ∧ rdcontVerdict s = none ∧ s.input = cont (ser tree1) 7 [0x1F, 0x00] ∧ s.ctrl.dstOk = true ∧
       walkTree tree1 (unpackBits [0x1F, 0x00] 7) tree1 = some [0x61, 0x61, 0x61, 0x62, 0x62, 0x63] ∧
       [(0x61 : Byte), 0x61, 0x61, 0x62, 0x62, 0x63].length ≤ s.par.outCap) := by
  refine ⟨by decide, ⟨by decide, by decide, fun tr h => absurd h (witness_not_a_tree tr)⟩, by decide,
    ⟨by decide, by decide, by decide, 9, [0x61, 0x61, 0x61, 0x62, 0x62, 0x63], by decide, by decide, by decide⟩,
    ⟨by decide, by decide, by decide, ?_, by decide⟩, by decide⟩
  rintro ⟨k, syms, hk, hw, hlen⟩
  have hbits : unpackBits [0x80] 7 = [true] := by decide
  rw [hbits] at hk hw
  have hk : k ≤ 1 := hk
  have h0 : walkTree (.leaf 0x61) ([true].take 0) (.leaf 0x61) = some [] := by decide
  have h1 : walkTree (.leaf 0x61) ([true].take 1) (.leaf 0x61) = none := by decide
  rcases (show k = 0 ∨ k = 1 by omega) with rfl | rfl
  · rw [h0] at hw
    obtain rfl : [] = syms := by simpa using hw
    simp at hlen
  · rw [h1] at hw
    simp at hw

theorem witness_CompressThenDecompressIsTheIdentity :
    let s := withInput [0x61, 0x61] base
    let t := after .compress s
    let u := withInput [2, 0, 0, 0, 0x31, 0x61, 6, 0, 0, 0, 1, 0, 0, 0, 0] { base with par := ⟨15, 2⟩ }
    s.par.wf = true ∧ u.par.wf = true ∧ exec .compress s = .next t ∧ t.status.err = 0 ∧ u.ctrl.srcOk = true ∧
      u.ctrl.dstOk = true ∧ u.data.inLen = t.data.outLen ∧ u.input = t.output ∧ u.data.inLen.toNat ≤ u.par.inCap ∧
      s.data.inLen.toNat ≤ u.par.outCap := by
  have h : completes .compress (withInput [0x61, 0x61] base) = true ∧
      (after .compress (withInput [0x61, 0x61] base)).status.err = 0 ∧
      15#32 = (after .compress (withInput [0x61, 0x61] base)).data.outLen ∧
      bytes [2, 0, 0, 0, 0x31, 0x61, 6, 0, 0, 0, 1, 0, 0, 0, 0] =
        (after .compress (withInput [0x61, 0x61] base)).output := by decide
  exact ⟨by decide, by decide, exec_after h.1, h.2.1, by decide, by decide, h.2.2.1, .trans (by decide) h.2.2.2,
    by decide, by decide⟩

/-- DECOMPRESS and COMPRESS, each from two states that differ in the arena, the epoch and the log. -/
theorem witness_MacroResultsDependOnlyOnTheInput :
    (let s := withInput container1 { base with par := ⟨32, 64⟩ }
     let s' := withTree { s with epoch := 1, elog := 2 }
     s.par = s'.par ∧ s.par.wf = true ∧ s.ctrl = s'.ctrl ∧ s.data.inLen = s'.data.inLen ∧ s.input = s'.input ∧
       exec .decompress s = .next (after .decompress s) ∧ exec .decompress s' = .next (after .decompress s')) ∧
    (let s := withInput [0x61] base
     let s' := withTree { s with epoch := 1, elog := 2 }
     s.par = s'.par ∧ s.par.wf = true ∧ s.ctrl = s'.ctrl ∧ s.data.inLen = s'.data.inLen ∧ s.input = s'.input ∧
       exec .compress s = .next (after .compress s) ∧ exec .compress s' = .next (after .compress s')) :=
  ⟨⟨by decide, by decide, by decide, by decide, by decide, exec_after (by decide), exec_after (by decide)⟩,
    by decide, by decide, by decide, by decide, by decide, exec_after (by decide), exec_after (by decide)⟩

/-- The last slot and the last stack entry that exist; a full arena; a full traversal stack. -/
theorem witness_InternalRecordOpensASlot :
    (let s := inParse 510 (openLefts 254) [] base
     s.work.nalloc.toNat < 511 ∧ s.work.stack.length < 255) ∧
    511 ≤ (inParse 511 [] [] base).work.nalloc.toNat ∧ 255 ≤ (inParse 255 (openLefts 255) [] base).work.stack.length := by
  decide

/-- A left child of the root, in a parse in its middle. -/
theorem parserOk_left : ParserOk (inParse 1 [(0, false)] [] base).parser := by constructor <;> decide

/-- The right child of the root comes next, and its left child is recorded. -/
def lastLeaf : State := inParse 2 [(0, true)] [(0, ⟨false, 0, 0, 1, 0⟩), (1, ⟨true, 0x61, 0, 0, 0⟩)] base

theorem parserOk_right : ParserOk lastLeaf.parser where
  nalloc := by decide
  room := by decide
  opened := by decide
  nodup := by decide
  left := fun e he _ => ⟨1, by obtain rfl : e = (0, true) := by simpa [State.parser, lastLeaf, inParse] using he
                               decide⟩
  form := by decide

/-- A left child; the last leaf of the root with TREE_LEN reached and not reached; a full arena. -/
theorem witness_LeafRecordClosesSubtrees :
    (let s := inParse 1 [(0, false)] [] base
     s.work.nalloc.toNat < 511 ∧ ParserOk s.parser ∧ s.work.stack.dropWhile (fun e => e.2) = (0, false) :: []) ∧
    (let s := { lastLeaf with data := { base.data with treeLen := 2 } }
     s.work.nalloc.toNat < 511 ∧ ParserOk s.parser ∧ s.work.stack.dropWhile (fun e => e.2) = [] ∧
       (s.work.stack.takeWhile (fun e => e.2)).map (fun e => e.1) = [0] ∧
       s.work.tpos.toNat + 2 = s.data.treeLen.toNat) ∧
    (let s := { lastLeaf with data := { base.data with treeLen := 3 } }
     s.work.nalloc.toNat < 511 ∧ ParserOk s.parser ∧ s.work.stack.dropWhile (fun e => e.2) = [] ∧
       s.work.tpos.toNat + 2 ≠ s.data.treeLen.toNat) ∧
    511 ≤ (inParse 511 [] [] base).work.nalloc.toNat :=
  ⟨⟨by decide, parserOk_left, by decide⟩, ⟨by decide, parserOk_right, by decide⟩, ⟨by decide, parserOk_right, by decide⟩,
    by decide⟩

theorem witness_RecordByRecordParseIsDestree :
    let s := busyWith 9 (withTreeBytes [0x31, 0x61] base)
    s.agenda = [] ∧ s.status.busy = true ∧ s.parsing = false ∧ s.valid.treeb = true ∧ s.data.treeLen.toNat ≤ 767 ∧
      768 ≤ 768 := by decide

/-- A state with a tree, codes and an input, in which SERTREE is accepted. -/
def busyState : State := busyWith 5 (withTree (withCodes (withInput [0x61, 0x61, 0x61, 0x62] base)))

/-- At rest of a parse and in the middle of one. -/
theorem witness_StepKeepsTheMemoriesInForm :
    (MemoryInv busyState ∧ step busyState = .next (stepped busyState)) ∧
    (let s := inParse 1 [(0, false)] [] (busyWith 9 (withTreeBytes [0x31, 0x61] base))
     MemoryInv s ∧ s.parsing = true ∧ step s = .next (stepped s)) := by
  refine ⟨⟨?_, step_stepped (by decide)⟩, ?_, rfl, step_stepped (by decide)⟩
  · exact ⟨by decide, by decide, by decide, by decide, by decide, by decide, by decide, by decide, by decide,
      (fun h => by cases h)⟩
  · exact ⟨by decide, by decide, by decide, by decide, by decide, by decide, by decide, by decide, by decide,
      fun _ => parserOk_left⟩

theorem witness_StepKeepsTheRegisterInvariant : RegisterInv busyState ∧ step busyState = .next (stepped busyState) :=
  ⟨by constructor <;> decide, step_stepped (by decide)⟩

theorem witness_StepKeepsTheCountsInvariant :
    let s := busyWith 0 (withCounts [(0x61, 15), (0x62, 1)] base)
    FreqInv s ∧ s.valid.freq = true ∧ step s = .next (stepped s) :=
  ⟨by unfold FreqInv; decide, rfl, step_stepped (by decide)⟩

theorem witness_StepKeepsTheTreeInvariant :
    TreeInv busyState ∧ busyState.valid.tree = true ∧ step busyState = .next (stepped busyState) :=
  ⟨⟨fun _ => treeOk_of tree1 [0, 1, 2, 3, 4] (by decide), (fun h => by cases h)⟩, rfl, step_stepped (by decide)⟩

/-- The codes that GENCODE leaves on a small tree, with the next command accepted. -/
theorem witness_StepKeepsTheCodesPrefixFree :
    let s := busyWith 3 (withTree base)
    CodeInv s ∧ step s = .next (stepped s) ∧ (stepped s).valid.code = true :=
  ⟨(fun h => by cases h), step_stepped (by decide), by decide⟩

theorem witness_ResetMeetsTheInvariants : base.par.wf = true := by decide

/-- With every other turn than a narrow access, and with the engine's turn. -/
theorem witness_NoStepStopsAndEveryCommandCompletes :
    RegisterInv busyState ∧ TreeInv busyState ∧
      (∀ idx offset n rest, busyState.agenda ≠ .host (.narrowReg idx offset n) :: rest) ∧ engineNext busyState [] ∧
      busyState.status.busy = true ∧ busyState.parsing = false :=
  ⟨witness_StepKeepsTheRegisterInvariant.1, witness_StepKeepsTheTreeInvariant.1, (fun _ _ _ _ h => by cases h),
    .inl ⟨rfl, rfl⟩, rfl, rfl⟩

end Sys2Proof.Tests
end

section
/-! PROOFS. What the registers read, bit by bit (R10 to R20). -/

namespace Sys2Proof.Machine

/-- A field shifted into place at bit `n` of a register: its bits at `n` and up, 0 elsewhere (R10). -/
theorem getLsbD_field {w : Nat} (x : BitVec w) (n k : Nat) (h : n + w ≤ 32) :
    (x.setWidth 32 <<< n).getLsbD k = if n ≤ k ∧ k < n + w then x.getLsbD (k - n) else false := by
  split
  · next hk => simp [hk.1, show k < 32 by omega]
  · next hk =>
    by_cases hn : n ≤ k
    · simp [BitVec.getLsbD_of_ge x (k - n) (by omega)]
    · simp [Nat.not_le.1 hn]

/-- A flag in its bit of a register. -/
theorem getLsbD_bitAt (b : Bool) {j : Nat} (k : Nat) (h : j < 32) :
    (bitAt b j).getLsbD k = if k = j then b else false := by
  rw [bitAt, getLsbD_field _ _ _ h]
  by_cases hk : k = j
  · subst hk; simp
  · rw [if_neg hk, if_neg (by omega)]

/-- STATUS, field by field (R13). -/
theorem getLsbD_statusWord (r : StatusReg) (k : Nat) :
    r.word.getLsbD k =
      (if k = 0 then r.busy else if k = 1 then r.done
       else if 4 ≤ k ∧ k ≤ 7 then r.err.getLsbD (k - 4)
       else if 8 ≤ k ∧ k ≤ 15 then r.stage.getLsbD (k - 8) else false) := by
  simp only [StatusReg.word, BitVec.getLsbD_or, getLsbD_bitAt, getLsbD_field, Nat.reduceAdd, Nat.reduceLeDiff,
    Nat.reduceLT]
  grind

theorem getLsbD_ctrlWord (r : CtrlReg) (k : Nat) :
    r.word.getLsbD k =
      (if k = 0 then r.srcOk else if k = 1 then r.dstOk else if k = 2 then r.ie else false) := by
  simp only [CtrlReg.word, BitVec.getLsbD_or, getLsbD_bitAt, Nat.reduceLT]
  grind

theorem getLsbD_validWord (r : ValidReg) (k : Nat) :
    r.word.getLsbD k =
      (if k = 0 then r.freq else if k = 1 then r.tree else if k = 2 then r.code
       else if k = 3 then r.bs else if k = 4 then r.treeb else if k = 5 then r.pay
       else if k = 6 then r.out else false) := by
  simp only [ValidReg.word, BitVec.getLsbD_or, getLsbD_bitAt, Nat.reduceLT]
  grind

/-- DBG_SPACE, field by field (R18). -/
theorem getLsbD_dbgSpace (r : DebugRegs) (k : Nat) :
    ((r.word.setWidth 32 <<< 4) ||| r.space.setWidth 32).getLsbD k =
      (if k < 4 then r.space.getLsbD k else if k < 8 then r.word.getLsbD (k - 4) else false) := by
  have hspace := getLsbD_field r.space 0 k (by decide)
  rw [BitVec.shiftLeft_zero] at hspace
  rw [BitVec.getLsbD_or, getLsbD_field _ _ _ (by decide), hspace]
  grind

/-- ELOG reads its ten bits, and 0 in bits 31:10 (R14). -/
theorem getLsbD_readElog (s : State) (k : Nat) : (readReg s 3).getLsbD k = s.elog.getLsbD k := by
  show (s.elog.setWidth 32).getLsbD k = _
  rw [BitVec.getLsbD_setWidth]
  by_cases hk : k < 32
  · simp [hk]
  · simp [hk, BitVec.getLsbD_of_ge s.elog k (by omega)]

/-- Each capacity fits its register (R4, R20). -/
theorem capacities_fit {p : Params} (h : p.wf = true) : p.inCap < 2 ^ 32 ∧ p.outCap < 2 ^ 32 := by
  have h' := of_decide_eq_true h
  omega

/-- Settles O10: the four registers made of fields by their words' lemmas, the others as they are held. -/
theorem registersReadTheirFields : Obligations.RegistersReadTheirFields := by
  intro s
  refine ⟨rfl, getLsbD_statusWord s.status, getLsbD_readElog s, getLsbD_ctrlWord s.ctrl, getLsbD_validWord s.valid,
    rfl, rfl, ?treeLen, ?pad, rfl, rfl, ?root, ?nnode, getLsbD_dbgSpace s.dbg, rfl, ?capacities⟩
  case treeLen => exact BitVec.toNat_setWidth_of_le (by decide)
  case pad => exact BitVec.toNat_setWidth_of_le (by decide)
  case root => exact BitVec.toNat_setWidth_of_le (by decide)
  case nnode => exact BitVec.toNat_setWidth_of_le (by decide)
  case capacities =>
    intro hwf
    obtain ⟨hin, hout⟩ := capacities_fit hwf
    exact ⟨Nat.mod_eq_of_lt hin, Nat.mod_eq_of_lt hout⟩

end Sys2Proof.Machine
end

section
/-! PROOFS. What a command may write before its completion step, whichever it is, and what the engine's turn can do. -/

namespace Sys2Proof.Machine

/-! ### What a command may write -/

/-- `t` differs from `s` at most in what a primitive's body or failure effects write: the memories other than IN, VALID,
the data registers other than IN_LEN, and PQ (R16, R17, R26, R187). -/
def outputsOnly (s t : State) : Prop :=
  t = { s with
    valid := t.valid, data := { t.data with inLen := s.data.inLen }, pq := t.pq, freq := t.freq, node := t.node,
    code := t.code, treeb := t.treeb, pay := t.pay, bs := t.bs, out := t.out }

/-- The same, and STAGE (R194): what a whole command writes before its completion step. -/
def commandWrites (s t : State) : Prop := outputsOnly (s.setStage t.status.stage) t

theorem commandWrites_of_outputsOnly {op : Byte} {s t : State} (h : outputsOnly (s.setStage op) t) :
    commandWrites s t := by
  have hstage : t.status.stage = op := congrArg (fun u => u.status.stage) h
  rwa [commandWrites, hstage]

theorem commandWrites_elog {s t : State} (h : commandWrites s t) : t.elog = s.elog := by
  unfold commandWrites outputsOnly at h
  rw [h, setStage_elog]

theorem commandWrites_trans {s t u : State} (h : commandWrites s t) (h' : commandWrites t u) : commandWrites s u := by
  unfold commandWrites outputsOnly at h
  rw [h] at h'
  exact h'

theorem freqBody_writes {s t : State} (h : freqBody s = .done t) : outputsOnly s t := by
  simp only [freqBody, require_done] at h
  obtain ⟨-, -, -, h⟩ := h
  obtain rfl := Effect.done.inj h
  rfl

theorem buildBody_writes {s t : State} (h : buildBody s = .done t) : outputsOnly s t := by
  simp only [buildBody, require_done] at h
  obtain ⟨-, -, h⟩ := h
  split at h
  · cases h
  · obtain rfl := Effect.done.inj h
    rfl

theorem gencodeBody_writes {s t : State} (h : gencodeBody s = .done t) : outputsOnly s t := by
  simp only [gencodeBody, require_done] at h
  obtain ⟨-, h⟩ := h
  split at h
  · cases h
  · obtain rfl := Effect.done.inj h
    rfl

theorem encodeBody_writes {s t : State} (h : encodeBody s = .done t) : outputsOnly s t := by
  simp only [encodeBody, require_done] at h
  obtain ⟨-, -, -, h⟩ := h
  split at h
  · cases h
  · obtain rfl := Effect.done.inj h
    rfl

theorem sertreeBody_writes {s t : State} (h : sertreeBody s = .done t) : outputsOnly s t := by
  simp only [sertreeBody, require_done] at h
  obtain ⟨-, h⟩ := h
  split at h
  · cases h
  · obtain ⟨-, h⟩ := within_done.1 h
    obtain rfl := Effect.done.inj h
    rfl

theorem packBody_writes {s t : State} (h : packBody s = .done t) : outputsOnly s t := by
  simp only [packBody, require_done, within_done] at h
  obtain ⟨-, -, h⟩ := h
  obtain rfl := Effect.done.inj h
  rfl

theorem wrcontBody_writes {s t : State} (h : wrcontBody s = .done t) : outputsOnly s t := by
  simp only [wrcontBody, require_done, within_done] at h
  obtain ⟨-, -, -, -, -, h⟩ := h
  obtain rfl := Effect.done.inj h
  rfl

theorem rdcontBody_writes {s t : State} (h : rdcontBody s = .done t) : outputsOnly s t := by
  simp only [rdcontBody, require_done] at h
  obtain ⟨-, -, -, -, -, -, -, -, h⟩ := h
  obtain rfl := Effect.done.inj h
  rfl

theorem destreeBody_writes {s t : State} (h : destreeBody s = .done t) : outputsOnly s t := by
  simp only [destreeBody, require_done, within_done] at h
  obtain ⟨-, -, h⟩ := h
  split at h
  · cases h
  · obtain rfl := Effect.done.inj h
    rfl

theorem unpackBody_writes {s t : State} (h : unpackBody s = .done t) : outputsOnly s t := by
  simp only [unpackBody, require_done, within_done] at h
  obtain ⟨-, -, h⟩ := h
  obtain rfl := Effect.done.inj h
  rfl

theorem walkBody_writes {s t : State} (h : walkBody s = .done t) : outputsOnly s t := by
  simp only [walkBody, require_done, within_done] at h
  obtain ⟨-, -, -, h⟩ := h
  split at h
  · cases h
  · cases h
  · obtain ⟨-, h⟩ := require_done.1 h
    obtain rfl := Effect.done.inj h
    rfl

/-! ### What a command does, whatever it is -/

/-- Where this part of a command ends, only what commands write has changed. -/
def keepsToOutputs (p : State → Ran) : Prop := ∀ s t e, p s = .ended t e → commandWrites s t

/-- A primitive writes what its body or its failure effects write, and STAGE. -/
theorem runPrimitive_keepsToOutputs (op : Byte) {drop : State → State} {body : State → Effect}
    (hdrop : ∀ u, outputsOnly u (drop u)) (hbody : ∀ {u v}, body u = .done v → outputsOnly u v) :
    keepsToOutputs (runPrimitive op drop body) := by
  intro s t e h
  cases hb : body (s.setStage op) with
  | done u =>
    obtain ⟨rfl, -⟩ := Ran.ended.inj ((runPrimitive_done hb).symm.trans h)
    exact commandWrites_of_outputsOnly (hbody hb)
  | raise x =>
    obtain ⟨rfl, -⟩ := Ran.ended.inj ((runPrimitive_raise hb).symm.trans h)
    exact commandWrites_of_outputsOnly (hdrop _)
  | stop f => cases (runPrimitive_stop hb).symm.trans h

theorem runNop_keepsToOutputs : keepsToOutputs (runPrimitive 0x00 id .done) :=
  runPrimitive_keepsToOutputs _ (fun _ => rfl) fun h => by cases h; rfl

theorem runClear_keepsToOutputs :
    keepsToOutputs (runPrimitive 0x1F id (fun u => .done (invalidateAll u))) :=
  runPrimitive_keepsToOutputs _ (fun _ => rfl) fun h => by cases h; rfl

theorem runFreq_keepsToOutputs : keepsToOutputs runFreq :=
  runPrimitive_keepsToOutputs _ (fun _ => rfl) freqBody_writes

theorem runBuild_keepsToOutputs : keepsToOutputs runBuild :=
  runPrimitive_keepsToOutputs _ (fun _ => rfl) buildBody_writes

theorem runGencode_keepsToOutputs : keepsToOutputs runGencode :=
  runPrimitive_keepsToOutputs _ (fun _ => rfl) gencodeBody_writes

theorem runEncode_keepsToOutputs : keepsToOutputs runEncode :=
  runPrimitive_keepsToOutputs _ (fun _ => rfl) encodeBody_writes

theorem runSertree_keepsToOutputs : keepsToOutputs runSertree :=
  runPrimitive_keepsToOutputs _ (fun _ => rfl) sertreeBody_writes

theorem runPack_keepsToOutputs : keepsToOutputs runPack :=
  runPrimitive_keepsToOutputs _ (fun _ => rfl) packBody_writes

theorem runWrcont_keepsToOutputs : keepsToOutputs runWrcont :=
  runPrimitive_keepsToOutputs _ (fun _ => rfl) wrcontBody_writes

theorem runRdcont_keepsToOutputs : keepsToOutputs runRdcont :=
  runPrimitive_keepsToOutputs _ (fun _ => rfl) rdcontBody_writes

theorem runDestree_keepsToOutputs : keepsToOutputs runDestree :=
  runPrimitive_keepsToOutputs _ (fun _ => rfl) destreeBody_writes

theorem runUnpack_keepsToOutputs : keepsToOutputs runUnpack :=
  runPrimitive_keepsToOutputs _ (fun _ => rfl) unpackBody_writes

theorem runWalk_keepsToOutputs : keepsToOutputs runWalk :=
  runPrimitive_keepsToOutputs _ (fun _ => rfl) walkBody_writes

/-- Parts run one after another on invalidated outputs, as COMPRESS and DECOMPRESS run theirs (R190, R191). -/
theorem runAll_keepsToOutputs {ps : List (State → Ran)} (hps : ∀ p ∈ ps, keepsToOutputs p) :
    keepsToOutputs (fun s => runAll ps (invalidateAll s)) := fun s t e h =>
  runAll_keeps (commandWrites s) ps (fun p hp u v x hu h => commandWrites_trans hu (hps p hp u v x h))
    (invalidateAll s) t e rfl h

theorem compressSteps_keepToOutputs : ∀ p ∈ compressSteps, keepsToOutputs p := by
  simp only [compressSteps, List.forall_mem_cons]
  exact ⟨runFreq_keepsToOutputs, runBuild_keepsToOutputs, runGencode_keepsToOutputs, runEncode_keepsToOutputs,
    runSertree_keepsToOutputs, runPack_keepsToOutputs, runWrcont_keepsToOutputs, List.forall_mem_nil _⟩

theorem decompressSteps_keepToOutputs : ∀ p ∈ decompressSteps, keepsToOutputs p := by
  simp only [decompressSteps, List.forall_mem_cons]
  exact ⟨runRdcont_keepsToOutputs, runDestree_keepsToOutputs, runUnpack_keepsToOutputs, runWalk_keepsToOutputs,
    List.forall_mem_nil _⟩

/-- `t` is where a command that found `s` leaves the machine: its writes, then its completion step (R186). -/
def completesTo (s t : State) : Prop := ∃ u e, commandWrites s u ∧ t = u.complete e

/-- What a completion reports: BUSY 0, the code of the error raised, and its bit added to ELOG (R186). -/
theorem completesTo_reports {s t : State} (h : completesTo s t) :
    ∃ e, t.status.busy = false ∧ t.status.err = errCode e ∧ t.elog = s.elog ||| elogBit e := by
  obtain ⟨u, e, hu, rfl⟩ := h
  exact ⟨e, rfl, rfl, by rw [complete_elog, commandWrites_elog hu]⟩

theorem conclude_completesTo {p : State → Ran} (hp : keepsToOutputs p) {s t : State}
    (h : conclude (p s) = .next t) : completesTo s t := by
  cases hr : p s with
  | stopped f => rw [hr] at h; cases h
  | ended u e =>
    rw [hr] at h
    exact ⟨u, e, hp s u e hr, (Host.Outcome.next.inj h).symm⟩

theorem errorEntry_completesTo (op : Byte) {drop : State → State} (e : ErrKind) (s : State)
    (hdrop : ∀ u, outputsOnly u (drop u)) : completesTo s (errorEntry op drop e s) :=
  ⟨_, some e, commandWrites_of_outputsOnly (hdrop _), rfl⟩

/-- A record completes its DESTREE or leaves the parse under way. -/
theorem finishRecord_cases {n : Nat} {r : ParseStep} {s t : State} (h : finishRecord n r s = .next t) :
    completesTo s t ∨ ∃ p, t = s.keepParsing n p := by
  cases r with
  | more p => exact .inr ⟨p, (Host.Outcome.next.inj h).symm⟩
  | full =>
    obtain rfl := Host.Outcome.next.inj h
    exact .inl (errorEntry_completesTo (drop := dropTree) _ _ s fun _ => rfl)
  | root id p =>
    refine .inl (conclude_completesTo (runPrimitive_keepsToOutputs (drop := dropTree) _ (fun _ => rfl) fun hb => ?_) h)
    obtain ⟨-, hb⟩ := require_done.1 hb
    obtain rfl := Effect.done.inj hb
    rfl

/-- An executed instruction completes a command, or it is a record after which the parse goes on. -/
theorem exec_cases {i : Instr} {s t : State} (h : exec i s = .next t) :
    completesTo s t ∨ (i.isRecord = true ∧ ∃ n p, t = s.keepParsing n p) := by
  cases i with
  | nop => exact .inl (conclude_completesTo runNop_keepsToOutputs h)
  | freq => exact .inl (conclude_completesTo runFreq_keepsToOutputs h)
  | build => exact .inl (conclude_completesTo runBuild_keepsToOutputs h)
  | gencode => exact .inl (conclude_completesTo runGencode_keepsToOutputs h)
  | encode => exact .inl (conclude_completesTo runEncode_keepsToOutputs h)
  | sertree => exact .inl (conclude_completesTo runSertree_keepsToOutputs h)
  | pack => exact .inl (conclude_completesTo runPack_keepsToOutputs h)
  | wrcont => exact .inl (conclude_completesTo runWrcont_keepsToOutputs h)
  | rdcont => exact .inl (conclude_completesTo runRdcont_keepsToOutputs h)
  | destree => exact .inl (conclude_completesTo runDestree_keepsToOutputs h)
  | unpack => exact .inl (conclude_completesTo runUnpack_keepsToOutputs h)
  | walk => exact .inl (conclude_completesTo runWalk_keepsToOutputs h)
  | compress => exact .inl (conclude_completesTo (runAll_keepsToOutputs compressSteps_keepToOutputs) h)
  | decompress => exact .inl (conclude_completesTo (runAll_keepsToOutputs decompressSteps_keepToOutputs) h)
  | clear => exact .inl (conclude_completesTo runClear_keepsToOutputs h)
  | internal => exact (finishRecord_cases h).imp_right fun ⟨p, hp⟩ => ⟨rfl, _, p, hp⟩
  | leaf sym => exact (finishRecord_cases h).imp_right fun ⟨p, hp⟩ => ⟨rfl, _, p, hp⟩

theorem undecodable_completesTo (s : State) : completesTo s (undecodable s) := by
  unfold undecodable
  split
  · exact errorEntry_completesTo (drop := dropTree) _ _ s fun _ => rfl
  · exact errorEntry_completesTo (drop := id) _ _ s fun _ => rfl

/-- The engine's turn changes nothing at rest; busy, it completes a command or leaves a parse under way. -/
theorem engineTurn_next {s t : State} (h : engineTurn s = .next t) :
    (s.status.busy = false ∧ t = s) ∨ (s.status.busy = true ∧ completesTo s t) ∨
      (s.status.busy = true ∧ ∃ n p, t = s.keepParsing n p) := by
  rcases engineTurn_cases s with ⟨hb, hs⟩ | ⟨i, hb, -, hs⟩ | ⟨e, hb, -, hs⟩
  · exact .inl ⟨hb, Host.Outcome.next.inj (h.symm.trans hs)⟩
  · exact .inr ((exec_cases (hs.symm.trans h)).imp (⟨hb, ·⟩) fun ⟨_, hk⟩ => ⟨hb, hk⟩)
  · obtain rfl := Host.Outcome.next.inj (h.symm.trans hs)
    exact .inr (.inl ⟨hb, undecodable_completesTo s⟩)

end Sys2Proof.Machine
end

section
/-! PROOFS. What one step can do to ELOG (R14). -/

namespace Sys2Proof.Machine

/-- ELOG after a host write: of the written bits, those of bits 9:1 are cleared (R14, R58). -/
theorem getLsbD_elogAfterWrite (elog : BitVec 10) (v : Word) (k : Nat) :
    (elogAfterWrite elog v).getLsbD k = (elog.getLsbD k && !(decide (1 ≤ k ∧ k ≤ 9) && v.getLsbD k)) := by
  have hmask : (0x3FE#10).getLsbD k = decide (1 ≤ k ∧ k ≤ 9) := by
    by_cases hk : k < 10
    · revert hk; revert k; decide
    · rw [BitVec.getLsbD_of_ge _ _ (by omega)]; symm; simp; omega
  rw [elogAfterWrite, BitVec.getLsbD_and, BitVec.getLsbD_not, BitVec.getLsbD_and, hmask, BitVec.getLsbD_setWidth]
  by_cases hk : k < 10
  · simp [hk, Bool.and_comm]
  · simp [BitVec.getLsbD_of_ge elog k (by omega)]

/-- A register write at rest changes ELOG only when the register is ELOG (R58). -/
theorem writeRegAtRest_elog (idx : Nat) (v : Word) (s : State) :
    (writeRegAtRest idx v s).elog = if idx = 3 then elogAfterWrite s.elog v else s.elog := by
  unfold writeRegAtRest
  split
  case h_2 => split <;> rfl
  all_goals simp_all

/-- The four things that a step from `s` to `t` can do to ELOG (R14): add the bit of the error code with which it
completes a command, clear all bits by a reset, clear those the host writes as 1 at rest, or leave it as it is. -/
inductive ElogStep (s t : State) : Prop where
  | completes (e : Option ErrKind) (busy : s.status.busy = true) (ended : t.status.busy = false)
      (noHost : ∀ x rest, s.agenda ≠ .host x :: rest) (err : t.status.err = errCode e)
      (elog : t.elog = s.elog ||| elogBit e)
  | resets (rest : List Turn) (turn : s.agenda = .host .reset :: rest) (elog : t.elog = 0)
  | written (v : Word) (rest : List Turn) (turn : s.agenda = .host (.writeReg 3 v) :: rest)
      (busy : s.status.busy = false) (elog : t.elog = elogAfterWrite s.elog v)
  | keeps (busy : s.status.busy = true → t.status.busy = true) (noReset : ∀ rest, s.agenda ≠ .host .reset :: rest)
      (noWrite : ∀ v rest, s.agenda = .host (.writeReg 3 v) :: rest → s.status.busy = true) (elog : t.elog = s.elog)

/-- A host transaction other than a reset or a register write leaves STATUS and ELOG as they are. -/
theorem hostTurn_keepsStatusAndElog {x : Txn} {s t : State} (h : hostTurn x s = .next t) (hreset : x ≠ .reset)
    (hwrite : ∀ idx v, x ≠ .writeReg idx v) : t.status = s.status ∧ t.elog = s.elog := by
  cases x with
  | reset => exact absurd rfl hreset
  | writeReg idx v => exact absurd rfl (hwrite idx v)
  | readReg idx => cases h; exact ⟨rfl, rfl⟩
  | readIn i => cases h; exact ⟨rfl, rfl⟩
  | readOut i => cases h; exact ⟨rfl, rfl⟩
  | narrowReg i o n => cases h
  | writeIn i b =>
    cases h
    unfold hostWriteIn
    split_ifs <;> exact ⟨rfl, rfl⟩

/-- A host transaction resets ELOG, clears the bits it writes as 1 at rest, or leaves it. -/
theorem hostTurn_elogStep {x : Txn} {rest : List Turn} {s t : State} (hturn : s.agenda = .host x :: rest)
    (h : hostTurn x { s with agenda := rest } = .next t) : ElogStep s t := by
  by_cases hreset : x = .reset
  · subst hreset
    cases h
    exact .resets rest hturn rfl
  have noReset : ∀ rest, s.agenda ≠ .host .reset :: rest := by simp [hturn, hreset]
  by_cases hwrite : ∃ idx v, x = .writeReg idx v
  · obtain ⟨idx, v, rfl⟩ := hwrite
    cases h
    cases hb : s.status.busy with
    | true => exact .keeps (by simp [hostWriteReg, hb]) noReset (fun _ _ _ => hb) (by simp [hostWriteReg, hb])
    | false =>
      by_cases hidx : idx = 3
      · subst hidx
        exact .written v rest hturn hb (by simp [hostWriteReg, hb, writeRegAtRest_elog])
      · exact .keeps (by simp [hb]) noReset (by simp [hturn, hidx])
          (by simp [hostWriteReg, hb, writeRegAtRest_elog, hidx])
  · obtain ⟨hstatus, helog⟩ := hostTurn_keepsStatusAndElog h hreset fun idx v hx => hwrite ⟨idx, v, hx⟩
    refine .keeps (fun hb => by rw [hstatus]; exact hb) noReset (fun v rest' hx => ?_) helog
    rw [hturn] at hx
    exact absurd ⟨3, v, Turn.host.inj (List.cons.inj hx).1⟩ hwrite

/-- The engine's turn changes ELOG only by a completion. -/
theorem engineTurn_elogStep {rest : List Turn} {s t : State} (hturn : engineNext s rest)
    (h : engineTurn { s with agenda := rest } = .next t) : ElogStep s t := by
  have noHost : ∀ x rest', s.agenda ≠ .host x :: rest' := by
    rcases hturn with ⟨ha, -⟩ | ha <;> simp [ha]
  rcases engineTurn_next h with ⟨hb, rfl⟩ | ⟨hb, hc⟩ | ⟨hb, n, p, rfl⟩
  · exact .keeps id (noHost _) (fun v rest' hx => absurd hx (noHost _ _)) rfl
  · obtain ⟨e, ended, err, elog⟩ := completesTo_reports hc
    exact .completes e hb ended noHost err elog
  · exact .keeps id (noHost _) (fun v rest' hx => absurd hx (noHost _ _)) rfl

theorem step_elogStep {s t : State} (h : step s = .next t) : ElogStep s t := by
  rcases step_cases s with ⟨rest, hturn, hs⟩ | ⟨x, rest, hturn, hs⟩ | ⟨low, width, v, rest, hturn, hs⟩
  · exact engineTurn_elogStep hturn (hs.symm.trans h)
  · exact hostTurn_elogStep hturn (hs.symm.trans h)
  · obtain rfl := Host.Outcome.next.inj (h.symm.trans hs)
    rw [hostCompare_eq]
    exact .keeps id (by simp [hturn]) (by simp [hturn]) rfl

/-- Settles O18, by the four things that a step can do to ELOG. -/
theorem elogIsTheStickyLogOfErrors : Obligations.ElogIsTheStickyLogOfErrors := by
  intro s t k h noReset completes
  have hhigh : 10 ≤ k → (readReg s 3).getLsbD k = false := fun hk => by
    rw [getLsbD_readElog, BitVec.getLsbD_of_ge _ _ hk]
  have hzero : s.elog.getLsbD 0 = false → (readReg s 3).getLsbD 0 = false := fun h0 => by
    rw [getLsbD_readElog, h0]
  cases step_elogStep h with
  | completes e busy ended noHost err elog =>
    have hbit : ∀ j, t.elog.getLsbD j = (s.elog.getLsbD j || (decide (j ≠ 0) && decide (j = t.status.err.toNat))) :=
      fun j => by rw [elog, err, BitVec.getLsbD_or, elogBit_getLsbD]
    refine ⟨?sets, ?setOnlyByCompletion, ?stays, ?hostClears, ?resetClears, ?bitZero, hhigh⟩
    case sets => exact fun _ hk h0 => by simp [hbit, hk, h0]
    case setOnlyByCompletion =>
      intro hs ht
      rw [hbit, hs] at ht
      simp only [Bool.false_or, Bool.and_eq_true, decide_eq_true_eq] at ht
      exact ⟨⟨busy, ended, noHost _⟩, ht.2.symm⟩
    case stays => exact fun hs _ _ => by rw [hbit, hs, Bool.true_or]
    case hostClears => exact fun v rest ha => absurd ha (noHost _ _)
    case resetClears => exact fun rest ha => absurd ha (noHost _ _)
    case bitZero => exact fun h0 => ⟨by rw [hbit, h0]; rfl, hzero h0⟩
  | resets rest turn elog =>
    have hbit : ∀ j, t.elog.getLsbD j = false := fun j => by rw [elog]; exact BitVec.getLsbD_zero
    refine ⟨?sets, ?setOnlyByCompletion, ?stays, ?hostClears, ?resetClears, ?bitZero, hhigh⟩
    case sets => exact fun ⟨_, _, hn⟩ => absurd turn (hn rest)
    case setOnlyByCompletion => exact fun _ ht => absurd ((hbit k).symm.trans ht) Bool.false_ne_true
    case stays => exact fun _ hn => absurd turn (hn rest)
    case hostClears => exact fun _ _ _ _ _ _ _ => hbit k
    case resetClears => exact fun _ _ => hbit k
    case bitZero => exact fun h0 => ⟨hbit 0, hzero h0⟩
  | written v rest turn busy elog =>
    have hbit : ∀ j, t.elog.getLsbD j = (s.elog.getLsbD j && !(decide (1 ≤ j ∧ j ≤ 9) && v.getLsbD j)) :=
      fun j => by rw [elog, getLsbD_elogAfterWrite]
    refine ⟨?sets, ?setOnlyByCompletion, ?stays, ?hostClears, ?resetClears, ?bitZero, hhigh⟩
    case sets => exact fun ⟨hb, _⟩ => absurd (busy.symm.trans hb) Bool.false_ne_true
    case setOnlyByCompletion => exact fun hs ht => by simp [hbit, hs] at ht
    case stays =>
      intro hs _ hw
      have hv : v.getLsbD k = false := (hw v rest turn).resolve_right (by simp [busy])
      simp [hbit, hs, hv]
    case hostClears =>
      intro v' rest' ha _ hv h1 h9
      obtain ⟨rfl, -⟩ : v = v' ∧ rest = rest' := by simpa [turn] using ha
      simp [hbit, hv, h1, h9]
    case resetClears => exact fun rest' ha => by simp [turn] at ha
    case bitZero => exact fun h0 => ⟨by rw [hbit, h0, Bool.false_and], hzero h0⟩
  | keeps busy hreset noWrite elog =>
    refine ⟨?sets, ?setOnlyByCompletion, ?stays, ?hostClears, ?resetClears, ?bitZero, hhigh⟩
    case sets => exact fun ⟨hb, he, _⟩ => absurd (he.symm.trans (busy hb)) Bool.false_ne_true
    case setOnlyByCompletion => exact fun hs ht => by simp [elog, hs] at ht
    case stays => exact fun hs _ _ => by rw [elog, hs]
    case hostClears => exact fun v rest ha hb => by simp [noWrite v rest ha] at hb
    case resetClears => exact fun rest ha => absurd ha (hreset rest)
    case bitZero => exact fun h0 => ⟨by rw [elog, h0], hzero h0⟩

end Sys2Proof.Machine
end

section
/-! PROOFS. What each host transaction leaves and returns (R58 to R62). -/

namespace Sys2Proof.Machine

/-- A host transaction on the agenda is the step (R57). -/
theorem step_of_hostTurn {s : State} {x : Txn} {rest : List Turn} (h : s.agenda = .host x :: rest) :
    step s = hostTurn x { s with agenda := rest } := by
  simp [step, h]

/-! ### Register writes (R58) -/

theorem hostWriteReg_atRest {s : State} (idx : Nat) (v : Word) (h : s.status.busy = false) :
    hostWriteReg idx v s = writeRegAtRest idx v s := by
  simp [hostWriteReg, h]

theorem writeRegAtRest_status (v : Word) (s : State) :
    writeRegAtRest 2 v s = { s with status := { s.status with done := s.status.done && !v.getLsbD 1 } } := by
  unfold writeRegAtRest
  cases v.getLsbD 1 with
  | true => rw [Bool.not_true, Bool.and_false]; rfl
  | false => rw [Bool.not_false, Bool.and_true]; rfl

theorem writeRegAtRest_notWritable {idx : Nat} (v : Word) (s : State) (h : idx ∉ [1, 2, 3, 4, 6, 14, 15]) :
    writeRegAtRest idx v s = s := by
  unfold writeRegAtRest
  split
  case h_8 => rfl
  all_goals simp at h

theorem hostWriteReg_ignored {s : State} {idx : Nat} (v : Word)
    (h : s.status.busy = true ∨ idx ∉ [1, 2, 3, 4, 6, 14, 15]) : hostWriteReg idx v s = s := by
  unfold hostWriteReg
  split
  · rfl
  · next hb => exact writeRegAtRest_notWritable v s (h.resolve_left hb)

theorem writeRegAtRest_agenda (idx : Nat) (v : Word) (s : State) : (writeRegAtRest idx v s).agenda = s.agenda := by
  unfold writeRegAtRest
  split
  case h_2 => split <;> rfl
  all_goals rfl

theorem hostWriteReg_agenda (idx : Nat) (v : Word) (s : State) : (hostWriteReg idx v s).agenda = s.agenda := by
  unfold hostWriteReg
  split
  · rfl
  · exact writeRegAtRest_agenda idx v s

/-- Settles O7: a write is ignored while BUSY and at an index that is not writable; at rest each writable register is an
equation of `writeRegAtRest`. -/
theorem hostRegisterWrites : Obligations.HostRegisterWrites := by
  intro s idx v rest hturn
  refine ⟨_, step_of_hostTurn hturn, hostWriteReg_agenda _ _ _, ?ignored, fun hrest => ?written⟩
  case ignored => exact fun h => hostWriteReg_ignored (s := { s with agenda := rest }) v h
  case written =>
    rw [hostWriteReg_atRest (s := { s with agenda := rest }) idx v hrest]
    refine ⟨?cmd, ?status, ?elog, ?ctrl, ?inLen, ?dbgSpace, ?dbgIndex⟩
    case cmd => rintro rfl; rfl
    case status => rintro rfl; exact writeRegAtRest_status _ _
    case elog => rintro rfl; exact ⟨rfl, getLsbD_elogAfterWrite s.elog v⟩
    case ctrl => rintro rfl; rfl
    case inLen => rintro rfl; rfl
    case dbgSpace =>
      rintro rfl
      refine ⟨rfl, fun k hk => ⟨?_, ?_⟩⟩
      · show (v.extractLsb' 0 4).getLsbD k = v.getLsbD k
        simp [hk]
      · show (v.extractLsb' 4 4).getLsbD k = v.getLsbD (4 + k)
        simp [hk]
    case dbgIndex => rintro rfl; rfl

/-! ### Byte writes (R60) -/

theorem hostWriteIn_ignored {s : State} {i : Nat} (b : Byte) (h : s.status.busy = true ∨ s.par.inCap ≤ i) :
    hostWriteIn i b s = s := by
  unfold hostWriteIn
  split
  · rfl
  · next hb => rw [if_pos (h.resolve_left hb)]

theorem hostWriteIn_stores {s : State} {i : Nat} (b : Byte) (hb : s.status.busy = false) (hi : i < s.par.inCap) :
    hostWriteIn i b s = { s with inp := s.inp.write i b } := by
  simp [hostWriteIn, hb, hi]

/-- An element of IN after a write of one byte. -/
theorem inAt_write (s : State) (i : Nat) (b : Byte) (k : Nat) :
    State.inAt { s with inp := s.inp.write i b } k = if k = i then b else s.inAt k := by
  simp only [State.inAt, read?_write]
  split <;> rfl

/-- A write of one byte of IN leaves every other element of every memory. -/
theorem sameAt_writeIn (s : State) {i : Nat} (b : Byte) {sp : Space} {k : Nat} (h : ¬ (sp = .inp ∧ k = i)) :
    sameAt s { s with inp := s.inp.write i b } sp k := by
  cases sp with
  | inp => exact (inAt_write s i b k).trans (if_neg fun hk => h ⟨rfl, hk⟩)
  | freq | node | code | treeb | pay | bs | out => rfl

/-- Settles O8: the write is ignored, or it is a write of one element of IN. -/
theorem hostWriteInStoresOneByte : Obligations.HostWriteInStoresOneByte := by
  intro s i b rest hturn
  refine ⟨_, step_of_hostTurn hturn, ?_⟩
  by_cases h : s.status.busy = true ∨ s.par.inCap ≤ i
  · rw [hostWriteIn_ignored (s := { s with agenda := rest }) b h]
    exact ⟨rfl, fun hb hi => absurd h (by simp [hb, hi]),
      fun sp k _ => sameAt_of_memories rfl rfl rfl rfl rfl rfl rfl rfl rfl sp k, fun _ => rfl⟩
  · obtain ⟨hb, hi⟩ : s.status.busy = false ∧ i < s.par.inCap := by simpa using h
    rw [hostWriteIn_stores (s := { s with agenda := rest }) b hb hi]
    exact ⟨rfl, fun _ _ => (inAt_write s i b i).trans (if_pos rfl),
      fun sp k hk => sameAt_writeIn s b fun ⟨hsp, hki⟩ => hk ⟨hsp, hki, hi, hb⟩, fun h' => absurd h' h⟩

/-! ### Reads (R59, R61, R62) -/

theorem readReg_reserved (s : State) {idx : Nat} (h : 19 ≤ idx) : readReg s idx = 0 := by
  unfold readReg
  split
  case h_19 => rfl
  all_goals omega

/-- Settles O9: each read is its own equation of the host's turn, with the reads of the state before it. -/
theorem hostReadsChangeNothing : Obligations.HostReadsChangeNothing := by
  refine fun s rest => ⟨fun idx hturn => ⟨?readReg, ?readsZero⟩, fun i hturn => ⟨_, ?readIn, rfl⟩,
    fun i hturn => ⟨_, ?readOut, rfl⟩⟩
  case readReg => exact step_of_hostTurn hturn
  case readsZero =>
    rintro (rfl | hidx)
    · rfl
    · exact readReg_reserved s hidx
  case readIn => exact step_of_hostTurn hturn
  case readOut => exact step_of_hostTurn hturn

end Sys2Proof.Machine
end

section
/-! PROOFS. The command words that the opcode map does not list (R73, R207). -/

namespace Sys2Proof.Machine

/-- A word is illegal exactly when no row of the opcode map is it: every mask is all ones (R72). -/
theorem decodeCommand_illegal_iff (w : Word) :
    decodeCommand w = .error (.illegalCommand w) ↔ ∀ r ∈ commandRows, w ≠ r.pattern := by
  have hmask : ∀ r ∈ commandRows, r.mask = BitVec.allOnes 32 := by decide
  have hfind : commandRows.find? (·.selects w) = none ↔ ∀ r ∈ commandRows, w ≠ r.pattern := by
    rw [List.find?_eq_none]
    refine forall₂_congr fun r hr => ?_
    rw [CommandRow.selects, hmask r hr, BitVec.and_allOnes, beq_iff_eq]
  rw [← hfind]
  unfold decodeCommand
  cases commandRows.find? (·.selects w) <;> simp

/-- The gaps of the opcode map, as R73 lists them. -/
theorem ne_patterns_iff (w : Word) :
    (∀ r ∈ commandRows, w ≠ r.pattern) ↔
      (256 ≤ w.toNat ∨ (0x0C ≤ w.toNat ∧ w.toNat ≤ 0x0F) ∨ (0x12 ≤ w.toNat ∧ w.toNat ≤ 0x1E) ∨
        (0x20 ≤ w.toNat ∧ w.toNat ≤ 0xFF)) := by
  simp only [commandRows, List.cons_append, List.nil_append, List.forall_mem_cons, List.not_mem_nil, ne_eq,
    ← BitVec.toNat_inj, BitVec.toNat_ofNat, Nat.reducePow, Nat.reduceMod, IsEmpty.forall_iff, implies_true, and_true]
  omega

/-- With the engine next on the agenda, the step is the engine's turn (R57). -/
theorem step_of_engineNext {s : State} {rest : List Turn} (h : engineNext s rest) :
    step s = engineTurn { s with agenda := rest } := by
  rcases h with ⟨ha, rfl⟩ | ha
  · have hs : { s with agenda := [] } = s := by rw [← ha]
    rw [hs]; unfold step; rw [ha]
  · simp [step, ha]

/-- A busy engine that holds an illegal word takes the error of R73. -/
theorem engineTurn_illegal {s : State} (hb : s.status.busy = true) (hp : s.parsing = false)
    (h : decodeCommand s.oplatch = .error (.illegalCommand s.oplatch)) : engineTurn s = .next (illegalCommand s) := by
  simp [engineTurn, fetch, undecodable, hb, hp, h]

/-- The error of an illegal word is reported and changes nothing else: there is nothing to invalidate (R207, R211). -/
theorem illegalCommand_failsWith (s : State) :
    failsWith s (illegalCommand s) (s.oplatch.setWidth 8) .illegalCommand s.valid s.data :=
  ⟨⟨⟨rfl, rfl, rfl, rfl⟩, ⟨rfl, rfl, rfl, rfl, rfl, rfl, rfl, rfl, rfl⟩,
    fun sp i _ => sameAt_of_memories rfl rfl rfl rfl rfl rfl rfl rfl rfl sp i⟩, rfl, rfl, rfl⟩

/-- Settles O3: the gaps of the opcode map, the acceptance of any word at rest, the error entry of an illegal one. -/
theorem unlistedCommandWordsAreIllegal : Obligations.UnlistedCommandWordsAreIllegal := by
  refine ⟨fun w => ?ranges, fun s w rest hturn hrest _ => ?accepted, fun s rest hturn hb hp h => ?completes⟩
  case ranges => rw [decodeCommand_illegal_iff, ne_patterns_iff]
  case accepted =>
    refine ⟨State.accept w { s with agenda := rest }, ?_, rfl, rfl, rfl⟩
    rw [step_of_hostTurn hturn, hostTurn, hostWriteReg_atRest (s := { s with agenda := rest }) _ _ hrest]
    rfl
  case completes =>
    refine ⟨illegalCommand { s with agenda := rest }, ?_, illegalCommand_failsWith { s with agenda := rest }⟩
    rw [step_of_engineNext hturn, engineTurn_illegal (s := { s with agenda := rest }) hb hp h]

end Sys2Proof.Machine
end

section
/-! PROOFS. What the debug port reads (R18, R82). -/

namespace Sys2Proof.Machine

/-- The packed link word, field by field (R82). -/
theorem getLsbD_nodeLinkWord (n : Node) (k : Nat) :
    (nodeLinkWord n).getLsbD k =
      (if k ≤ 8 then n.right.getLsbD k else if k ≤ 17 then n.left.getLsbD (k - 9)
       else if k ≤ 25 then n.sym.getLsbD (k - 18) else if k = 31 then n.leaf else false) := by
  have hright := getLsbD_field n.right 0 k (by decide)
  rw [BitVec.shiftLeft_zero] at hright
  simp only [nodeLinkWord, BitVec.getLsbD_or, getLsbD_bitAt, getLsbD_field, hright, Nat.reduceAdd, Nat.reduceLeDiff,
    Nat.reduceLT]
  grind

/-! ### The table of R18, a row a lemma -/

section
variable {s : State}

theorem dbgData_freq (h : s.dbg.space = 0) :
    dbgData s = if s.dbg.index.toNat < 256 ∧ s.dbg.word.toNat = 0 then s.freqAt s.dbg.index.toNat else 0 := by
  unfold dbgData; rw [h]; rfl

theorem dbgData_node (h : s.dbg.space = 1) :
    dbgData s =
      if s.dbg.index.toNat < 511 then
        if s.dbg.word.toNat = 0 then (s.nodeAt s.dbg.index.toNat).freq
        else if s.dbg.word.toNat = 1 then nodeLinkWord (s.nodeAt s.dbg.index.toNat) else 0
      else 0 := by
  unfold dbgData; rw [h]; rfl

theorem dbgData_code (h : s.dbg.space = 2) :
    dbgData s =
      if s.dbg.index.toNat < 256 then
        if s.dbg.word.toNat < 8 then (s.codeAt s.dbg.index.toNat).bits.extractLsb' (224 - 32 * s.dbg.word.toNat) 32
        else if s.dbg.word.toNat = 8 then (s.codeAt s.dbg.index.toNat).len.setWidth 32 else 0
      else 0 := by
  unfold dbgData; rw [h]; rfl

theorem dbgData_treeb (h : s.dbg.space = 3) :
    dbgData s =
      if s.dbg.index.toNat < 767 ∧ s.dbg.word.toNat = 0 then byteWord (s.treebAt s.dbg.index.toNat) else 0 := by
  unfold dbgData; rw [h]; rfl

theorem dbgData_pay (h : s.dbg.space = 4) :
    dbgData s =
      if s.dbg.index.toNat < s.par.inCap ∧ s.dbg.word.toNat = 0 then byteWord (s.payAt s.dbg.index.toNat) else 0 := by
  unfold dbgData; rw [h]; rfl

theorem dbgData_bs (h : s.dbg.space = 5) :
    dbgData s =
      if s.dbg.index.toNat < 8 * s.par.inCap ∧ s.dbg.word.toNat = 0 then bitAt (s.bsAt s.dbg.index.toNat) 0
      else 0 := by
  unfold dbgData; rw [h]; rfl

theorem dbgData_inp (h : s.dbg.space = 6) :
    dbgData s =
      if s.dbg.index.toNat < s.par.inCap ∧ s.dbg.word.toNat = 0 then byteWord (s.inAt s.dbg.index.toNat) else 0 := by
  unfold dbgData; rw [h]; rfl

theorem dbgData_out (h : s.dbg.space = 7) :
    dbgData s =
      if s.dbg.index.toNat < s.par.outCap ∧ s.dbg.word.toNat = 0 then byteWord (s.outAt s.dbg.index.toNat)
      else 0 := by
  unfold dbgData; rw [h]; rfl

theorem dbgData_noSpace (h : 7 < s.dbg.space.toNat) : dbgData s = 0 := by
  unfold dbgData
  split
  case h_9 => rfl
  all_goals omega

end

theorem toNat_bitAt_zero (b : Bool) : (bitAt b 0).toNat = b.toNat := by cases b <;> rfl

/-- Settles O11, row by row of the table of R18. -/
theorem debugPortReadsTheSelectedWord : Obligations.DebugPortReadsTheSelectedWord := by
  rintro s _ _ rfl rfl
  have hport : readReg s 16 = dbgData s := rfl
  rw [hport]
  refine ⟨?freq, ?nodeFreq, ?nodeLink, ?codeBits, ?codeLen, ?treeb, ?pay, ?bs, ?inp, ?out, ?outside⟩
  case freq => exact fun h hi hw => (dbgData_freq h).trans (if_pos ⟨hi, hw⟩)
  case nodeFreq => exact fun h hi hw => by rw [dbgData_node h, if_pos hi, if_pos hw]
  case nodeLink =>
    intro h hi hw k
    rw [dbgData_node h, if_pos hi, if_neg (by omega), if_pos hw, getLsbD_nodeLinkWord]
  case codeBits =>
    intro h hi hw k hk
    rw [dbgData_code h, if_pos hi, if_pos hw, BitVec.getLsbD_extractLsb']
    simp [hk]
  case codeLen => exact fun h hi hw => by simp [dbgData_code h, if_pos hi, hw]
  case treeb => exact fun h hi hw => (dbgData_treeb h).trans (if_pos ⟨hi, hw⟩)
  case pay => exact fun h hi hw => (dbgData_pay h).trans (if_pos ⟨hi, hw⟩)
  case bs => exact fun h hi hw => by rw [dbgData_bs h, if_pos ⟨hi, hw⟩, toNat_bitAt_zero]
  case inp => exact fun h hi hw => (dbgData_inp h).trans (if_pos ⟨hi, hw⟩)
  case out => exact fun h hi hw => (dbgData_out h).trans (if_pos ⟨hi, hw⟩)
  case outside =>
    rintro (h | ⟨h, hout⟩ | ⟨h, hout⟩ | ⟨h, hout⟩ | ⟨h, hout⟩ | ⟨h, hout⟩ | ⟨h, hout⟩ | ⟨h, hout⟩ | ⟨h, hout⟩)
    · exact dbgData_noSpace h
    · exact (dbgData_freq h).trans (if_neg (by omega))
    · rw [dbgData_node h]
      split
      · rw [if_neg (by omega), if_neg (by omega)]
      · rfl
    · rw [dbgData_code h]
      split
      · rw [if_neg (by omega), if_neg (by omega)]
      · rfl
    · exact (dbgData_treeb h).trans (if_neg (by omega))
    · exact (dbgData_pay h).trans (if_neg (by omega))
    · exact (dbgData_bs h).trans (if_neg (by omega))
    · exact (dbgData_inp h).trans (if_neg (by omega))
    · exact (dbgData_out h).trans (if_neg (by omega))

end Sys2Proof.Machine
end

section
/-! PROOFS. COMPRESS and DECOMPRESS beside their primitives issued one by one (R89, R190, R191). -/

namespace Sys2Proof.Machine

/-! ### What no primitive reads -/

/-- `s` with the progress of `c`: BUSY, DONE and ERR, the working registers, the parse under way and the counter of
completions. STAGE is not among them: a primitive sets it (R194). -/
def State.withProgressOf (s c : State) : State :=
  { s with
    status  := { c.status with stage := s.status.stage }
    work    := c.work
    parsing := c.parsing
    draft   := c.draft
    tick    := c.tick }

section
variable (s c : State)

@[simp] theorem withProgressOf_par : (s.withProgressOf c).par = s.par := rfl
@[simp] theorem withProgressOf_epoch : (s.withProgressOf c).epoch = s.epoch := rfl
@[simp] theorem withProgressOf_data : (s.withProgressOf c).data = s.data := rfl
@[simp] theorem withProgressOf_node : (s.withProgressOf c).node = s.node := rfl
@[simp] theorem withProgressOf_freqAt : (s.withProgressOf c).freqAt = s.freqAt := rfl
@[simp] theorem withProgressOf_codeAt : (s.withProgressOf c).codeAt = s.codeAt := rfl
@[simp] theorem withProgressOf_input : (s.withProgressOf c).input = s.input := rfl
@[simp] theorem withProgressOf_tree : (s.withProgressOf c).tree = s.tree := rfl
@[simp] theorem withProgressOf_treeBytes : (s.withProgressOf c).treeBytes = s.treeBytes := rfl
@[simp] theorem withProgressOf_bitString : (s.withProgressOf c).bitString = s.bitString := rfl
@[simp] theorem withProgressOf_walkStep : walkStep (s.withProgressOf c) = walkStep s := rfl

@[simp] theorem withProgressOf_walkLoop (bits : List Bool) (cur : NodeId) (syms : List Byte) :
    walkLoop (s.withProgressOf c) bits cur syms = walkLoop s bits cur syms := by
  induction bits generalizing cur syms with
  | nil => rfl
  | cons b bits ih => simp only [walkLoop, withProgressOf_walkStep, withProgressOf_par, withProgressOf_data, ih]

end

/-- The same effect, `f` made of the state where it ends well. -/
def Effect.map (f : State → State) : Effect → Effect
  | .done s  => .done (f s)
  | .raise e => .raise e
  | .stop x  => .stop x

/-- The same end, `f` made of the state. -/
def Ran.map (f : State → State) : Ran → Ran
  | .ended s e => .ended (f s) e
  | .stopped x => .stopped x

theorem require_map (f : State → State) (c : Prop) [Decidable c] (e : ErrKind) (k : Unit → Effect) :
    (require c e k).map f = require c e fun u => (k u).map f := by
  by_cases h : c
  · rw [require_of h, require_of h]
  · rw [require_of_not h, require_of_not h]; rfl

theorem within_map (f : State → State) (sp : Space) (n cap : Nat) (k : Unit → Effect) :
    (within sp n cap k).map f = within sp n cap fun u => (k u).map f := by
  unfold within
  split <;> rfl

/-- A body that neither reads the progress nor changes it. -/
def bodyIgnoresProgress (body : State → Effect) : Prop :=
  ∀ s c, body (s.withProgressOf c) = (body s).map (·.withProgressOf c)

theorem freqBody_ignoresProgress : bodyIgnoresProgress freqBody := fun s c => by
  simp only [freqBody, require_map]
  rfl

theorem buildBody_ignoresProgress : bodyIgnoresProgress buildBody := fun s c => by
  simp only [buildBody, require_map, withProgressOf_epoch, withProgressOf_freqAt, withProgressOf_node]
  cases pqExtractMin ((mergeAll s.epoch s.freqAt s.node).key s.epoch) (mergeAll s.epoch s.freqAt s.node).pq <;> rfl

theorem gencodeBody_ignoresProgress : bodyIgnoresProgress gencodeBody := fun s c => by
  simp only [gencodeBody, require_map, withProgressOf_tree]
  cases s.tree <;> rfl

theorem encodeBody_ignoresProgress : bodyIgnoresProgress encodeBody := fun s c => by
  simp only [encodeBody, require_map, withProgressOf_par, withProgressOf_codeAt, withProgressOf_input]
  cases encodeLoop (fun b => s.codeAt b.toNat) s.par.bsCap s.input [] <;> rfl

theorem sertreeBody_ignoresProgress : bodyIgnoresProgress sertreeBody := fun s c => by
  simp only [sertreeBody, require_map, withProgressOf_tree]
  cases s.tree with
  | error f => rfl
  | ok t => simp only [within_map]; rfl

theorem packBody_ignoresProgress : bodyIgnoresProgress packBody := fun s c => by
  simp only [packBody, require_map, within_map]
  rfl

theorem wrcontBody_ignoresProgress : bodyIgnoresProgress wrcontBody := fun s c => by
  simp only [wrcontBody, require_map, within_map]
  rfl

theorem rdcontBody_ignoresProgress : bodyIgnoresProgress rdcontBody := fun s c => by
  simp only [rdcontBody, require_map]
  rfl

theorem destreeBody_ignoresProgress : bodyIgnoresProgress destreeBody := fun s c => by
  simp only [destreeBody, require_map, within_map, withProgressOf_treeBytes]
  cases parseBytes s.treeBytes Parser.start <;> rfl

theorem unpackBody_ignoresProgress : bodyIgnoresProgress unpackBody := fun s c => by
  simp only [unpackBody, require_map, within_map]
  rfl

theorem walkBody_ignoresProgress : bodyIgnoresProgress walkBody := fun s c => by
  simp only [walkBody, require_map, within_map, withProgressOf_walkLoop, withProgressOf_bitString, withProgressOf_data]
  cases walkLoop s s.bitString s.data.root [] with
  | noNode => rfl
  | raised e => rfl
  | ended cur syms => simp only [require_map]; rfl

/-! ### The parts of COMPRESS and DECOMPRESS -/

/-- The command is the primitive, reported (R186), and the primitive neither reads the progress nor changes it. -/
def isPart (i : Instr) (p : State → Ran) : Prop :=
  (∀ s, exec i s = conclude (p s)) ∧ ∀ s c, p (s.withProgressOf c) = (p s).map (·.withProgressOf c)

theorem isPart_runPrimitive {i : Instr} {op : Byte} {drop : State → State} {body : State → Effect}
    (hbody : bodyIgnoresProgress body) (hexec : ∀ s, exec i s = conclude (runPrimitive op drop body s))
    (hdrop : ∀ s c, drop (s.withProgressOf c) = (drop s).withProgressOf c) : isPart i (runPrimitive op drop body) := by
  refine ⟨hexec, fun s c => ?_⟩
  have hstage : (s.withProgressOf c).setStage op = (s.setStage op).withProgressOf c := rfl
  unfold runPrimitive
  rw [hstage, hbody, hdrop]
  cases body (s.setStage op) <;> rfl

theorem compressParts :
    List.Forall₂ isPart [.freq, .build, .gencode, .encode, .sertree, .pack, .wrcont] compressSteps :=
  .cons (isPart_runPrimitive freqBody_ignoresProgress (fun _ => rfl) fun _ _ => rfl) <|
  .cons (isPart_runPrimitive buildBody_ignoresProgress (fun _ => rfl) fun _ _ => rfl) <|
  .cons (isPart_runPrimitive gencodeBody_ignoresProgress (fun _ => rfl) fun _ _ => rfl) <|
  .cons (isPart_runPrimitive encodeBody_ignoresProgress (fun _ => rfl) fun _ _ => rfl) <|
  .cons (isPart_runPrimitive sertreeBody_ignoresProgress (fun _ => rfl) fun _ _ => rfl) <|
  .cons (isPart_runPrimitive packBody_ignoresProgress (fun _ => rfl) fun _ _ => rfl) <|
  .cons (isPart_runPrimitive wrcontBody_ignoresProgress (fun _ => rfl) fun _ _ => rfl) .nil

theorem decompressParts : List.Forall₂ isPart [.rdcont, .destree, .unpack, .walk] decompressSteps :=
  .cons (isPart_runPrimitive rdcontBody_ignoresProgress (fun _ => rfl) fun _ _ => rfl) <|
  .cons (isPart_runPrimitive destreeBody_ignoresProgress (fun _ => rfl) fun _ _ => rfl) <|
  .cons (isPart_runPrimitive unpackBody_ignoresProgress (fun _ => rfl) fun _ _ => rfl) <|
  .cons (isPart_runPrimitive walkBody_ignoresProgress (fun _ => rfl) fun _ _ => rfl) .nil

/-! ### COMPRESS and DECOMPRESS beside their parts -/

/-- Two runs end alike: in states that differ at most in the free working registers, or in the same fault. -/
inductive EndAlike : (a b : Host.Outcome State Fault Refusal) → Prop where
  | next {t u : State} (h : sameButWork t u) : EndAlike (.next t) (.next u)
  | fault (f : Fault) : EndAlike (.fault f) (.fault f)

theorem EndAlike.next_left {t : State} {b : Host.Outcome State Fault Refusal} (h : EndAlike (.next t) b) :
    ∃ u, b = .next u ∧ sameButWork t u := by
  cases h with
  | next h => exact ⟨_, rfl, h⟩

theorem EndAlike.fault_iff {a b : Host.Outcome State Fault Refusal} (h : EndAlike a b) (f : Fault) :
    a = .fault f ↔ b = .fault f := by
  cases h with
  | next h => exact ⟨nofun, nofun⟩
  | fault f => exact Iff.rfl

theorem complete_withProgressOf (e : Option ErrKind) (s c : State) :
    sameButWork (s.complete e) ((s.withProgressOf c).complete e) := rfl

/-- Where `y` is `x` completed without an error, `y` is `x` with progress of its own. -/
theorem eq_withProgressOf {x y : State} (h : sameButWork (x.complete none) y) : y = x.withProgressOf y := by
  have helog : x.elog ||| elogBit none = x.elog := BitVec.or_zero
  unfold sameButWork State.complete at h
  rw [← h, helog]
  rfl

theorem errKind_code_ne_zero (e : ErrKind) : e.code ≠ 0 := by cases e <;> decide

/-- The parts run on from a state that is not reported end like the commands issued from that state reported. -/
theorem runAll_endsLike_runCommands {is : List Instr} {ps : List (State → Ran)} (h : List.Forall₂ isPart is ps)
    {x y : State} (hxy : sameButWork (x.complete none) y) :
    EndAlike (conclude (runAll ps x)) (runCommands is y) := by
  induction h generalizing x y with
  | nil => exact .next hxy
  | @cons i p is ps hpart _ ih =>
    obtain ⟨hexec, hignores⟩ := hpart
    have hy : exec i y = conclude ((p x).map (·.withProgressOf y)) := by
      rw [hexec, ← hignores, ← eq_withProgressOf hxy]
    cases hx : p x with
    | stopped f =>
      rw [hx] at hy
      rw [runAll_cons_stopped hx, runCommands, hy]
      exact .fault f
    | ended t e =>
      rw [hx] at hy
      cases e with
      | none =>
        rw [runAll_cons_ok hx, runCommands, hy]
        exact ih (complete_withProgressOf none t y)
      | some e =>
        rw [runAll_cons_failed hx, runCommands, hy]
        simp only [Ran.map, conclude_ended, complete_status, errCode, errKind_code_ne_zero, if_false]
        exact .next (complete_withProgressOf (some e) t y)

/-- Settles O42: CLEAR leaves, reported, what COMPRESS and DECOMPRESS start from, but for STAGE, which the first
primitive sets; from there on the parts and the commands end alike. -/
theorem macrosAreTheirPrimitivesInSequence : Obligations.MacrosAreTheirPrimitivesInSequence := by
  intro s command parts h
  have halike : EndAlike (exec command s) (runCommands parts s) := by
    rcases h with ⟨rfl, rfl⟩ | ⟨rfl, rfl⟩
    · exact runAll_endsLike_runCommands compressParts (x := invalidateAll (s.setStage 0x1F)) rfl
    · exact runAll_endsLike_runCommands decompressParts (x := invalidateAll (s.setStage 0x1F)) rfl
  exact ⟨fun t ht => (ht ▸ halike).next_left, halike.fault_iff⟩

end Sys2Proof.Machine
end

section
/-! PROOFS. FREQ counts the input (R90, R91). -/

namespace Sys2Proof.Machine

/-! ### The failure of a primitive -/

/-- An error entry whose failure effects write VALID and data registers other than IN_LEN fails as R211 says. -/
theorem errorEntry_failsWith {op : Byte} {drop : State → State} {s : State} {v : ValidReg} {d : DataRegs}
    (e : ErrKind) (hdrop : drop (s.setStage op) = { s.setStage op with valid := v, data := d })
    (hinLen : d.inLen = s.data.inLen) : failsWith s (errorEntry op drop e s) op e v d := by
  unfold errorEntry
  rw [hdrop]
  exact ⟨⟨⟨rfl, rfl, rfl, rfl⟩, ⟨rfl, rfl, rfl, rfl, hinLen, rfl, rfl, rfl, rfl⟩,
    fun sp i _ => sameAt_of_memories rfl rfl rfl rfl rfl rfl rfl rfl rfl sp i⟩, rfl, rfl, rfl⟩

/-! ### The tests and the table of counts -/

/-- The writes of a FREQ that succeeds (R91). -/
def storeCounts (s : State) : State :=
  { s with freq := s.freq.writeRange 0 (countTable s.input), valid := { s.valid with freq := true } }

theorem freqVerdict_eq_none {s : State} (hsrc : s.ctrl.srcOk = true) (hcap : s.data.inLen.toNat ≤ s.par.inCap)
    (hlen : 1 ≤ s.data.inLen.toNat) : freqVerdict s = none := by
  rw [freqVerdict, if_neg (by simp [hsrc]), if_neg (by omega), if_neg (by omega)]

/-- The body of FREQ raises the error of its verdict, and stores the counts where there is none. -/
theorem freqBody_eq (s : State) : freqBody s = (freqVerdict s).elim (.done (storeCounts s)) .raise := by
  unfold freqBody freqVerdict
  by_cases hsrc : s.ctrl.srcOk = true
  · rw [require_of hsrc, if_neg (by simp [hsrc])]
    by_cases hcap : s.data.inLen.toNat ≤ s.par.inCap
    · rw [require_of hcap, if_neg (by omega)]
      by_cases hlen : 1 ≤ s.data.inLen.toNat
      · rw [require_of hlen, if_neg (by omega)]; rfl
      · rw [require_of_not hlen, if_pos (by omega)]; rfl
    · rw [require_of_not hcap, if_pos (by omega)]; rfl
  · rw [require_of_not hsrc, if_pos (by simpa using hsrc)]; rfl

@[simp] theorem length_countTable (b : List Byte) : (countTable b).length = 256 := by
  simp [countTable, Config.nsym]

theorem countTable_getD (b : List Byte) (c : Byte) :
    (countTable b).getD c.toNat 0 = BitVec.ofNat 32 (b.count c) := by
  simp [countTable, Config.nsym, List.getElem?_range c.isLt]

/-! ### The command -/

theorem exec_freq_of_verdict_none {s : State} (h : freqVerdict s = none) :
    exec .freq s = .next ((storeCounts (s.setStage 0x01)).complete none) := by
  have hstage : freqVerdict (s.setStage 0x01) = none := h
  exact conclude_runPrimitive_next.2 (.inl ⟨_, by rw [freqBody_eq, hstage]; rfl, rfl⟩)

theorem exec_freq_of_verdict_some {s : State} {e : ErrKind} (h : freqVerdict s = some e) :
    exec .freq s = .next (errorEntry 0x01 dropFreq e s) := by
  have hstage : freqVerdict (s.setStage 0x01) = some e := h
  exact conclude_runPrimitive_next.2 (.inr ⟨e, by rw [freqBody_eq, hstage]; rfl, rfl⟩)

/-- FREQ after a success: the table of counts in place of the 256 elements, and nothing beyond them. -/
theorem freqAt_storeCounts (s : State) (op : Byte) (i : Nat) :
    ((storeCounts (s.setStage op)).complete none).freqAt i =
      if i < 256 then (countTable s.input).getD i 0 else s.freqAt i := by
  have hwritten : ((storeCounts (s.setStage op)).complete none).freq = s.freq.writeRange 0 (countTable s.input) := rfl
  rw [freqAt_writeRange hwritten rfl]
  simp

theorem storeCounts_reports (s : State) (op : Byte) :
    reports s ((storeCounts (s.setStage op)).complete none) op none (fun sp k => sp = .freq ∧ k < 256) := by
  refine ⟨⟨rfl, rfl, rfl, rfl⟩, ⟨rfl, rfl, rfl, rfl, rfl, rfl, rfl, rfl, rfl⟩, fun sp i hi => ?_⟩
  cases sp with
  | freq => exact (freqAt_storeCounts s op i).trans (if_neg fun h => hi ⟨rfl, h⟩)
  | node | code | treeb | pay | bs | inp | out => rfl

/-- Settles O21: the verdict decides between the counts stored and the error entry. -/
theorem freqCountsTheInput : Obligations.FreqCountsTheInput := by
  refine fun s => ⟨fun hsrc hcap hlen => ?counts, fun e he => ?fails⟩
  case counts =>
    have hnone := freqVerdict_eq_none hsrc hcap hlen
    refine ⟨_, exec_freq_of_verdict_none hnone, storeCounts_reports s 0x01, rfl, rfl, rfl, fun c => ?_⟩
    rw [freqAt_storeCounts, if_pos c.isLt, countTable_getD]
  case fails => exact ⟨_, exec_freq_of_verdict_some he, errorEntry_failsWith e rfl rfl⟩

end Sys2Proof.Machine
end

section
/-! PROOFS. The priority queue extracts the least key (R95, R97). -/

namespace Sys2Proof.Machine

/-! ### The order of the keys -/

theorem keyLt_iff {a b : Key} : keyLt a b = true ↔ a.1 < b.1 ∨ (a.1 = b.1 ∧ a.2 < b.2) := by
  simp [keyLt]

@[simp] theorem keyLt_self (a : Key) : keyLt a a = false := by
  simp [keyLt]

theorem keyLt_asymm {a b : Key} (h : keyLt a b = true) : keyLt b a = false := by
  rw [← Bool.not_eq_true, keyLt_iff]
  rw [keyLt_iff] at h
  omega

/-- "Not above" is transitive, whatever the ids in the keys. -/
theorem keyLt_false_trans {a b c : Key} (hba : keyLt b a = false) (hcb : keyLt c b = false) : keyLt c a = false := by
  rw [← Bool.not_eq_true, keyLt_iff] at hba hcb ⊢
  omega

/-- Two keys with different ids are ordered one way or the other. -/
theorem keyLt_of_not_keyLt {a b : Key} (hne : a.2 ≠ b.2) (h : keyLt b a = false) : keyLt a b = true := by
  rw [← Bool.not_eq_true, keyLt_iff] at h
  rw [keyLt_iff]
  omega

/-! ### The least member -/

theorem pqLeast_eq_none_iff {key : NodeId → Key} {pq : List NodeId} : pqLeast key pq = none ↔ pq = [] := by
  cases pq with
  | nil => simp [pqLeast]
  | cons id pq =>
    rw [pqLeast]
    cases pqLeast key pq with
    | none => simp
    | some m => by_cases hlt : keyLt (key id) (key m) = true <;> simp [hlt]

/-- What `pqLeast` answers is a member, and no member has a key below its own. -/
theorem pqLeast_spec {key : NodeId → Key} {pq : List NodeId} {m : NodeId} (h : pqLeast key pq = some m) :
    m ∈ pq ∧ ∀ id ∈ pq, keyLt (key id) (key m) = false := by
  induction pq generalizing m with
  | nil => cases h
  | cons head pq ih =>
    rw [pqLeast] at h
    cases hrest : pqLeast key pq with
    | none =>
      obtain rfl : head = m := by simpa [hrest] using h
      simp [pqLeast_eq_none_iff.1 hrest]
    | some least =>
      obtain ⟨hmem, hleast⟩ := ih hrest
      by_cases hlt : keyLt (key head) (key least) = true
      · obtain rfl : head = m := by simpa [hrest, hlt] using h
        refine ⟨List.mem_cons_self, List.forall_mem_cons.2 ⟨keyLt_self _, fun id hid => ?_⟩⟩
        exact keyLt_false_trans (keyLt_asymm hlt) (hleast id hid)
      · obtain rfl : least = m := by simpa [hrest, hlt] using h
        exact ⟨List.mem_cons_of_mem _ hmem, List.forall_mem_cons.2 ⟨by simpa using hlt, hleast⟩⟩

/-! ### Extraction -/

theorem pqExtractMin_eq (key : NodeId → Key) (pq : List NodeId) :
    pqExtractMin key pq = (pqLeast key pq).map fun m => (m, pq.erase m) := by
  unfold pqExtractMin
  cases pqLeast key pq <;> rfl

theorem pqExtractMin_nil (key : NodeId → Key) : pqExtractMin key [] = none := rfl

/-- A queue of distinct ids, each with its id second in its key, gives up the one member whose key is below all
others (R95, R97). -/
theorem pqExtractMin_of_ne_nil {key : NodeId → Key} {pq : List NodeId} (hnodup : pq.Nodup)
    (hkey : ∀ id ∈ pq, (key id).2 = id.toNat) (hne : pq ≠ []) :
    ∃ m, pqExtractMin key pq = some (m, pq.erase m) ∧ m ∈ pq ∧
      ∀ id ∈ pq.erase m, keyLt (key m) (key id) = true := by
  obtain ⟨m, hm⟩ := Option.ne_none_iff_exists'.1 (mt pqLeast_eq_none_iff.1 hne : pqLeast key pq ≠ none)
  obtain ⟨hmem, hleast⟩ := pqLeast_spec hm
  refine ⟨m, by rw [pqExtractMin_eq, hm, Option.map_some], hmem, fun id hid => ?_⟩
  obtain ⟨hother, hidmem⟩ := hnodup.mem_erase_iff.1 hid
  have hids : (key m).2 ≠ (key id).2 := by
    rw [hkey m hmem, hkey id hidmem]
    exact fun h => hother (BitVec.eq_of_toNat_eq h.symm)
  exact keyLt_of_not_keyLt hids (hleast id hidmem)

/-- Settles O22: no member is below the least one, and with the ids distinct the least one is below every other. -/
theorem queueExtractsTheLeastKey : Obligations.QueueExtractsTheLeastKey := by
  refine fun key pq hnodup hkey => ⟨fun h => h ▸ pqExtractMin_nil key, fun hne => ?_⟩
  obtain ⟨m, hextract, hmem, hbelow⟩ := pqExtractMin_of_ne_nil hnodup hkey hne
  refine ⟨m, pq.erase m, hextract, hmem, hnodup.erase m, fun id => ?members, fun id hid => ?least⟩
  case members => rw [hnodup.mem_erase_iff, and_comm]
  case least =>
    have hidmem := List.mem_of_mem_erase hid
    simpa only [keyLt_iff, hkey m hmem, hkey id hidmem] using hbelow id hid

end Sys2Proof.Machine
end

section
/-! PROOFS. GENCODE records the path of each symbol's last leaf, and its codes are prefix-free (R110 to R115). -/

namespace Sys2Proof.Machine

/-! ### A code in its CODE entry (R81) -/

theorem bitsToNat_concat (c : List Bool) (b : Bool) : bitsToNat (c ++ [b]) = Nat.bit b (bitsToNat c) := by
  simp [bitsToNat, Nat.bit_val]

/-- The last bit of a bit-string is bit 0 of its number. -/
theorem testBit_bitsToNat (c : List Bool) (k : Nat) : (bitsToNat c).testBit k = c.reverse.getD k false := by
  induction c using List.reverseRecOn generalizing k with
  | nil => simp [bitsToNat]
  | append_singleton c b ih =>
    rw [bitsToNat_concat, List.reverse_concat]
    cases k with
    | zero => simp
    | succ k => rw [Nat.testBit_bit_succ, ih, List.getD_cons_succ]

/-- The code stands left-aligned in its entry, with zeros after it. -/
theorem getLsbD_codeOfBits {c : List Bool} (hlen : c.length ≤ 256) {k : Nat} (hk : k < 256) :
    (codeOfBits c).bits.getLsbD (255 - k) = c.getD k false := by
  have hlt : 255 - k < 256 := by omega
  simp only [codeOfBits, BitVec.getLsbD_ofNat, Nat.testBit_mul_two_pow, testBit_bitsToNat, hlt, decide_true,
    Bool.true_and]
  by_cases hin : k < c.length
  · have hpos : 255 - k - (256 - c.length) = c.length - 1 - k := by omega
    rw [decide_eq_true (by omega), Bool.true_and, hpos, List.getD_reverse _ (by omega)]
    congr 1
    omega
  · rw [decide_eq_false (by omega), Bool.false_and, List.getD_eq_default _ _ (by omega)]

theorem toNat_len_codeOfBits {c : List Bool} (hlen : c.length < 256) : (codeOfBits c).len.toNat = c.length := by
  simpa [codeOfBits] using hlen

theorem codeBits_codeOfBits {c : List Bool} (hlen : c.length < 256) : codeBits (codeOfBits c) = c := by
  unfold codeBits
  rw [toNat_len_codeOfBits hlen]
  refine List.ext_getElem (by simp) fun k _ hk => ?_
  simp [getLsbD_codeOfBits hlen.le (hk.trans hlen), hk]

theorem getLsbD_codeOfBits_filler {c : List Bool} (hlen : c.length < 256) {k : Nat} (hk : k < 256 - c.length) :
    (codeOfBits c).bits.getLsbD k = false := by
  have hbit := getLsbD_codeOfBits hlen.le (show 255 - k < 256 by omega)
  rwa [show 255 - (255 - k) = k by omega, List.getD_eq_default _ _ (by omega)] at hbit

/-! ### The paths of the leaves (R110) -/

/-- The path so far stands before each path below. -/
theorem codesFrom_eq (t : CodeTree) (acc : List Bool) :
    codesFrom t acc = (codes t).map fun p => (p.1, acc ++ p.2) := by
  unfold codes
  induction t generalizing acc with
  | leaf sym => simp [codesFrom]
  | node l r ihl ihr =>
    simp only [codesFrom, List.nil_append, List.map_append]
    rw [ihl, ihr, ihl [false], ihr [true]]
    simp [Function.comp_def]

@[simp] theorem codes_leaf (sym : Byte) : codes (.leaf sym) = [(sym, [])] := rfl

theorem codes_node (l r : CodeTree) :
    codes (.node l r) =
      (codes l).map (fun p => (p.1, false :: p.2)) ++ (codes r).map (fun p => (p.1, true :: p.2)) := by
  rw [codes, codesFrom, codesFrom_eq, codesFrom_eq]
  rfl

theorem mem_codes_node {l r : CodeTree} {p : Byte × List Bool} :
    p ∈ codes (.node l r) ↔
      (∃ q ∈ codes l, (q.1, false :: q.2) = p) ∨ ∃ q ∈ codes r, (q.1, true :: q.2) = p := by
  simp only [codes_node, List.mem_append, List.mem_map]

/-- Of the paths to two leaves with different symbols neither is a prefix of the other. -/
theorem codes_prefixFree {t : CodeTree} {p q : Byte × List Bool} (hp : p ∈ codes t) (hq : q ∈ codes t)
    (hne : p.1 ≠ q.1) : ¬ p.2 <+: q.2 := by
  induction t generalizing p q with
  | leaf sym =>
    rw [codes_leaf, List.mem_singleton] at hp hq
    exact absurd (hp.trans hq.symm ▸ rfl) hne
  | node l r ihl ihr =>
    rw [mem_codes_node] at hp hq
    obtain ⟨p, hp, rfl⟩ | ⟨p, hp, rfl⟩ := hp <;> obtain ⟨q, hq, rfl⟩ | ⟨q, hq, rfl⟩ := hq <;>
      rw [List.cons_prefix_cons]
    · exact fun h => ihl hp hq hne h.2
    · exact fun h => Bool.false_ne_true h.1
    · exact fun h => Bool.false_ne_true h.1.symm
    · exact fun h => ihr hp hq hne h.2

/-! ### The depth of a tree in the arena (R24, R31) -/

/-- Everything `treeOf` can answer a tree for: a leaf, or a node with its two subtrees one level less deep. -/
theorem treeOf_ok {epoch : Nat} {m : Memory Node} {depth id : Nat} {t : CodeTree}
    (h : treeOf epoch m (depth + 1) id = .ok t) :
    id < Config.nodeCap ∧
      (((readNode epoch m id).leaf = true ∧ t = .leaf (readNode epoch m id).sym) ∨
        ((readNode epoch m id).leaf = false ∧ ∃ l r,
          treeOf epoch m depth (readNode epoch m id).left.toNat = .ok l ∧
          treeOf epoch m depth (readNode epoch m id).right.toNat = .ok r ∧ t = .node l r)) := by
  rw [treeOf] at h
  split at h
  · cases h
  next hid =>
  refine ⟨Nat.not_le.1 hid, ?_⟩
  dsimp only at h
  split at h
  next hleaf => exact .inl ⟨hleaf, (Except.ok.inj h).symm⟩
  next hleaf =>
  split at h
  · cases h
  next l hl =>
  split at h
  · cases h
  next r hr => exact .inr ⟨Bool.not_eq_true _ ▸ hleaf, l, r, hl, hr, (Except.ok.inj h).symm⟩

/-- A tree read with a stack for `depth - 1` entries has paths shorter than `depth`. -/
theorem length_lt_of_mem_codes {epoch : Nat} {m : Memory Node} {depth id : Nat} {t : CodeTree}
    (h : treeOf epoch m depth id = .ok t) {p : Byte × List Bool} (hp : p ∈ codes t) : p.2.length < depth := by
  induction depth generalizing id t p with
  | zero => cases h
  | succ depth ih =>
    obtain ⟨-, ⟨-, rfl⟩ | ⟨-, l, r, hl, hr, rfl⟩⟩ := treeOf_ok h
    · obtain rfl := List.mem_singleton.1 hp
      exact Nat.succ_pos depth
    · obtain ⟨q, hq, rfl⟩ | ⟨q, hq, rfl⟩ := mem_codes_node.1 hp
      · exact Nat.succ_lt_succ (ih hl hq)
      · exact Nat.succ_lt_succ (ih hr hq)

/-! ### The code of a symbol (R111, R112, R115) -/

theorem length_nonEmptyCode_lt {c : List Bool} (h : c.length < 256) : (nonEmptyCode c).length < 256 := by
  unfold nonEmptyCode
  split
  · exact Nat.one_lt_succ_succ _
  · exact h

theorem codeOf_eq_none {t : CodeTree} {sym : Byte} (h : ∀ p ∈ codes t, p.1 ≠ sym) : codeOf t sym = none := by
  have hnone : (codes t).filter (fun p => p.1 == sym) = [] := List.filter_eq_nil_iff.2 (by simpa using h)
  rw [codeOf, hnone]
  rfl

/-- The last pair of the list with the symbol wins. -/
theorem codeOf_eq_last {t : CodeTree} {sym : Byte} {before after : List (Byte × List Bool)} {path : List Bool}
    (h : codes t = before ++ (sym, path) :: after) (hafter : ∀ p ∈ after, p.1 ≠ sym) :
    codeOf t sym = some (nonEmptyCode path) := by
  have hnone : after.filter (fun p => p.1 == sym) = [] := List.filter_eq_nil_iff.2 (by simpa using hafter)
  simp [codeOf, h, hnone]

/-- A code is the path of a leaf with the symbol. -/
theorem exists_path_of_codeOf {t : CodeTree} {sym : Byte} {c : List Bool} (h : codeOf t sym = some c) :
    ∃ path, (sym, path) ∈ codes t ∧ c = nonEmptyCode path := by
  obtain ⟨⟨x, path⟩, hlast, rfl⟩ := Option.map_eq_some_iff.1 h
  obtain ⟨hmem, hsym⟩ := List.mem_filter.1 (List.mem_of_getLast? hlast)
  obtain rfl : x = sym := by simpa using hsym
  exact ⟨path, hmem, rfl⟩

/-- The codes of two symbols are no prefixes of one another: neither path is empty, so both are as they are. -/
theorem codeOf_prefixFree {t : CodeTree} {a b : Byte} {c d : List Bool} (hne : a ≠ b) (ha : codeOf t a = some c)
    (hb : codeOf t b = some d) : ¬ c <+: d := by
  obtain ⟨p, hp, rfl⟩ := exists_path_of_codeOf ha
  obtain ⟨q, hq, rfl⟩ := exists_path_of_codeOf hb
  have hpq : ¬ p <+: q := codes_prefixFree hp hq hne
  have hqp : ¬ q <+: p := codes_prefixFree hq hp hne.symm
  have hp0 : p ≠ [] := fun h => hpq (h ▸ List.nil_prefix)
  have hq0 : q ≠ [] := fun h => hqp (h ▸ List.nil_prefix)
  rwa [nonEmptyCode, nonEmptyCode, if_neg hp0, if_neg hq0]

theorem length_codeOf_lt {s : State} {t : CodeTree} (htree : s.tree = .ok t) {sym : Byte} {c : List Bool}
    (h : codeOf t sym = some c) : c.length < 256 := by
  obtain ⟨path, hmem, rfl⟩ := exists_path_of_codeOf h
  exact length_nonEmptyCode_lt (length_lt_of_mem_codes htree hmem)

/-! ### The table of codes and the command (R112) -/

@[simp] theorem length_codeTable (t : CodeTree) : (codeTable t).length = 256 := by
  simp [codeTable, Config.nsym]

theorem codeTable_getD (t : CodeTree) (sym : Byte) :
    (codeTable t).getD sym.toNat default = (codeOf t sym).elim ⟨0, 0⟩ codeOfBits := by
  simp only [codeTable, Config.nsym, List.getD_eq_getElem?_getD, List.getElem?_map, List.getElem?_range sym.isLt,
    Option.map_some, Option.getD_some, BitVec.ofNat_toNat, BitVec.setWidth_eq]
  cases codeOf t sym <;> rfl

/-- The writes of a GENCODE that succeeds (R112). -/
def storeCodes (t : CodeTree) (s : State) : State :=
  { s with code := s.code.writeRange 0 (codeTable t), valid := { s.valid with code := true } }

/-- The body of GENCODE ends well exactly where there is a tree, with its codes stored. -/
theorem gencodeBody_done {s u : State} :
    gencodeBody s = .done u ↔ s.valid.tree = true ∧ ∃ t, s.tree = .ok t ∧ u = storeCodes t s := by
  unfold gencodeBody
  rw [require_done]
  refine and_congr_right fun _ => ?_
  cases s.tree with
  | error f => exact ⟨nofun, nofun⟩
  | ok t =>
    refine ⟨fun h => ⟨t, rfl, (Effect.done.inj h).symm⟩, ?_⟩
    rintro ⟨_, ⟨⟩, rfl⟩
    rfl

theorem gencodeBody_noTree {s : State} (h : s.valid.tree = false) : gencodeBody s = .raise .sequenceError :=
  require_of_not (by simp [h])

theorem exec_gencode_of_tree {s : State} {t : CodeTree} (hvalid : s.valid.tree = true) (htree : s.tree = .ok t) :
    exec .gencode s = .next ((storeCodes t (s.setStage 0x03)).complete none) :=
  conclude_runPrimitive_next.2 (.inl ⟨_, gencodeBody_done.2 ⟨hvalid, t, htree, rfl⟩, rfl⟩)

theorem exec_gencode_noTree {s : State} (h : s.valid.tree = false) :
    exec .gencode s = .next (errorEntry 0x03 dropCode .sequenceError s) :=
  conclude_runPrimitive_next.2 (.inr ⟨_, gencodeBody_noTree h, rfl⟩)

/-- A GENCODE that succeeds has stored the codes of the tree under ROOT. -/
theorem exec_gencode_ok {s t : State} (h : exec .gencode s = .next t) (hok : t.status.err = 0) :
    ∃ tr, s.tree = .ok tr ∧ t = (storeCodes tr (s.setStage 0x03)).complete none := by
  obtain ⟨u, hbody, rfl⟩ | ⟨e, -, rfl⟩ := conclude_runPrimitive_next.1 h
  · obtain ⟨-, tr, htree, rfl⟩ := gencodeBody_done.1 hbody
    exact ⟨tr, htree, rfl⟩
  · rw [errorEntry_status] at hok
    exact absurd hok (errKind_code_ne_zero e)

theorem codeAt_storeCodes (t : CodeTree) (s : State) (op : Byte) (i : Nat) :
    ((storeCodes t (s.setStage op)).complete none).codeAt i =
      if i < 256 then (codeTable t).getD i default else s.codeAt i := by
  have hwritten : ((storeCodes t (s.setStage op)).complete none).code = s.code.writeRange 0 (codeTable t) := rfl
  rw [codeAt_writeRange hwritten rfl]
  simp

/-- The entry of a symbol holds its code, or nothing. -/
theorem codeAt_storeCodes_symbol (t : CodeTree) (s : State) (op sym : Byte) :
    ((storeCodes t (s.setStage op)).complete none).codeAt sym.toNat = (codeOf t sym).elim ⟨0, 0⟩ codeOfBits := by
  rw [codeAt_storeCodes, if_pos sym.isLt, codeTable_getD]

theorem storeCodes_reports (t : CodeTree) (s : State) (op : Byte) :
    reports s ((storeCodes t (s.setStage op)).complete none) op none (fun sp k => sp = .code ∧ k < 256) := by
  refine ⟨⟨rfl, rfl, rfl, rfl⟩, ⟨rfl, rfl, rfl, rfl, rfl, rfl, rfl, rfl, rfl⟩, fun sp i hi => ?_⟩
  cases sp with
  | code => exact (codeAt_storeCodes t s op i).trans (if_neg fun h => hi ⟨rfl, h⟩)
  | freq | node | treeb | pay | bs | inp | out => rfl

/-- Settles O26: the last pair of a symbol gives its code, shorter than 256 bits as the arena's tree is at most 255
levels deep, and the entry holds that code left-aligned. -/
theorem gencodeRecordsEachLeafsPath : Obligations.GencodeRecordsEachLeafsPath := by
  refine fun s => ⟨fun tr hvalid htree => ?stored, fun hvalid => ?fails⟩
  case fails => exact ⟨_, exec_gencode_noTree hvalid, errorEntry_failsWith _ rfl rfl⟩
  case stored =>
    refine ⟨_, exec_gencode_of_tree hvalid htree, storeCodes_reports tr s 0x03, rfl, rfl, rfl, fun c => ?_⟩
    rw [codeAt_storeCodes_symbol]
    refine ⟨fun before path after hcodes hafter => ?last, fun hnone => ?absent⟩
    case absent => rw [codeOf_eq_none hnone, Option.elim_none]
    case last =>
      have hcode := codeOf_eq_last hcodes hafter
      have hlen := length_codeOf_lt htree hcode
      rw [hcode, Option.elim_some, codeBits_codeOfBits hlen, toNat_len_codeOfBits hlen]
      exact ⟨rfl, apply_ite List.length .., fun k hk => getLsbD_codeOfBits_filler hlen hk⟩

/-- An entry with a length other than 0 holds the code of its symbol. -/
theorem codeOf_of_len_ne_zero {s : State} {tr : CodeTree} (htree : s.tree = .ok tr) {op sym : Byte}
    (h : (((storeCodes tr (s.setStage op)).complete none).codeAt sym.toNat).len ≠ 0) :
    codeOf tr sym = some (codeBits (((storeCodes tr (s.setStage op)).complete none).codeAt sym.toNat)) := by
  rw [codeAt_storeCodes_symbol] at h ⊢
  cases hcode : codeOf tr sym with
  | none => exact absurd (by rw [hcode]; rfl) h
  | some c => exact congrArg some (codeBits_codeOfBits (length_codeOf_lt htree hcode)).symm

/-- Settles O27: the entries hold codes of the tree, and those are prefix-free; equal codes would be prefixes. -/
theorem generatedCodesArePrefixFree : Obligations.GeneratedCodesArePrefixFree := by
  intro s t hexec hok a b hne ha hb
  obtain ⟨tr, htree, rfl⟩ := exec_gencode_ok hexec hok
  have hfree := codeOf_prefixFree hne (codeOf_of_len_ne_zero htree ha) (codeOf_of_len_ne_zero htree hb)
  exact ⟨hfree, fun heq => hfree (heq ▸ List.prefix_rfl)⟩

end Sys2Proof.Machine
end

section
/-! PROOFS. SERTREE writes the preorder bytes of the tree under ROOT (R120 to R122). -/

namespace Sys2Proof.Machine

/-! ### The sizes of a tree (R122) -/

theorem treeSize_pos (t : CodeTree) : 1 ≤ treeSize t := by
  cases t <;> simp only [treeSize] <;> omega

theorem treeSize_succ_eq (t : CodeTree) : treeSize t + 1 = 2 * (treeSymbols t).length := by
  induction t with
  | leaf sym => rfl
  | node l r ihl ihr => simp only [treeSize, treeSymbols, List.length_append]; omega

theorem length_ser_succ (t : CodeTree) : (ser t).length + 1 = 3 * (treeSymbols t).length := by
  induction t with
  | leaf sym => rfl
  | node l r ihl ihr => simp only [ser, treeSymbols, List.length_cons, List.length_append]; omega

/-- The tree-bytes of a tree that fits the arena fit TREEB. -/
theorem length_ser_le {t : CodeTree} (h : treeSize t ≤ 511) : (ser t).length ≤ 767 := by
  have hleaves := treeSize_succ_eq t
  have hser := length_ser_succ t
  omega

/-! ### The command -/

/-- The writes of a SERTREE that succeeds (R121). -/
def storeTreeBytes (tr : CodeTree) (s : State) : State :=
  { s with
    treeb := s.treeb.writeRange 0 (ser tr)
    data  := { s.data with treeLen := BitVec.ofNat 10 (ser tr).length }
    valid := { s.valid with treeb := true } }

theorem sertreeBody_of_tree {s : State} {tr : CodeTree} (hvalid : s.valid.tree = true) (htree : s.tree = .ok tr)
    (hlen : (ser tr).length ≤ 767) : sertreeBody s = .done (storeTreeBytes tr s) := by
  rw [sertreeBody, require_of hvalid, htree]
  exact within_of hlen

theorem sertreeBody_noTree {s : State} (h : s.valid.tree = false) : sertreeBody s = .raise .sequenceError :=
  require_of_not (by simp [h])

theorem exec_sertree_of_tree {s : State} {tr : CodeTree} (hvalid : s.valid.tree = true) (htree : s.tree = .ok tr)
    (hlen : (ser tr).length ≤ 767) :
    exec .sertree s = .next ((storeTreeBytes tr (s.setStage 0x05)).complete none) :=
  conclude_runPrimitive_next.2 (.inl ⟨_, sertreeBody_of_tree hvalid htree hlen, rfl⟩)

theorem exec_sertree_noTree {s : State} (h : s.valid.tree = false) :
    exec .sertree s = .next (errorEntry 0x05 dropTreeBytes .sequenceError s) :=
  conclude_runPrimitive_next.2 (.inr ⟨_, sertreeBody_noTree h, rfl⟩)

theorem treebAt_storeTreeBytes (tr : CodeTree) (s : State) (op : Byte) (i : Nat) :
    ((storeTreeBytes tr (s.setStage op)).complete none).treebAt i =
      if i < (ser tr).length then (ser tr).getD i 0 else s.treebAt i := by
  have hwritten : ((storeTreeBytes tr (s.setStage op)).complete none).treeb = s.treeb.writeRange 0 (ser tr) := rfl
  rw [treebAt_writeRange hwritten rfl]
  simp

theorem storeTreeBytes_reports (tr : CodeTree) (s : State) (op : Byte) :
    reports s ((storeTreeBytes tr (s.setStage op)).complete none) op none
      (fun sp k => sp = .treeb ∧ k < (ser tr).length) := by
  refine ⟨⟨rfl, rfl, rfl, rfl⟩, ⟨rfl, rfl, rfl, rfl, rfl, rfl, rfl, rfl, rfl⟩, fun sp i hi => ?_⟩
  cases sp with
  | treeb => exact (treebAt_storeTreeBytes tr s op i).trans (if_neg fun h => hi ⟨rfl, h⟩)
  | freq | node | code | pay | bs | inp | out => rfl

theorem storeTreeBytes_treeLen {tr : CodeTree} (hlen : (ser tr).length ≤ 767) (s : State) (op : Byte) :
    ((storeTreeBytes tr (s.setStage op)).complete none).data.treeLen.toNat = (ser tr).length := by
  show (BitVec.ofNat 10 (ser tr).length).toNat = _
  rw [BitVec.toNat_ofNat]
  omega

theorem storeTreeBytes_treeBytes {tr : CodeTree} (hlen : (ser tr).length ≤ 767) (s : State) (op : Byte) :
    ((storeTreeBytes tr (s.setStage op)).complete none).treeBytes = ser tr := by
  rw [State.treeBytes, storeTreeBytes_treeLen hlen]
  refine slice_eq _ 0 (ser tr) fun i hi => ?_
  rw [Nat.zero_add, treebAt_storeTreeBytes, if_pos hi, List.getD_eq_getElem _ _ hi]

/-- Settles O29: a tree of at most 256 leaves has at most 767 bytes, so they fit TREEB and TREE_LEN. -/
theorem sertreeWritesThePreorderBytes : Obligations.SertreeWritesThePreorderBytes := by
  refine fun s => ⟨fun tr hvalid htree hleaves => ?stored, fun hvalid => ?fails⟩
  case fails => exact ⟨_, exec_sertree_noTree hvalid, errorEntry_failsWith _ rfl rfl⟩
  case stored =>
    have hser := length_ser_succ tr
    have hlen : (ser tr).length ≤ 767 := by omega
    refine ⟨_, exec_sertree_of_tree hvalid htree hlen, storeTreeBytes_reports tr s 0x05, rfl, rfl, rfl, ?_,
      storeTreeBytes_treeBytes hlen s 0x05⟩
    rw [storeTreeBytes_treeLen hlen]
    omega

end Sys2Proof.Machine
end

section
/-! PROOFS. What DESTREE's parser makes of the preorder bytes of a tree (R123, R127, R128). -/

namespace Sys2Proof.Machine

/-! ### One record -/

/-- How the parse of a byte sequence goes on after a Leaf. -/
def continueParse (rest : List Byte) : ParseStep → Option (NodeId × Parser)
  | .more q => parseBytes rest q
  | .root id q => if rest = [] then some (id, q) else none
  | .full => none

theorem parseBytes_leaf (sym : Byte) (rest : List Byte) (p : Parser) :
    parseBytes (0x31#8 :: sym :: rest) p = continueParse rest (parseLeaf sym p) := by
  rw [parseBytes.eq_def]
  simp only [if_neg (show ¬ 0x31#8 = 0x30#8 by decide), if_true]
  cases parseLeaf sym p <;> rfl

theorem parseBytes_internal {rest : List Byte} {p : Parser} (hslot : p.nalloc.toNat < Config.nodeCap)
    (hroom : p.stack.length < Config.stackCap) :
    parseBytes (0x30#8 :: rest) p =
      parseBytes rest ⟨p.nalloc + 1, (p.nalloc.setWidth 9, false) :: p.stack, p.draft⟩ := by
  rw [parseBytes.eq_def]
  simp only [if_true]
  rw [parseInternal, if_neg (by omega)]

/-! ### Depth and arena records of a tree -/

/-- The number of edges on the longest path from the root: how many nodes are open while its last leaf is parsed. -/
def treeHeight : CodeTree → Nat
  | .leaf _ => 0
  | .node l r => 1 + max (treeHeight l) (treeHeight r)

theorem two_mul_treeHeight_lt (t : CodeTree) : 2 * treeHeight t < treeSize t := by
  induction t with
  | leaf sym => exact Nat.one_pos
  | node l r ihl ihr =>
    have hl := treeSize_pos l
    have hr := treeSize_pos r
    simp only [treeHeight, treeSize]
    omega

@[simp] theorem length_preorderNodes (t : CodeTree) (base : Nat) : (preorderNodes t base).length = treeSize t := by
  induction t generalizing base with
  | leaf sym => rfl
  | node l r ihl ihr => simp only [preorderNodes, List.length_cons, List.length_append, ihl, ihr, treeSize]; omega

/-- A slot written before the run above it is complete, written again between its halves and at the end: one run. -/
theorem writeRange_opened {α : Type} {m : Memory α} (hm : m.wf) (base : Nat) (v w : α) (xs ys : List α) :
    (((m.writeRange (base + 1) xs).write base v).writeRange (base + 1 + xs.length) ys).write base w =
      m.writeRange base (w :: (xs ++ ys)) := by
  refine Memory.ext_of_wf _ _ (write_wf _ (writeRange_wf _ (write_wf _ (writeRange_wf m hm _ _) _ _) _ _) _ _)
    (writeRange_wf m hm _ _) fun i => ?_
  simp only [read?_write, read?_writeRange, List.length_cons, List.length_append]
  by_cases hbase : i = base
  · simp [hbase]
  by_cases hin : base < i ∧ i < base + 1 + xs.length + ys.length
  · obtain ⟨j, rfl⟩ : ∃ j, i = base + (j + 1) := ⟨i - base - 1, by omega⟩
    have hrun : base ≤ base + (j + 1) ∧ base + (j + 1) < base + (xs.length + ys.length + 1) := by omega
    rw [if_neg hbase, if_pos hrun, Nat.add_sub_cancel_left, List.getElem?_cons_succ, List.getElem?_append]
    by_cases hleft : j < xs.length
    · rw [if_neg (by omega), if_neg hbase, if_pos (by omega), if_pos hleft]
      congr 1
      omega
    · rw [if_pos (by omega), if_neg hleft]
      congr 1
      omega
  · rw [if_neg hbase, if_neg (by omega), if_neg hbase, if_neg (by omega), if_neg (by omega)]

/-! ### The bytes of a tree -/

theorem toNat_nalloc {base : Nat} (h : base < 511) : (BitVec.ofNat 10 base).toNat = base := by
  rw [BitVec.toNat_ofNat]; omega

theorem toNat_slotId {base : Nat} (h : base < 511) : (BitVec.ofNat 9 base).toNat = base := by
  rw [BitVec.toNat_ofNat]; omega

/-- The next slot's number as a node id. -/
theorem setWidth_nalloc {base : Nat} (h : base < 511) : (BitVec.ofNat 10 base).setWidth 9 = BitVec.ofNat 9 base :=
  BitVec.eq_of_toNat_eq (by rw [BitVec.toNat_setWidth, toNat_nalloc h, BitVec.toNat_ofNat])

theorem nalloc_succ (base : Nat) : BitVec.ofNat 10 base + 1 = BitVec.ofNat 10 (base + 1) := (BitVec.ofNat_add ..).symm

/-- The slots when the left child of node `base` is complete and its right child comes next. -/
def leftDone (l : CodeTree) (base : Nat) (draft : Memory Node) : Memory Node :=
  (draft.writeRange (base + 1) (preorderNodes l (base + 1))).write base ⟨false, 0, 0, BitVec.ofNat 9 (base + 1), 0⟩

theorem leftDone_wf {draft : Memory Node} (h : draft.wf) (l : CodeTree) (base : Nat) : (leftDone l base draft).wf :=
  write_wf _ (writeRange_wf _ h _ _) _ _

theorem closeSubtree_leftChild {base : Nat} (h : base < 511) (nalloc : BitVec 10) (l : CodeTree)
    (stack : List (NodeId × Bool)) (draft : Memory Node) :
    closeSubtree nalloc (BitVec.ofNat 9 (base + 1)) ((BitVec.ofNat 9 base, false) :: stack)
        (draft.writeRange (base + 1) (preorderNodes l (base + 1))) =
      .more ⟨nalloc, (BitVec.ofNat 9 base, true) :: stack, leftDone l base draft⟩ := by
  rw [closeSubtree, toNat_slotId h]
  rfl

/-- With the right child's slots written, node `base` is completed and the whole subtree stands in preorder. -/
theorem closeSubtree_rightChild {base : Nat} (h : base < 511) (nalloc : BitVec 10) (l r : CodeTree)
    (stack : List (NodeId × Bool)) {draft : Memory Node} (hdraft : draft.wf) :
    closeSubtree nalloc (BitVec.ofNat 9 (base + 1 + treeSize l)) ((BitVec.ofNat 9 base, true) :: stack)
        ((leftDone l base draft).writeRange (base + 1 + treeSize l) (preorderNodes r (base + 1 + treeSize l))) =
      closeSubtree nalloc (BitVec.ofNat 9 base) stack (draft.writeRange base (preorderNodes (.node l r) base)) := by
  have hopened : ((leftDone l base draft).writeRange (base + 1 + treeSize l)
      (preorderNodes r (base + 1 + treeSize l))).read? base = some ⟨false, 0, 0, BitVec.ofNat 9 (base + 1), 0⟩ := by
    rw [read?_writeRange_out _ _ _ _ (.inl (by omega)), leftDone, read?_write, if_pos rfl]
  have hrun := writeRange_opened hdraft base ⟨false, 0, 0, BitVec.ofNat 9 (base + 1), 0⟩
    ⟨false, 0, 0, BitVec.ofNat 9 (base + 1), BitVec.ofNat 9 (base + 1 + treeSize l)⟩ (preorderNodes l (base + 1))
    (preorderNodes r (base + 1 + treeSize l))
  rw [length_preorderNodes] at hrun
  rw [closeSubtree, toNat_slotId h, hopened, Option.getD_some, leftDone, hrun, preorderNodes]

/-- The parse of a tree's bytes with slot `base` next: its nodes are written in preorder from `base` on, and its root
`base` is a complete subtree. -/
theorem parseBytes_ser (t : CodeTree) {base : Nat} {stack : List (NodeId × Bool)} {draft : Memory Node}
    (hslots : base + treeSize t ≤ 511) (hroom : stack.length + treeHeight t ≤ 255) (hdraft : draft.wf)
    (rest : List Byte) :
    parseBytes (ser t ++ rest) ⟨BitVec.ofNat 10 base, stack, draft⟩ =
      continueParse rest (closeSubtree (BitVec.ofNat 10 (base + treeSize t)) (BitVec.ofNat 9 base) stack
        (draft.writeRange base (preorderNodes t base))) := by
  have hpos := treeSize_pos t
  have hbase : base < 511 := by omega
  induction t generalizing base stack draft rest with
  | leaf sym =>
    show parseBytes (0x31#8 :: sym :: rest) _ = _
    rw [parseBytes_leaf, parseLeaf, if_neg (by rw [toNat_nalloc hbase]; exact Nat.not_le.2 hbase), nalloc_succ,
      setWidth_nalloc hbase, toNat_nalloc hbase]
    rfl
  | node l r ihl ihr =>
    have hl := treeSize_pos l
    have hr := treeSize_pos r
    simp only [treeSize, treeHeight] at hslots hroom
    calc
      parseBytes (ser (.node l r) ++ rest) ⟨BitVec.ofNat 10 base, stack, draft⟩
        = parseBytes (ser l ++ (ser r ++ rest))
            ⟨BitVec.ofNat 10 (base + 1), (BitVec.ofNat 9 base, false) :: stack, draft⟩ := by
          rw [← List.append_assoc, ← nalloc_succ, ← setWidth_nalloc hbase]
          exact parseBytes_internal (by rw [toNat_nalloc hbase]; exact hbase) (by show stack.length < 255; omega)
      _ = continueParse (ser r ++ rest) (closeSubtree (BitVec.ofNat 10 (base + 1 + treeSize l))
            (BitVec.ofNat 9 (base + 1)) ((BitVec.ofNat 9 base, false) :: stack)
            (draft.writeRange (base + 1) (preorderNodes l (base + 1)))) :=
          ihl (by omega) (by rw [List.length_cons]; omega) hdraft _ hl (by omega)
      _ = parseBytes (ser r ++ rest)
            ⟨BitVec.ofNat 10 (base + 1 + treeSize l), (BitVec.ofNat 9 base, true) :: stack, leftDone l base draft⟩ := by
          rw [closeSubtree_leftChild hbase, continueParse]
      _ = continueParse rest (closeSubtree (BitVec.ofNat 10 (base + 1 + treeSize l + treeSize r))
            (BitVec.ofNat 9 (base + 1 + treeSize l)) ((BitVec.ofNat 9 base, true) :: stack)
            ((leftDone l base draft).writeRange (base + 1 + treeSize l) (preorderNodes r (base + 1 + treeSize l)))) :=
          ihr (by omega) (by rw [List.length_cons]; omega) (leftDone_wf hdraft l base) _ hr (by omega)
      _ = continueParse rest (closeSubtree (BitVec.ofNat 10 (base + treeSize (.node l r))) (BitVec.ofNat 9 base) stack
            (draft.writeRange base (preorderNodes (.node l r) base))) := by
          rw [closeSubtree_rightChild hbase _ _ _ _ hdraft, treeSize, ← Nat.add_assoc, ← Nat.add_assoc]

/-- The parser that has read a whole tree (R127, R128). -/
def treeParser (t : CodeTree) : Parser := ⟨BitVec.ofNat 10 (treeSize t), [], cellsFrom 0 (preorderNodes t 0)⟩

/-- A tree of at most 511 nodes nests at most 255 deep, so its parse always finds room on the stack. -/
theorem parseBytes_start_ser {t : CodeTree} (hsize : treeSize t ≤ 511) :
    parseBytes (ser t) Parser.start = some (0, treeParser t) := by
  have hheight := two_mul_treeHeight_lt t
  have hparse := parseBytes_ser t (base := 0) (stack := []) (draft := []) (by omega)
    (by rw [List.length_nil]; omega) .nil []
  rw [List.append_nil, Nat.zero_add] at hparse
  refine hparse.trans ?_
  rw [closeSubtree, continueParse, if_pos rfl]
  simp [treeParser, Memory.writeRange]

end Sys2Proof.Machine
end

section
/-! PROOFS. The byte strings that DESTREE's parser accepts are those of the grammar (R75, R123, R124, R129). -/

namespace Sys2Proof.Machine

/-! ### Record streams and trees (R75) -/

/-- The records of a tree in preorder. -/
def treeRecords : CodeTree → List Instr
  | .leaf sym => [.leaf sym]
  | .node l r => .internal :: (treeRecords l ++ treeRecords r)

@[simp] theorem length_treeRecords (t : CodeTree) : (treeRecords t).length = treeSize t := by
  induction t with
  | leaf sym => rfl
  | node l r ihl ihr => simp only [treeRecords, List.length_cons, List.length_append, ihl, ihr, treeSize]; omega

theorem flatMap_recordBytes_treeRecords (t : CodeTree) : (treeRecords t).flatMap recordBytes = ser t := by
  induction t with
  | leaf sym => rfl
  | node l r ihl ihr => rw [treeRecords, List.flatMap_cons, List.flatMap_append, ihl, ihr]; rfl

theorem closesSubtrees_internal {n : Nat} {rs : List Instr} :
    closesSubtrees n (.internal :: rs) = true ↔ n ≠ 0 ∧ closesSubtrees (n + 1) rs = true := by
  by_cases hn : n = 0 <;> simp [closesSubtrees, hn]

theorem closesSubtrees_leaf {n : Nat} {sym : Byte} {rs : List Instr} :
    closesSubtrees n (.leaf sym :: rs) = true ↔ n ≠ 0 ∧ closesSubtrees (n - 1) rs = true := by
  by_cases hn : n = 0 <;> simp [closesSubtrees, hn]

/-- The records of a tree close one subtree. -/
theorem closesSubtrees_treeRecords_append (t : CodeTree) (n : Nat) (rs : List Instr) :
    closesSubtrees (n + 1) (treeRecords t ++ rs) = closesSubtrees n rs := by
  induction t generalizing n rs with
  | leaf sym => exact if_neg (Nat.succ_ne_zero n)
  | node l r ihl ihr =>
    rw [treeRecords, List.cons_append, List.append_assoc, closesSubtrees, if_neg (Nat.succ_ne_zero n), ihl, ihr]

/-- Records that close `n` subtrees are those of `n` trees. -/
theorem exists_trees_of_closesSubtrees {n : Nat} {rs : List Instr} (h : closesSubtrees n rs = true) :
    ∃ ts : List CodeTree, ts.length = n ∧ rs = ts.flatMap treeRecords := by
  induction rs generalizing n with
  | nil =>
    obtain rfl : n = 0 := by simpa [closesSubtrees] using h
    exact ⟨[], rfl, rfl⟩
  | cons i rs ih =>
    cases i with
    | internal =>
      obtain ⟨hn, h⟩ := closesSubtrees_internal.1 h
      obtain ⟨ts, hlen, rfl⟩ := ih h
      match ts, hlen with
      | l :: r :: ts, hlen => exact ⟨.node l r :: ts, by simpa using hlen, by simp [treeRecords]⟩
      | [_], hlen => exact absurd hlen (by simp; omega)
    | leaf sym =>
      obtain ⟨hn, h⟩ := closesSubtrees_leaf.1 h
      obtain ⟨ts, hlen, rfl⟩ := ih h
      exact ⟨.leaf sym :: ts, by rw [List.length_cons]; omega, rfl⟩
    | _ => cases h

/-- Records that close one subtree are those of one tree. -/
theorem closesSubtrees_one {rs : List Instr} : closesSubtrees 1 rs = true ↔ ∃ t, rs = treeRecords t := by
  constructor
  · intro h
    obtain ⟨ts, hlen, rfl⟩ := exists_trees_of_closesSubtrees h
    obtain ⟨t, rfl⟩ := List.length_eq_one_iff.1 hlen
    exact ⟨t, List.flatMap_singleton ..⟩
  · rintro ⟨t, rfl⟩
    rw [← List.append_nil (treeRecords t), closesSubtrees_treeRecords_append]
    rfl

/-- The byte strings of well-formed streams are the serializations of trees of at most 511 nodes. -/
theorem exists_treeRecordsWf_iff (bs : List Byte) :
    (∃ rs, treeRecordsWf rs = true ∧ bs = rs.flatMap recordBytes) ↔ ∃ t, bs = ser t ∧ treeSize t ≤ 511 := by
  simp only [treeRecordsWf, Bool.and_eq_true, decide_eq_true_eq, closesSubtrees_one]
  constructor
  · rintro ⟨_, ⟨⟨t, rfl⟩, hsize⟩, rfl⟩
    exact ⟨t, flatMap_recordBytes_treeRecords t, length_treeRecords t ▸ hsize⟩
  · rintro ⟨t, rfl, hsize⟩
    exact ⟨treeRecords t, ⟨⟨t, rfl⟩, (length_treeRecords t).symm ▸ hsize⟩, (flatMap_recordBytes_treeRecords t).symm⟩

/-! ### What the parser accepts -/

/-- How many open nodes still expect their right child besides the subtree under way. -/
def leftOpen (stack : List (NodeId × Bool)) : Nat := stack.countP (fun e => !e.2)

@[simp] theorem leftOpen_nil : leftOpen [] = 0 := rfl
@[simp] theorem leftOpen_left (id : NodeId) (stack : List (NodeId × Bool)) :
    leftOpen ((id, false) :: stack) = leftOpen stack + 1 := by simp [leftOpen]
@[simp] theorem leftOpen_right (id : NodeId) (stack : List (NodeId × Bool)) :
    leftOpen ((id, true) :: stack) = leftOpen stack := by simp [leftOpen]

/-- Everything closing a subtree can do: one expected right child comes next, or none is expected and the root is
complete. -/
theorem closeSubtree_cases (nalloc : BitVec 10) (id : NodeId) (stack : List (NodeId × Bool)) (draft : Memory Node) :
    (∃ q, closeSubtree nalloc id stack draft = .more q ∧ q.nalloc = nalloc ∧ leftOpen q.stack + 1 = leftOpen stack) ∨
      (∃ root q, closeSubtree nalloc id stack draft = .root root q ∧ leftOpen stack = 0) := by
  induction stack generalizing id draft with
  | nil => exact .inr ⟨_, _, rfl, rfl⟩
  | cons e stack ih =>
    obtain ⟨parent, right⟩ := e
    cases right with
    | false => exact .inl ⟨_, rfl, rfl, by simp⟩
    | true => rw [leftOpen_right]; exact ih _ _

theorem nalloc_add_one {n : BitVec 10} (h : n.toNat < 511) : (n + 1).toNat = n.toNat + 1 := by
  bv_omega

/-- An Internal record takes a slot and expects one subtree more. -/
theorem parseInternal_counts {p q : Parser} (h : parseInternal p = .more q) :
    p.nalloc.toNat < 511 ∧ q.nalloc.toNat = p.nalloc.toNat + 1 ∧ leftOpen q.stack = leftOpen p.stack + 1 := by
  unfold parseInternal at h
  split at h
  · cases h
  next hroom =>
    have hslot : p.nalloc.toNat < 511 := Nat.not_le.1 (not_or.1 hroom).1
    obtain rfl := ParseStep.more.inj h
    exact ⟨hslot, nalloc_add_one hslot, leftOpen_left ..⟩

/-- Everything a Leaf record can do: it takes a slot and expects one subtree less, or it was the last; or the arena is
full. -/
theorem parseLeaf_cases (sym : Byte) (p : Parser) :
    (p.nalloc.toNat < 511 ∧
        ((∃ q, parseLeaf sym p = .more q ∧ q.nalloc.toNat = p.nalloc.toNat + 1 ∧
            leftOpen q.stack + 1 = leftOpen p.stack) ∨
          ∃ root q, parseLeaf sym p = .root root q ∧ leftOpen p.stack = 0)) ∨
      parseLeaf sym p = .full := by
  unfold parseLeaf
  split
  · exact .inr rfl
  next hfull =>
    have hslot : p.nalloc.toNat < 511 := Nat.not_le.1 hfull
    refine .inl ⟨hslot, ?_⟩
    obtain ⟨q, hq, hnalloc, hopen⟩ | hroot := closeSubtree_cases (p.nalloc + 1) (p.nalloc.setWidth 9) p.stack
      (p.draft.write p.nalloc.toNat ⟨true, sym, 0, 0, 0⟩)
    · exact .inl ⟨q, hq, by rw [hnalloc, nalloc_add_one hslot], hopen⟩
    · exact .inr hroot

/-- The bytes that a parse accepts are those of records that close the subtrees it expects, a slot each. -/
theorem parseBytes_accepts {bs : List Byte} {p : Parser} {r : NodeId × Parser} (h : parseBytes bs p = some r) :
    ∃ rs, closesSubtrees (leftOpen p.stack + 1) rs = true ∧ bs = rs.flatMap recordBytes ∧
      p.nalloc.toNat + rs.length ≤ 511 := by
  fun_induction parseBytes bs p with
  | case2 rest p q hstep ih =>
    obtain ⟨-, hnalloc, hopen⟩ := parseInternal_counts hstep
    obtain ⟨rs, hrs, rfl, hlen⟩ := ih h
    rw [hopen] at hrs
    refine ⟨.internal :: rs, hrs, rfl, ?_⟩
    rw [List.length_cons]
    omega
  | case6 p sym rest q hstep _ ih =>
    obtain ⟨-, ⟨_, hq, hnalloc, hopen⟩ | ⟨_, _, hq, -⟩⟩ | hq := parseLeaf_cases sym p <;> rw [hstep] at hq <;> cases hq
    obtain ⟨rs, hrs, rfl, hlen⟩ := ih h
    rw [hopen] at hrs
    refine ⟨.leaf sym :: rs, hrs, rfl, ?_⟩
    rw [List.length_cons]
    omega
  | case7 p sym root q hstep _ =>
    obtain ⟨hslot, ⟨_, hq, -, -⟩ | ⟨_, _, hq, hopen⟩⟩ | hq := parseLeaf_cases sym p <;> rw [hstep] at hq <;> cases hq
    exact ⟨[.leaf sym], by rw [hopen]; rfl, rfl, hslot⟩
  | case1 | case3 | case4 | case5 | case8 | case9 | case10 => cases h

/-- The parse from the beginning accepts exactly the serializations of trees of at most 511 nodes (R124, R129). -/
theorem parseBytes_start_eq_some {bs : List Byte} {r : NodeId × Parser} :
    parseBytes bs Parser.start = some r ↔ ∃ t, bs = ser t ∧ treeSize t ≤ 511 ∧ r = (0, treeParser t) := by
  constructor
  · intro h
    obtain ⟨rs, hrs, rfl, hlen⟩ := parseBytes_accepts h
    obtain ⟨t, rfl⟩ := closesSubtrees_one.1 hrs
    have hsize : treeSize t ≤ 511 := by simpa [Parser.start] using hlen
    rw [flatMap_recordBytes_treeRecords] at h ⊢
    exact ⟨t, rfl, hsize, Option.some.inj (h.symm.trans (parseBytes_start_ser hsize))⟩
  · rintro ⟨t, rfl, hsize, rfl⟩
    exact parseBytes_start_ser hsize

end Sys2Proof.Machine
end

section
/-! PROOFS. DESTREE loads the tree whose preorder bytes stand in TREEB, and fails on all other bytes (R123 to R129). -/

namespace Sys2Proof.Machine

/-! ### A tree that stands in the arena in preorder -/

theorem slice_append {β : Type} (read : Nat → β) (start a b : Nat) :
    slice read start (a + b) = slice read start a ++ slice read (start + a) b := by
  simp [slice, List.range_add, Function.comp_def, Nat.add_assoc]

theorem slice_one_add {β : Type} (read : Nat → β) (start n : Nat) :
    slice read start (1 + n) = read start :: slice read (start + 1) n := slice_append read start 1 n

/-- The slots from `base` on hold the records of the tree in preorder. -/
def holdsTree (read : Nat → Node) (t : CodeTree) (base : Nat) : Prop :=
  slice read base (treeSize t) = preorderNodes t base

theorem holdsTree_leaf {read : Nat → Node} {sym : Byte} {base : Nat} (h : holdsTree read (.leaf sym) base) :
    read base = ⟨true, sym, 0, 0, 0⟩ := (List.cons.inj h).1

theorem holdsTree_node {read : Nat → Node} {l r : CodeTree} {base : Nat} (h : holdsTree read (.node l r) base) :
    read base = ⟨false, 0, 0, BitVec.ofNat 9 (base + 1), BitVec.ofNat 9 (base + 1 + treeSize l)⟩ ∧
      holdsTree read l (base + 1) ∧ holdsTree read r (base + 1 + treeSize l) := by
  rw [holdsTree, treeSize, Nat.add_assoc, slice_one_add, slice_append, preorderNodes] at h
  obtain ⟨hroot, hsubtrees⟩ := List.cons.inj h
  obtain ⟨hl, hr⟩ := List.append_inj hsubtrees (by rw [length_slice, length_preorderNodes])
  exact ⟨hroot, hl, hr⟩

/-- The ids of a left and a right child in the arena. -/
theorem toNat_childIds {l r : CodeTree} {base : Nat} (h : base + treeSize (.node l r) ≤ 511) :
    (BitVec.ofNat 9 (base + 1)).toNat = base + 1 ∧
      (BitVec.ofNat 9 (base + 1 + treeSize l)).toNat = base + 1 + treeSize l := by
  have hl := treeSize_pos l
  have hr := treeSize_pos r
  rw [treeSize] at h
  exact ⟨toNat_slotId (by omega), toNat_slotId (by omega)⟩

/-- Reading the tree under a slot gives the tree that stands there, where the traversal stack has room for it. -/
theorem treeOf_of_holdsTree {epoch : Nat} {m : Memory Node} {t : CodeTree} {base depth : Nat}
    (h : holdsTree (readNode epoch m) t base) (hdepth : treeHeight t < depth) (hslots : base + treeSize t ≤ 511) :
    treeOf epoch m depth base = .ok t := by
  have hslot : ¬ Config.nodeCap ≤ base :=
    Nat.not_le.2 (Nat.lt_of_lt_of_le (Nat.lt_add_of_pos_right (treeSize_pos t)) hslots)
  induction t generalizing base depth with
  | leaf sym =>
    obtain ⟨depth, rfl⟩ := Nat.exists_eq_add_one_of_ne_zero (Nat.ne_zero_of_lt hdepth)
    rw [treeOf, if_neg hslot, holdsTree_leaf h]
    rfl
  | node l r ihl ihr =>
    obtain ⟨depth, rfl⟩ := Nat.exists_eq_add_one_of_ne_zero (Nat.ne_zero_of_lt hdepth)
    obtain ⟨hroot, hl, hr⟩ := holdsTree_node h
    obtain ⟨hidl, hidr⟩ := toNat_childIds hslots
    have hposl := treeSize_pos l
    have hposr := treeSize_pos r
    simp only [treeHeight, treeSize] at hdepth hslots
    have hleft : treeOf epoch m depth (base + 1) = .ok l :=
      ihl hl (by omega) (by omega) (by show ¬ 511 ≤ _; omega)
    have hright : treeOf epoch m depth (base + 1 + treeSize l) = .ok r :=
      ihr hr (by omega) (by omega) (by show ¬ 511 ≤ _; omega)
    rw [treeOf, if_neg hslot, hroot]
    simp only [hidl, hidr, hleft, hright, Bool.false_eq_true, if_false]

/-- The ids under a slot where a tree stands in preorder are consecutive. -/
theorem reachableIds_of_holdsTree {s : State} {t : CodeTree} {base depth : Nat} (h : holdsTree s.nodeAt t base)
    (hdepth : treeHeight t < depth) (hslots : base + treeSize t ≤ 511) :
    reachableIds s depth base = some (List.range' base (treeSize t)) := by
  induction t generalizing base depth with
  | leaf sym =>
    obtain ⟨depth, rfl⟩ := Nat.exists_eq_add_one_of_ne_zero (Nat.ne_zero_of_lt hdepth)
    rw [reachableIds, holdsTree_leaf h]
    rfl
  | node l r ihl ihr =>
    obtain ⟨depth, rfl⟩ := Nat.exists_eq_add_one_of_ne_zero (Nat.ne_zero_of_lt hdepth)
    obtain ⟨hroot, hl, hr⟩ := holdsTree_node h
    obtain ⟨hidl, hidr⟩ := toNat_childIds hslots
    simp only [treeHeight, treeSize] at hdepth hslots
    have hleft := ihl (depth := depth) hl (by omega) (by omega)
    have hright := ihr (depth := depth) hr (by omega) (by omega)
    rw [reachableIds, hroot]
    simp only [hidl, hidr, hleft, hright, Bool.false_eq_true, if_false]
    rw [treeSize, Nat.add_assoc 1, Nat.add_comm 1, List.range'_succ, List.range'_append_1]

/-! ### The command -/

/-- The writes of a DESTREE that succeeds (R125, R127, R128). -/
def loadTree (t : CodeTree) (s : State) : State := commitTree 0 (treeParser t) s

/-- The body of DESTREE ends well exactly on the serialization of a tree of at most 511 nodes, with that tree loaded. -/
theorem destreeBody_done {s u : State} :
    destreeBody s = .done u ↔
      s.valid.treeb = true ∧ ∃ t, s.treeBytes = ser t ∧ treeSize t ≤ 511 ∧ u = loadTree t s := by
  unfold destreeBody
  rw [require_done, within_done]
  refine and_congr_right fun _ => ?_
  constructor
  · rintro ⟨-, h⟩
    cases hparse : parseBytes s.treeBytes Parser.start with
    | none => rw [hparse] at h; cases h
    | some r =>
      obtain ⟨t, hbytes, hsize, rfl⟩ := parseBytes_start_eq_some.1 hparse
      rw [hparse] at h
      exact ⟨t, hbytes, hsize, (Effect.done.inj h).symm⟩
  · rintro ⟨t, hbytes, hsize, rfl⟩
    have hlen : s.data.treeLen.toNat = (ser t).length := by rw [← hbytes, State.treeBytes, length_slice]
    refine ⟨hlen.trans_le (length_ser_le hsize), ?_⟩
    rw [hbytes, parseBytes_start_ser hsize]
    rfl

theorem destreeBody_noTreeBytes {s : State} (h : s.valid.treeb = false) : destreeBody s = .raise .sequenceError :=
  require_of_not (by simp [h])

/-- All other tree-bytes are malformed (R124). -/
theorem destreeBody_malformed {s : State} (hvalid : s.valid.treeb = true) (hlen : s.data.treeLen.toNat ≤ 767)
    (hbytes : ¬ ∃ t, s.treeBytes = ser t ∧ treeSize t ≤ 511) : destreeBody s = .raise .malformedTree := by
  have hparse : parseBytes s.treeBytes Parser.start = none := by
    refine Option.eq_none_iff_forall_ne_some.2 fun r h => hbytes ?_
    obtain ⟨t, ht, hsize, -⟩ := parseBytes_start_eq_some.1 h
    exact ⟨t, ht, hsize⟩
  rw [destreeBody, require_of hvalid, within_of (show _ ≤ Config.treebCap from hlen), hparse]

theorem exec_destree_of_ser {s : State} {t : CodeTree} (hvalid : s.valid.treeb = true) (hbytes : s.treeBytes = ser t)
    (hsize : treeSize t ≤ 511) : exec .destree s = .next ((loadTree t (s.setStage 0x09)).complete none) :=
  conclude_runPrimitive_next.2 (.inl ⟨_, destreeBody_done.2 ⟨hvalid, t, hbytes, hsize, rfl⟩, rfl⟩)

theorem exec_destree_noTreeBytes {s : State} (h : s.valid.treeb = false) :
    exec .destree s = .next (errorEntry 0x09 dropTree .sequenceError s) :=
  conclude_runPrimitive_next.2 (.inr ⟨_, destreeBody_noTreeBytes h, rfl⟩)

theorem exec_destree_malformed {s : State} (hvalid : s.valid.treeb = true) (hlen : s.data.treeLen.toNat ≤ 767)
    (hbytes : ¬ ∃ t, s.treeBytes = ser t ∧ treeSize t ≤ 511) :
    exec .destree s = .next (errorEntry 0x09 dropTree .malformedTree s) :=
  conclude_runPrimitive_next.2 (.inr ⟨_, destreeBody_malformed hvalid hlen hbytes, rfl⟩)

/-- A DESTREE that succeeds has loaded the tree that the tree-bytes serialize. -/
theorem exec_destree_ok {s u : State} (h : exec .destree s = .next u) (hok : u.status.err = 0) :
    s.valid.treeb = true ∧ ∃ t, s.treeBytes = ser t ∧ treeSize t ≤ 511 ∧
      u = (loadTree t (s.setStage 0x09)).complete none := by
  obtain ⟨_, hbody, rfl⟩ | ⟨e, -, rfl⟩ := conclude_runPrimitive_next.1 h
  · obtain ⟨hvalid, t, hbytes, hsize, rfl⟩ := destreeBody_done.1 hbody
    exact ⟨hvalid, t, hbytes, hsize, rfl⟩
  · rw [errorEntry_status] at hok
    exact absurd hok (errKind_code_ne_zero e)

/-! ### The loaded tree -/

theorem nodeAt_loadTree (t : CodeTree) (s : State) (op : Byte) (i : Nat) :
    ((loadTree t (s.setStage op)).complete none).nodeAt i = ((preorderNodes t 0)[i]?).getD (s.nodeAt i) := by
  show readNode s.epoch (s.node.overlay (cellsFrom 0 (preorderNodes t 0))) i = _
  rw [readNode, read?_overlay _ _ (cellsFrom_wf _ 0), read?_cellsFrom, if_pos (Nat.zero_le i), Nat.sub_zero]
  cases (preorderNodes t 0)[i]? <;> rfl

theorem loadTree_reports (t : CodeTree) (s : State) (op : Byte) :
    reports s ((loadTree t (s.setStage op)).complete none) op none (fun sp k => sp = .node ∧ k < treeSize t) := by
  refine ⟨⟨rfl, rfl, rfl, rfl⟩, ⟨rfl, rfl, rfl, rfl, rfl, rfl, rfl, rfl, rfl⟩, fun sp i hi => ?_⟩
  cases sp with
  | node =>
    have hout : (preorderNodes t 0).length ≤ i := by
      rw [length_preorderNodes]
      exact Nat.not_lt.1 fun h => hi ⟨rfl, h⟩
    exact (nodeAt_loadTree t s op i).trans (by rw [List.getElem?_eq_none hout, Option.getD_none])
  | freq | code | treeb | pay | bs | inp | out => rfl

theorem nodeAt_loadTree_slot {t : CodeTree} {k : Nat} (hk : k < treeSize t) (s : State) (op : Byte) :
    some (((loadTree t (s.setStage op)).complete none).nodeAt k) = (preorderNodes t 0)[k]? := by
  rw [nodeAt_loadTree, List.getElem?_eq_getElem (by rwa [length_preorderNodes]), Option.getD_some]

theorem holdsTree_loadTree (t : CodeTree) (s : State) (op : Byte) :
    holdsTree ((loadTree t (s.setStage op)).complete none).nodeAt t 0 := by
  rw [holdsTree, ← length_preorderNodes t 0]
  refine slice_eq _ 0 _ fun i hi => ?_
  rw [Nat.zero_add, nodeAt_loadTree, List.getElem?_eq_getElem hi, Option.getD_some]

theorem tree_loadTree {t : CodeTree} (hsize : treeSize t ≤ 511) (s : State) (op : Byte) :
    ((loadTree t (s.setStage op)).complete none).tree = .ok t := by
  have hheight := two_mul_treeHeight_lt t
  exact treeOf_of_holdsTree (base := 0) (holdsTree_loadTree t s op) (by show _ < 256; omega) (by omega)

theorem treeOk_loadTree {t : CodeTree} (hsize : treeSize t ≤ 511) (s : State) (op : Byte) :
    TreeOk ((loadTree t (s.setStage op)).complete none) := by
  have hheight := two_mul_treeHeight_lt t
  have hnnode : (BitVec.ofNat 10 (treeSize t)).toNat = treeSize t := by rw [BitVec.toNat_ofNat]; omega
  refine ⟨t, List.range' 0 (treeSize t), tree_loadTree hsize s op,
    reachableIds_of_holdsTree (base := 0) (holdsTree_loadTree t s op) (by show _ < 256; omega) (by omega),
    List.nodup_range', fun id hid => ?_, ?_, hnnode.symm, hnnode.trans_le hsize⟩
  · rw [List.mem_range'_1] at hid
    show id < 511
    omega
  · exact List.length_range'.trans hnnode.symm

/-- Settles O30: the parse accepts exactly the serializations of trees of at most 511 nodes, and what it commits reads
as the tree's records from slot 0 on. -/
theorem destreeLoadsExactlyTheSerializedTrees : Obligations.DestreeLoadsExactlyTheSerializedTrees := by
  refine fun s => ⟨fun t hvalid hbytes hsize => ?loaded, fun hvalid => ?noTreeBytes,
    fun hvalid hlen hlarge => ?malformed⟩
  case loaded =>
    exact ⟨_, exec_destree_of_ser hvalid hbytes hsize, loadTree_reports t s 0x09, rfl, rfl, rfl,
      fun k hk => nodeAt_loadTree_slot hk s 0x09, tree_loadTree hsize s 0x09, treeOk_loadTree hsize s 0x09⟩
  case noTreeBytes => exact ⟨_, exec_destree_noTreeBytes hvalid, errorEntry_failsWith _ rfl rfl⟩
  case malformed =>
    refine ⟨_, exec_destree_malformed hvalid hlen ?_, errorEntry_failsWith _ rfl rfl⟩
    rintro ⟨t, hbytes, hsize⟩
    exact absurd (hlarge t hbytes) (Nat.not_lt.2 hsize)

/-- Settles O31: the strings of the grammar are the serializations, and on every other string the parse fails. -/
theorem destreeAcceptsTheGrammarOfTreeBytes : Obligations.DestreeAcceptsTheGrammarOfTreeBytes := by
  intro s hvalid hlen
  simp only [exists_treeRecordsWf_iff]
  by_cases hbytes : ∃ t, s.treeBytes = ser t ∧ treeSize t ≤ 511
  · obtain ⟨t, ht, hsize⟩ := hbytes
    exact ⟨_, exec_destree_of_ser hvalid ht hsize, iff_of_true rfl ⟨t, ht, hsize⟩⟩
  · exact ⟨_, exec_destree_malformed hvalid hlen hbytes, iff_of_false (errKind_code_ne_zero .malformedTree) hbytes⟩

/-! ### SERTREE and DESTREE one after the other (R130) -/

/-- GENCODE reads nothing of the state but the tree under ROOT. -/
theorem codeAt_gencode_congr {s u g h : State} {t : CodeTree} (hs : s.valid.tree = true) (hst : s.tree = .ok t)
    (hu : u.valid.tree = true) (hut : u.tree = .ok t) (hg : exec .gencode s = .next g) (hh : exec .gencode u = .next h)
    {c : Nat} (hc : c < 256) : h.codeAt c = g.codeAt c := by
  rw [exec_gencode_of_tree hs hst] at hg
  rw [exec_gencode_of_tree hu hut] at hh
  cases hg
  cases hh
  rw [codeAt_storeCodes, codeAt_storeCodes, if_pos hc, if_pos hc]

theorem treeLen_eq_of_treeBytes_eq {s u : State} (h : u.treeBytes = s.treeBytes) : u.data.treeLen = s.data.treeLen := by
  have hlen := congrArg List.length h
  rw [State.treeBytes, State.treeBytes, length_slice, length_slice] at hlen
  exact BitVec.eq_of_toNat_eq hlen

/-- Settles O32: a valid tree has at most 511 nodes, so its serialization fits and is accepted; and the bytes that
DESTREE accepted are the serialization of the tree it loaded. -/
theorem serializationIsATwoSidedInverse : Obligations.SerializationIsATwoSidedInverse := by
  refine ⟨fun s tr hvalid hok htree => ?treeBack, fun s t hexec hok => ?bytesBack⟩
  case treeBack =>
    obtain ⟨tr', ids, htree', -, -, -, -, hnodes, hnnode⟩ := hok
    obtain rfl : tr = tr' := Except.ok.inj (htree.symm.trans htree')
    have hsize : treeSize tr ≤ 511 := hnodes.trans_le hnnode
    have hlen := length_ser_le hsize
    have hloaded := tree_loadTree hsize ((storeTreeBytes tr (s.setStage 0x05)).complete none) 0x09
    exact ⟨_, _, exec_sertree_of_tree hvalid htree hlen,
      exec_destree_of_ser rfl (storeTreeBytes_treeBytes hlen s 0x05) hsize, rfl, rfl, hloaded,
      fun g h hg hh c hc => codeAt_gencode_congr hvalid htree rfl hloaded hg hh hc⟩
  case bytesBack =>
    obtain ⟨-, tr, hbytes, hsize, rfl⟩ := exec_destree_ok hexec hok
    have hlen := length_ser_le hsize
    have hback := (storeTreeBytes_treeBytes hlen ((loadTree tr (s.setStage 0x09)).complete none) 0x05).trans hbytes.symm
    exact ⟨_, exec_sertree_of_tree rfl (tree_loadTree hsize s 0x09) hlen, rfl, treeLen_eq_of_treeBytes_eq hback, hback⟩

end Sys2Proof.Machine
end

section
/-! PROOFS. The pack and unpack functions bit by bit, and the shifters that compute them (R135, R138, R139, R143). -/

namespace Sys2Proof.Machine

/-! ### A byte and the eight bits in it (R53) -/

/-- The byte whose bits in stream order are `c`. -/
def byteOfBits (c : List Bool) : Byte := BitVec.ofNat 8 (bitsToNat c)

theorem byteBit_byteOfBits {c : List Bool} (hlen : c.length = 8) {k : Nat} (hk : k < 8) :
    byteBit (byteOfBits c) k = c.getD k false := by
  have hpos : c.length - 1 - (7 - k) = k := by omega
  rw [byteBit, byteOfBits, BitVec.getLsbD_ofNat, decide_eq_true (by omega), Bool.true_and, testBit_bitsToNat,
    List.getD_reverse _ (by omega), hpos]

/-- One more bit enters at bit 0. -/
theorem byteOfBits_concat (c : List Bool) (b : Bool) :
    byteOfBits (c ++ [b]) = byteOfBits c <<< 1 ||| (BitVec.ofBool b).setWidth 8 := by
  refine BitVec.eq_of_getLsbD_eq fun i hi => ?_
  rw [byteOfBits, byteOfBits, bitsToNat_concat, BitVec.getLsbD_or, BitVec.getLsbD_shiftLeft, BitVec.getLsbD_ofNat,
    BitVec.getLsbD_ofNat]
  cases i with
  | zero => simp
  | succ i => simp [Nat.testBit_bit_succ, hi, Nat.lt_of_succ_lt hi]

/-- Filling up with zeros is shifting to the left. -/
theorem byteOfBits_append_zeros (c : List Bool) (m : Nat) :
    byteOfBits (c ++ List.replicate m false) = byteOfBits c <<< m := by
  induction m with
  | zero => simp
  | succ m ih =>
    rw [List.replicate_succ', ← List.append_assoc, byteOfBits_concat, ih, BitVec.shiftLeft_add]
    simp

/-! ### The stream of bits that a run of bytes holds -/

/-- Bit `i` of the stream, 0 beyond its end. -/
def streamBit (bytes : List Byte) (i : Nat) : Bool := byteBit (bytes.getD (i / 8) 0) (i % 8)

theorem streamBit_byte (bytes : List Byte) (j : Nat) {k : Nat} (hk : k < 8) :
    streamBit bytes (8 * j + k) = byteBit (bytes.getD j 0) k := by
  rw [streamBit, show (8 * j + k) / 8 = j by omega, show (8 * j + k) % 8 = k by omega]

theorem streamBit_cons_add_eight (b : Byte) (bytes : List Byte) (i : Nat) :
    streamBit (b :: bytes) (8 + i) = streamBit bytes i := by
  rw [streamBit, streamBit, Nat.add_div_left i (by decide), Nat.add_mod_left, List.getD_cons_succ]

@[simp] theorem length_unpackBits (bytes : List Byte) (pc : Nat) :
    (unpackBits bytes pc).length = 8 * bytes.length - pc := by
  simp [unpackBits]

theorem unpackBits_getD (bytes : List Byte) (pc i : Nat) :
    (unpackBits bytes pc).getD i false = if i < 8 * bytes.length - pc then streamBit bytes i else false := by
  by_cases h : i < 8 * bytes.length - pc <;> simp [unpackBits, streamBit, List.getD_eq_getElem?_getD, h]

/-! ### The pack function -/

@[simp] theorem length_packBytes (bits : List Bool) : (packBytes bits).length = (bits.length + 7) / 8 := by
  simp [packBytes]

theorem padCount_eight_add (n : Nat) : padCount (8 + n) = padCount n := by rw [padCount, padCount, Nat.add_mod_left]

/-- The bits and their filler are whole bytes (R137). -/
theorem eight_mul_length_packBytes (bits : List Bool) :
    8 * (packBytes bits).length = bits.length + padCount bits.length := by
  rw [length_packBytes, padCount]
  omega

theorem packBytes_getD {bits : List Bool} {j : Nat} (hj : j < (bits.length + 7) / 8) :
    (packBytes bits).getD j 0 =
      byteOfBits (((bits ++ List.replicate (padCount bits.length) false).drop (8 * j)).take 8) := by
  simp [packBytes, byteOfBits, hj]

theorem getD_append_zeros (bits : List Bool) (m i : Nat) :
    (bits ++ List.replicate m false).getD i false = bits.getD i false := by
  by_cases hi : i < bits.length
  · rw [List.getD_append _ _ _ _ hi]
  · rw [List.getD_append_right _ _ _ _ (Nat.not_lt.1 hi), List.getD_eq_default _ _ (Nat.not_lt.1 hi)]
    simp

/-- Packing keeps the stream, and fills it up with zeros. -/
theorem streamBit_packBytes (bits : List Bool) (i : Nat) : streamBit (packBytes bits) i = bits.getD i false := by
  by_cases hj : i / 8 < (bits.length + 7) / 8
  · have hfilled := eight_mul_length_packBytes bits
    rw [length_packBytes] at hfilled
    have hpos : 8 * (i / 8) + i % 8 = i := by omega
    have hmod : i % 8 < 8 := by omega
    rw [streamBit, packBytes_getD hj, byteBit_byteOfBits (by simp; omega) hmod, List.getD_eq_getElem?_getD,
      List.getElem?_take_of_lt hmod, List.getElem?_drop, hpos, ← List.getD_eq_getElem?_getD]
    exact getD_append_zeros bits _ i
  · rw [streamBit, List.getD_eq_default _ _ (by simpa using hj), List.getD_eq_default _ _ (by omega)]
    simp [byteBit]

/-- Unpacking what was packed, less its filler. -/
theorem unpackBits_packBytes (bits : List Bool) : unpackBits (packBytes bits) (padCount bits.length) = bits := by
  have hlen := eight_mul_length_packBytes bits
  refine List.ext_getElem (by rw [length_unpackBits]; omega) fun i h hi => ?_
  rw [← List.getD_eq_getElem _ false h, ← List.getD_eq_getElem _ false hi, unpackBits_getD,
    if_pos (by simpa using h), streamBit_packBytes]

/-! ### The packer's shift register (R138) -/

/-- Eight bits make one byte, whatever follows. -/
theorem packBytes_byte_append {c : List Bool} (hlen : c.length = 8) (bits : List Bool) :
    packBytes (c ++ bits) = byteOfBits c :: packBytes bits := by
  have hcount : ((c ++ bits).length + 7) / 8 = (bits.length + 7) / 8 + 1 := by
    rw [List.length_append]; omega
  have hpad : padCount (c ++ bits).length = padCount bits.length := by
    rw [List.length_append, hlen, padCount_eight_add]
  rw [packBytes, packBytes, hcount, hpad, List.range_succ_eq_map, List.map_cons, List.map_map, List.append_assoc]
  congr 1
  · rw [Nat.mul_zero, List.drop_zero, List.take_left' hlen, byteOfBits]
  · refine List.map_congr_left fun j _ => ?_
    have hdrop : 8 * (j + 1) = c.length + 8 * j := by omega
    rw [Function.comp_apply, hdrop, List.drop_length_add_append]

/-- One to seven bits make one byte, with zeros after them. -/
theorem packBytes_partial {c : List Bool} (hpos : 0 < c.length) (hlen : c.length < 8) :
    packBytes c = [byteOfBits c <<< (8 - c.length)] := by
  have hpad : padCount c.length = 8 - c.length := by rw [padCount]; omega
  have hone : (c.length + 7) / 8 = 1 := by omega
  rw [← byteOfBits_append_zeros]
  simp [packBytes, byteOfBits, hpad, hone, List.take_of_length_le, hlen.le]

theorem packFlush_partial {c : List Bool} (hlen : c.length < 8) (sent : List Byte) :
    packFlush ⟨byteOfBits c, c.length, sent⟩ = (sent ++ packBytes c, padCount c.length) := by
  unfold packFlush
  by_cases hpos : 0 < c.length
  · rw [if_pos hpos, packBytes_partial hpos hlen, padCount, Nat.mod_eq_of_lt hlen, Nat.mod_eq_of_lt (by omega)]
  · obtain rfl : c = [] := List.length_eq_zero_iff.1 (by omega)
    simp [packBytes, padCount]

/-- With `c` in the register and `sent` delivered, the shifter goes on to pack `c` and the bits to come. -/
theorem packFlush_foldl_packShift (bits : List Bool) {c : List Bool} (hlen : c.length < 8) (sent : List Byte) :
    packFlush (bits.foldl packShift ⟨byteOfBits c, c.length, sent⟩) =
      (sent ++ packBytes (c ++ bits), padCount (c ++ bits).length) := by
  induction bits generalizing c sent with
  | nil => rw [List.foldl_nil, List.append_nil, packFlush_partial hlen]
  | cons b bits ih =>
    have hshift : c ++ b :: bits = (c ++ [b]) ++ bits := by simp
    rw [List.foldl_cons, packShift, ← byteOfBits_concat, hshift]
    by_cases hfull : c.length + 1 = 8
    · have hbyte : (c ++ [b]).length = 8 := by simpa using hfull
      have hrest := ih (c := []) (by decide) (sent ++ [byteOfBits (c ++ [b])])
      rw [if_pos hfull, packBytes_byte_append hbyte, List.length_append, hbyte, padCount_eight_add]
      exact hrest.trans (by simp)
    · have hrest := ih (c := c ++ [b]) (by simp; omega) sent
      rw [if_neg hfull]
      simpa using hrest

/-! ### The bit-stream shifter (R143) -/

/-- A register with bits left delivers its next one. -/
theorem streamBits_succ (n : Nat) (b : Byte) {k : Nat} (hk : k < 8) (bytes : List Byte) :
    streamBits (n + 1) ⟨b <<< k, 8 - k, bytes⟩ =
      byteBit b k :: streamBits n ⟨b <<< (k + 1), 8 - (k + 1), bytes⟩ := by
  obtain ⟨m, hm⟩ : ∃ m, 8 - k = m + 1 := ⟨7 - k, by omega⟩
  have hbit : (b <<< k).getLsbD 7 = byteBit b k := by
    rw [byteBit, BitVec.getLsbD_shiftLeft]
    simp [show ¬ 7 < k by omega]
  rw [← hbit, BitVec.shiftLeft_add, Nat.sub_add_eq, hm]
  rfl

/-- An empty register takes the next byte before it delivers a bit. -/
theorem streamBits_load (n : Nat) (acc b : Byte) (bytes : List Byte) :
    streamBits (n + 1) ⟨acc, 0, b :: bytes⟩ = streamBits (n + 1) ⟨b, 8, bytes⟩ := rfl

/-- With `8 - k` bits of `b` in the register, the shifter delivers the stream from bit `k` of `b` on. -/
theorem streamBits_eq (n : Nat) (b : Byte) {k : Nat} (hk : k ≤ 8) (bytes : List Byte)
    (hn : k + n ≤ 8 * (b :: bytes).length) :
    streamBits n ⟨b <<< k, 8 - k, bytes⟩ = (List.range n).map fun i => streamBit (b :: bytes) (k + i) := by
  induction n generalizing b k bytes with
  | zero => rfl
  | succ n ih =>
    have hdeliver (b : Byte) {k : Nat} (hk : k < 8) (bytes : List Byte) (hn : k + (n + 1) ≤ 8 * (b :: bytes).length) :
        streamBits (n + 1) ⟨b <<< k, 8 - k, bytes⟩ =
          (List.range (n + 1)).map fun i => streamBit (b :: bytes) (k + i) := by
      have hfirst : streamBit (b :: bytes) k = byteBit b k := by simpa using streamBit_byte (b :: bytes) 0 hk
      rw [streamBits_succ n b hk, ih b hk bytes (by omega), List.range_succ_eq_map, List.map_cons, List.map_map,
        Nat.add_zero, hfirst]
      simp [Function.comp_def, Nat.add_assoc, Nat.add_comm 1]
    obtain hlt | rfl := hk.lt_or_eq
    · exact hdeliver b hlt bytes hn
    · cases bytes with
      | nil => simp at hn
      | cons next rest =>
        simp only [streamBit_cons_add_eight, Nat.sub_self, streamBits_load]
        simpa using hdeliver next (k := 0) (by decide) rest (by simp at hn ⊢; omega)

theorem unpackByShifter_eq (bytes : List Byte) (pc : Nat) : unpackByShifter bytes pc = unpackBits bytes pc := by
  have hstream := streamBits_eq (8 * bytes.length - pc) 0 le_rfl bytes (by simp; omega)
  simp only [streamBit_cons_add_eight] at hstream
  exact hstream

/-- Settles O36: each shifter from its empty register. -/
theorem shiftersComputePackAndUnpack : Obligations.ShiftersComputePackAndUnpack :=
  ⟨fun bits => packFlush_foldl_packShift bits (c := []) (by decide) [], unpackByShifter_eq⟩

end Sys2Proof.Machine
end

section
/-! PROOFS. PACK and UNPACK, and each after the other (R136, R137, R140 to R142). -/

namespace Sys2Proof.Machine

/-! ### The live parts of BS and PAY, bit by bit -/

@[simp] theorem length_bitString (s : State) : s.bitString.length = s.data.bsLen.toNat := length_slice ..

@[simp] theorem length_payload (s : State) : s.payload.length = s.data.payLen.toNat := length_slice ..

theorem bitString_getD (s : State) (i : Nat) :
    s.bitString.getD i false = if i < s.data.bsLen.toNat then s.bsAt i else false := by
  rw [List.getD_eq_getElem?_getD, State.bitString, getElem?_slice, Nat.zero_add]
  split <;> rfl

theorem streamBit_payload {s : State} {i : Nat} (hi : i / 8 < s.data.payLen.toNat) :
    streamBit s.payload i = byteBit (s.payAt (i / 8)) (i % 8) := by
  rw [streamBit, List.getD_eq_getElem?_getD, State.payload, getElem?_slice, if_pos hi, Nat.zero_add, Option.getD_some]

theorem bsLen_eq_of_bitString_eq {s u : State} (h : u.bitString = s.bitString) : u.data.bsLen = s.data.bsLen := by
  have hlen := congrArg List.length h
  rw [length_bitString, length_bitString] at hlen
  exact BitVec.eq_of_toNat_eq hlen

/-! ### PACK (R136, R137) -/

/-- The writes of a PACK that succeeds (R136). -/
def storePayload (s : State) : State :=
  { s with
    pay   := s.pay.writeRange 0 (packBytes s.bitString)
    data  := { s.data with
      payLen := BitVec.ofNat 32 (packBytes s.bitString).length, pad := BitVec.ofNat 3 (padCount s.data.bsLen.toNat) }
    valid := { s.valid with pay := true } }

/-- Where a PACK that succeeds leaves the machine. -/
def packed (s : State) : State := (storePayload (s.setStage 0x06)).complete none

theorem packBody_of_bits {s : State} (hvalid : s.valid.bs = true) (hlen : s.data.bsLen.toNat ≤ s.par.bsCap) :
    packBody s = .done (storePayload s) :=
  (require_of hvalid).trans (within_of hlen)

theorem packBody_noBits {s : State} (h : s.valid.bs = false) : packBody s = .raise .sequenceError :=
  require_of_not (by simp [h])

theorem exec_pack_of_bits {s : State} (hvalid : s.valid.bs = true) (hlen : s.data.bsLen.toNat ≤ s.par.bsCap) :
    exec .pack s = .next (packed s) :=
  conclude_runPrimitive_next.2 (.inl ⟨_, packBody_of_bits (s := s.setStage 0x06) hvalid hlen, rfl⟩)

theorem exec_pack_noBits {s : State} (h : s.valid.bs = false) :
    exec .pack s = .next (errorEntry 0x06 dropPayload .sequenceError s) :=
  conclude_runPrimitive_next.2 (.inr ⟨_, packBody_noBits h, rfl⟩)

/-- PAY after a success: the packed bytes from element 0 on, and nothing beyond them. -/
theorem payAt_packed (s : State) (j : Nat) :
    (packed s).payAt j =
      if j < (s.data.bsLen.toNat + 7) / 8 then (packBytes s.bitString).getD j 0 else s.payAt j := by
  have hwritten : (packed s).pay = s.pay.writeRange 0 (packBytes s.bitString) := rfl
  rw [payAt_writeRange hwritten rfl]
  simp

theorem packed_reports (s : State) :
    reports s (packed s) 0x06 none (fun sp k => sp = .pay ∧ k < (s.data.bsLen.toNat + 7) / 8) := by
  refine ⟨⟨rfl, rfl, rfl, rfl⟩, ⟨rfl, rfl, rfl, rfl, rfl, rfl, rfl, rfl, rfl⟩, fun sp i hi => ?_⟩
  cases sp with
  | pay => exact (payAt_packed s i).trans (if_neg fun h => hi ⟨rfl, h⟩)
  | freq | node | code | treeb | bs | inp | out => rfl

@[simp] theorem packed_payLen (s : State) : (packed s).data.payLen.toNat = (s.data.bsLen.toNat + 7) / 8 := by
  have hlen := s.data.bsLen.isLt
  show (BitVec.ofNat 32 (packBytes s.bitString).length).toNat = _
  rw [BitVec.toNat_ofNat, length_packBytes, length_bitString]
  omega

@[simp] theorem packed_pad (s : State) : (packed s).data.pad.toNat = padCount s.data.bsLen.toNat := by
  show (BitVec.ofNat 3 (padCount s.data.bsLen.toNat)).toNat = _
  rw [BitVec.toNat_ofNat, padCount]
  omega

@[simp] theorem packed_payload (s : State) : (packed s).payload = packBytes s.bitString := by
  have hlen : (packed s).data.payLen.toNat = (packBytes s.bitString).length := by simp
  rw [State.payload, hlen]
  refine slice_eq _ 0 _ fun i hi => ?_
  rw [Nat.zero_add, payAt_packed, if_pos (by simpa using hi), List.getD_eq_getElem _ _ hi]

/-- Each bit of PAY after a success is the bit of BS at its place in the stream, or filler (R137). -/
theorem byteBit_payAt_packed (s : State) {j k : Nat} (hj : j < (s.data.bsLen.toNat + 7) / 8) (hk : k < 8) :
    byteBit ((packed s).payAt j) k = s.bitString.getD (8 * j + k) false := by
  rw [payAt_packed, if_pos hj, ← streamBit_byte _ _ hk, streamBit_packBytes]

/-- Settles O33: the pack function's bits are those of the bit-string, and its bytes fit PAY_LEN. -/
theorem packFillsBytesMostSignificantFirst : Obligations.PackFillsBytesMostSignificantFirst := by
  refine fun s => ⟨fun _ hvalid hlen => ?packed, fun hvalid => ?fails⟩
  case fails => exact ⟨_, exec_pack_noBits hvalid, errorEntry_failsWith _ rfl rfl⟩
  case packed =>
    have hwhole := eight_mul_length_packBytes s.bitString
    rw [length_packBytes, length_bitString] at hwhole
    refine ⟨_, exec_pack_of_bits hvalid hlen, packed_reports s, rfl, rfl, rfl, packed_payLen s, packed_pad s, ?_,
      fun j k hj hk => ?_⟩
    · rw [packed_payLen, packed_pad, hwhole]
    · exact (byteBit_payAt_packed s hj hk).trans (bitString_getD s _)

/-! ### UNPACK (R140, R141) -/

/-- The writes of an UNPACK that succeeds (R140). -/
def storeBits (s : State) : State :=
  { s with
    bs    := s.bs.writeRange 0 (unpackBits s.payload s.data.pad.toNat)
    data  := { s.data with bsLen := BitVec.ofNat 32 (unpackBits s.payload s.data.pad.toNat).length }
    valid := { s.valid with bs := true } }

/-- Where an UNPACK that succeeds leaves the machine. -/
def unpacked (s : State) : State := (storeBits (s.setStage 0x0A)).complete none

theorem unpackBody_of_payload {s : State} (hvalid : s.valid.pay = true)
    (hlen : s.data.payLen.toNat ≤ s.par.payCap) : unpackBody s = .done (storeBits s) :=
  (require_of hvalid).trans (within_of hlen)

theorem unpackBody_noPayload {s : State} (h : s.valid.pay = false) : unpackBody s = .raise .sequenceError :=
  require_of_not (by simp [h])

theorem exec_unpack_of_payload {s : State} (hvalid : s.valid.pay = true)
    (hlen : s.data.payLen.toNat ≤ s.par.payCap) : exec .unpack s = .next (unpacked s) :=
  conclude_runPrimitive_next.2 (.inl ⟨_, unpackBody_of_payload (s := s.setStage 0x0A) hvalid hlen, rfl⟩)

theorem exec_unpack_noPayload {s : State} (h : s.valid.pay = false) :
    exec .unpack s = .next (errorEntry 0x0A dropBits .sequenceError s) :=
  conclude_runPrimitive_next.2 (.inr ⟨_, unpackBody_noPayload h, rfl⟩)

/-- BS after a success: the payload's bits less the filler from element 0 on, and nothing beyond them. -/
theorem bsAt_unpacked (s : State) (i : Nat) :
    (unpacked s).bsAt i =
      if i < 8 * s.data.payLen.toNat - s.data.pad.toNat then streamBit s.payload i else s.bsAt i := by
  have hwritten : (unpacked s).bs = s.bs.writeRange 0 (unpackBits s.payload s.data.pad.toNat) := rfl
  rw [bsAt_writeRange hwritten rfl, Nat.sub_zero, unpackBits_getD, length_unpackBits, length_payload, Nat.zero_add]
  simp only [Nat.zero_le, true_and]
  split <;> rfl

theorem unpacked_reports (s : State) :
    reports s (unpacked s) 0x0A none
      (fun sp k => sp = .bs ∧ k < 8 * s.data.payLen.toNat - s.data.pad.toNat) := by
  refine ⟨⟨rfl, rfl, rfl, rfl⟩, ⟨rfl, rfl, rfl, rfl, rfl, rfl, rfl, rfl, rfl⟩, fun sp i hi => ?_⟩
  cases sp with
  | bs => exact (bsAt_unpacked s i).trans (if_neg fun h => hi ⟨rfl, h⟩)
  | freq | node | code | treeb | pay | inp | out => rfl

/-- The bits of a payload that fits PAY can be counted in BS_LEN (R4). -/
theorem unpacked_bsLen {s : State} (hwf : s.par.wf = true) (hlen : s.data.payLen.toNat ≤ s.par.payCap) :
    (unpacked s).data.bsLen.toNat = 8 * s.data.payLen.toNat - s.data.pad.toNat := by
  obtain ⟨-, hcap, -, -⟩ := of_decide_eq_true hwf
  rw [Params.payCap] at hlen
  show (BitVec.ofNat 32 (unpackBits s.payload s.data.pad.toNat).length).toNat = _
  rw [BitVec.toNat_ofNat, length_unpackBits, length_payload]
  omega

theorem unpacked_bitString {s : State} (hwf : s.par.wf = true) (hlen : s.data.payLen.toNat ≤ s.par.payCap) :
    (unpacked s).bitString = unpackBits s.payload s.data.pad.toNat := by
  have hbits : (unpacked s).data.bsLen.toNat = (unpackBits s.payload s.data.pad.toNat).length := by
    rw [unpacked_bsLen hwf hlen, length_unpackBits, length_payload]
  rw [State.bitString, hbits]
  refine slice_eq _ 0 _ fun i hi => ?_
  have hin : i < 8 * s.payload.length - s.data.pad.toNat := by simpa using hi
  rw [Nat.zero_add, ← List.getD_eq_getElem _ false hi, unpackBits_getD, if_pos hin, bsAt_unpacked,
    if_pos (by simpa using hin)]

/-- Where an empty payload has no filler, no payload has more filler than bits (R34 item 6). -/
theorem pad_le_payloadBits {d : DataRegs} (h : d.payLen = 0 → d.pad = 0) : d.pad.toNat ≤ 8 * d.payLen.toNat := by
  have hpad := d.pad.isLt
  by_cases hzero : d.payLen = 0
  · simp [h hzero]
  · have hpos : d.payLen.toNat ≠ 0 := fun h0 => hzero (BitVec.eq_of_toNat_eq h0)
    omega

/-- Settles O34: the bits are the stream of the payload, and as many as BS_LEN counts. -/
theorem unpackDropsThePaddingBits : Obligations.UnpackDropsThePaddingBits := by
  refine fun s => ⟨fun hwf hvalid hlen hpad => ?unpacked, fun hvalid => ?fails⟩
  case fails => exact ⟨_, exec_unpack_noPayload hvalid, errorEntry_failsWith _ rfl rfl⟩
  case unpacked =>
    refine ⟨_, exec_unpack_of_payload hvalid hlen, unpacked_reports s, rfl, rfl, rfl, ?_, fun i hi => ?_⟩
    · rw [unpacked_bsLen hwf hlen, Nat.sub_add_cancel (pad_le_payloadBits hpad)]
    · rw [bsAt_unpacked, if_pos hi, streamBit_payload (by omega)]
      rfl

/-! ### Each after the other (R142) -/

/-- The bytes of a bit-string that fits BS fit PAY (R5). -/
theorem packed_payLen_le {s : State} (hlen : s.data.bsLen.toNat ≤ s.par.bsCap) :
    (packed s).data.payLen.toNat ≤ s.par.payCap := by
  rw [Params.bsCap] at hlen
  rw [packed_payLen, Params.payCap]
  omega

/-- The bits of a payload that fits PAY fit BS (R5). -/
theorem unpacked_bsLen_le {s : State} (hwf : s.par.wf = true) (hlen : s.data.payLen.toNat ≤ s.par.payCap) :
    (unpacked s).data.bsLen.toNat ≤ s.par.bsCap := by
  rw [unpacked_bsLen hwf hlen, Params.bsCap]
  rw [Params.payCap] at hlen
  omega

theorem unpacked_packed_bitString {s : State} (hwf : s.par.wf = true) (hlen : s.data.bsLen.toNat ≤ s.par.bsCap) :
    (unpacked (packed s)).bitString = s.bitString := by
  rw [unpacked_bitString (s := packed s) hwf (packed_payLen_le hlen), packed_payload, packed_pad, ← length_bitString,
    unpackBits_packBytes]

section

variable {s : State} (hwf : s.par.wf = true) (hlen : s.data.payLen.toNat ≤ s.par.payCap)

include hwf hlen

/-- The filler takes the last places of the stream: the low bits of the last byte. -/
theorem getLsbD_payAt_packed_unpacked {j k : Nat} (hj : j < s.data.payLen.toNat) (hk : k < 8) :
    ((packed (unpacked s)).payAt j).getLsbD k =
      if j + 1 = s.data.payLen.toNat ∧ k < s.data.pad.toNat then false else (s.payAt j).getLsbD k := by
  have hlt := s.data.pad.isLt
  have hpos : 7 - (7 - k) = k := by omega
  obtain ⟨hbyte, hplace⟩ : (8 * j + (7 - k)) / 8 = j ∧ (8 * j + (7 - k)) % 8 = 7 - k := by omega
  have hbytes : j < ((unpacked s).data.bsLen.toNat + 7) / 8 := by rw [unpacked_bsLen hwf hlen]; omega
  have hbit := byteBit_payAt_packed (unpacked s) hbytes (show 7 - k < 8 by omega)
  rw [unpacked_bitString hwf hlen, unpackBits_getD, length_payload, streamBit_payload (by omega), hbyte, hplace,
    byteBit, byteBit, hpos] at hbit
  rw [hbit]
  by_cases hfiller : j + 1 = s.data.payLen.toNat ∧ k < s.data.pad.toNat
  · rw [if_pos hfiller, if_neg (by omega)]
  · rw [if_neg hfiller, if_pos (by omega)]

variable (hpad : s.data.payLen = 0 → s.data.pad = 0)

include hpad

theorem packed_unpacked_payLen : (packed (unpacked s)).data.payLen = s.data.payLen := by
  have hbits := pad_le_payloadBits hpad
  have hlt := s.data.pad.isLt
  refine BitVec.eq_of_toNat_eq ?_
  rw [packed_payLen, unpacked_bsLen hwf hlen]
  omega

theorem packed_unpacked_pad : (packed (unpacked s)).data.pad = s.data.pad := by
  have hbits := pad_le_payloadBits hpad
  have hlt := s.data.pad.isLt
  refine BitVec.eq_of_toNat_eq ?_
  rw [packed_pad, unpacked_bsLen hwf hlen, padCount]
  omega

end

/-- Settles O35: what PACK leaves is the payload of the same bits, and what UNPACK leaves packs into the same bytes with
zeros for filler. -/
theorem packAndUnpackRoundTrip : Obligations.PackAndUnpackRoundTrip := by
  refine fun s hwf => ⟨fun hvalid hlen => ?packFirst, fun hvalid hlen hpad => ?unpackFirst⟩
  case packFirst =>
    have hback := unpacked_packed_bitString hwf hlen
    exact ⟨_, _, exec_pack_of_bits hvalid hlen, exec_unpack_of_payload (s := packed s) rfl (packed_payLen_le hlen),
      rfl, bsLen_eq_of_bitString_eq hback, hback⟩
  case unpackFirst =>
    exact ⟨_, _, exec_unpack_of_payload hvalid hlen,
      exec_pack_of_bits (s := unpacked s) rfl (unpacked_bsLen_le hwf hlen), rfl,
      packed_unpacked_payLen hwf hlen hpad, packed_unpacked_pad hwf hlen hpad,
      fun j k hj hk => getLsbD_payAt_packed_unpacked hwf hlen hj hk⟩

end Sys2Proof.Machine
end

section
/-! PROOFS. The bytes of a container, field by field, and its counts as IN holds them (R150, R151). -/

namespace Sys2Proof.Machine

/-! ### Little-endian counts -/

/-- Two runs are alike exactly when they read alike element by element. -/
theorem slice_eq_slice_iff {β : Type} {f g : Nat → β} {a b n : Nat} :
    slice f a n = slice g b n ↔ ∀ i, i < n → f (a + i) = g (b + i) := by
  simp only [slice, List.map_inj_left, List.mem_range]

/-- Byte `k` of a count, byte 0 the least significant. -/
def countByte (v k : Nat) : Byte := BitVec.ofNat 8 (v / 256 ^ k)

theorem le32_eq_slice (v : Nat) : le32 v = slice (countByte v) 0 4 := by
  have hmod (x : Nat) : BitVec.ofNat 8 (x % 256) = BitVec.ofNat 8 x :=
    BitVec.eq_of_toNat_eq (by simp only [BitVec.toNat_ofNat]; omega)
  simp [le32, slice, countByte, List.range_succ, hmod]

/-- Each byte of a count where it stands. -/
theorem toNat_of_slice_eq_le32 {read : Nat → Byte} {a v k : Nat} (h : slice read a 4 = le32 v) (hk : k < 4) :
    (read (a + k)).toNat = v / 256 ^ k % 256 := by
  rw [le32_eq_slice, slice_eq_slice_iff] at h
  rw [h k hk, Nat.zero_add, countByte, BitVec.toNat_ofNat]

@[simp] theorem length_le32 (v : Nat) : (le32 v).length = 4 := rfl

/-- Four bytes of IN are the count that they are read as. -/
theorem slice_inAt_eq_le32 (s : State) (a : Nat) : slice s.inAt a 4 = le32 (s.inWord a) := by
  have h0 := (s.inAt a).isLt
  have h1 := (s.inAt (a + 1)).isLt
  have h2 := (s.inAt (a + 2)).isLt
  have h3 := (s.inAt (a + 3)).isLt
  have hbyte (b : Byte) {x : Nat} (h : x % 256 = b.toNat) : b = BitVec.ofNat 8 x :=
    BitVec.eq_of_toNat_eq (by rw [BitVec.toNat_ofNat]; exact h.symm)
  show [s.inAt a, s.inAt (a + 1), s.inAt (a + 2), s.inAt (a + 3)] = le32 (s.inWord a)
  rw [le32, ← hbyte (s.inAt a), ← hbyte (s.inAt (a + 1)), ← hbyte (s.inAt (a + 2)), ← hbyte (s.inAt (a + 3))]
  all_goals rw [State.inWord]; omega

/-- A count that fits four bytes is read back from them. -/
theorem le32_inj {v w : Nat} (hv : v < 2 ^ 32) (hw : w < 2 ^ 32) (h : le32 v = le32 w) : v = w := by
  simp only [le32, List.cons.injEq, ← BitVec.toNat_inj, BitVec.toNat_ofNat] at h
  omega

theorem inWord_lt (s : State) (a : Nat) : s.inWord a < 2 ^ 32 := by
  have h0 := (s.inAt a).isLt
  have h1 := (s.inAt (a + 1)).isLt
  have h2 := (s.inAt (a + 2)).isLt
  have h3 := (s.inAt (a + 3)).isLt
  rw [State.inWord]
  omega

theorem inWord_of_slice {s : State} {a v : Nat} (hv : v < 2 ^ 32) (h : slice s.inAt a 4 = le32 v) : s.inWord a = v :=
  le32_inj (inWord_lt s a) hv ((slice_inAt_eq_le32 s a).symm.trans h)

/-! ### The fields of a container -/

@[simp] theorem length_input (s : State) : s.input.length = s.data.inLen.toNat := length_slice ..

@[simp] theorem length_output (s : State) : s.output.length = s.data.outLen.toNat := length_slice ..

@[simp] theorem length_treeBytes (s : State) : s.treeBytes.length = s.data.treeLen.toNat := length_slice ..

@[simp] theorem length_cont (tb : List Byte) (pc : Nat) (pay : List Byte) :
    (cont tb pc pay).length = 12 + tb.length + pay.length := by
  simp only [cont, List.length_append, length_le32]
  omega

/-- From index 0 on, the five fields of a container stand one after the other. -/
structure HoldsFields (read : Nat → Byte) (tb : List Byte) (pc : Nat) (pay : List Byte) : Prop where
  treeLen : slice read 0 4 = le32 tb.length
  tree    : slice read 4 tb.length = tb
  pad     : slice read (4 + tb.length) 4 = le32 pc
  payLen  : slice read (8 + tb.length) 4 = le32 pay.length
  payload : slice read (12 + tb.length) pay.length = pay

theorem slice_split_fields (read : Nat → Byte) (T P : Nat) :
    slice read 0 (12 + T + P) =
      slice read 0 4 ++ slice read 4 T ++ slice read (4 + T) 4 ++ slice read (8 + T) 4 ++ slice read (12 + T) P := by
  have hlen : 12 + T + P = 4 + T + 4 + 4 + P := by omega
  have hpayLen : 4 + T + 4 = 8 + T := by omega
  have hpay : 8 + T + 4 = 12 + T := by omega
  rw [hlen, slice_append, slice_append, slice_append, slice_append]
  simp only [Nat.zero_add, hpayLen, hpay]

/-- The bytes are those of a container exactly when each field stands at its offset. -/
theorem slice_eq_cont_iff {read : Nat → Byte} {tb pay : List Byte} {pc : Nat} :
    slice read 0 (12 + tb.length + pay.length) = cont tb pc pay ↔ HoldsFields read tb pc pay := by
  rw [slice_split_fields, cont]
  refine ⟨fun h => ?fields, fun ⟨htreeLen, htree, hpad, hpayLen, hpayload⟩ => ?bytes⟩
  case fields =>
    obtain ⟨h, hpayload⟩ := List.append_inj' h (by simp)
    obtain ⟨h, hpayLen⟩ := List.append_inj' h (by simp)
    obtain ⟨h, hpad⟩ := List.append_inj' h (by simp)
    obtain ⟨htreeLen, htree⟩ := List.append_inj' h (by simp)
    exact ⟨htreeLen, htree, hpad, hpayLen, hpayload⟩
  case bytes => rw [htreeLen, htree, hpad, hpayLen, hpayload]

/-! ### Bodies and verdicts -/

/-- A test that raises the error of the verdict's first branch, where the rest of the body follows the rest of the
verdict. -/
theorem require_eq_verdict {c p : Prop} [Decidable c] [Decidable p] {e : ErrKind} {k : Unit → Effect}
    {v : Option ErrKind} {d : Effect} (hp : p ↔ ¬ c) (h : c → k () = v.elim d .raise) :
    require c e k = (if p then some e else v).elim d .raise := by
  by_cases hc : c
  · rw [require_of hc, if_neg (by simpa [hp] using hc), h hc]
  · rw [require_of_not hc, if_pos (hp.2 hc), Option.elim_some]

/-- Two tests in a row that raise the same error are one. -/
theorem require_require {c c' : Prop} [Decidable c] [Decidable c'] {e : ErrKind} {k : Unit → Effect} :
    require c e (fun _ => require c' e k) = require (c ∧ c') e k := by
  by_cases hc : c <;> simp [require, hc]

theorem verdictBranch_eq_none_iff {p : Prop} [Decidable p] {e : ErrKind} {v : Option ErrKind} :
    (if p then some e else v) = none ↔ ¬ p ∧ v = none := by
  by_cases hp : p <;> simp [hp]

/-- A body that follows its verdict ends well only where there is no verdict. -/
theorem verdict_elim_done {v : Option ErrKind} {d : Effect} {t : State} :
    v.elim d .raise = .done t ↔ v = none ∧ d = .done t := by
  cases v <;> simp

end Sys2Proof.Machine
end

section
/-! PROOFS. WRCONT and RDCONT, and each after the other (R152, R155, R157). -/

namespace Sys2Proof.Machine

/-! ### WRCONT (R152) -/

theorem wrcontVerdict_eq_none_iff {s : State} :
    wrcontVerdict s = none ↔
      s.valid.treeb = true ∧ s.valid.pay = true ∧ s.ctrl.dstOk = true ∧
        12 + s.data.treeLen.toNat + s.data.payLen.toNat ≤ s.par.outCap := by
  simp [wrcontVerdict, verdictBranch_eq_none_iff, and_assoc]

/-- The writes of a WRCONT that succeeds (R152). -/
def storeContainer (s : State) : State :=
  { s with
    out   := s.out.writeRange 0 (cont s.treeBytes s.data.pad.toNat s.payload)
    data  := { s.data with outLen := BitVec.ofNat 32 (12 + s.data.treeLen.toNat + s.data.payLen.toNat) }
    valid := { s.valid with out := true } }

/-- Where a WRCONT that succeeds leaves the machine. -/
def containerWritten (s : State) : State := (storeContainer (s.setStage 0x07)).complete none

/-- The body of WRCONT raises the error of its verdict, and stores the container where there is none. -/
theorem wrcontBody_eq (s : State) :
    wrcontBody s = (wrcontVerdict s).elim
      (within .treeb s.data.treeLen.toNat Config.treebCap fun _ =>
        within .pay s.data.payLen.toNat s.par.payCap fun _ => .done (storeContainer s)) .raise :=
  require_eq_verdict (by simp [imp_iff_not_or]) fun _ =>
    require_eq_verdict (by simp) fun _ => require_eq_verdict Nat.not_le.symm fun _ => rfl

theorem wrcontBody_of_verdict_none {s : State} (h : wrcontVerdict s = none) (htree : s.data.treeLen.toNat ≤ 767)
    (hpay : s.data.payLen.toNat ≤ s.par.payCap) : wrcontBody s = .done (storeContainer s) := by
  rw [wrcontBody_eq, h, Option.elim_none, within_of (show _ ≤ Config.treebCap from htree), within_of hpay]

theorem exec_wrcont_of_verdict_none {s : State} (h : wrcontVerdict s = none) (htree : s.data.treeLen.toNat ≤ 767)
    (hpay : s.data.payLen.toNat ≤ s.par.payCap) : exec .wrcont s = .next (containerWritten s) :=
  conclude_runPrimitive_next.2 (.inl ⟨_, wrcontBody_of_verdict_none (s := s.setStage 0x07) h htree hpay, rfl⟩)

theorem exec_wrcont_of_verdict_some {s : State} {e : ErrKind} (h : wrcontVerdict s = some e) :
    exec .wrcont s = .next (errorEntry 0x07 dropOutput e s) := by
  have hstage : wrcontVerdict (s.setStage 0x07) = some e := h
  exact conclude_runPrimitive_next.2 (.inr ⟨e, by rw [wrcontBody_eq, hstage]; rfl, rfl⟩)

/-- A WRCONT that succeeds has written the container. -/
theorem exec_wrcont_ok {s t : State} (h : exec .wrcont s = .next t) (hok : t.status.err = 0) :
    wrcontVerdict s = none ∧ s.data.treeLen.toNat ≤ 767 ∧ s.data.payLen.toNat ≤ s.par.payCap ∧
      t = containerWritten s := by
  obtain ⟨u, hbody, rfl⟩ | ⟨e, -, rfl⟩ := conclude_runPrimitive_next.1 h
  · rw [wrcontBody_eq, verdict_elim_done, within_done, within_done] at hbody
    obtain ⟨hnone, htree, hpay, hdone⟩ := hbody
    obtain rfl := Effect.done.inj hdone
    exact ⟨hnone, htree, hpay, rfl⟩
  · rw [errorEntry_status] at hok
    exact absurd hok (errKind_code_ne_zero e)

/-- OUT after a success: the container from element 0 on, and nothing beyond it. -/
theorem outAt_containerWritten (s : State) (i : Nat) :
    (containerWritten s).outAt i =
      if i < 12 + s.data.treeLen.toNat + s.data.payLen.toNat then
        (cont s.treeBytes s.data.pad.toNat s.payload).getD i 0
      else s.outAt i := by
  have hwritten :
    (containerWritten s).out = s.out.writeRange 0 (cont s.treeBytes s.data.pad.toNat s.payload) := rfl
  rw [outAt_writeRange hwritten rfl]
  simp

theorem containerWritten_reports (s : State) :
    reports s (containerWritten s) 0x07 none
      (fun sp k => sp = .out ∧ k < 12 + s.data.treeLen.toNat + s.data.payLen.toNat) := by
  refine ⟨⟨rfl, rfl, rfl, rfl⟩, ⟨rfl, rfl, rfl, rfl, rfl, rfl, rfl, rfl, rfl⟩, fun sp i hi => ?_⟩
  cases sp with
  | out => exact (outAt_containerWritten s i).trans (if_neg fun h => hi ⟨rfl, h⟩)
  | freq | node | code | treeb | pay | bs | inp => rfl

theorem containerWritten_outLen {s : State} (h : 12 + s.data.treeLen.toNat + s.data.payLen.toNat < 2 ^ 32) :
    (containerWritten s).data.outLen.toNat = 12 + s.data.treeLen.toNat + s.data.payLen.toNat :=
  Nat.mod_eq_of_lt h

theorem containerWritten_slice (s : State) :
    slice (containerWritten s).outAt 0 (12 + s.treeBytes.length + s.payload.length) =
      cont s.treeBytes s.data.pad.toNat s.payload := by
  rw [← length_cont _ s.data.pad.toNat]
  refine slice_eq _ 0 _ fun i hi => ?_
  rw [Nat.zero_add, outAt_containerWritten, if_pos (by simpa using hi), List.getD_eq_getElem _ _ hi]

theorem containerWritten_output {s : State} (h : 12 + s.data.treeLen.toNat + s.data.payLen.toNat < 2 ^ 32) :
    (containerWritten s).output = cont s.treeBytes s.data.pad.toNat s.payload := by
  have hslice := containerWritten_slice s
  rw [length_treeBytes, length_payload] at hslice
  rw [State.output, containerWritten_outLen h, hslice]

/-- Settles O37: the verdict decides between the container stored, whose fields stand at their offsets, and the error
entry. -/
theorem wrcontWritesTheContainer : Obligations.WrcontWritesTheContainer := by
  refine fun s => ⟨fun hwf hnone htree hpay => ?written, fun e he => ?fails⟩
  case fails => exact ⟨_, exec_wrcont_of_verdict_some he, errorEntry_failsWith e rfl rfl⟩
  case written =>
    obtain ⟨-, -, -, hroom⟩ := wrcontVerdict_eq_none_iff.1 hnone
    obtain ⟨htreeLen, htreeBytes, hpad, hpayLen, hpayload⟩ := slice_eq_cont_iff.1 (containerWritten_slice s)
    rw [length_treeBytes] at htreeLen htreeBytes hpad hpayLen hpayload
    rw [length_payload] at hpayLen hpayload
    refine ⟨_, exec_wrcont_of_verdict_none hnone htree hpay, containerWritten_reports s, rfl, rfl, rfl,
      containerWritten_outLen (hroom.trans_lt (capacities_fit hwf).2),
      fun k hk => ⟨?_, toNat_of_slice_eq_le32 hpad hk, toNat_of_slice_eq_le32 hpayLen hk⟩, fun i hi => ?_,
      fun i hi => ?_⟩
    · simpa using toNat_of_slice_eq_le32 htreeLen hk
    · simpa using slice_eq_slice_iff.1 htreeBytes i hi
    · simpa using slice_eq_slice_iff.1 hpayload i hi

/-! ### RDCONT (R155) -/

/-- The six tests say that IN holds a container with counts in their ranges. -/
theorem rdcontVerdict_eq_none_iff {s : State} :
    rdcontVerdict s = none ↔
      s.ctrl.srcOk = true ∧ s.data.inLen.toNat ≤ s.par.inCap ∧
        12 + s.inWord 0 + s.inWord (8 + s.inWord 0) = s.data.inLen.toNat ∧ s.inWord (4 + s.inWord 0) ≤ 7 ∧
        1 ≤ s.inWord 0 ∧ 1 ≤ s.inWord (8 + s.inWord 0) ∧ s.inWord 0 ≤ 767 := by
  simp only [rdcontVerdict, verdictBranch_eq_none_iff, Bool.not_eq_false, and_true]
  exact and_congr_right fun _ => by omega

/-- The writes of an RDCONT that succeeds (R155). -/
def storeFields (s : State) : State :=
  { s with
    treeb := s.treeb.writeRange 0 (slice s.inAt 4 (s.inWord 0))
    pay   := s.pay.writeRange 0 (slice s.inAt (12 + s.inWord 0) (s.inWord (8 + s.inWord 0)))
    data  := { s.data with
      treeLen := BitVec.ofNat 10 (s.inWord 0), pad := BitVec.ofNat 3 (s.inWord (4 + s.inWord 0)),
      payLen := BitVec.ofNat 32 (s.inWord (8 + s.inWord 0)) }
    valid := { s.valid with treeb := true, pay := true } }

/-- Where an RDCONT that succeeds leaves the machine. -/
def containerRead (s : State) : State := (storeFields (s.setStage 0x08)).complete none

/-- The body of RDCONT raises the error of its verdict, and stores the fields where there is none. -/
theorem rdcontBody_eq (s : State) : rdcontBody s = (rdcontVerdict s).elim (.done (storeFields s)) .raise := by
  refine require_eq_verdict (by simp) fun _ => require_eq_verdict Nat.not_le.symm fun _ => ?_
  simp only [require_require]
  exact require_eq_verdict (by omega) fun _ => require_eq_verdict Nat.not_le.symm fun _ => rfl

theorem exec_rdcont_of_verdict_none {s : State} (h : rdcontVerdict s = none) :
    exec .rdcont s = .next (containerRead s) := by
  have hstage : rdcontVerdict (s.setStage 0x08) = none := h
  exact conclude_runPrimitive_next.2 (.inl ⟨_, by rw [rdcontBody_eq, hstage]; rfl, rfl⟩)

theorem exec_rdcont_of_verdict_some {s : State} {e : ErrKind} (h : rdcontVerdict s = some e) :
    exec .rdcont s = .next (errorEntry 0x08 dropContainer e s) := by
  have hstage : rdcontVerdict (s.setStage 0x08) = some e := h
  exact conclude_runPrimitive_next.2 (.inr ⟨e, by rw [rdcontBody_eq, hstage]; rfl, rfl⟩)

/-- An RDCONT that succeeds has read the container. -/
theorem exec_rdcont_ok {s t : State} (h : exec .rdcont s = .next t) (hok : t.status.err = 0) :
    rdcontVerdict s = none ∧ t = containerRead s := by
  cases hverdict : rdcontVerdict s with
  | none =>
    rw [exec_rdcont_of_verdict_none hverdict] at h
    cases h
    exact ⟨rfl, rfl⟩
  | some e =>
    rw [exec_rdcont_of_verdict_some hverdict] at h
    cases h
    exact absurd hok (errKind_code_ne_zero e)

/-- TREEB after a success: the tree-bytes of the container, and nothing beyond them. -/
theorem treebAt_containerRead (s : State) (i : Nat) :
    (containerRead s).treebAt i = if i < s.inWord 0 then s.inAt (4 + i) else s.treebAt i := by
  have hwritten : (containerRead s).treeb = s.treeb.writeRange 0 (slice s.inAt 4 (s.inWord 0)) := rfl
  rw [treebAt_writeRange hwritten rfl, List.getD_eq_getElem?_getD, getElem?_slice]
  simp only [length_slice, Nat.zero_le, true_and, Nat.zero_add, Nat.sub_zero]
  split <;> rfl

/-- PAY after a success: the payload of the container, and nothing beyond it. -/
theorem payAt_containerRead (s : State) (i : Nat) :
    (containerRead s).payAt i =
      if i < s.inWord (8 + s.inWord 0) then s.inAt (12 + s.inWord 0 + i) else s.payAt i := by
  have hwritten : (containerRead s).pay =
    s.pay.writeRange 0 (slice s.inAt (12 + s.inWord 0) (s.inWord (8 + s.inWord 0))) := rfl
  rw [payAt_writeRange hwritten rfl, List.getD_eq_getElem?_getD, getElem?_slice]
  simp only [length_slice, Nat.zero_le, true_and, Nat.zero_add, Nat.sub_zero]
  split <;> rfl

theorem containerRead_reports (s : State) :
    reports s (containerRead s) 0x08 none
      (fun sp k => (sp = .treeb ∧ k < s.inWord 0) ∨ (sp = .pay ∧ k < s.inWord (8 + s.inWord 0))) := by
  refine ⟨⟨rfl, rfl, rfl, rfl⟩, ⟨rfl, rfl, rfl, rfl, rfl, rfl, rfl, rfl, rfl⟩, fun sp i hi => ?_⟩
  cases sp with
  | treeb => exact (treebAt_containerRead s i).trans (if_neg fun h => hi (.inl ⟨rfl, h⟩))
  | pay => exact (payAt_containerRead s i).trans (if_neg fun h => hi (.inr ⟨rfl, h⟩))
  | freq | node | code | bs | inp | out => rfl

/-- Each count fits its register (R17). -/
theorem containerRead_counts {s : State} (h : rdcontVerdict s = none) :
    (containerRead s).data.treeLen.toNat = s.inWord 0 ∧
      (containerRead s).data.pad.toNat = s.inWord (4 + s.inWord 0) ∧
      (containerRead s).data.payLen.toNat = s.inWord (8 + s.inWord 0) := by
  obtain ⟨-, -, -, hpad, -, -, htree⟩ := rdcontVerdict_eq_none_iff.1 h
  exact ⟨Nat.mod_eq_of_lt (Nat.lt_of_le_of_lt htree (by decide)), Nat.mod_eq_of_lt (Nat.lt_succ_of_le hpad),
    Nat.mod_eq_of_lt (inWord_lt s _)⟩

theorem containerRead_treeBytes {s : State} (h : rdcontVerdict s = none) :
    (containerRead s).treeBytes = slice s.inAt 4 (s.inWord 0) := by
  obtain ⟨htreeLen, -, -⟩ := containerRead_counts h
  rw [State.treeBytes, htreeLen, slice_eq_slice_iff]
  intro i hi
  rw [Nat.zero_add, treebAt_containerRead, if_pos hi]

theorem containerRead_payload {s : State} (h : rdcontVerdict s = none) :
    (containerRead s).payload = slice s.inAt (12 + s.inWord 0) (s.inWord (8 + s.inWord 0)) := by
  obtain ⟨-, -, hpayLen⟩ := containerRead_counts h
  rw [State.payload, hpayLen, slice_eq_slice_iff]
  intro i hi
  rw [Nat.zero_add, payAt_containerRead, if_pos hi]

/-- Settles O38: the verdict decides between the fields stored and the error entry. -/
theorem rdcontReadsTheContainer : Obligations.RdcontReadsTheContainer := by
  refine fun s => ⟨fun hnone => ?read, fun e he => ?fails⟩
  case fails => exact ⟨_, exec_rdcont_of_verdict_some he, errorEntry_failsWith e rfl rfl⟩
  case read =>
    obtain ⟨htreeLen, hpad, hpayLen⟩ := containerRead_counts hnone
    exact ⟨_, exec_rdcont_of_verdict_none hnone, containerRead_reports s, rfl, rfl, rfl, htreeLen, hpad, hpayLen,
      fun i hi => (treebAt_containerRead s i).trans (if_pos hi),
      fun i hi => (payAt_containerRead s i).trans (if_pos hi)⟩

/-! ### Each after the other (R157) -/

theorem payLen_eq_of_payload_eq {s u : State} (h : u.payload = s.payload) : u.data.payLen = s.data.payLen := by
  have hlen := congrArg List.length h
  rw [length_payload, length_payload] at hlen
  exact BitVec.eq_of_toNat_eq hlen

/-- The counts of a container that stands in IN are read back. -/
theorem inWord_of_holdsFields {u : State} {tb pay : List Byte} {pc : Nat} (h : HoldsFields u.inAt tb pc pay)
    (htree : tb.length < 2 ^ 32) (hpad : pc < 2 ^ 32) (hpay : pay.length < 2 ^ 32) :
    u.inWord 0 = tb.length ∧ u.inWord (4 + tb.length) = pc ∧ u.inWord (8 + tb.length) = pay.length :=
  ⟨inWord_of_slice htree h.treeLen, inWord_of_slice hpad h.pad, inWord_of_slice hpay h.payLen⟩

/-- RDCONT reads the fields of any container with tree-bytes and a payload that its buffers hold. -/
theorem containerRead_of_input_eq_cont {u : State} {tb pay : List Byte} {pc : Nat} (hsrc : u.ctrl.srcOk = true)
    (hcap : u.data.inLen.toNat ≤ u.par.inCap) (hinput : u.input = cont tb pc pay) (htree : 1 ≤ tb.length)
    (htreeCap : tb.length ≤ 767) (hpad : pc ≤ 7) (hpay : 1 ≤ pay.length) :
    rdcontVerdict u = none ∧ (containerRead u).treeBytes = tb ∧ (containerRead u).data.pad.toNat = pc ∧
      (containerRead u).payload = pay := by
  have hlen : u.data.inLen.toNat = 12 + tb.length + pay.length := by
    rw [← length_input, hinput, length_cont]
  have hlt := u.data.inLen.isLt
  rw [State.input, hlen] at hinput
  have hfields := slice_eq_cont_iff.1 hinput
  obtain ⟨hT, hpc, hP⟩ := inWord_of_holdsFields hfields (by omega) (by omega) (by omega)
  have hnone : rdcontVerdict u = none := rdcontVerdict_eq_none_iff.2 ⟨hsrc, hcap, by rw [hT, hpc, hP]; omega⟩
  obtain ⟨-, hpadRead, -⟩ := containerRead_counts hnone
  rw [containerRead_treeBytes hnone, containerRead_payload hnone, hpadRead, hT, hpc, hP]
  exact ⟨hnone, hfields.tree, rfl, hfields.payload⟩

/-- What RDCONT accepts is the container of the fields that it reads. -/
theorem input_eq_cont_containerRead {s : State} (h : rdcontVerdict s = none) :
    s.input =
      cont (containerRead s).treeBytes (containerRead s).data.pad.toNat (containerRead s).payload := by
  obtain ⟨-, -, hlen, -⟩ := rdcontVerdict_eq_none_iff.1 h
  obtain ⟨-, hpad, -⟩ := containerRead_counts h
  have hfields : HoldsFields s.inAt (slice s.inAt 4 (s.inWord 0)) (s.inWord (4 + s.inWord 0))
      (slice s.inAt (12 + s.inWord 0) (s.inWord (8 + s.inWord 0))) := by
    constructor <;> simp only [length_slice, slice_inAt_eq_le32]
  have hcont := slice_eq_cont_iff.2 hfields
  rw [length_slice, length_slice, hlen] at hcont
  rw [containerRead_treeBytes h, containerRead_payload h, hpad]
  exact hcont

/-- What RDCONT has read can be written where the container fits OUT. -/
theorem wrcontVerdict_containerRead {s : State} (h : rdcontVerdict s = none) (hdst : s.ctrl.dstOk = true)
    (hroom : s.data.inLen.toNat ≤ s.par.outCap) : wrcontVerdict (containerRead s) = none := by
  obtain ⟨-, -, hlen, -⟩ := rdcontVerdict_eq_none_iff.1 h
  obtain ⟨htreeLen, -, hpayLen⟩ := containerRead_counts h
  refine wrcontVerdict_eq_none_iff.2 ⟨rfl, rfl, hdst, ?_⟩
  rw [htreeLen, hpayLen, hlen]
  exact hroom

/-- Settles O39: OUT holds the container of the fields written, which RDCONT reads back; and IN holds the container of
the fields read, which WRCONT writes. -/
theorem containerRoundTrip : Obligations.ContainerRoundTrip := by
  refine ⟨fun s t u hwf hexec hok htree hpay hpar hsrc hinLen hcap hcopy => ?fieldsBack,
    fun s t hexec hok hdst hroom => ?bytesBack⟩
  case fieldsBack =>
    obtain ⟨hnone, htreeCap, -, rfl⟩ := exec_wrcont_ok hexec hok
    obtain ⟨-, -, -, hroom⟩ := wrcontVerdict_eq_none_iff.1 hnone
    rw [containerWritten_output (hroom.trans_lt (capacities_fit hwf).2)] at hcopy
    have hpad := s.data.pad.isLt
    obtain ⟨hread, htreeBack, hpadBack, hpayBack⟩ := containerRead_of_input_eq_cont hsrc
      (by rwa [hinLen, hpar]) hcopy (by rwa [length_treeBytes]) (by rwa [length_treeBytes]) (by omega)
      (by rwa [length_payload])
    exact ⟨_, exec_rdcont_of_verdict_none hread, rfl, treeLen_eq_of_treeBytes_eq htreeBack,
      BitVec.eq_of_toNat_eq hpadBack, payLen_eq_of_payload_eq hpayBack, htreeBack, hpayBack⟩
  case bytesBack =>
    obtain ⟨hread, rfl⟩ := exec_rdcont_ok hexec hok
    obtain ⟨-, hcap, hlen, -, -, -, htreeCap⟩ := rdcontVerdict_eq_none_iff.1 hread
    obtain ⟨htreeLen, -, hpayLen⟩ := containerRead_counts hread
    have hlt := s.data.inLen.isLt
    have hback : (containerWritten (containerRead s)).output = s.input :=
      (containerWritten_output (by omega)).trans (input_eq_cont_containerRead hread).symm
    refine ⟨_, exec_wrcont_of_verdict_none (wrcontVerdict_containerRead hread hdst hroom) (by omega) ?_, rfl,
      BitVec.eq_of_toNat_eq ?_, hback⟩
    · show _ ≤ s.par.inCap
      omega
    · rw [← length_output, hback, length_input]

end Sys2Proof.Machine
end

section
/-! PROOFS. ENCODE concatenates the codes of the input (R165, R166). -/

namespace Sys2Proof.Machine

/-! ### The loop over the input bytes -/

@[simp] theorem length_codeBits (c : Code) : (codeBits c).length = c.len.toNat := by simp [codeBits]

theorem enc_cons (code : Byte → List Bool) (b : Byte) (bs : List Byte) : enc code (b :: bs) = code b ++ enc code bs :=
  List.flatMap_cons

theorem enc_concat (code : Byte → List Bool) (bs : List Byte) (b : Byte) :
    enc code (bs ++ [b]) = enc code bs ++ code b := by
  simp [enc]

section
variable {codeAt : Byte → Code} {bsCap : Nat} {bits : List Bool}

/-- A byte whose code stands in the table and fits BS appends its code. -/
theorem encodeLoop_cons_of_fits {b : Byte} {rest : List Byte} (hcode : (codeAt b).len ≠ 0)
    (hroom : bits.length + (codeBits (codeAt b)).length ≤ bsCap) :
    encodeLoop codeAt bsCap (b :: rest) bits = encodeLoop codeAt bsCap rest (bits ++ codeBits (codeAt b)) := by
  rw [length_codeBits] at hroom
  have hlen : (codeAt b).len.toNat ≠ 0 := fun h => hcode (BitVec.eq_of_toNat_eq h)
  rw [encodeLoop, if_neg hlen, if_neg (by omega)]

theorem encodeLoop_cons_noCode {b : Byte} {rest : List Byte} (hcode : (codeAt b).len = 0) :
    encodeLoop codeAt bsCap (b :: rest) bits = .error .sequenceError := by
  rw [encodeLoop, if_pos (by simp [hcode])]

theorem encodeLoop_cons_full {b : Byte} {rest : List Byte} (hcode : (codeAt b).len ≠ 0)
    (hfull : bsCap < bits.length + (codeBits (codeAt b)).length) :
    encodeLoop codeAt bsCap (b :: rest) bits = .error .bufferOverflow := by
  rw [length_codeBits] at hfull
  have hlen : (codeAt b).len.toNat ≠ 0 := fun h => hcode (BitVec.eq_of_toNat_eq h)
  rw [encodeLoop, if_neg hlen, if_pos hfull]

/-- The loop passes over bytes that have codes while these fit BS, and goes on with the codes appended. -/
theorem encodeLoop_append {before rest : List Byte} (hcodes : ∀ x ∈ before, (codeAt x).len ≠ 0)
    (hroom : bits.length + (enc (fun x => codeBits (codeAt x)) before).length ≤ bsCap) :
    encodeLoop codeAt bsCap (before ++ rest) bits =
      encodeLoop codeAt bsCap rest (bits ++ enc (fun x => codeBits (codeAt x)) before) := by
  induction before generalizing bits with
  | nil => simp [enc]
  | cons b before ih =>
    obtain ⟨hb, hbefore⟩ := List.forall_mem_cons.1 hcodes
    rw [enc_cons, List.length_append] at hroom
    rw [List.cons_append, encodeLoop_cons_of_fits hb (by omega),
      ih hbefore (by rw [List.length_append]; omega), enc_cons, List.append_assoc]

end

/-! ### The tests and the body -/

theorem encodeVerdict_eq_none_iff {s : State} :
    encodeVerdict s = none ↔
      s.valid.code = true ∧ s.ctrl.srcOk = true ∧ s.data.inLen.toNat ≤ s.par.inCap := by
  simp [encodeVerdict, verdictBranch_eq_none_iff]

/-- The code that CODE holds for a byte (R165). -/
def State.codeOfByte (s : State) (b : Byte) : List Bool := codeBits (s.codeAt b.toNat)

/-- The writes of an ENCODE that succeeds (R166). -/
def storeCodeBits (bits : List Bool) (s : State) : State :=
  { s with
    bs    := s.bs.writeRange 0 bits
    data  := { s.data with bsLen := BitVec.ofNat 32 bits.length }
    valid := { s.valid with bs := true } }

/-- What ENCODE makes of the end of its loop. -/
def encodeEnds (s : State) : Except ErrKind (List Bool) → Effect
  | .error e => .raise e
  | .ok bits => .done (storeCodeBits bits s)

/-- The body of ENCODE raises the error of its verdict, and ends as its loop does where there is none. -/
theorem encodeBody_eq (s : State) :
    encodeBody s = (encodeVerdict s).elim
      (encodeEnds s (encodeLoop (fun b => s.codeAt b.toNat) s.par.bsCap s.input [])) .raise :=
  require_eq_verdict (by simp) fun _ =>
    require_eq_verdict (by simp) fun _ => require_eq_verdict Nat.not_le.symm fun _ => rfl

/-! ### The command -/

/-- Where an ENCODE that succeeds leaves the machine. -/
def encoded (s : State) : State := (storeCodeBits (enc s.codeOfByte s.input) (s.setStage 0x04)).complete none

theorem exec_encode_of_verdict_some {s : State} {e : ErrKind} (h : encodeVerdict s = some e) :
    exec .encode s = .next (errorEntry 0x04 dropBits e s) := by
  have hstage : encodeVerdict (s.setStage 0x04) = some e := h
  exact conclude_runPrimitive_next.2 (.inr ⟨e, by rw [encodeBody_eq, hstage]; rfl, rfl⟩)

section
variable {s : State} (hnone : encodeVerdict s = none)
include hnone

theorem exec_encode_of_loop_error {e : ErrKind}
    (h : encodeLoop (fun b => s.codeAt b.toNat) s.par.bsCap s.input [] = .error e) :
    exec .encode s = .next (errorEntry 0x04 dropBits e s) := by
  have hstage : encodeVerdict (s.setStage 0x04) = none := hnone
  refine conclude_runPrimitive_next.2 (.inr ⟨e, ?_, rfl⟩)
  rw [encodeBody_eq, hstage]
  exact congrArg (encodeEnds (s.setStage 0x04)) h

theorem exec_encode_of_codes (hcodes : ∀ b ∈ s.input, (s.codeAt b.toNat).len ≠ 0)
    (hroom : (enc s.codeOfByte s.input).length ≤ s.par.bsCap) : exec .encode s = .next (encoded s) := by
  have hloop := encodeLoop_append (rest := []) hcodes (bits := []) ((Nat.zero_add _).trans_le hroom)
  rw [List.append_nil] at hloop
  have hstage : encodeVerdict (s.setStage 0x04) = none := hnone
  refine conclude_runPrimitive_next.2 (.inl ⟨_, ?_, rfl⟩)
  rw [encodeBody_eq, hstage]
  exact congrArg (encodeEnds (s.setStage 0x04)) hloop

/-- The first byte without a code, or whose code does not fit, decides between the two errors. -/
theorem exec_encode_of_misfit {before after : List Byte} {b : Byte} {e : ErrKind}
    (hinput : s.input = before ++ b :: after) (hcodes : ∀ x ∈ before, (s.codeAt x.toNat).len ≠ 0)
    (hroom : (enc s.codeOfByte before).length ≤ s.par.bsCap)
    (hmisfit : (s.codeAt b.toNat).len = 0 ∧ e = .sequenceError ∨
      (s.codeAt b.toNat).len ≠ 0 ∧ s.par.bsCap < (enc s.codeOfByte (before ++ [b])).length ∧ e = .bufferOverflow) :
    exec .encode s = .next (errorEntry 0x04 dropBits e s) := by
  have hbefore := encodeLoop_append (rest := b :: after) hcodes (bits := []) ((Nat.zero_add _).trans_le hroom)
  refine exec_encode_of_loop_error hnone (hinput ▸ hbefore.trans ?_)
  obtain ⟨hcode, rfl⟩ | ⟨hcode, hfull, rfl⟩ := hmisfit
  · exact encodeLoop_cons_noCode hcode
  · rw [enc_concat, List.length_append] at hfull
    exact encodeLoop_cons_full hcode hfull

end

/-- BS after a success: the codes of the input from element 0 on, and nothing beyond them. -/
theorem bsAt_encoded (s : State) (i : Nat) :
    (encoded s).bsAt i =
      if i < (enc s.codeOfByte s.input).length then (enc s.codeOfByte s.input).getD i false else s.bsAt i := by
  have hwritten : (encoded s).bs = s.bs.writeRange 0 (enc s.codeOfByte s.input) := rfl
  rw [bsAt_writeRange hwritten rfl]
  simp

theorem encoded_reports (s : State) :
    reports s (encoded s) 0x04 none (fun sp k => sp = .bs ∧ k < (enc s.codeOfByte s.input).length) := by
  refine ⟨⟨rfl, rfl, rfl, rfl⟩, ⟨rfl, rfl, rfl, rfl, rfl, rfl, rfl, rfl, rfl⟩, fun sp i hi => ?_⟩
  cases sp with
  | bs => exact (bsAt_encoded s i).trans (if_neg fun h => hi ⟨rfl, h⟩)
  | freq | node | code | treeb | pay | inp | out => rfl

/-- A bit-string that fits BS can be counted in BS_LEN (R4). -/
theorem bsCap_fits {p : Params} (h : p.wf = true) : p.bsCap < 2 ^ 32 := by
  obtain ⟨-, hcap, -, -⟩ := of_decide_eq_true h
  rw [Params.bsCap]
  omega

theorem encoded_bsLen {s : State} (h : (enc s.codeOfByte s.input).length < 2 ^ 32) :
    (encoded s).data.bsLen.toNat = (enc s.codeOfByte s.input).length :=
  Nat.mod_eq_of_lt h

theorem encoded_bitString {s : State} (h : (enc s.codeOfByte s.input).length < 2 ^ 32) :
    (encoded s).bitString = enc s.codeOfByte s.input := by
  rw [State.bitString, encoded_bsLen h]
  refine slice_eq _ 0 _ fun i hi => ?_
  rw [Nat.zero_add, bsAt_encoded, if_pos hi, List.getD_eq_getElem _ _ hi]

/-- Settles O28: the loop appends the codes of all bytes, or stops at the first that has none or does not fit; the
verdict comes before it. -/
theorem encodeConcatenatesTheCodes : Obligations.EncodeConcatenatesTheCodes := by
  refine fun s hwf => ⟨fun hnone hcodes hroom => ?encoded,
    fun before b after e hnone hinput hcodes hroom hmisfit => ?misfit, fun e he => ?verdict⟩
  case encoded =>
    have hlt := hroom.trans_lt (bsCap_fits hwf)
    exact ⟨_, exec_encode_of_codes hnone hcodes hroom, encoded_reports s, rfl, rfl, rfl, encoded_bsLen hlt,
      encoded_bitString hlt⟩
  case misfit =>
    exact ⟨_, exec_encode_of_misfit hnone hinput hcodes hroom hmisfit, errorEntry_failsWith e rfl rfl⟩
  case verdict => exact ⟨_, exec_encode_of_verdict_some he, errorEntry_failsWith e rfl rfl⟩

end Sys2Proof.Machine
end

section
/-! PROOFS. WALK emits the symbols that its bits walk to on the tree under ROOT (R170 to R176). -/

namespace Sys2Proof.Machine

/-! ### The tree under a node of the arena -/

/-- The slots under `id` form the tree `t`. -/
def State.treeUnder (s : State) (id : NodeId) (t : CodeTree) : Prop :=
  ∃ depth, treeOf s.epoch s.node depth id.toNat = .ok t

/-- A node with a tree under it exists, and is a leaf or has the two subtrees under its children. -/
theorem treeUnder_cases {s : State} {id : NodeId} {t : CodeTree} (h : s.treeUnder id t) :
    ∃ n, s.node? id = some n ∧
      ((n.leaf = true ∧ t = .leaf n.sym) ∨
        (n.leaf = false ∧ ∃ l r, s.treeUnder n.left l ∧ s.treeUnder n.right r ∧ t = .node l r)) := by
  obtain ⟨_ | depth, h⟩ := h
  · cases h
  obtain ⟨hid, hcases⟩ := treeOf_ok h
  refine ⟨s.nodeAt id.toNat, if_neg (Nat.not_le.2 hid), hcases.imp_right ?_⟩
  rintro ⟨hleaf, l, r, hl, hr, rfl⟩
  exact ⟨hleaf, l, r, ⟨depth, hl⟩, ⟨depth, hr⟩, rfl⟩

theorem treeUnder_leaf {s : State} {id : NodeId} {sym : Byte} (h : s.treeUnder id (.leaf sym)) :
    ∃ n, s.node? id = some n ∧ n.leaf = true ∧ n.sym = sym := by
  obtain ⟨n, hn, ⟨hleaf, ⟨⟩⟩ | ⟨-, l, r, -, -, ⟨⟩⟩⟩ := treeUnder_cases h
  exact ⟨n, hn, hleaf, rfl⟩

theorem treeUnder_node {s : State} {id : NodeId} {l r : CodeTree} (h : s.treeUnder id (.node l r)) :
    ∃ n, s.node? id = some n ∧ n.leaf = false ∧ s.treeUnder n.left l ∧ s.treeUnder n.right r := by
  obtain ⟨n, hn, ⟨-, ⟨⟩⟩ | ⟨hleaf, _, _, hl, hr, ⟨⟩⟩⟩ := treeUnder_cases h
  exact ⟨n, hn, hleaf, hl, hr⟩

theorem treeUnder_unique {s : State} {id : NodeId} {t u : CodeTree} (ht : s.treeUnder id t) (hu : s.treeUnder id u) :
    t = u := by
  induction t generalizing id u with
  | leaf sym =>
    obtain ⟨n, hn, hleaf, rfl⟩ := treeUnder_leaf ht
    cases u with
    | leaf sym' =>
      obtain ⟨n', hn', -, rfl⟩ := treeUnder_leaf hu
      rw [Option.some.inj (hn.symm.trans hn')]
    | node l' r' =>
      obtain ⟨n', hn', hnode, -⟩ := treeUnder_node hu
      rw [Option.some.inj (hn.symm.trans hn'), hnode] at hleaf
      cases hleaf
  | node l r ihl ihr =>
    obtain ⟨n, hn, hnode, hl, hr⟩ := treeUnder_node ht
    cases u with
    | leaf sym =>
      obtain ⟨n', hn', hleaf, -⟩ := treeUnder_leaf hu
      rw [Option.some.inj (hn.symm.trans hn'), hleaf] at hnode
      cases hnode
    | node l' r' =>
      obtain ⟨n', hn', -, hl', hr'⟩ := treeUnder_node hu
      obtain rfl := Option.some.inj (hn.symm.trans hn')
      rw [ihl hl hl', ihr hr hr']

/-! ### One bit of the walk (R170) -/

theorem walkArrive_leaf {s : State} {id : NodeId} {sym : Byte} (h : s.treeUnder id (.leaf sym)) :
    walkArrive s id = .emit sym := by
  obtain ⟨n, hn, hleaf, rfl⟩ := treeUnder_leaf h
  simp [walkArrive, hn, hleaf]

theorem walkArrive_node {s : State} {id : NodeId} {l r : CodeTree} (h : s.treeUnder id (.node l r)) :
    walkArrive s id = .move id := by
  obtain ⟨n, hn, hnode, -⟩ := treeUnder_node h
  simp [walkArrive, hn, hnode]

theorem walkStep_leaf {s : State} {cur : NodeId} {sym : Byte} (h : s.treeUnder cur (.leaf sym)) (b : Bool) :
    walkStep s cur b = if b then .absent else .emit sym := by
  obtain ⟨n, hn, hleaf, -⟩ := treeUnder_leaf h
  simp [walkStep, hn, hleaf, walkArrive_leaf h]

/-- From an inner node the walk arrives at the child that the bit names. -/
theorem walkStep_node {s : State} {cur : NodeId} {l r : CodeTree} (h : s.treeUnder cur (.node l r)) (b : Bool) :
    ∃ child, s.treeUnder child (if b then r else l) ∧ walkStep s cur b = walkArrive s child := by
  obtain ⟨n, hn, hnode, hl, hr⟩ := treeUnder_node h
  refine ⟨if b then n.right else n.left, ?_, by simp [walkStep, hn, hnode]⟩
  cases b
  · exact hl
  · exact hr

/-! ### The walk in the arena beside the walk on the tree -/

/-- The walk against the tree `tr` under ROOT stands at node `cur` of the arena and at subtree `t` of `tr`: a subtree as
large as `tr` is `tr` itself, at ROOT. -/
structure StandsAt (s : State) (tr : CodeTree) (cur : NodeId) (t : CodeTree) : Prop where
  under : s.treeUnder cur t
  size  : treeSize t ≤ treeSize tr
  root  : treeSize t = treeSize tr → cur = s.data.root

theorem standsAt_root {s : State} {tr : CodeTree} (htree : s.treeUnder s.data.root tr) :
    StandsAt s tr s.data.root tr :=
  ⟨htree, le_rfl, fun _ => rfl⟩

theorem standsAt_child {s : State} {tr t : CodeTree} {cur child : NodeId} {l r : CodeTree} {b : Bool}
    (h : StandsAt s tr cur (.node l r)) (ht : (if b then r else l) = t) (hchild : s.treeUnder child t) :
    StandsAt s tr child t := by
  have hlt : treeSize t < treeSize tr := by
    refine lt_of_lt_of_le ?_ h.size
    obtain rfl | rfl : t = r ∨ t = l := by cases b <;> simp [← ht]
    all_goals simp only [treeSize]; omega
  exact ⟨hchild, hlt.le, fun heq => absurd heq hlt.ne⟩

/-- The walk is back at the root in the arena exactly where it is on the tree. -/
theorem StandsAt.eq_root_iff {s : State} {tr t : CodeTree} {cur : NodeId} (h : StandsAt s tr cur t)
    (htree : s.treeUnder s.data.root tr) : cur = s.data.root ↔ t = tr := by
  exact ⟨fun hcur => treeUnder_unique h.under (hcur ▸ htree), fun ht => h.root (ht ▸ rfl)⟩

/-- What one bit does to the walk on the tree, it does to the walk in the arena. -/
theorem StandsAt.walkStep_cases {s : State} {tr t : CodeTree} {cur : NodeId} (h : StandsAt s tr cur t) (b : Bool) :
    (walkStep s cur b = .absent ∧ ∀ bits, walkTree tr (b :: bits) t = none) ∨
      (∃ sym, walkStep s cur b = .emit sym ∧
        ∀ bits, walkTree tr (b :: bits) t = (walkTree tr bits tr).map (sym :: ·)) ∨
      (∃ nxt u, walkStep s cur b = .move nxt ∧ StandsAt s tr nxt u ∧
        ∀ bits, walkTree tr (b :: bits) t = walkTree tr bits u) := by
  cases t with
  | leaf sym =>
    rw [walkStep_leaf h.under]
    cases b
    · exact .inr (.inl ⟨sym, rfl, fun _ => rfl⟩)
    · exact .inl ⟨rfl, fun _ => rfl⟩
  | node l r =>
    obtain ⟨child, hchild, hstep⟩ := walkStep_node h.under b
    rw [hstep]
    cases ht : (if b then r else l) with
    | leaf sym => exact .inr (.inl ⟨sym, walkArrive_leaf (ht ▸ hchild), fun bits => by rw [walkTree, ht]⟩)
    | node l' r' =>
      exact .inr (.inr ⟨child, _, walkArrive_node (ht ▸ hchild), standsAt_child h ht (ht ▸ hchild),
        fun bits => by rw [walkTree, ht]⟩)

/-! ### The end of the loop -/

/-- The writes of a WALK that succeeds (R172). -/
def storeSymbols (syms : List Byte) (s : State) : State :=
  { s with
    out   := s.out.writeRange 0 syms
    data  := { s.data with outLen := BitVec.ofNat 32 syms.length }
    valid := { s.valid with out := true } }

/-- What WALK makes of the end of its loop: away from the root it is an error (R175). -/
def walkEnds (s : State) : Walked → Effect
  | .noNode => .stop (.noSuchElement .node)
  | .raised e => .raise e
  | .ended cur syms => require (cur = s.data.root) .invalidCodeWalk fun _ => .done (storeSymbols syms s)

/-! ### The loop, for each thing that one bit can do -/

section
variable {s : State} {cur : NodeId} {b : Bool} {bits : List Bool} {syms : List Byte}

theorem walkLoop_absent (h : walkStep s cur b = .absent) :
    walkLoop s (b :: bits) cur syms = .raised .invalidCodeWalk := by
  rw [walkLoop, h]

theorem walkLoop_move {nxt : NodeId} (h : walkStep s cur b = .move nxt) :
    walkLoop s (b :: bits) cur syms = walkLoop s bits nxt syms := by
  rw [walkLoop, h]

theorem walkLoop_emit {sym : Byte} (h : walkStep s cur b = .emit sym) (hroom : syms.length < s.par.outCap) :
    walkLoop s (b :: bits) cur syms = walkLoop s bits s.data.root (syms ++ [sym]) := by
  simp only [walkLoop, h, if_pos hroom]

theorem walkLoop_full {sym : Byte} (h : walkStep s cur b = .emit sym) (hfull : ¬ syms.length < s.par.outCap) :
    walkLoop s (b :: bits) cur syms = .raised .bufferOverflow := by
  simp only [walkLoop, h, if_neg hfull]

end

theorem walkTree_nil_eq_some {tr t : CodeTree} {out : List Byte} :
    walkTree tr [] t = some out ↔ t = tr ∧ out = [] := by
  by_cases h : t = tr <;> simp [walkTree, h, eq_comm]

theorem ne_nil_of_walkTree {tr t : CodeTree} {bits : List Bool} {out : List Byte} (h : walkTree tr bits t = some out)
    (hout : 0 < out.length) : bits ≠ [] := by
  rintro rfl
  obtain ⟨-, rfl⟩ := walkTree_nil_eq_some.1 h
  exact absurd hout (Nat.lt_irrefl 0)

section
variable {s : State} {tr t : CodeTree} {cur : NodeId} {syms : List Byte} {bits : List Bool}
  (htree : s.treeUnder s.data.root tr)
include htree

/-- Bits that walk back to the root emit their symbols, where these fit OUT. -/
theorem walkEnds_of_walk {out : List Byte} (h : StandsAt s tr cur t) (hwalk : walkTree tr bits t = some out)
    (hroom : syms.length + out.length ≤ s.par.outCap) :
    walkEnds s (walkLoop s bits cur syms) = .done (storeSymbols (syms ++ out) s) := by
  induction bits generalizing cur t syms out with
  | nil =>
    obtain ⟨ht, rfl⟩ := walkTree_nil_eq_some.1 hwalk
    rw [walkLoop, walkEnds, require_of ((h.eq_root_iff htree).2 ht), List.append_nil]
  | cons b bits ih =>
    obtain ⟨-, htr⟩ | ⟨sym, hstep, htr⟩ | ⟨nxt, u, hstep, hu, htr⟩ := h.walkStep_cases b <;> rw [htr] at hwalk
    · cases hwalk
    · obtain ⟨rest, hrest, rfl⟩ := Option.map_eq_some_iff.1 hwalk
      rw [List.length_cons] at hroom
      rw [walkLoop_emit hstep (by omega), ih (standsAt_root htree) hrest (by simp; omega), List.append_assoc,
        List.singleton_append]
    · rw [walkLoop_move hstep]
      exact ih hu hwalk hroom

/-- Where the first bits emit more symbols than OUT has room for, the loop has stopped at the first symbol that does not
fit (R176). -/
theorem walkLoop_of_overflow {k : Nat} {out : List Byte} (h : StandsAt s tr cur t)
    (hwalk : walkTree tr (bits.take k) t = some out) (hsyms : syms.length ≤ s.par.outCap)
    (hfull : s.par.outCap < syms.length + out.length) : walkLoop s bits cur syms = .raised .bufferOverflow := by
  induction bits generalizing k cur t syms out with
  | nil => exact absurd List.take_nil (ne_nil_of_walkTree hwalk (by omega))
  | cons b bits ih =>
    cases k with
    | zero => exact absurd List.take_zero (ne_nil_of_walkTree hwalk (by omega))
    | succ k =>
      rw [List.take_succ_cons] at hwalk
      obtain ⟨-, htr⟩ | ⟨sym, hstep, htr⟩ | ⟨nxt, u, hstep, hu, htr⟩ := h.walkStep_cases b <;> rw [htr] at hwalk
      · cases hwalk
      · obtain ⟨rest, hrest, rfl⟩ := Option.map_eq_some_iff.1 hwalk
        rw [List.length_cons] at hfull
        by_cases hroom : syms.length < s.par.outCap
        · rw [walkLoop_emit hstep hroom]
          exact ih (standsAt_root htree) hrest (by simpa using hroom) (by simp; omega)
        · exact walkLoop_full hstep hroom
      · rw [walkLoop_move hstep]
        exact ih hu hwalk hsyms hfull

/-- Bits that do not walk back to the root, and whose first bits never emit more symbols than OUT has room for, end in an
error (R173, R175). -/
theorem walkEnds_of_noWalk (h : StandsAt s tr cur t) (hwalk : walkTree tr bits t = none)
    (hroom : ∀ k out, walkTree tr (bits.take k) t = some out → syms.length + out.length ≤ s.par.outCap) :
    walkEnds s (walkLoop s bits cur syms) = .raise .invalidCodeWalk := by
  induction bits generalizing cur t syms with
  | nil =>
    have hne : t ≠ tr := fun ht => by simp [walkTree, ht] at hwalk
    rw [walkLoop, walkEnds, require_of_not (mt (h.eq_root_iff htree).1 hne)]
  | cons b bits ih =>
    obtain ⟨hstep, -⟩ | ⟨sym, hstep, htr⟩ | ⟨nxt, u, hstep, hu, htr⟩ := h.walkStep_cases b
    · rw [walkLoop_absent hstep, walkEnds]
    · have hone : syms.length + 1 ≤ s.par.outCap := hroom 1 [sym] (by simp [htr, walkTree])
      rw [walkLoop_emit hstep hone]
      refine ih (standsAt_root htree) (Option.map_eq_none_iff.1 (htr bits ▸ hwalk)) fun k out hout => ?_
      have hcons := hroom (k + 1) (sym :: out) (by rw [List.take_succ_cons, htr, hout, Option.map_some])
      simpa [Nat.add_assoc, Nat.add_comm 1] using hcons
    · rw [walkLoop_move hstep]
      exact ih hu (htr bits ▸ hwalk) fun k out hout =>
        hroom (k + 1) out (by rw [List.take_succ_cons, htr, hout])

end

/-! ### The command -/

theorem walkVerdict_eq_none_iff {s : State} :
    walkVerdict s = none ↔ s.valid.tree = true ∧ s.valid.bs = true ∧ s.ctrl.dstOk = true := by
  simp [walkVerdict, verdictBranch_eq_none_iff, and_assoc]

/-- The body of WALK raises the error of its verdict, and ends as its loop does where there is none. -/
theorem walkBody_eq (s : State) :
    walkBody s = (walkVerdict s).elim
      (within .bs s.data.bsLen.toNat s.par.bsCap fun _ => walkEnds s (walkLoop s s.bitString s.data.root []))
      .raise :=
  require_eq_verdict (by simp [imp_iff_not_or]) fun _ => require_eq_verdict (by simp) fun _ => rfl

theorem walkBody_of_verdict_some {s : State} {e : ErrKind} (h : walkVerdict s = some e) : walkBody s = .raise e := by
  rw [walkBody_eq, h, Option.elim_some]

theorem treeUnder_root {s : State} {tr : CodeTree} (h : s.tree = .ok tr) : s.treeUnder s.data.root tr := ⟨_, h⟩

/-- Where OUT does not overflow, no first bits emit more symbols than it has room for. -/
theorem length_le_of_not_overflowsOut {tr : CodeTree} {bits : List Bool} {outCap k : Nat} {out : List Byte}
    (h : ¬ overflowsOut tr bits outCap) (hwalk : walkTree tr (bits.take k) tr = some out) : out.length ≤ outCap := by
  rw [List.take_eq_take_min] at hwalk
  exact Nat.not_lt.1 fun hfull => h ⟨_, out, Nat.min_le_right .., hwalk, hfull⟩

section
variable {s : State} {tr : CodeTree} (hnone : walkVerdict s = none) (hlen : s.data.bsLen.toNat ≤ s.par.bsCap)
  (htree : s.tree = .ok tr)
include hnone hlen

theorem walkBody_of_verdict_none : walkBody s = walkEnds s (walkLoop s s.bitString s.data.root []) := by
  rw [walkBody_eq, hnone, Option.elim_none, within_of hlen]

include htree

theorem walkBody_of_walk {syms : List Byte} (hwalk : walkTree tr s.bitString tr = some syms)
    (hroom : syms.length ≤ s.par.outCap) : walkBody s = .done (storeSymbols syms s) := by
  have hroot := treeUnder_root htree
  rw [walkBody_of_verdict_none hnone hlen, walkEnds_of_walk hroot (standsAt_root hroot) hwalk (by simpa using hroom),
    List.nil_append]

theorem walkBody_of_overflow (hfull : overflowsOut tr s.bitString s.par.outCap) :
    walkBody s = .raise .bufferOverflow := by
  obtain ⟨k, out, -, hwalk, hfull⟩ := hfull
  have hroot := treeUnder_root htree
  rw [walkBody_of_verdict_none hnone hlen,
    walkLoop_of_overflow hroot (standsAt_root hroot) hwalk (Nat.zero_le _) (by simpa using hfull), walkEnds]

theorem walkBody_of_noWalk (hroom : ¬ overflowsOut tr s.bitString s.par.outCap)
    (hwalk : walkTree tr s.bitString tr = none) : walkBody s = .raise .invalidCodeWalk := by
  have hroot := treeUnder_root htree
  rw [walkBody_of_verdict_none hnone hlen]
  refine walkEnds_of_noWalk hroot (standsAt_root hroot) hwalk fun k out hout => ?_
  simpa using length_le_of_not_overflowsOut hroom hout

end

/-- Where a WALK that emits `syms` leaves the machine. -/
def walked (syms : List Byte) (s : State) : State := (storeSymbols syms (s.setStage 0x0B)).complete none

theorem exec_walk_of_walk {s : State} {tr : CodeTree} {syms : List Byte} (hnone : walkVerdict s = none)
    (hlen : s.data.bsLen.toNat ≤ s.par.bsCap) (htree : s.tree = .ok tr)
    (hwalk : walkTree tr s.bitString tr = some syms) (hroom : syms.length ≤ s.par.outCap) :
    exec .walk s = .next (walked syms s) :=
  conclude_runPrimitive_next.2
    (.inl ⟨_, walkBody_of_walk (s := s.setStage 0x0B) hnone hlen htree hwalk hroom, rfl⟩)

/-- A WALK whose body raises an error fails as R211 says. -/
theorem exec_walk_fails {s : State} {e : ErrKind} (h : walkBody (s.setStage 0x0B) = .raise e) :
    ∃ t, exec .walk s = .next t ∧
      failsWith s t 0x0B e { s.valid with out := false } { s.data with outLen := 0 } :=
  ⟨_, conclude_runPrimitive_next.2 (.inr ⟨e, h, rfl⟩), errorEntry_failsWith e rfl rfl⟩

/-- OUT after a success: the symbols from element 0 on, and nothing beyond them. -/
theorem outAt_walked (syms : List Byte) (s : State) (i : Nat) :
    (walked syms s).outAt i = if i < syms.length then syms.getD i 0 else s.outAt i := by
  have hwritten : (walked syms s).out = s.out.writeRange 0 syms := rfl
  rw [outAt_writeRange hwritten rfl]
  simp

theorem walked_reports (syms : List Byte) (s : State) :
    reports s (walked syms s) 0x0B none (fun sp k => sp = .out ∧ k < syms.length) := by
  refine ⟨⟨rfl, rfl, rfl, rfl⟩, ⟨rfl, rfl, rfl, rfl, rfl, rfl, rfl, rfl, rfl⟩, fun sp i hi => ?_⟩
  cases sp with
  | out => exact (outAt_walked syms s i).trans (if_neg fun h => hi ⟨rfl, h⟩)
  | freq | node | code | treeb | pay | bs | inp => rfl

theorem walked_outLen {syms : List Byte} (h : syms.length < 2 ^ 32) (s : State) :
    (walked syms s).data.outLen.toNat = syms.length :=
  Nat.mod_eq_of_lt h

theorem walked_output {syms : List Byte} (h : syms.length < 2 ^ 32) (s : State) : (walked syms s).output = syms := by
  rw [State.output, walked_outLen h]
  refine slice_eq _ 0 _ fun i hi => ?_
  rw [Nat.zero_add, outAt_walked, if_pos hi, List.getD_eq_getElem _ _ hi]

/-- Settles O40: the walk in the arena follows the walk on the tree bit by bit, as a subtree as large as the whole stands
only at the root; the verdict comes before it. -/
theorem walkEmitsTheSymbolsOfTheTree : Obligations.WalkEmitsTheSymbolsOfTheTree := by
  refine fun s hwf => ⟨fun tr syms hnone hlen htree hwalk hroom => ?walked,
    fun tr e hnone hlen htree hmisfit => ?misfit, fun e he => ?verdict⟩
  case walked =>
    have hlt := hroom.trans_lt (capacities_fit hwf).2
    exact ⟨_, exec_walk_of_walk hnone hlen htree hwalk hroom, walked_reports syms s, rfl, rfl, rfl,
      walked_outLen hlt s, walked_output hlt s⟩
  case misfit =>
    obtain ⟨hfull, rfl⟩ | ⟨hroom, hwalk, rfl⟩ := hmisfit
    · exact exec_walk_fails (walkBody_of_overflow (s := s.setStage 0x0B) hnone hlen htree hfull)
    · exact exec_walk_fails (walkBody_of_noWalk (s := s.setStage 0x0B) hnone hlen htree hroom hwalk)
  case verdict => exact exec_walk_fails (walkBody_of_verdict_some (s := s.setStage 0x0B) he)

end Sys2Proof.Machine
end

section
/-! PROOFS. GENCODE, ENCODE and WALK one after another give the input back (R177). -/

namespace Sys2Proof.Machine

/-! ### Walking the code of a symbol -/

/-- From an inner node, the edge to a child and then the path to a leaf under it emit the leaf's symbol. -/
theorem walkTree_path {root child l r : CodeTree} {b : Bool} {sym : Byte} {path : List Bool}
    (hpath : (sym, path) ∈ codes child) (hchild : (if b then r else l) = child) (rest : List Bool) :
    walkTree root (b :: (path ++ rest)) (.node l r) = (walkTree root rest root).map (sym :: ·) := by
  induction child generalizing b l r path with
  | leaf sym' =>
    obtain ⟨rfl, rfl⟩ := Prod.mk.inj (List.mem_singleton.1 hpath)
    rw [walkTree, hchild, List.nil_append]
  | node l' r' ihl ihr =>
    rw [walkTree, hchild]
    obtain ⟨⟨_, path'⟩, hq, ⟨⟩⟩ | ⟨⟨_, path'⟩, hq, ⟨⟩⟩ := mem_codes_node.1 hpath
    · exact ihl hq rfl
    · exact ihr hq rfl

/-- The code of a symbol walks from the root to a leaf with the symbol, and so back to the root. -/
theorem walkTree_codeOf {tr : CodeTree} {sym : Byte} {c : List Bool} (h : codeOf tr sym = some c)
    (rest : List Bool) : walkTree tr (c ++ rest) tr = (walkTree tr rest tr).map (sym :: ·) := by
  obtain ⟨path, hpath, rfl⟩ := exists_path_of_codeOf h
  cases tr with
  | leaf sym' =>
    obtain ⟨rfl, rfl⟩ := Prod.mk.inj (List.mem_singleton.1 hpath)
    rfl
  | node l r =>
    obtain ⟨⟨_, path'⟩, hq, ⟨⟩⟩ | ⟨⟨_, path'⟩, hq, ⟨⟩⟩ := mem_codes_node.1 hpath
    · exact walkTree_path hq rfl rest
    · exact walkTree_path hq rfl rest

theorem map_fst_codes (t : CodeTree) : (codes t).map Prod.fst = treeSymbols t := by
  induction t with
  | leaf sym => rfl
  | node l r ihl ihr => simp [codes_node, treeSymbols, Function.comp_def, ← ihl, ← ihr]

/-- Every symbol with a leaf has a code. -/
theorem codeOf_of_mem_treeSymbols {tr : CodeTree} {sym : Byte} (h : sym ∈ treeSymbols tr) :
    codeOf tr sym = some (codeIn tr sym) := by
  rw [← map_fst_codes] at h
  obtain ⟨p, hp, rfl⟩ := List.mem_map.1 h
  cases hcode : codeOf tr p.1 with
  | some c => rw [codeIn, hcode, Option.getD_some]
  | none =>
    have hnil := List.getLast?_eq_none_iff.1 (Option.map_eq_none_iff.1 hcode)
    exact absurd (beq_self_eq_true p.1) (List.filter_eq_nil_iff.1 hnil p hp)

/-- Decoding inverts encoding on the tree (R177). -/
theorem walkTree_enc {tr : CodeTree} {b : List Byte} (h : ∀ x ∈ b, x ∈ treeSymbols tr) :
    walkTree tr (enc (codeIn tr) b) tr = some b := by
  induction b with
  | nil => exact walkTree_nil_eq_some.2 ⟨rfl, rfl⟩
  | cons x b ih =>
    obtain ⟨hx, hb⟩ := List.forall_mem_cons.1 h
    rw [enc_cons, walkTree_codeOf (codeOf_of_mem_treeSymbols hx), ih hb, Option.map_some]

/-! ### The table that GENCODE leaves, as ENCODE reads it -/

theorem codeOf_ne_nil {t : CodeTree} {sym : Byte} {c : List Bool} (h : codeOf t sym = some c) : c ≠ [] := by
  obtain ⟨path, -, rfl⟩ := exists_path_of_codeOf h
  unfold nonEmptyCode
  split
  · exact List.cons_ne_nil _ _
  · assumption

/-- Where a GENCODE of the tree `tr` leaves the machine. -/
def generated (tr : CodeTree) (s : State) : State := (storeCodes tr (s.setStage 0x03)).complete none

section
variable {s : State} {tr : CodeTree} (htree : s.tree = .ok tr)
include htree

/-- After GENCODE the entry of a symbol with a leaf holds its code. -/
theorem codeOfByte_generated {sym : Byte} (h : sym ∈ treeSymbols tr) :
    (generated tr s).codeOfByte sym = codeIn tr sym := by
  have hcode := codeOf_of_mem_treeSymbols h
  rw [State.codeOfByte, generated, codeAt_storeCodes_symbol, hcode, Option.elim_some,
    codeBits_codeOfBits (length_codeOf_lt htree hcode)]

theorem len_codeAt_generated_ne_zero {sym : Byte} (h : sym ∈ treeSymbols tr) :
    ((generated tr s).codeAt sym.toNat).len ≠ 0 := by
  have hne := codeOf_ne_nil (codeOf_of_mem_treeSymbols h)
  rw [← codeOfByte_generated htree h, ← List.length_pos_iff, State.codeOfByte, length_codeBits] at hne
  exact fun hzero => hne.ne' (congrArg BitVec.toNat hzero)

theorem enc_generated {b : List Byte} (h : ∀ x ∈ b, x ∈ treeSymbols tr) :
    enc (generated tr s).codeOfByte b = enc (codeIn tr) b :=
  List.flatMap_congr fun x hx => codeOfByte_generated htree (h x hx)

end

/-- Settles O41: GENCODE leaves the code of each input byte, ENCODE their concatenation in BS, and that walks back to the
input. -/
theorem walkInvertsEncode : Obligations.WalkInvertsEncode := by
  intro s tr hwf hvalid _ htree _ hsrc hdst hinCap houtCap hsymbols hroom
  have henc : enc (generated tr s).codeOfByte (generated tr s).input = enc (codeIn tr) s.input :=
    enc_generated htree hsymbols
  have hfits : (enc (generated tr s).codeOfByte (generated tr s).input).length ≤ s.par.bsCap := henc ▸ hroom
  have hlt := hfits.trans_lt (bsCap_fits hwf)
  have hwalk : walkTree tr (encoded (generated tr s)).bitString tr = some s.input := by
    rw [encoded_bitString hlt, henc, walkTree_enc hsymbols]
  rw [← length_input] at houtCap
  refine ⟨generated tr s, encoded (generated tr s), walked s.input (encoded (generated tr s)),
    exec_gencode_of_tree hvalid htree,
    exec_encode_of_codes (encodeVerdict_eq_none_iff.2 ⟨rfl, hsrc, hinCap⟩)
      (fun b hb => len_codeAt_generated_ne_zero htree (hsymbols b hb)) hfits,
    exec_walk_of_walk (walkVerdict_eq_none_iff.2 ⟨hvalid, rfl, hdst⟩) ((encoded_bsLen hlt).trans_le hfits) htree
      hwalk houtCap, rfl, walked_output (houtCap.trans_lt (capacities_fit hwf).2) _⟩

end Sys2Proof.Machine
end

section
/-! PROOFS. A host's write to CMD (R185). -/

namespace Sys2Proof.Machine

/-- Settles O5: at rest the write to CMD is an acceptance, and while BUSY it is ignored as every register write is. -/
theorem cmdWriteAtRestIsAccepted : Obligations.CmdWriteAtRestIsAccepted := by
  refine fun s w rest hturn => ⟨fun hrest => ?accepted, fun hbusy => ?ignored⟩
  case accepted =>
    rw [step_of_hostTurn hturn, hostTurn, hostWriteReg_atRest (s := { s with agenda := rest }) 1 w hrest]
    rfl
  case ignored =>
    rw [step_of_hostTurn hturn, hostTurn, hostWriteReg_ignored (s := { s with agenda := rest }) w (.inl hbusy)]

end Sys2Proof.Machine
end

section
/-! PROOFS. NOP and CLEAR (R188, R189, R192). -/

namespace Sys2Proof.Machine

/-- A state made of `s` by setting STAGE, VALID and data registers other than IN_LEN reports, completed, no element of
any memory as written. -/
theorem complete_reports_nothingWritten {op : Byte} {s : State} (v : ValidReg) {d : DataRegs}
    (hinLen : d.inLen = s.data.inLen) :
    reports s (State.complete none { s.setStage op with valid := v, data := d }) op none (fun _ _ => False) :=
  ⟨⟨rfl, rfl, rfl, rfl⟩, ⟨rfl, rfl, rfl, rfl, hinLen, rfl, rfl, rfl, rfl⟩,
    fun sp i _ => sameAt_of_memories rfl rfl rfl rfl rfl rfl rfl rfl rfl sp i⟩

/-- Where CLEAR leaves the machine. -/
def cleared (s : State) : State := (invalidateAll (s.setStage 0x1F)).complete none

@[simp] theorem cleared_par (s : State) : (cleared s).par = s.par := rfl
@[simp] theorem cleared_ctrl (s : State) : (cleared s).ctrl = s.ctrl := rfl
@[simp] theorem cleared_data (s : State) : (cleared s).data = ⟨s.data.inLen, 0, 0, 0, 0, 0, 0, 0⟩ := rfl
@[simp] theorem cleared_input (s : State) : (cleared s).input = s.input := rfl
@[simp] theorem cleared_inWord (s : State) : (cleared s).inWord = s.inWord := rfl

theorem cleared_reports (s : State) : reports s (cleared s) 0x1F none (fun _ _ => False) :=
  complete_reports_nothingWritten _ rfl

theorem exec_nop (s : State) : exec .nop s = .next ((s.setStage 0x00).complete none) := rfl

theorem exec_clear (s : State) : exec .clear s = .next (cleared s) := rfl

/-- Settles O20: neither command has a test, and what each writes before its completion is in VALID and the data
registers. -/
theorem nopAndClearComplete : Obligations.NopAndClearComplete := by
  refine fun s => ⟨?nop, ?clear⟩
  case nop => exact ⟨_, exec_nop s, complete_reports_nothingWritten s.valid rfl, rfl, rfl, rfl⟩
  case clear => exact ⟨_, exec_clear s, cleared_reports s, rfl, rfl, rfl⟩

end Sys2Proof.Machine
end

section
/-! PROOFS. DECOMPRESS, by way of its commands issued one by one (R191). -/

namespace Sys2Proof.Machine

/-! ### Commands one after another -/

theorem runCommands_cons_ok {i : Instr} {is : List Instr} {s t : State} (h : exec i s = .next t)
    (hok : t.status.err = 0) : runCommands (i :: is) s = runCommands is t := by
  rw [runCommands, h]
  exact if_pos hok

theorem runCommands_cons_failed {i : Instr} {is : List Instr} {s t : State} (h : exec i s = .next t)
    (hfailed : t.status.err ≠ 0) : runCommands (i :: is) s = .next t := by
  rw [runCommands, h]
  exact if_neg hfailed

/-- The commands that DECOMPRESS stands for (R89, R191). -/
def decompressCommands : List Instr := [.clear, .rdcont, .destree, .unpack, .walk]

/-- Where the commands end, DECOMPRESS ends, with working registers of its own (R31). -/
theorem exec_decompress_of_runCommands {s u : State} (h : runCommands decompressCommands s = .next u) :
    ∃ w n, exec .decompress s = .next { u with work := w, tick := n } := by
  obtain ⟨hnext, hfault⟩ := macrosAreTheirPrimitivesInSequence s .decompress decompressCommands (.inr ⟨rfl, rfl⟩)
  cases hexec : exec .decompress s with
  | next t =>
    obtain ⟨v, hv, hsame⟩ := hnext t hexec
    obtain rfl : u = v := Host.Outcome.next.inj (h.symm.trans hv)
    exact ⟨t.work, t.tick, by rw [← hsame]⟩
  | fault f => cases h.symm.trans ((hfault f).1 hexec)
  | refused r => exact absurd hexec (conclude_not_refused _ r)

/-! ### The fields that RDCONT reads -/

theorem cont_inj {tb tb' pay pay' : List Byte} {pc pc' : Nat} (hlen : tb.length < 2 ^ 32) (hlen' : tb'.length < 2 ^ 32)
    (h : cont tb pc pay = cont tb' pc' pay') : tb = tb' ∧ le32 pc = le32 pc' ∧ pay = pay' := by
  simp only [cont, List.append_assoc] at h
  obtain ⟨hcount, h⟩ := List.append_inj h rfl
  obtain ⟨htree, h⟩ := List.append_inj h (le32_inj hlen hlen' hcount)
  obtain ⟨hpad, h⟩ := List.append_inj h rfl
  obtain ⟨-, hpay⟩ := List.append_inj h rfl
  exact ⟨htree, hpad, hpay⟩

/-- RDCONT accepts a container only with tree-bytes that TREEB has room for and a payload that PAY has room for. -/
theorem containerRead_lengths {s : State} (h : rdcontVerdict s = none) :
    (containerRead s).data.treeLen.toNat ≤ 767 ∧ (containerRead s).data.payLen.toNat ≤ s.par.payCap := by
  obtain ⟨-, hcap, hlen, -, -, -, htree⟩ := rdcontVerdict_eq_none_iff.1 h
  obtain ⟨htreeLen, -, hpayLen⟩ := containerRead_counts h
  rw [htreeLen, hpayLen, Params.payCap]
  omega

/-- From a container that it accepts, RDCONT reads the fields that the container was made of. -/
theorem containerRead_fields {s : State} {tb pay : List Byte} {pc : Nat} (h : rdcontVerdict s = none)
    (hinput : s.input = cont tb pc pay) :
    (containerRead s).treeBytes = tb ∧ le32 (containerRead s).data.pad.toNat = le32 pc ∧
      (containerRead s).payload = pay := by
  obtain ⟨htreeLen, -⟩ := containerRead_lengths h
  have hlen : s.data.inLen.toNat = 12 + tb.length + pay.length := by rw [← length_input, hinput, length_cont]
  have hlt := s.data.inLen.isLt
  exact cont_inj (by rw [length_treeBytes]; omega) (by omega) ((input_eq_cont_containerRead h).symm.trans hinput)

/-! ### What commands that succeed one after another report -/

theorem hostSideSame_trans {s t u : State} (h : hostSideSame s t) (h' : hostSideSame t u) : hostSideSame s u := by
  obtain ⟨h1, h2, h3, h4, h5, h6, h7, h8, h9⟩ := h
  obtain ⟨g1, g2, g3, g4, g5, g6, g7, g8, g9⟩ := h'
  exact ⟨g1.trans h1, g2.trans h2, g3.trans h3, g4.trans h4, g5.trans h5, g6.trans h6, g7.trans h7, g8.trans h8,
    g9.trans h9⟩

/-- After a command that succeeds, a second command's report is one about both, if it owns up to what both write. -/
theorem reports_trans {s t u : State} {op op' : Byte} {e : Option ErrKind} {w w' written : Space → Nat → Prop}
    (h : reports s t op none w) (h' : reports t u op' e w') (hw : ∀ sp i, w sp i ∨ w' sp i → written sp i) :
    reports s u op' e written := by
  obtain ⟨⟨-, helog, -⟩, hhost, hsame⟩ := h
  obtain ⟨⟨hstatus, helog', hidle⟩, hhost', hsame'⟩ := h'
  refine ⟨⟨hstatus, ?_, hidle⟩, hostSideSame_trans hhost hhost', fun sp i hi => ?_⟩
  · rw [helog', helog]
    exact congrArg (· ||| elogBit e) BitVec.or_zero
  · exact sameAt_trans (hsame sp i fun hwi => hi (hw sp i (.inl hwi))) (hsame' sp i fun hwi => hi (hw sp i (.inr hwi)))

/-! ### How far the commands come -/

/-- What CLEAR leaves standing decides RDCONT's tests: CTRL, IN_LEN and IN (R189). -/
theorem rdcontVerdict_cleared (s : State) : rdcontVerdict (cleared s) = rdcontVerdict s := by
  simp only [rdcontVerdict, cleared_par, cleared_ctrl, cleared_data, cleared_inWord]
  rfl

theorem runCommands_decompress (s : State) :
    runCommands decompressCommands s = runCommands [.rdcont, .destree, .unpack, .walk] (cleared s) :=
  runCommands_cons_ok (exec_clear s) rfl

/-- Where a DESTREE that loads `tr` leaves the machine. -/
def treeLoaded (tr : CodeTree) (s : State) : State := (loadTree tr (s.setStage 0x09)).complete none

/-- Where RDCONT, DESTREE and UNPACK leave the machine, when they succeed and the tree is `tr`. -/
def readyToWalk (tr : CodeTree) (s : State) : State := unpacked (treeLoaded tr (containerRead s))

@[simp] theorem readyToWalk_par (tr : CodeTree) (s : State) : (readyToWalk tr s).par = s.par := rfl

section
variable {s : State} {is : List Instr}

theorem runCommands_badContainer {e : ErrKind} (h : rdcontVerdict s = some e) :
    runCommands (.rdcont :: is) s = .next (errorEntry 0x08 dropContainer e s) :=
  runCommands_cons_failed (exec_rdcont_of_verdict_some h) (errKind_code_ne_zero e)

theorem runCommands_container (h : rdcontVerdict s = none) :
    runCommands (.rdcont :: is) s = runCommands is (containerRead s) :=
  runCommands_cons_ok (exec_rdcont_of_verdict_none h) rfl

theorem runCommands_malformed {tb pay : List Byte} {pc : Nat} (hnone : rdcontVerdict s = none)
    (hinput : s.input = cont tb pc pay) (hlarge : ∀ tr, tb = ser tr → 511 < treeSize tr) :
    runCommands (.rdcont :: .destree :: is) s =
      .next (errorEntry 0x09 dropTree .malformedTree (containerRead s)) := by
  obtain ⟨htree, -, -⟩ := containerRead_fields hnone hinput
  rw [runCommands_container hnone]
  refine runCommands_cons_failed (exec_destree_malformed rfl (containerRead_lengths hnone).1 ?_)
    (errKind_code_ne_zero .malformedTree)
  rintro ⟨tr, hser, hsize⟩
  exact absurd (hlarge tr (htree.symm.trans hser)) (Nat.not_lt.2 hsize)

variable {tr : CodeTree} {pay : List Byte} {pc : Nat} (hnone : rdcontVerdict s = none)
include hnone

theorem readyToWalk_bsLen (hwf : s.par.wf = true) : (readyToWalk tr s).data.bsLen.toNat ≤ s.par.bsCap :=
  unpacked_bsLen_le (s := treeLoaded tr (containerRead s)) hwf (containerRead_lengths hnone).2

variable (hinput : s.input = cont (ser tr) pc pay)
include hinput

/-- The walk is reached from every container of a tree that the arena has room for. -/
theorem runCommands_tree (hsize : treeSize tr ≤ 511) :
    runCommands (.rdcont :: .destree :: .unpack :: is) s = runCommands is (readyToWalk tr s) := by
  obtain ⟨htree, -, -⟩ := containerRead_fields hnone hinput
  rw [runCommands_container hnone, runCommands_cons_ok (exec_destree_of_ser rfl htree hsize) rfl]
  exact runCommands_cons_ok
    (exec_unpack_of_payload (s := treeLoaded tr (containerRead s)) rfl (containerRead_lengths hnone).2) rfl

theorem readyToWalk_treeBytes : (readyToWalk tr s).treeBytes = ser tr := (containerRead_fields hnone hinput).1

theorem readyToWalk_payload : (readyToWalk tr s).payload = pay := (containerRead_fields hnone hinput).2.2

theorem readyToWalk_bitString (hwf : s.par.wf = true) (hpad : pc ≤ 7) :
    (readyToWalk tr s).bitString = unpackBits pay pc := by
  obtain ⟨-, hpadRead, hpayload⟩ := containerRead_fields hnone hinput
  have hlt := (containerRead s).data.pad.isLt
  have hpc : (containerRead s).data.pad.toNat = pc := le32_inj (by omega) (by omega) hpadRead
  rw [← hpayload, ← hpc]
  exact unpacked_bitString (s := treeLoaded tr (containerRead s)) hwf (containerRead_lengths hnone).2

end

/-- UNPACK leaves the tree that DESTREE loaded. -/
theorem readyToWalk_tree {tr : CodeTree} (hsize : treeSize tr ≤ 511) (s : State) : (readyToWalk tr s).tree = .ok tr :=
  tree_loadTree hsize (containerRead s) 0x09

theorem readyToWalk_nnode {tr : CodeTree} (hsize : treeSize tr ≤ 511) (s : State) :
    (readyToWalk tr s).data.nnode.toNat = treeSize tr := by
  show (BitVec.ofNat 10 (treeSize tr)).toNat = treeSize tr
  rw [BitVec.toNat_ofNat]
  omega

/-- With DST_OK = 0 WALK fails on what the other commands leave. -/
theorem walkVerdict_readyToWalk_noDst {tr : CodeTree} {s : State} (h : s.ctrl.dstOk = false) :
    walkVerdict (readyToWalk tr s) = some .ioOpenFailure := by
  have hflags : ¬ ((readyToWalk tr s).valid.tree = false ∨ (readyToWalk tr s).valid.bs = false) :=
    not_or.2 ⟨Bool.noConfusion, Bool.noConfusion⟩
  rw [walkVerdict, if_neg hflags]
  exact if_pos h

theorem walkVerdict_readyToWalk {tr : CodeTree} {s : State} (h : s.ctrl.dstOk = true) :
    walkVerdict (readyToWalk tr s) = none :=
  walkVerdict_eq_none_iff.2 ⟨rfl, rfl, h⟩

/-- RDCONT, DESTREE and UNPACK write neither IN nor OUT. -/
theorem readyToWalk_reports (tr : CodeTree) (s : State) :
    reports s (readyToWalk tr s) 0x0A none (fun sp _ => sp ∉ [.inp, .out]) := by
  have hloaded : reports s (treeLoaded tr (containerRead s)) 0x09 none (fun sp _ => sp ∉ [.inp, .out]) :=
    reports_trans (containerRead_reports s) (loadTree_reports tr (containerRead s) 0x09)
      (by rintro sp i ((⟨rfl, -⟩ | ⟨rfl, -⟩) | ⟨rfl, -⟩) <;> decide)
  exact reports_trans hloaded (unpacked_reports _) (by rintro sp i (h | ⟨rfl, -⟩); exacts [h, by decide])

/-! ### How DECOMPRESS ends -/

/-- DECOMPRESS completes with an error at a stage, and the output is not valid (R191). -/
def decompressFails (s : State) (e : ErrKind) (stage : Byte) : Prop :=
  ∃ t, exec .decompress s = .next t ∧ t.status = ⟨false, true, e.code, stage⟩ ∧ t.valid.out = false ∧
    t.data.outLen = 0

/-- DECOMPRESS fails as the last of its commands does. -/
theorem decompressFails_of_failsWith {s c u : State} {e : ErrKind} {stage : Byte} {v : ValidReg} {d : DataRegs}
    (hrun : runCommands decompressCommands s = .next u) (hfails : failsWith c u stage e v d) (hout : v.out = false)
    (hlen : d.outLen = 0) : decompressFails s e stage := by
  obtain ⟨⟨⟨hstatus, -⟩, -⟩, rfl, rfl, -⟩ := hfails
  obtain ⟨w, n, hexec⟩ := exec_decompress_of_runCommands hrun
  exact ⟨_, hexec, hstatus, hout, hlen⟩

/-- Where WALK fails as the last of the commands, DECOMPRESS reports its error at its stage. -/
theorem decompressFails_of_walk {s c : State} {e : ErrKind} {v : ValidReg} {d : DataRegs}
    (hrun : runCommands decompressCommands s = runCommands [.walk] c)
    (hwalk : ∃ u, exec .walk c = .next u ∧ failsWith c u 0x0B e { v with out := false } { d with outLen := 0 }) :
    decompressFails s e 0x0B := by
  obtain ⟨u, hexec, hfails⟩ := hwalk
  have hfailed : u.status.err ≠ 0 := by
    obtain ⟨⟨⟨hstatus, -⟩, -⟩, -⟩ := hfails
    rw [hstatus]
    exact errKind_code_ne_zero e
  exact decompressFails_of_failsWith (hrun.trans (runCommands_cons_failed hexec hfailed)) hfails rfl rfl

/-- DECOMPRESS after a success of all its commands: it has written no element of IN, and of OUT only the symbols. -/
theorem walked_cleared_reports (tr : CodeTree) (syms : List Byte) (s : State) :
    reports s (walked syms (readyToWalk tr (cleared s))) 0x0B none
      (fun sp k => sp ≠ .inp ∧ (sp = .out → k < syms.length)) := by
  have hready := reports_trans (written := fun sp _ => sp ∉ [.inp, .out]) (cleared_reports s)
    (readyToWalk_reports tr (cleared s)) (by simp)
  refine reports_trans hready (walked_reports syms _) fun sp i h => ?_
  obtain h | ⟨rfl, h⟩ := h
  · exact ⟨by rintro rfl; simp at h, by rintro rfl; simp at h⟩
  · exact ⟨by decide, fun _ => h⟩

/-- Settles O48: the commands come as far as the container lets them, and DECOMPRESS ends as they do. -/
theorem decompressDecodesTheContainer : Obligations.DecompressDecodesTheContainer := by
  intro s hwf
  rw [← rdcontVerdict_cleared, ← cleared_input]
  refine ⟨fun e he => ?badContainer, fun tb pc pay hnone hinput hlarge => ?malformed,
    fun tr pc pay hnone hinput hpad hsize => ?tree⟩
  case badContainer =>
    exact decompressFails_of_failsWith ((runCommands_decompress s).trans (runCommands_badContainer he))
      (errorEntry_failsWith e rfl rfl) rfl rfl
  case malformed =>
    exact decompressFails_of_failsWith ((runCommands_decompress s).trans (runCommands_malformed hnone hinput hlarge))
      (errorEntry_failsWith _ rfl rfl) rfl rfl
  case tree =>
    have hrun := (runCommands_decompress s).trans (runCommands_tree hnone hinput hsize)
    have htree := readyToWalk_tree hsize (cleared s)
    have hlen := readyToWalk_bsLen (tr := tr) hnone hwf
    have hbits := readyToWalk_bitString hnone hinput hwf hpad
    obtain ⟨-, hmisfit, hverdict⟩ := walkEmitsTheSymbolsOfTheTree (readyToWalk tr (cleared s))
      (by rwa [readyToWalk_par, cleared_par])
    rw [← hbits]
    refine ⟨fun hdst => ?noDst, fun hdst hfull => ?overflow, fun hdst hroom hwalk => ?noWalk,
      fun syms hdst hwalk hroom => ?decoded⟩
    case noDst => exact decompressFails_of_walk hrun (hverdict _ (walkVerdict_readyToWalk_noDst (s := cleared s) hdst))
    case overflow =>
      exact decompressFails_of_walk hrun
        (hmisfit tr _ (walkVerdict_readyToWalk (s := cleared s) hdst) hlen htree (.inl ⟨hfull, rfl⟩))
    case noWalk =>
      exact decompressFails_of_walk hrun
        (hmisfit tr _ (walkVerdict_readyToWalk (s := cleared s) hdst) hlen htree (.inr ⟨hroom, hwalk, rfl⟩))
    case decoded =>
      have hwalked := exec_walk_of_walk (walkVerdict_readyToWalk (s := cleared s) hdst) hlen htree hwalk hroom
      obtain ⟨w, n, hexec⟩ := exec_decompress_of_runCommands (hrun.trans (runCommands_cons_ok hwalked rfl))
      obtain ⟨⟨hstatus, helog, -⟩, hhost, hsame⟩ := walked_cleared_reports tr syms s
      have houtput := walked_output (hroom.trans_lt (capacities_fit hwf).2) (readyToWalk tr (cleared s))
      exact ⟨_, hexec, hstatus, helog.trans BitVec.or_zero, rfl, houtput, htree, rfl,
        readyToWalk_nnode hsize (cleared s), readyToWalk_treeBytes hnone hinput, readyToWalk_payload hnone hinput, rfl,
        hhost, fun k => hsame .inp k (by simp), fun k hk => hsame .out k (by simpa using hk)⟩

end Sys2Proof.Machine
end

section
/-! PROOFS. Decoding and encoding (R70 to R76). -/

namespace Sys2Proof

/-! ### Command words -/

/-- Each row of the opcode map holds the word that encodes its instruction, which is no record (R72). -/
theorem encode_of_mem_commandRows : ∀ r ∈ commandRows, encode r.instr = .command r.pattern := by decide

theorem mask_of_mem_commandRows : ∀ r ∈ commandRows, r.mask = BitVec.allOnes 32 := by decide

/-- What a command word decodes to is encoded by that word and no other (R72). -/
theorem encode_of_decodeCommand {w : Word} {i : Instr} (h : decodeCommand w = .ok i) : encode i = .command w := by
  unfold decodeCommand at h
  cases hrow : commandRows.find? (·.selects w) with
  | none => simp [hrow] at h
  | some r =>
    have hmem := List.mem_of_find?_eq_some hrow
    have hselects : r.selects w = true := List.find?_some (p := fun r : CommandRow => r.selects w) hrow
    rw [CommandRow.selects, mask_of_mem_commandRows r hmem, BitVec.and_allOnes, beq_iff_eq] at hselects
    rw [hrow] at h
    obtain rfl : r.instr = i := by simpa using h
    rw [encode_of_mem_commandRows r hmem, hselects]

/-! ### Records -/

/-- Everything a byte sequence can begin with that decodes: the Internal marker, or the Leaf marker and a symbol (R75,
R76). -/
theorem decodeRecord_ok {bytes rest : List Byte} {i : Instr} (h : decodeRecord bytes = .ok (i, rest)) :
    (i = .internal ∧ bytes = 0x30#8 :: rest) ∨ ∃ sym, i = .leaf sym ∧ bytes = 0x31#8 :: sym :: rest := by
  match bytes, h with
  | m :: bytes, h =>
    by_cases hinternal : m = 0x30#8
    · subst hinternal
      obtain ⟨rfl, rfl⟩ : Instr.internal = i ∧ bytes = rest := by simpa [decodeRecord] using h
      exact .inl ⟨rfl, rfl⟩
    · by_cases hleaf : m = 0x31#8
      · subst hleaf
        cases bytes with
        | nil => simp [decodeRecord] at h
        | cons sym bytes =>
          obtain ⟨rfl, rfl⟩ : Instr.leaf sym = i ∧ bytes = rest := by simpa [decodeRecord] using h
          exact .inr ⟨sym, rfl, rfl⟩
      · simp [decodeRecord, hinternal, hleaf] at h

@[simp] theorem decodeRecord_internal (rest : List Byte) : decodeRecord (0x30#8 :: rest) = .ok (.internal, rest) := rfl

@[simp] theorem decodeRecord_leaf (sym : Byte) (rest : List Byte) :
    decodeRecord (0x31#8 :: sym :: rest) = .ok (.leaf sym, rest) := rfl

/-- The bytes of a record decode to it, whatever follows and whatever the symbol is. -/
theorem decodeRecord_recordBytes_append {i : Instr} (h : i.isRecord = true) (rest : List Byte) :
    decodeRecord (recordBytes i ++ rest) = .ok (i, rest) := by
  cases i with
  | internal => rfl
  | leaf sym => rfl
  | _ => cases h

theorem recordBytes_ne_nil {i : Instr} (h : i.isRecord = true) : recordBytes i ≠ [] := by
  cases i with
  | internal => exact List.cons_ne_nil _ _
  | leaf sym => exact List.cons_ne_nil _ _
  | _ => cases h

/-- One record is split off the front of a byte sequence that begins with its bytes. -/
theorem decodeRecords_recordBytes_append {i : Instr} (h : i.isRecord = true) {fuel : Nat} {rest : List Byte}
    {is : List Instr} (hrest : decodeRecords fuel rest = .ok is) :
    decodeRecords (fuel + 1) (recordBytes i ++ rest) = .ok (i :: is) := by
  have hfirst := decodeRecord_recordBytes_append h rest
  cases hbytes : recordBytes i ++ rest with
  | nil => exact absurd (List.append_eq_nil_iff.1 hbytes).1 (recordBytes_ne_nil h)
  | cons b bs =>
    rw [hbytes] at hfirst
    rw [decodeRecords, hfirst]
    simp only [hrest]

theorem decodeRecords_flatMap_recordBytes {rs : List Instr} (h : ∀ r ∈ rs, r.isRecord = true) {fuel : Nat}
    (hfuel : rs.length ≤ fuel) : decodeRecords fuel (rs.flatMap recordBytes) = .ok rs := by
  induction rs generalizing fuel with
  | nil => cases fuel <;> rfl
  | cons r rs ih =>
    obtain ⟨hr, hrs⟩ := List.forall_mem_cons.1 h
    obtain ⟨fuel, rfl⟩ : ∃ n, fuel = n + 1 := Nat.exists_eq_add_one_of_ne_zero (by rintro rfl; simp at hfuel)
    exact decodeRecords_recordBytes_append hr (ih hrs (Nat.le_of_succ_le_succ hfuel))

/-! ### Either format -/

theorem decode_encode (i : Instr) : decode (encode i) = .ok i := by
  cases i with
  | leaf sym => rfl
  | internal => rfl
  | _ => decide

theorem eq_encode_of_decode {e : Encoded} {i : Instr} (h : decode e = .ok i) : e = encode i := by
  cases e with
  | command w => exact (encode_of_decodeCommand h).symm
  | record bytes =>
    rw [decode] at h
    split at h
    · cases h
    next hrecord =>
      obtain rfl := Except.ok.inj h
      obtain ⟨rfl, rfl⟩ | ⟨sym, rfl, rfl⟩ := decodeRecord_ok hrecord <;> rfl
    · cases h

/-- Settles O2: the rows of the opcode map hold the encodings, and a record's bytes are read back one record at a time. -/
theorem decodeAndEncodeAgree : Obligations.DecodeAndEncodeAgree :=
  ⟨decode_encode, fun _ _ => eq_encode_of_decode, fun _ h _ => decodeRecords_flatMap_recordBytes h⟩

/-- Settles O1: the fifteen words and the two markers, each decoded. -/
theorem opcodeMapWordsDecode : Obligations.OpcodeMapWordsDecode := by
  refine ⟨?_, ?_, ?_, ?_, ?_, ?_, ?_, ?_, ?_, ?_, ?_, ?_, ?_, ?_, ?_, decodeRecord_internal, decodeRecord_leaf⟩ <;> rfl

end Sys2Proof
end

section
/-! PROOFS. The commands by kind: primitives, each with its opcode, its failure effects and its body (R187, R211), and
COMPRESS and DECOMPRESS, which run primitives one after another (R190, R191). -/

namespace Sys2Proof.Machine

/-! ### Primitives -/

/-- The command is a primitive with this opcode, these failure effects and this body. -/
inductive Primitive : Instr → (op : Byte) → (drop : State → State) → (body : State → Effect) → Prop where
  | nop : Primitive .nop 0x00 id .done
  | freq : Primitive .freq 0x01 dropFreq freqBody
  | build : Primitive .build 0x02 dropTree buildBody
  | gencode : Primitive .gencode 0x03 dropCode gencodeBody
  | encode : Primitive .encode 0x04 dropBits encodeBody
  | sertree : Primitive .sertree 0x05 dropTreeBytes sertreeBody
  | pack : Primitive .pack 0x06 dropPayload packBody
  | wrcont : Primitive .wrcont 0x07 dropOutput wrcontBody
  | rdcont : Primitive .rdcont 0x08 dropContainer rdcontBody
  | destree : Primitive .destree 0x09 dropTree destreeBody
  | unpack : Primitive .unpack 0x0A dropBits unpackBody
  | walk : Primitive .walk 0x0B dropOutput walkBody
  | clear : Primitive .clear 0x1F id (fun u => .done (invalidateAll u))

/-- The command is COMPRESS or DECOMPRESS, which run these parts on invalidated outputs. -/
inductive Macro : Instr → List (State → Ran) → Prop where
  | compress : Macro .compress compressSteps
  | decompress : Macro .decompress decompressSteps

theorem command_cases {i : Instr} (h : i.isRecord = false) :
    (∃ op drop body, Primitive i op drop body) ∨ ∃ ps, Macro i ps := by
  cases i with
  | nop => exact .inl ⟨_, _, _, .nop⟩
  | freq => exact .inl ⟨_, _, _, .freq⟩
  | build => exact .inl ⟨_, _, _, .build⟩
  | gencode => exact .inl ⟨_, _, _, .gencode⟩
  | encode => exact .inl ⟨_, _, _, .encode⟩
  | sertree => exact .inl ⟨_, _, _, .sertree⟩
  | pack => exact .inl ⟨_, _, _, .pack⟩
  | wrcont => exact .inl ⟨_, _, _, .wrcont⟩
  | rdcont => exact .inl ⟨_, _, _, .rdcont⟩
  | destree => exact .inl ⟨_, _, _, .destree⟩
  | unpack => exact .inl ⟨_, _, _, .unpack⟩
  | walk => exact .inl ⟨_, _, _, .walk⟩
  | clear => exact .inl ⟨_, _, _, .clear⟩
  | compress => exact .inr ⟨_, .compress⟩
  | decompress => exact .inr ⟨_, .decompress⟩
  | internal => cases h
  | leaf sym => cases h

/-- Everything a primitive can leave before its completion: its body's writes, or its failure effects. -/
theorem runPrimitive_ended {op : Byte} {drop : State → State} {body : State → Effect} {s t : State}
    {e : Option ErrKind} (h : runPrimitive op drop body s = .ended t e) :
    (body (s.setStage op) = .done t ∧ e = none) ∨
      ∃ x, body (s.setStage op) = .raise x ∧ e = some x ∧ t = drop (s.setStage op) := by
  cases hb : body (s.setStage op) with
  | done u =>
    obtain ⟨rfl, rfl⟩ := Ran.ended.inj ((runPrimitive_done hb).symm.trans h)
    exact .inl ⟨rfl, rfl⟩
  | raise x =>
    obtain ⟨rfl, rfl⟩ := Ran.ended.inj ((runPrimitive_raise hb).symm.trans h)
    exact .inr ⟨x, rfl, rfl, rfl⟩
  | stop f => cases (runPrimitive_stop hb).symm.trans h

namespace Primitive

variable {i : Instr} {op : Byte} {drop : State → State} {body : State → Effect}

theorem exec_eq (h : Primitive i op drop body) (s : State) : exec i s = conclude (runPrimitive op drop body s) := by
  cases h <;> rfl

/-- The opcode is the low byte of the command word (R72, R194). -/
theorem commandWord_eq (h : Primitive i op drop body) :
    commandWord i = some (op.setWidth 32) ∧ (op.toNat < 0x10 ∨ op.toNat = 0x1F) := by
  cases h <;> exact ⟨rfl, by decide⟩

theorem drop_writes (h : Primitive i op drop body) (s : State) : outputsOnly s (drop s) := by
  cases h <;> rfl

theorem body_writes (h : Primitive i op drop body) {s t : State} (hb : body s = .done t) : outputsOnly s t := by
  cases h with
  | nop => cases hb; rfl
  | freq => exact freqBody_writes hb
  | build => exact buildBody_writes hb
  | gencode => exact gencodeBody_writes hb
  | encode => exact encodeBody_writes hb
  | sertree => exact sertreeBody_writes hb
  | pack => exact packBody_writes hb
  | wrcont => exact wrcontBody_writes hb
  | rdcont => exact rdcontBody_writes hb
  | destree => exact destreeBody_writes hb
  | unpack => exact unpackBody_writes hb
  | walk => exact walkBody_writes hb
  | clear => cases hb; rfl

theorem writes (h : Primitive i op drop body) {s t : State} {e : Option ErrKind}
    (hrun : runPrimitive op drop body s = .ended t e) : outputsOnly (s.setStage op) t := by
  obtain ⟨hb, -⟩ | ⟨x, -, -, rfl⟩ := runPrimitive_ended hrun
  · exact h.body_writes hb
  · exact h.drop_writes _

/-- A primitive that ends has set STAGE to its opcode (R187). -/
theorem stage_eq (h : Primitive i op drop body) {s t : State} {e : Option ErrKind}
    (hrun : runPrimitive op drop body s = .ended t e) : t.status.stage = op :=
  congrArg (fun u => u.status.stage) (h.writes hrun)

/-- A primitive that ends with an error code took the error entry (R210). -/
theorem exec_failed (h : Primitive i op drop body) {s t : State} (hexec : exec i s = .next t)
    (hfailed : t.status.err ≠ 0) : ∃ e, body (s.setStage op) = .raise e ∧ t = errorEntry op drop e s := by
  rw [h.exec_eq] at hexec
  obtain ⟨u, -, rfl⟩ | hraise := conclude_runPrimitive_next.1 hexec
  · exact absurd rfl hfailed
  · exact hraise

end Primitive

/-! ### Macros -/

namespace Macro

variable {i : Instr} {ps : List (State → Ran)}

theorem exec_eq (h : Macro i ps) (s : State) : exec i s = conclude (runAll ps (invalidateAll s)) := by
  cases h <;> rfl

theorem ne_nil (h : Macro i ps) : ps ≠ [] := by
  cases h <;> exact List.cons_ne_nil _ _

/-- Every part is a primitive; those of COMPRESS have the opcodes 1 to 7, those of DECOMPRESS 8 to 0x0B. -/
theorem part_primitive (h : Macro i ps) {p : State → Ran} (hp : p ∈ ps) :
    ∃ j op drop body, Primitive j op drop body ∧ p = runPrimitive op drop body ∧
      (i = .compress ∧ 1 ≤ op.toNat ∧ op.toNat ≤ 7 ∨ i = .decompress ∧ 8 ≤ op.toNat ∧ op.toNat ≤ 0xB) := by
  cases h with
  | compress =>
    revert p
    simp only [compressSteps, List.forall_mem_cons]
    exact ⟨⟨_, _, _, _, .freq, rfl, by decide⟩, ⟨_, _, _, _, .build, rfl, by decide⟩,
      ⟨_, _, _, _, .gencode, rfl, by decide⟩, ⟨_, _, _, _, .encode, rfl, by decide⟩,
      ⟨_, _, _, _, .sertree, rfl, by decide⟩, ⟨_, _, _, _, .pack, rfl, by decide⟩,
      ⟨_, _, _, _, .wrcont, rfl, by decide⟩, nofun⟩
  | decompress =>
    revert p
    simp only [decompressSteps, List.forall_mem_cons]
    exact ⟨⟨_, _, _, _, .rdcont, rfl, by decide⟩, ⟨_, _, _, _, .destree, rfl, by decide⟩,
      ⟨_, _, _, _, .unpack, rfl, by decide⟩, ⟨_, _, _, _, .walk, rfl, by decide⟩, nofun⟩

end Macro

/-- A run of parts ends as one of its parts does. -/
theorem runAll_ended_part {ps : List (State → Ran)} (hps : ps ≠ []) {s t : State} {e : Option ErrKind}
    (h : runAll ps s = .ended t e) : ∃ p ∈ ps, ∃ u, p u = .ended t e := by
  induction ps generalizing s with
  | nil => exact absurd rfl hps
  | cons p ps ih =>
    cases hp : p s with
    | stopped f => rw [runAll_cons_stopped hp] at h; cases h
    | ended u x =>
      cases x with
      | some x =>
        rw [runAll_cons_failed hp] at h
        exact ⟨p, List.mem_cons_self, s, hp.trans h⟩
      | none =>
        rw [runAll_cons_ok hp] at h
        cases ps with
        | nil => exact ⟨p, List.mem_cons_self, s, hp.trans h⟩
        | cons q ps =>
          obtain ⟨r, hr, v, hv⟩ := ih (List.cons_ne_nil _ _) h
          exact ⟨r, List.mem_cons_of_mem _ hr, v, hv⟩

/-! ### Rules about every command -/

theorem errCode_le (e : Option ErrKind) : (errCode e).toNat ≤ 9 := by
  cases e with
  | none => decide
  | some e => exact (errKind_code_pos e).2

/-- The stage that a command word leaves: its own low byte for a primitive, else that of a part. -/
def stageOf (i : Instr) (stage : Byte) : Prop :=
  ∀ w, commandWord i = some w →
    (w.toNat < 0x10 ∨ w.toNat = 0x1F → stage = w.setWidth 8) ∧
    (w.toNat = 0x10 → 1 ≤ stage.toNat ∧ stage.toNat ≤ 7) ∧
    (w.toNat = 0x11 → 8 ≤ stage.toNat ∧ stage.toNat ≤ 0xB)

theorem Primitive.stageOf_opcode {i : Instr} {op : Byte} {drop : State → State} {body : State → Effect}
    (h : Primitive i op drop body) : stageOf i op := by
  obtain ⟨hword, hop⟩ := h.commandWord_eq
  intro w hw
  obtain rfl : op.setWidth 32 = w := Option.some.inj (hword.symm.trans hw)
  have hnat : (op.setWidth 32).toNat = op.toNat := BitVec.toNat_setWidth_of_le (by decide)
  refine ⟨fun _ => ?_, fun h10 => by omega, fun h11 => by omega⟩
  rw [BitVec.setWidth_setWidth_of_le _ (by decide), BitVec.setWidth_eq]

theorem Macro.stageOf_ended {i : Instr} {ps : List (State → Ran)} (h : Macro i ps) {s t : State} {e : Option ErrKind}
    (hrun : runAll ps s = .ended t e) : stageOf i t.status.stage := by
  obtain ⟨p, hp, u, hu⟩ := runAll_ended_part h.ne_nil hrun
  obtain ⟨j, op, drop, body, hprim, rfl, hrange⟩ := h.part_primitive hp
  rw [hprim.stage_eq hu]
  intro w hw
  obtain ⟨rfl, hlow, hhigh⟩ | ⟨rfl, hlow, hhigh⟩ := hrange <;> obtain rfl := Option.some.inj hw
  · exact ⟨fun h => absurd h (by decide), fun _ => ⟨hlow, hhigh⟩, fun h => absurd h (by decide)⟩
  · exact ⟨fun h => absurd h (by decide), fun h => absurd h (by decide), fun _ => ⟨hlow, hhigh⟩⟩

/-- Where a command ends, it has set STAGE, and the completion step follows (R186, R194). -/
theorem exec_command_stage {i : Instr} {s t : State} (hi : i.isRecord = false) (h : exec i s = .next t) :
    stageOf i t.status.stage := by
  obtain ⟨op, drop, body, hprim⟩ | ⟨ps, hmacro⟩ := command_cases hi
  · rw [hprim.exec_eq] at h
    cases hr : runPrimitive op drop body s with
    | stopped f => rw [hr] at h; cases h
    | ended u e =>
      rw [hr] at h
      obtain rfl := Host.Outcome.next.inj h
      exact (hprim.stage_eq hr).symm ▸ hprim.stageOf_opcode
  · rw [hmacro.exec_eq] at h
    cases hr : runAll ps (invalidateAll s) with
    | stopped f => rw [hr] at h; cases h
    | ended u e =>
      rw [hr] at h
      obtain rfl := Host.Outcome.next.inj h
      show stageOf i u.status.stage
      exact hmacro.stageOf_ended hr

/-- A command that ends completes. -/
theorem exec_command_completes {i : Instr} {s t : State} (hi : i.isRecord = false) (h : exec i s = .next t) :
    completesTo s t := by
  refine (exec_cases h).resolve_right ?_
  rintro ⟨hrecord, -⟩
  rw [hi] at hrecord
  cases hrecord

/-- Settles O15: a command ends in the completion step of its last primitive. -/
theorem completionIsReported : Obligations.CompletionIsReported := by
  intro i s t hi h
  obtain ⟨u, e, hwrites, hcomplete⟩ := exec_command_completes hi h
  have hstage := exec_command_stage hi h
  subst hcomplete
  refine ⟨rfl, rfl, errCode_le e, fun k => ?_, hstage⟩
  rw [complete_elog, commandWrites_elog hwrites, BitVec.getLsbD_or, elogBit_getLsbD]
  rfl

theorem hostSideSame_of_commandWrites {s t : State} (h : commandWrites s t) (e : Option ErrKind) :
    hostSideSame s (t.complete e) ∧ ∀ k, sameAt s (t.complete e) .inp k := by
  unfold commandWrites outputsOnly at h
  rw [h]
  exact ⟨⟨rfl, rfl, rfl, rfl, rfl, rfl, rfl, rfl, rfl⟩, fun _ => rfl⟩

/-- Settles O16: a command writes its outputs and completes; a record under way writes the parser's registers. -/
theorem engineNeverWritesTheHostsState : Obligations.EngineNeverWritesTheHostsState := by
  intro i s t h
  obtain ⟨u, e, hwrites, rfl⟩ | ⟨-, n, p, rfl⟩ := exec_cases h
  · exact hostSideSame_of_commandWrites hwrites e
  · exact ⟨⟨rfl, rfl, rfl, rfl, rfl, rfl, rfl, rfl, rfl⟩, fun _ => rfl⟩

/-! ### What a failing primitive clears (R211) -/

/-- A failing primitive leaves VALID and the data registers as its failure effects make them, and nothing else changes. -/
theorem Primitive.failed_failsWith {i : Instr} {op : Byte} {drop : State → State} {body : State → Effect}
    (hprim : Primitive i op drop body) {s t : State} (hexec : exec i s = .next t) (hfailed : t.status.err ≠ 0) :
    hostSideSame s t ∧ ((∀ sp k, sameAt s t sp k) ∧ t.pq = s.pq) ∧ t.valid = (drop s).valid ∧ t.data = (drop s).data := by
  obtain ⟨e, -, rfl⟩ := hprim.exec_failed hexec hfailed
  have hfails : failsWith s (errorEntry op drop e s) op e (drop s).valid (drop s).data := by
    cases hprim <;> exact errorEntry_failsWith e rfl rfl
  obtain ⟨⟨-, hhost, hsame⟩, hvalid, hdata, hpq⟩ := hfails
  exact ⟨hhost, ⟨fun sp k => hsame sp k not_false, hpq⟩, hvalid, hdata⟩

/-- The step of a busy engine that holds an illegal word, outside a parse. -/
theorem step_illegalCommand {s : State} {rest : List Turn} {x : DecodeError} (hturn : engineNext s rest)
    (hb : s.status.busy = true) (hp : s.parsing = false) (hdecode : decodeCommand s.oplatch = .error x) :
    step s = .next (illegalCommand { s with agenda := rest }) := by
  rw [step_of_engineNext hturn]
  simp [engineTurn, fetch, undecodable, hb, hp, hdecode]

/-- Settles O17: each row is a primitive's failure effects, and an illegal word has none. -/
theorem failingPrimitiveOnlyInvalidatesItsOutputs : Obligations.FailingPrimitiveOnlyInvalidatesItsOutputs := by
  intro s t hfailed unwritten kept
  have hrow {i : Instr} {op : Byte} {drop : State → State} {body : State → Effect} (hprim : Primitive i op drop body)
      (hexec : exec i s = .next t) : kept ∧ t.valid = (drop s).valid ∧ t.data = (drop s).data := by
    obtain ⟨hhost, hun, hvalid, hdata⟩ := hprim.failed_failsWith hexec hfailed
    exact ⟨⟨hhost, hun⟩, hvalid, hdata⟩
  refine ⟨hrow .freq, ?tree, hrow .gencode, ?bits, hrow .sertree, hrow .pack, ?output, hrow .rdcont, ?illegal⟩
  case tree => exact fun h => h.elim (hrow .build) (hrow .destree)
  case bits => exact fun h => h.elim (hrow .encode) (hrow .unpack)
  case output => exact fun h => h.elim (hrow .wrcont) (hrow .walk)
  case illegal =>
    intro rest w hturn hb hp hdecode hstep
    rw [step_illegalCommand hturn hb hp hdecode] at hstep
    obtain rfl := Host.Outcome.next.inj hstep
    obtain ⟨⟨-, hhost, hsame⟩, hvalid, hdata, hpq⟩ := illegalCommand_failsWith { s with agenda := rest }
    refine ⟨hhost, ⟨fun sp k => sameAt_trans ?_ (hsame sp k not_false), hpq⟩, hvalid, hdata⟩
    exact sameAt_of_memories rfl rfl rfl rfl rfl rfl rfl rfl rfl sp k

end Sys2Proof.Machine
end

section
/-! PROOFS. Resets, host accesses while BUSY, the engine's turn and the interrupt line (R56, R65, R216, R230 to R234). -/

namespace Sys2Proof.Machine

/-! ### BUSY and reset -/

/-- Settles O6: the write is one of those that are ignored, and a register read is the read of the state as it stands. -/
theorem hostWritesWhileBusyAreIgnored : Obligations.HostWritesWhileBusyAreIgnored := by
  intro s rest hb
  refine ⟨fun idx v hturn => ?writeReg, fun i b hturn => ?writeIn, fun idx hturn => ⟨step_of_hostTurn hturn, ?busyBit⟩⟩
  case writeReg =>
    rw [step_of_hostTurn hturn, hostTurn, hostWriteReg_ignored (s := { s with agenda := rest }) v (.inl hb)]
  case writeIn =>
    rw [step_of_hostTurn hturn, hostTurn, hostWriteIn_ignored (s := { s with agenda := rest }) b (.inl hb)]
  case busyBit => exact (getLsbD_statusWord s.status 0).trans hb

/-- Settles O12: the step is `hostReset`, field by field. -/
theorem hostResetAtAnyTime : Obligations.HostResetAtAnyTime := fun _ _ hturn =>
  ⟨_, step_of_hostTurn hturn, rfl, rfl, rfl, rfl, rfl, rfl, rfl, rfl, rfl, rfl, rfl, rfl, rfl⟩

/-- Settles O13: each register of the reset state, read. -/
theorem registersAfterReset : Obligations.RegistersAfterReset := by
  refine ⟨rfl, rfl, rfl, fun idx h1 h15 => ?_, rfl, rfl, rfl⟩
  interval_cases idx <;> rfl

/-! ### The engine's turn -/

theorem fetch_command {s : State} (hp : s.parsing = false) : fetch s = decodeCommand s.oplatch := by
  simp [fetch, hp]

theorem fetch_record {s : State} {i : Instr} {left : List Byte} (hp : s.parsing = true)
    (h : decodeRecord s.treeBytesLeft = .ok (i, left)) : fetch s = .ok i := by
  simp [fetch, hp, h]

theorem engineTurn_atRest {s : State} (hb : s.status.busy = false) : engineTurn s = .next s := by
  simp [engineTurn, hb]

theorem engineTurn_fetched {s : State} {i : Instr} (hb : s.status.busy = true) (h : fetch s = .ok i) :
    engineTurn s = exec i s := by
  simp [engineTurn, hb, h]

/-- Settles O4: the engine's turn is `exec` of what `fetch` answers, and nothing at rest. -/
theorem stepExecutesDecodedInstruction : Obligations.StepExecutesDecodedInstruction := by
  intro s rest hturn
  rw [step_of_engineNext hturn]
  refine ⟨fun i hb hp hdecode => ?command, fun i left hb hp hdecode => ?record, fun hb => ?atRest⟩
  case command => exact engineTurn_fetched hb ((fetch_command (s := { s with agenda := rest }) hp).trans hdecode)
  case record => exact engineTurn_fetched hb (fetch_record (s := { s with agenda := rest }) hp hdecode)
  case atRest => exact engineTurn_atRest hb

/-! ### The Internal record -/

/-- Settles O51: there is room for the node and it is opened, or there is not and DESTREE fails. -/
theorem internalRecordOpensASlot : Obligations.InternalRecordOpensASlot := by
  refine fun s => ⟨fun hslot hroom => ?opened, fun hfull => ?full⟩
  case opened =>
    have hmore : parseInternal s.parser =
        .more ⟨s.work.nalloc + 1, (s.work.nalloc.setWidth 9, false) :: s.work.stack, s.draft⟩ :=
      if_neg (not_or.2 ⟨Nat.not_le.2 hslot, Nat.not_le.2 hroom⟩)
    refine ⟨s.keepParsing 1 ⟨s.work.nalloc + 1, (s.work.nalloc.setWidth 9, false) :: s.work.stack, s.draft⟩, ?_, rfl,
      nalloc_add_one hslot, _, ?_, rfl⟩
    · show finishRecord 1 (parseInternal s.parser) s = _
      rw [hmore]
      rfl
    · rw [BitVec.toNat_setWidth]
      omega
  case full =>
    have hnone : parseInternal s.parser = .full := if_pos hfull
    refine ⟨malformedRecord s, ?_, errorEntry_failsWith _ rfl rfl⟩
    show finishRecord 1 (parseInternal s.parser) s = _
    rw [hnone]
    rfl

/-! ### The interrupt line -/

/-- The line is the bit DONE of STATUS and the bit IE of CTRL (R216). -/
theorem irq_eq_readReg (s : State) : irq s = ((readReg s 2).getLsbD 1 && (readReg s 4).getLsbD 2) := by
  have hdone : (readReg s 2).getLsbD 1 = s.status.done := getLsbD_statusWord s.status 1
  have hie : (readReg s 4).getLsbD 2 = s.ctrl.ie := getLsbD_ctrlWord s.ctrl 2
  rw [hdone, hie]
  rfl

/-- A step after which a busy engine is at rest, and which is no reset, completes a command. -/
theorem step_completes {s t : State} (h : step s = .next t) (hb : s.status.busy = true) (hended : t.status.busy = false)
    (hreset : ∀ rest, s.agenda ≠ .host .reset :: rest) : ∃ rest, completesTo { s with agenda := rest } t := by
  have hstill {u : State} (hu : u.status = s.status) (htu : t = u) : False := by
    rw [htu, hu, hb] at hended
    cases hended
  rcases step_cases s with ⟨rest, hturn, hs⟩ | ⟨x, rest, hturn, hs⟩ | ⟨low, width, v, rest, hturn, hs⟩
  · obtain ⟨hrest, -⟩ | ⟨-, hc⟩ | ⟨-, n, p, rfl⟩ := engineTurn_next (hs.symm.trans h)
    · exact absurd (hb.symm.trans hrest) Bool.noConfusion
    · exact ⟨rest, hc⟩
    · exact (hstill (u := State.keepParsing n p { s with agenda := rest }) rfl rfl).elim
  · refine (hstill ?_ rfl).elim
    have hx : x ≠ .reset := fun hx => hreset rest (hx ▸ hturn)
    by_cases hwrite : ∃ idx v, x = .writeReg idx v
    · obtain ⟨idx, v, rfl⟩ := hwrite
      have hignored : t = { s with agenda := rest } := Host.Outcome.next.inj <| by
        rw [← h, hs, hostTurn, hostWriteReg_ignored (s := { s with agenda := rest }) v (.inl hb)]
      rw [hignored]
    · exact (hostTurn_keepsStatusAndElog (hs.symm.trans h) hx fun idx v hv => hwrite ⟨idx, v, hv⟩).1
  · refine (hstill ?_ rfl).elim
    rw [Host.Outcome.next.inj (h.symm.trans hs), hostCompare_eq]

/-- Settles O14: the five kinds of step that can change DONE or IE, each by its equation. -/
theorem interruptLineFollowsDoneAndEnable : Obligations.InterruptLineFollowsDoneAndEnable := by
  refine fun s t => ⟨irq_eq_readReg s, fun h => ⟨fun hb hended hreset => ?completion, fun w rest hturn hrest => ?accepted,
    fun v rest hturn hrest => ?doneCleared, fun v rest hturn hrest => ?ctrlWritten, fun rest hturn => ?reset⟩⟩
  case completion =>
    obtain ⟨rest, u, e, hwrites, rfl⟩ := step_completes h hb hended hreset
    obtain ⟨⟨-, hctrl, -⟩, -⟩ := hostSideSame_of_commandWrites hwrites e
    rw [irq, hctrl]
    rfl
  case accepted =>
    rw [step_of_hostTurn hturn, hostTurn, hostWriteReg_atRest (s := { s with agenda := rest }) _ _ hrest] at h
    obtain rfl := Host.Outcome.next.inj h
    rfl
  case doneCleared =>
    rw [step_of_hostTurn hturn, hostTurn, hostWriteReg_atRest (s := { s with agenda := rest }) _ _ hrest,
      writeRegAtRest_status] at h
    obtain rfl := Host.Outcome.next.inj h
    exact Bool.and_right_comm ..
  case ctrlWritten =>
    rw [step_of_hostTurn hturn, hostTurn, hostWriteReg_atRest (s := { s with agenda := rest }) _ _ hrest] at h
    obtain rfl := Host.Outcome.next.inj h
    rfl
  case reset =>
    rw [step_of_hostTurn hturn] at h
    obtain rfl := Host.Outcome.next.inj h
    rfl

end Sys2Proof.Machine
end

section
/-! PROOFS. How a property of states becomes an invariant: what a step can do, once, and what is left to show of each
primitive (R34). -/

namespace Sys2Proof.Machine

/-! ### Commands -/

/-- Every part of a command hands the property on: STAGE, failure effects, a body that ends well, the invalidation of
COMPRESS and DECOMPRESS, and the completion step. -/
structure KeptByCommands (P : State → Prop) : Prop where
  stage : ∀ op s, P s → P (s.setStage op)
  drop : ∀ {i op drop body}, Primitive i op drop body → ∀ s, P s → P (drop s)
  body : ∀ {i op drop body}, Primitive i op drop body → ∀ {s t}, P s → body s = .done t → P t
  invalidate : ∀ s, P s → P (invalidateAll s)
  complete : ∀ e s, P s → P (s.complete e)

namespace KeptByCommands

variable {P : State → Prop} (hP : KeptByCommands P)

include hP

theorem runPrimitive {i : Instr} {op : Byte} {drop : State → State} {body : State → Effect}
    (hprim : Primitive i op drop body) {s t : State} {e : Option ErrKind} (hs : P s)
    (h : runPrimitive op drop body s = .ended t e) : P t := by
  obtain ⟨hb, -⟩ | ⟨x, -, -, rfl⟩ := runPrimitive_ended h
  · exact hP.body hprim (hP.stage op s hs) hb
  · exact hP.drop hprim _ (hP.stage op s hs)

theorem runAll {i : Instr} {ps : List (State → Ran)} (hmacro : Macro i ps) {s t : State} {e : Option ErrKind} (hs : P s)
    (h : runAll ps (invalidateAll s) = .ended t e) : P t := by
  refine runAll_keeps P ps (fun p hp u v x hu hv => ?_) _ t e (hP.invalidate s hs) h
  obtain ⟨j, op, drop, body, hprim, rfl, -⟩ := hmacro.part_primitive hp
  exact hP.runPrimitive hprim hu hv

theorem exec_command {i : Instr} {s t : State} (hi : i.isRecord = false) (hs : P s) (h : exec i s = .next t) : P t := by
  obtain ⟨op, drop, body, hprim⟩ | ⟨ps, hmacro⟩ := command_cases hi
  · rw [hprim.exec_eq] at h
    cases hr : Machine.runPrimitive op drop body s with
    | stopped f => rw [hr] at h; cases h
    | ended u e =>
      rw [hr] at h
      obtain rfl := Host.Outcome.next.inj h
      exact hP.complete e u (hP.runPrimitive hprim hs hr)
  · rw [hmacro.exec_eq] at h
    cases hr : Machine.runAll ps (invalidateAll s) with
    | stopped f => rw [hr] at h; cases h
    | ended u e =>
      rw [hr] at h
      obtain rfl := Host.Outcome.next.inj h
      exact hP.complete e u (hP.runAll hmacro hs hr)

theorem malformedRecord {s : State} (hs : P s) : P (malformedRecord s) :=
  hP.complete _ _ (hP.drop .destree _ (hP.stage _ s hs))

theorem illegalCommand {s : State} (hs : P s) : P (illegalCommand s) :=
  hP.complete _ _ (hP.stage _ s hs)

end KeptByCommands

/-! ### Records -/

/-- What a record does to the parser; a command is no record. -/
def parseRecord (i : Instr) (p : Parser) : ParseStep :=
  match i with
  | .internal => parseInternal p
  | .leaf sym => parseLeaf sym p
  | _ => .full

theorem exec_record {i : Instr} (hi : i.isRecord = true) (s : State) :
    ∃ n, exec i s = finishRecord n (parseRecord i s.parser) s := by
  cases i with
  | internal => exact ⟨1, rfl⟩
  | leaf sym => exact ⟨2, rfl⟩
  | _ => cases hi

/-- What a record hands on in a parse under way: the parser after it, and the tree that it completes. -/
structure KeptByRecords (P : State → Prop) : Prop where
  more : ∀ {i p} s n, s.parsing = true → s.status.busy = true → parseRecord i s.parser = .more p → P s →
    P (s.keepParsing n p)
  commit : ∀ {i root p} s, s.parsing = true → parseRecord i s.parser = .root root p → P s → P (commitTree root p s)

theorem exec_record_keeps {P : State → Prop} (hP : KeptByCommands P) (hR : KeptByRecords P) {i : Instr} {s t : State}
    (hi : i.isRecord = true) (hp : s.parsing = true) (hb : s.status.busy = true) (hs : P s)
    (h : exec i s = .next t) : P t := by
  obtain ⟨n, hexec⟩ := exec_record hi s
  rw [hexec] at h
  cases hstep : parseRecord i s.parser with
  | full =>
    rw [hstep] at h
    obtain rfl := Host.Outcome.next.inj h
    exact hP.malformedRecord hs
  | more p =>
    rw [hstep] at h
    obtain rfl := Host.Outcome.next.inj h
    exact hR.more s n hp hb hstep hs
  | root id p =>
    rw [hstep] at h
    obtain ⟨u, hu, rfl⟩ | ⟨e, -, rfl⟩ := conclude_runPrimitive_next.1 h
    · obtain ⟨-, hu⟩ := require_done.1 hu
      obtain rfl := Effect.done.inj hu
      exact hP.complete none _ (hR.commit (s.setStage 0x09) hp hstep (hP.stage _ s hs))
    · exact hP.complete _ _ (hP.drop .destree _ (hP.stage _ s hs))

/-! ### The host -/

/-- `t` differs from `s` at most in what the host writes at any time or reads back: CTRL, the debug registers, IN_LEN,
and the model's own reply, agenda and mismatches. -/
def portsOnly (s t : State) : Prop :=
  t = { s with
    ctrl := t.ctrl, dbg := t.dbg, data := { s.data with inLen := t.data.inLen }, reply := t.reply, agenda := t.agenda,
    mismatches := t.mismatches }

/-- Everything a host transaction can do. -/
inductive HostStep (s : State) : State → Prop where
  | ports {t : State} (h : portsOnly s t) : HostStep s t
  | reset : HostStep s (hostReset s)
  | accept (w : Word) (rest : s.status.busy = false) : HostStep s (s.accept w)
  | doneWritten (d : Bool) (rest : s.status.busy = false) :
      HostStep s { s with status := { s.status with done := d } }
  | elogWritten (v : Word) : HostStep s { s with elog := elogAfterWrite s.elog v }
  | inWritten (i : Nat) (b : Byte) (hi : i < s.par.inCap) : HostStep s { s with inp := s.inp.write i b }

theorem hostWriteReg_hostStep (idx : Nat) (v : Word) (s : State) : HostStep s (hostWriteReg idx v s) := by
  by_cases hb : s.status.busy = false
  · rw [hostWriteReg_atRest idx v hb]
    by_cases hidx : idx ∈ [1, 2, 3, 4, 6, 14, 15]
    · simp only [List.mem_cons, List.not_mem_nil, or_false] at hidx
      obtain rfl | rfl | rfl | rfl | rfl | rfl | rfl := hidx
      · exact .accept v hb
      · rw [writeRegAtRest_status]
        exact .doneWritten _ hb
      · exact .elogWritten v
      · exact .ports rfl
      · exact .ports rfl
      · exact .ports rfl
      · exact .ports rfl
    · rw [writeRegAtRest_notWritable v s hidx]
      exact .ports rfl
  · rw [hostWriteReg_ignored v (.inl (by simpa using hb))]
    exact .ports rfl

theorem hostWriteIn_hostStep (i : Nat) (b : Byte) (s : State) : HostStep s (hostWriteIn i b s) := by
  by_cases h : s.status.busy = true ∨ s.par.inCap ≤ i
  · rw [hostWriteIn_ignored b h]
    exact .ports rfl
  · obtain ⟨hb, hi⟩ : s.status.busy = false ∧ i < s.par.inCap := by simpa using h
    rw [hostWriteIn_stores b hb hi]
    exact .inWritten i b hi

theorem hostTurn_hostStep {x : Txn} {s t : State} (h : hostTurn x s = .next t) : HostStep s t := by
  cases x with
  | narrowReg idx offset bytes => cases h
  | reset => cases h; exact .reset
  | writeReg idx v => cases h; exact hostWriteReg_hostStep idx v s
  | writeIn i b => cases h; exact hostWriteIn_hostStep i b s
  | readReg idx => cases h; exact .ports rfl
  | readIn i => cases h; exact .ports rfl
  | readOut i => cases h; exact .ports rfl

/-- What the host can do hands the property on. -/
structure KeptByHost (P : State → Prop) : Prop where
  ports : ∀ {s t}, portsOnly s t → P s → P t
  reset : ∀ s, P s → P (hostReset s)
  accept : ∀ s w, s.status.busy = false → P s → P (s.accept w)
  doneWritten : ∀ s d, s.status.busy = false → P s → P { s with status := { s.status with done := d } }
  elogWritten : ∀ s v, P s → P { s with elog := elogAfterWrite s.elog v }
  inWritten : ∀ s i b, i < s.par.inCap → P s → P { s with inp := s.inp.write i b }

theorem KeptByHost.hostStep {P : State → Prop} (hH : KeptByHost P) {s t : State} (h : HostStep s t) (hs : P s) : P t := by
  cases h with
  | ports h => exact hH.ports h hs
  | reset => exact hH.reset s hs
  | accept w hb => exact hH.accept s w hb hs
  | doneWritten d hb => exact hH.doneWritten s d hb hs
  | elogWritten v => exact hH.elogWritten s v hs
  | inWritten i b hi => exact hH.inWritten s i b hi hs

/-! ### The step -/

/-- A command word decodes to a command. -/
theorem isRecord_of_decodeCommand {w : Word} {i : Instr} (h : decodeCommand w = .ok i) : i.isRecord = false := by
  have hword := encode_of_decodeCommand h
  cases i with
  | internal => cases hword
  | leaf sym => cases hword
  | _ => rfl

/-- Tree-bytes decode to a record. -/
theorem isRecord_of_decodeRecord {bytes left : List Byte} {i : Instr} (h : decodeRecord bytes = .ok (i, left)) :
    i.isRecord = true := by
  obtain ⟨rfl, -⟩ | ⟨sym, rfl, -⟩ := decodeRecord_ok h <;> rfl

/-- The engine fetches a command outside a parse, and a record in one. -/
theorem fetch_ok {s : State} {i : Instr} (h : fetch s = .ok i) : i.isRecord = s.parsing := by
  cases hp : s.parsing with
  | false =>
    rw [fetch_command hp] at h
    exact isRecord_of_decodeCommand h
  | true =>
    cases hdecode : decodeRecord s.treeBytesLeft with
    | error e => simp [fetch, hp, hdecode] at h
    | ok r =>
      obtain ⟨j, left⟩ := r
      rw [fetch_record hp hdecode] at h
      obtain rfl := Except.ok.inj h
      exact isRecord_of_decodeRecord hdecode

theorem engineTurn_keeps {P : State → Prop} (hP : KeptByCommands P) (hR : KeptByRecords P) {s t : State} (hs : P s)
    (h : engineTurn s = .next t) : P t := by
  rcases engineTurn_cases s with ⟨-, hturn⟩ | ⟨i, hb, hfetch, hturn⟩ | ⟨e, -, -, hturn⟩
  · rwa [← Host.Outcome.next.inj (hturn.symm.trans h)]
  · have hkind := fetch_ok hfetch
    rw [hturn] at h
    cases hp : s.parsing with
    | false => exact hP.exec_command (hkind.trans hp) hs h
    | true => exact exec_record_keeps hP hR (hkind.trans hp) hp hb hs h
  · obtain rfl := Host.Outcome.next.inj (hturn.symm.trans h)
    unfold undecodable
    split
    · exact hP.malformedRecord hs
    · exact hP.illegalCommand hs

/-- A property that commands, records and the host hand on is kept by every step. -/
theorem step_keeps {P : State → Prop} (hP : KeptByCommands P) (hR : KeptByRecords P) (hH : KeptByHost P) {s t : State}
    (hs : P s) (h : step s = .next t) : P t := by
  have hrest (rest : List Turn) : P { s with agenda := rest } := hH.ports rfl hs
  rcases step_cases s with ⟨rest, -, hturn⟩ | ⟨x, rest, -, hturn⟩ | ⟨low, width, v, rest, -, hturn⟩
  · exact engineTurn_keeps hP hR (hrest rest) (hturn.symm.trans h)
  · exact hH.hostStep (hostTurn_hostStep (hturn.symm.trans h)) (hrest rest)
  · rw [hostCompare_eq] at hturn
    obtain rfl := Host.Outcome.next.inj (hturn.symm.trans h)
    exact hH.ports rfl (hrest rest)

end Sys2Proof.Machine
end

section
/-! PROOFS. The merges of BUILD: which nodes are in the queue before each merge, and that each takes the two least (R95 to
R101). -/

namespace Sys2Proof.Machine

/-! ### The leaf initialisation (R100, R101) -/

/-- The symbols with a count above 0 in a table of counts, in ascending order. -/
def observedIn (freqOf : Nat → Word) : List Nat := (List.range Config.nsym).filter (fun c => decide (freqOf c ≠ 0))

theorem observed_eq (s : State) : observed s = observedIn s.freqAt := rfl

theorem mem_observedIn {freqOf : Nat → Word} {c : Nat} : c ∈ observedIn freqOf ↔ c < 256 ∧ freqOf c ≠ 0 := by
  simp [observedIn, Config.nsym]

theorem nodup_observedIn (freqOf : Nat → Word) : (observedIn freqOf).Nodup := List.nodup_range.filter _

theorem length_observedIn_le (freqOf : Nat → Word) : (observedIn freqOf).length ≤ 256 :=
  (List.length_filter_le _ _).trans_eq List.length_range

theorem observedIn_congr {freqOf freqOf' : Nat → Word} (h : ∀ c, c < 256 → freqOf c = freqOf' c) :
    observedIn freqOf = observedIn freqOf' :=
  List.filter_congr fun c hc => by rw [h c (List.mem_range.1 hc)]

/-- The Leaf of an observed symbol (R100). -/
def leafNode (freqOf : Nat → Word) (c : Nat) : Node := ⟨true, BitVec.ofNat 8 c, freqOf c, 0, 0⟩

/-- The arena of a builder, slot by slot. -/
def Builder.arena (epoch : Nat) (b : Builder) : Nat → Node := readNode epoch b.node

theorem addLeaf_observed {freqOf : Nat → Word} {c : Nat} (h : freqOf c ≠ 0) (b : Builder) :
    addLeaf freqOf b c =
      { b with node := b.node.write c (leafNode freqOf c), pq := pqInsert (BitVec.ofNat 9 c) b.pq } := if_neg h

theorem addLeaf_absent {freqOf : Nat → Word} {c : Nat} (h : freqOf c = 0) (b : Builder) : addLeaf freqOf b c = b :=
  if_pos h

theorem ofNat_nodeId_injOn {a b : Nat} (ha : a < 512) (hb : b < 512) (h : BitVec.ofNat 9 a = BitVec.ofNat 9 b) :
    a = b := by
  have hnat := congrArg BitVec.toNat h
  rw [BitVec.toNat_ofNat, BitVec.toNat_ofNat] at hnat
  omega

theorem pqInsert_of_notMem {id : NodeId} {pq : List NodeId} (h : id ∉ pq) : pqInsert id pq = pq ++ [id] := if_neg h

/-- The first symbols, taken one after another: each observed one enters the queue and gets its Leaf. -/
theorem foldl_addLeaf (epoch : Nat) (freqOf : Nat → Word) (node : Memory Node) {n : Nat} (hn : n ≤ 256) :
    ∃ m : Memory Node, (List.range n).foldl (addLeaf freqOf) ⟨node, [], 0⟩ =
        ⟨m, ((List.range n).filter (fun c => decide (freqOf c ≠ 0))).map (BitVec.ofNat 9), 0⟩ ∧
      (∀ i, readNode epoch m i = if i < n ∧ freqOf i ≠ 0 then leafNode freqOf i else readNode epoch node i) ∧
      (node.wf → m.wf) ∧ ∀ cap, 256 ≤ cap → node.below cap → m.below cap := by
  induction n with
  | zero => exact ⟨node, rfl, fun i => by simp, id, fun _ _ => id⟩
  | succ n ih =>
    obtain ⟨m, hfold, hread, hwf, hbelow⟩ := ih (Nat.le_of_succ_le hn)
    rw [List.range_succ, List.foldl_append, hfold, List.foldl_cons, List.foldl_nil]
    by_cases hobs : freqOf n = 0
    · refine ⟨m, by rw [addLeaf_absent hobs]; simp [hobs], fun i => ?_, hwf, hbelow⟩
      by_cases hi : i = n
      · subst hi; simp [hread, hobs]
      · rw [hread]
        have hlt : i < n + 1 ↔ i < n := by omega
        simp only [hlt]
    · have hnew : BitVec.ofNat 9 n ∉ ((List.range n).filter (fun c => decide (freqOf c ≠ 0))).map (BitVec.ofNat 9) := by
        intro hmem
        obtain ⟨c, hc, heq⟩ := List.mem_map.1 hmem
        have hlt := List.mem_range.1 (List.mem_filter.1 hc).1
        exact absurd (ofNat_nodeId_injOn (by omega) (by omega) heq) (by omega)
      refine ⟨m.write n (leafNode freqOf n), ?_, fun i => ?_, fun h => write_wf _ (hwf h) _ _,
        fun cap hcap h => write_below _ _ (hbelow cap hcap h) _ _ (by omega)⟩
      · have hlast : [n].filter (fun c => decide (freqOf c ≠ 0)) = [n] :=
          List.filter_cons_of_pos (p := fun c => decide (freqOf c ≠ 0)) (decide_eq_true hobs)
        rw [addLeaf_observed hobs, pqInsert_of_notMem hnew, List.filter_append, hlast, List.map_append]
        rfl
      · rw [readNode_write, hread]
        by_cases hi : i = n
        · subst hi
          rw [if_pos rfl, if_pos ⟨Nat.lt_succ_self i, hobs⟩]
        · have hlt : i < n + 1 ↔ i < n := by omega
          simp only [hi, hlt, if_false]

theorem leafInit_spec (epoch : Nat) (freqOf : Nat → Word) (node : Memory Node) :
    ∃ m : Memory Node, leafInit freqOf node = ⟨m, (observedIn freqOf).map (BitVec.ofNat 9), 0⟩ ∧
      (∀ i, readNode epoch m i = if i ∈ observedIn freqOf then leafNode freqOf i else readNode epoch node i) ∧
      (node.wf → m.wf) ∧ ∀ cap, 256 ≤ cap → node.below cap → m.below cap := by
  simp only [mem_observedIn]
  exact foldl_addLeaf epoch freqOf node le_rfl

theorem leafInit_pq_length (freqOf : Nat → Word) (node : Memory Node) :
    (leafInit freqOf node).pq.length = (observedIn freqOf).length := by
  obtain ⟨m, hinit, -⟩ := leafInit_spec 0 freqOf node
  rw [hinit, List.length_map]

/-- The leaf initialisation reads the counts of the 256 symbols and no others. -/
theorem leafInit_congr {freqOf freqOf' : Nat → Word} (h : ∀ c, c < 256 → freqOf c = freqOf' c) (node : Memory Node) :
    leafInit freqOf node = leafInit freqOf' node := by
  have hfold (cs : List Nat) (hcs : ∀ c ∈ cs, c < 256) (b : Builder) :
      cs.foldl (addLeaf freqOf) b = cs.foldl (addLeaf freqOf') b := by
    induction cs generalizing b with
    | nil => rfl
    | cons c cs ih =>
      obtain ⟨hc, hcs⟩ := List.forall_mem_cons.1 hcs
      have hadd : addLeaf freqOf b c = addLeaf freqOf' b c := by simp only [addLeaf, h c hc]
      rw [List.foldl_cons, List.foldl_cons, hadd, ih hcs]
  exact hfold _ (fun c hc => List.mem_range.1 hc) _

theorem mergeAll_congr {freqOf freqOf' : Nat → Word} (h : ∀ c, c < 256 → freqOf c = freqOf' c) (epoch : Nat)
    (node : Memory Node) : mergeAll epoch freqOf node = mergeAll epoch freqOf' node := by
  rw [mergeAll, mergeAll, leafInit_congr h]

/-! ### One merge (R99) -/

/-- The node that a merge of `x` and `y` makes. -/
def mergedNode (arena : Nat → Node) (x y : NodeId) : Node :=
  ⟨false, 0, (arena x.toNat).freq + (arena y.toNat).freq, x, y⟩

/-- The key of a slot. -/
def slotKey (arena : Nat → Node) (id : Nat) : Key := ((arena id).freq.toNat, id)

/-- A merge takes the least member and then the least of the others. -/
theorem mergeStep_spec {epoch : Nat} {b : Builder} (hnodup : b.pq.Nodup) (htwo : 2 ≤ b.pq.length)
    (hfresh : BitVec.ofNat 9 (256 + b.merges) ∉ b.pq) :
    ∃ x y, x ∈ b.pq ∧ y ∈ b.pq.erase x ∧
      (∀ id ∈ b.pq.erase x, keyLt (b.key epoch x) (b.key epoch id) = true) ∧
      (∀ id ∈ (b.pq.erase x).erase y, keyLt (b.key epoch y) (b.key epoch id) = true) ∧
      mergeStep epoch b =
        ⟨b.node.write (256 + b.merges) (mergedNode (b.arena epoch) x y),
          (b.pq.erase x).erase y ++ [BitVec.ofNat 9 (256 + b.merges)], b.merges + 1⟩ := by
  have hkey (pq : List NodeId) : ∀ id ∈ pq, (b.key epoch id).2 = id.toNat := fun _ _ => rfl
  obtain ⟨x, hx, hxmem, hxleast⟩ := pqExtractMin_of_ne_nil hnodup (hkey _) (List.ne_nil_of_length_pos (by omega))
  have hlen : (b.pq.erase x).length = b.pq.length - 1 := List.length_erase_of_mem hxmem
  obtain ⟨y, hy, hymem, hyleast⟩ := pqExtractMin_of_ne_nil (hnodup.erase x) (hkey _)
    (List.ne_nil_of_length_pos (by omega))
  refine ⟨x, y, hxmem, hymem, hxleast, hyleast, ?_⟩
  have hnotMem : BitVec.ofNat 9 (256 + b.merges) ∉ (b.pq.erase x).erase y := fun h =>
    hfresh (List.mem_of_mem_erase (List.mem_of_mem_erase h))
  rw [mergeStep, hx]
  simp only [hy, pqInsert_of_notMem hnotMem]
  rfl

/-! ### The queue before each merge -/

/-- The slots that the leaf initialisation and the merges numbered below `k` write. -/
def builtSlot (freqOf : Nat → Word) (k id : Nat) : Prop := id ∈ observedIn freqOf ∨ (256 ≤ id ∧ id < 256 + k)

/-- A node that the merges numbered below `k` have left in the queue (R99). -/
def queuedBefore (freqOf : Nat → Word) (arena : Nat → Node) (k id : Nat) : Prop :=
  builtSlot freqOf k id ∧ ∀ j, j < k → (arena (256 + j)).left.toNat ≠ id ∧ (arena (256 + j)).right.toNat ≠ id

theorem inQueueAt_iff {s t : State} {k id : Nat} : inQueueAt s t k id ↔ queuedBefore s.freqAt t.nodeAt k id := Iff.rfl

/-- Merge `k` made slot `256 + k` of the two least nodes then in the queue, the least on the left (R99). -/
structure MergedLeast (freqOf : Nat → Word) (arena : Nat → Node) (k : Nat) : Prop where
  node : arena (256 + k) = mergedNode arena (arena (256 + k)).left (arena (256 + k)).right
  left : queuedBefore freqOf arena k (arena (256 + k)).left.toNat
  right : queuedBefore freqOf arena k (arena (256 + k)).right.toNat
  order : keyLt (slotKey arena (arena (256 + k)).left.toNat) (slotKey arena (arena (256 + k)).right.toNat) = true
  least : ∀ id, queuedBefore freqOf arena k id → id ≠ (arena (256 + k)).left.toNat →
    id ≠ (arena (256 + k)).right.toNat → keyLt (slotKey arena (arena (256 + k)).right.toNat) (slotKey arena id) = true

theorem builtSlot_lt {freqOf : Nat → Word} {k id : Nat} (h : builtSlot freqOf k id) : id < 256 + k := by
  obtain h | h := h
  · exact (mem_observedIn.1 h).1.trans_le (Nat.le_add_right _ _)
  · exact h.2

theorem builtSlot_mono {freqOf : Nat → Word} {k k' id : Nat} (hk : k ≤ k') (h : builtSlot freqOf k id) :
    builtSlot freqOf k' id :=
  h.imp_right fun h => ⟨h.1, by omega⟩

theorem builtSlot_merge {freqOf : Nat → Word} {j k : Nat} (h : j < k) : builtSlot freqOf k (256 + j) :=
  .inr (by omega)

section

variable {freqOf : Nat → Word} {arena arena' : Nat → Node} {j k : Nat}
  (hsame : ∀ i, builtSlot freqOf k i → arena' i = arena i)

include hsame

theorem queuedBefore_congr (hj : j ≤ k) (id : Nat) :
    queuedBefore freqOf arena' j id ↔ queuedBefore freqOf arena j id := by
  refine and_congr_right fun _ => forall₂_congr fun i hi => ?_
  rw [hsame _ (builtSlot_merge (hi.trans_le hj))]

/-- What a merge found is not changed by later merges. -/
theorem MergedLeast.congr (hj : j < k) (h : MergedLeast freqOf arena j) : MergedLeast freqOf arena' j := by
  have hslot : arena' (256 + j) = arena (256 + j) := hsame _ (builtSlot_merge hj)
  have hqueued (id : Nat) := queuedBefore_congr hsame hj.le id
  have hbuilt {id : Nat} (hid : queuedBefore freqOf arena j id) : arena' id = arena id :=
    hsame id (builtSlot_mono hj.le hid.1)
  have hkey {id : Nat} (hid : queuedBefore freqOf arena j id) : slotKey arena' id = slotKey arena id := by
    rw [slotKey, slotKey, hbuilt hid]
  constructor
  · rw [hslot, mergedNode, hbuilt h.left, hbuilt h.right]
    exact h.node
  · rw [hslot, hqueued]; exact h.left
  · rw [hslot, hqueued]; exact h.right
  · rw [hslot, hkey h.left, hkey h.right]; exact h.order
  · intro id hid
    rw [hqueued] at hid
    rw [hslot, hkey h.right, hkey hid]
    exact h.least id hid

end

/-- The builder after some merges, from an arena that read as `found`. -/
structure Merging (freqOf : Nat → Word) (found : Nat → Node) (epoch : Nat) (b : Builder) : Prop where
  nodup : b.pq.Nodup
  count : b.pq.length + b.merges = (observedIn freqOf).length
  queue : ∀ id : NodeId, id ∈ b.pq ↔ queuedBefore freqOf (b.arena epoch) b.merges id.toNat
  leaves : ∀ c ∈ observedIn freqOf, b.arena epoch c = leafNode freqOf c
  merged : ∀ j, j < b.merges → MergedLeast freqOf (b.arena epoch) j
  other : ∀ i, ¬ builtSlot freqOf b.merges i → b.arena epoch i = found i

theorem leafInit_merging (epoch : Nat) (freqOf : Nat → Word) (node : Memory Node) :
    Merging freqOf (readNode epoch node) epoch (leafInit freqOf node) := by
  obtain ⟨m, hinit, hread, -⟩ := leafInit_spec epoch freqOf node
  rw [hinit]
  refine ⟨?_, by simp, fun id => ?_, fun c hc => ?_, fun j hj => absurd hj (Nat.not_lt_zero j), fun i hi => ?_⟩
  · refine (nodup_observedIn freqOf).map_on fun a ha b hb hab => ?_
    have ha := (mem_observedIn.1 ha).1
    have hb := (mem_observedIn.1 hb).1
    exact ofNat_nodeId_injOn (by omega) (by omega) hab
  · show id ∈ (observedIn freqOf).map (BitVec.ofNat 9) ↔ _
    rw [List.mem_map]
    constructor
    · rintro ⟨c, hc, rfl⟩
      have hlt := (mem_observedIn.1 hc).1
      rw [toNat_slotId (by omega)]
      exact ⟨.inl hc, fun j hj => absurd hj (Nat.not_lt_zero j)⟩
    · rintro ⟨hc | hc, -⟩
      · exact ⟨id.toNat, hc, by simp⟩
      · exact absurd hc (by simp)
  · exact (hread c).trans (if_pos hc)
  · exact (hread i).trans (if_neg fun h => hi (.inl h))

namespace Merging

variable {freqOf : Nat → Word} {found : Nat → Node} {epoch : Nat} {b : Builder}

section

variable (h : Merging freqOf found epoch b)

include h

theorem merges_lt (hpos : 0 < b.pq.length) : b.merges < 256 := by
  have hcount := h.count
  have hle := length_observedIn_le freqOf
  omega

theorem builtSlot_of_mem {id : NodeId} (hid : id ∈ b.pq) : builtSlot freqOf b.merges id.toNat := ((h.queue id).1 hid).1

/-- The slot of the next merge is no member yet. -/
theorem next_notMem (hpos : 0 < b.pq.length) : BitVec.ofNat 9 (256 + b.merges) ∉ b.pq := by
  intro hmem
  have hlt := builtSlot_lt (h.builtSlot_of_mem hmem)
  have hmerges := h.merges_lt hpos
  rw [BitVec.toNat_ofNat] at hlt
  omega

/-- A merge done has children older than itself. -/
theorem children_lt {j : Nat} (hj : j < b.merges) :
    (b.arena epoch (256 + j)).left.toNat < 256 + j ∧ (b.arena epoch (256 + j)).right.toNat < 256 + j :=
  ⟨builtSlot_lt (h.merged j hj).left.1, builtSlot_lt (h.merged j hj).right.1⟩

end

theorem mem_erase_erase (hnodup : b.pq.Nodup) {x y id : NodeId} :
    id ∈ (b.pq.erase x).erase y ↔ id ≠ y ∧ id ≠ x ∧ id ∈ b.pq := by
  rw [(hnodup.erase x).mem_erase_iff, hnodup.mem_erase_iff]

/-- The two nodes of the next merge, and the builder after it. -/
theorem step_spec (h : Merging freqOf found epoch b) (htwo : 2 ≤ b.pq.length) :
    ∃ x y, x ∈ b.pq ∧ y ∈ b.pq ∧ x ≠ y ∧
      keyLt (slotKey (b.arena epoch) x.toNat) (slotKey (b.arena epoch) y.toNat) = true ∧
      (∀ id ∈ b.pq, id ≠ x → id ≠ y →
        keyLt (slotKey (b.arena epoch) y.toNat) (slotKey (b.arena epoch) id.toNat) = true) ∧
      mergeStep epoch b =
        ⟨b.node.write (256 + b.merges) (mergedNode (b.arena epoch) x y),
          (b.pq.erase x).erase y ++ [BitVec.ofNat 9 (256 + b.merges)], b.merges + 1⟩ := by
  obtain ⟨x, y, hx, hy, hxleast, hyleast, hstep⟩ := mergeStep_spec (epoch := epoch) h.nodup htwo (h.next_notMem (by omega))
  obtain ⟨hyx, hymem⟩ := h.nodup.mem_erase_iff.1 hy
  exact ⟨x, y, hx, hymem, hyx.symm, hxleast y hy,
    fun id hid hidx hidy => hyleast id ((mem_erase_erase h.nodup).2 ⟨hidy, hidx, hid⟩), hstep⟩

/-- A merge leaves all earlier slots as they are. -/
theorem step_arena {x y : NodeId}
    (hstep : mergeStep epoch b =
      ⟨b.node.write (256 + b.merges) (mergedNode (b.arena epoch) x y),
        (b.pq.erase x).erase y ++ [BitVec.ofNat 9 (256 + b.merges)], b.merges + 1⟩) (i : Nat) :
    (mergeStep epoch b).arena epoch i =
      if i = 256 + b.merges then mergedNode (b.arena epoch) x y else b.arena epoch i := by
  rw [hstep]
  exact readNode_write ..

theorem step_merges {x y : NodeId}
    (hstep : mergeStep epoch b =
      ⟨b.node.write (256 + b.merges) (mergedNode (b.arena epoch) x y),
        (b.pq.erase x).erase y ++ [BitVec.ofNat 9 (256 + b.merges)], b.merges + 1⟩) :
    (mergeStep epoch b).merges = b.merges + 1 := by
  rw [hstep]

/-- One more merge. -/
theorem step (h : Merging freqOf found epoch b) (htwo : 2 ≤ b.pq.length) :
    Merging freqOf found epoch (mergeStep epoch b) := by
  obtain ⟨x, y, hx, hy, hxy, horder, hleast, hstep⟩ := h.step_spec htwo
  have hmerges := h.merges_lt (by omega)
  have harena := step_arena hstep
  have hsame : ∀ i, builtSlot freqOf b.merges i → (mergeStep epoch b).arena epoch i = b.arena epoch i := by
    intro i hi
    rw [harena, if_neg (builtSlot_lt hi).ne]
  have hnew : (mergeStep epoch b).arena epoch (256 + b.merges) = mergedNode (b.arena epoch) x y := by
    rw [harena, if_pos rfl]
  have hqx := (h.queue x).1 hx
  have hqy := (h.queue y).1 hy
  have hid : (BitVec.ofNat 9 (256 + b.merges)).toNat = 256 + b.merges := by rw [BitVec.toNat_ofNat]; omega
  have hlast : MergedLeast freqOf ((mergeStep epoch b).arena epoch) b.merges := by
    have hkey {id : Nat} (hi : queuedBefore freqOf (b.arena epoch) b.merges id) :
        slotKey ((mergeStep epoch b).arena epoch) id = slotKey (b.arena epoch) id := by
      rw [slotKey, slotKey, hsame id hi.1]
    constructor
    · rw [hnew]
      simp only [mergedNode, hsame _ hqx.1, hsame _ hqy.1]
    · rw [hnew, queuedBefore_congr hsame le_rfl]
      exact hqx
    · rw [hnew, queuedBefore_congr hsame le_rfl]
      exact hqy
    · rw [hnew]
      simp only [mergedNode, hkey hqx, hkey hqy]
      exact horder
    · intro id hq hidx hidy
      rw [hnew] at hidx hidy ⊢
      rw [queuedBefore_congr hsame le_rfl] at hq
      simp only [mergedNode, hkey hqy, hkey hq] at hidx hidy ⊢
      have hlt := builtSlot_lt hq.1
      have hback : (BitVec.ofNat 9 id).toNat = id := by rw [BitVec.toNat_ofNat]; omega
      have hmem : BitVec.ofNat 9 id ∈ b.pq := (h.queue _).2 (by rwa [hback])
      have hk := hleast _ hmem (fun e => hidx (by rw [← e, hback])) (fun e => hidy (by rw [← e, hback]))
      rwa [hback] at hk
  have hk1 := step_merges hstep
  refine ⟨?nodup, ?count, fun id => ?queue, fun c hc => ?leaves, fun j hj => ?merged, fun i hi => ?other⟩
  case nodup =>
    rw [hstep]
    refine List.nodup_append.2 ⟨(h.nodup.erase x).erase y, List.nodup_singleton _, fun a ha c hc => ?_⟩
    rw [List.mem_singleton.1 hc]
    exact fun e => h.next_notMem (by omega) (e ▸ ((mem_erase_erase h.nodup).1 ha).2.2)
  case count =>
    have hcount := h.count
    have hy' : y ∈ b.pq.erase x := h.nodup.mem_erase_iff.2 ⟨hxy.symm, hy⟩
    rw [hstep]
    simp only [List.length_append, List.length_singleton, List.length_erase_of_mem hy', List.length_erase_of_mem hx]
    omega
  case queue =>
    rw [hk1]
    have hnewId : id = BitVec.ofNat 9 (256 + b.merges) ↔ id.toNat = 256 + b.merges := by
      rw [← BitVec.toNat_inj, hid]
    have hmem : id ∈ (mergeStep epoch b).pq ↔ (id ≠ y ∧ id ≠ x ∧ id ∈ b.pq) ∨ id.toNat = 256 + b.merges := by
      rw [hstep]
      simp only [List.mem_append, mem_erase_erase h.nodup, List.mem_singleton, hnewId]
    rw [hmem]
    constructor
    · rintro (⟨hidy, hidx, hmem⟩ | hidNew)
      · have hq := (h.queue id).1 hmem
        refine ⟨builtSlot_mono (Nat.le_succ _) hq.1, fun j hj => ?_⟩
        obtain hj | rfl := Nat.lt_succ_iff_lt_or_eq.1 hj
        · rw [hsame _ (builtSlot_merge hj)]
          exact hq.2 j hj
        · rw [hnew]
          exact ⟨fun e => hidx (BitVec.eq_of_toNat_eq e).symm, fun e => hidy (BitVec.eq_of_toNat_eq e).symm⟩
      · refine ⟨.inr (by omega), fun j hj => ?_⟩
        rw [hidNew]
        obtain hj | rfl := Nat.lt_succ_iff_lt_or_eq.1 hj
        · rw [hsame _ (builtSlot_merge hj)]
          obtain ⟨hl, hr⟩ := h.children_lt hj
          omega
        · rw [hnew]
          exact ⟨(builtSlot_lt hqx.1).ne, (builtSlot_lt hqy.1).ne⟩
    · rintro ⟨hbuilt, hchild⟩
      by_cases hidNew : id.toNat = 256 + b.merges
      · exact .inr hidNew
      · refine .inl ⟨?_, ?_, (h.queue id).2 ⟨hbuilt.imp_right fun hb => ⟨hb.1, by omega⟩, fun j hj => ?_⟩⟩
        · rintro rfl
          exact (hchild b.merges (Nat.lt_succ_self _)).2 (by rw [hnew]; rfl)
        · rintro rfl
          exact (hchild b.merges (Nat.lt_succ_self _)).1 (by rw [hnew]; rfl)
        · rw [← hsame _ (builtSlot_merge hj)]
          exact hchild j (hj.trans (Nat.lt_succ_self _))
  case leaves => rw [hsame c (.inl hc), h.leaves c hc]
  case merged =>
    rw [hk1] at hj
    obtain hj | rfl := Nat.lt_succ_iff_lt_or_eq.1 hj
    · exact (h.merged j hj).congr hsame hj
    · exact hlast
  case other =>
    rw [hk1] at hi
    have hne : i ≠ 256 + b.merges := fun e => hi (e ▸ builtSlot_merge (Nat.lt_succ_self _))
    rw [harena, if_neg hne, h.other i fun hb => hi (builtSlot_mono (Nat.le_succ _) hb)]

theorem step_length (h : Merging freqOf found epoch b) (htwo : 2 ≤ b.pq.length) :
    (mergeStep epoch b).pq.length + 1 = b.pq.length := by
  have hcount := h.count
  have hcount' := (h.step htwo).count
  obtain ⟨x, y, -, -, -, -, -, hstep⟩ := h.step_spec htwo
  rw [step_merges hstep] at hcount'
  omega

/-- The merge loop, as an induction: what every merge hands on holds after the last one, when one member is left. -/
theorem mergeLoop {Q : Builder → Prop}
    (hQ : ∀ b, Merging freqOf found epoch b → 2 ≤ b.pq.length → Q b → Q (mergeStep epoch b)) {bound : Nat}
    (h : Merging freqOf found epoch b) (hpos : 1 ≤ b.pq.length) (hbound : b.pq.length ≤ bound + 1) (hb : Q b) :
    Merging freqOf found epoch (mergeLoop epoch bound b) ∧ (Machine.mergeLoop epoch bound b).pq.length = 1 ∧
      Q (Machine.mergeLoop epoch bound b) := by
  induction bound generalizing b with
  | zero => exact ⟨h, by rw [Machine.mergeLoop]; omega, hb⟩
  | succ bound ih =>
    rw [Machine.mergeLoop]
    split
    · next htwo =>
      have hlen := h.step_length htwo
      exact ih (h.step htwo) (by omega) (by omega) (hQ b h htwo hb)
    · exact ⟨h, by omega, hb⟩

end Merging

/-- What the leaf initialisation makes and every merge hands on holds of the finished builder, with one member left. -/
theorem mergeAll_induction {freqOf : Nat → Word} {epoch : Nat} {node : Memory Node} {Q : Builder → Prop}
    (hobs : observedIn freqOf ≠ [])
    (hstep : ∀ b, Merging freqOf (readNode epoch node) epoch b → 2 ≤ b.pq.length → Q b → Q (mergeStep epoch b))
    (hinit : Q (leafInit freqOf node)) :
    Merging freqOf (readNode epoch node) epoch (mergeAll epoch freqOf node) ∧
      (mergeAll epoch freqOf node).pq.length = 1 ∧ Q (mergeAll epoch freqOf node) := by
  have hlen := leafInit_pq_length freqOf node
  have hpos := List.length_pos_iff.2 hobs
  exact (leafInit_merging epoch freqOf node).mergeLoop hstep (by omega) (by omega) hinit

theorem mergeAll_merging {freqOf : Nat → Word} (epoch : Nat) (node : Memory Node) (hobs : observedIn freqOf ≠ []) :
    Merging freqOf (readNode epoch node) epoch (mergeAll epoch freqOf node) ∧
      (mergeAll epoch freqOf node).pq.length = 1 := by
  obtain ⟨hmerging, hone, -⟩ := mergeAll_induction (Q := fun _ => True) hobs (fun _ _ _ _ => trivial) trivial
  exact ⟨hmerging, hone⟩

end Sys2Proof.Machine
end

section
/-! PROOFS. BUILD merges the two least nodes again and again (R100). -/

namespace Sys2Proof.Machine

/-! ### The last member (R100) -/

/-- The queue of a finished builder: one node, which no merge has taken. -/
structure Finished (freqOf : Nat → Word) (found : Nat → Node) (epoch : Nat) (b : Builder) (root : NodeId) : Prop where
  merging : Merging freqOf found epoch b
  last : b.pq = [root]

namespace Finished

variable {freqOf : Nat → Word} {found : Nat → Node} {epoch : Nat} {b : Builder} {root : NodeId}
  (h : Finished freqOf found epoch b root)

include h

theorem count : 1 + b.merges = (observedIn freqOf).length := by
  have hcount := h.merging.count
  rwa [h.last] at hcount

theorem merges_eq : b.merges = (observedIn freqOf).length - 1 := by
  have hcount := h.count
  omega

theorem merges_lt : b.merges < 256 := h.merging.merges_lt (by rw [h.last]; exact Nat.one_pos)

/-- After at least one merge the node left is the one made last. -/
theorem root_eq_of_merged (hmerged : 0 < b.merges) : root.toNat = 256 + (b.merges - 1) := by
  have hlt := h.merges_lt
  have hid : (BitVec.ofNat 9 (256 + (b.merges - 1))).toNat = 256 + (b.merges - 1) := by
    rw [BitVec.toNat_ofNat]; omega
  have hqueued : queuedBefore freqOf (b.arena epoch) b.merges (256 + (b.merges - 1)) := by
    refine ⟨builtSlot_merge (by omega), fun j hj => ?_⟩
    obtain ⟨hl, hr⟩ := h.merging.children_lt hj
    omega
  have hmem : BitVec.ofNat 9 (256 + (b.merges - 1)) ∈ b.pq := (h.merging.queue _).2 (by rwa [hid])
  rw [h.last, List.mem_singleton] at hmem
  rw [← hmem, hid]

/-- With one observed symbol the node left is its Leaf. -/
theorem root_eq_of_single {c : Nat} (hobs : observedIn freqOf = [c]) : root.toNat = c := by
  have hcount := h.count
  rw [hobs] at hcount
  have hbuilt := h.merging.builtSlot_of_mem (id := root) (by rw [h.last]; exact List.mem_singleton_self root)
  obtain hmem | hmerge := hbuilt
  · rwa [hobs, List.mem_singleton] at hmem
  · simp only [List.length_singleton] at hcount
    omega

end Finished

/-! ### The command -/

/-- The builder that BUILD finishes with (R100). -/
def State.builder (s : State) : Builder := mergeAll s.epoch s.freqAt s.node

/-- The node that the merges leave in the queue. -/
def State.builtRoot (s : State) : NodeId := s.builder.pq.headD 0

theorem builder_finished {s : State} (hobs : observed s ≠ []) :
    Finished s.freqAt s.nodeAt s.epoch s.builder s.builtRoot := by
  obtain ⟨hmerging, hone⟩ := mergeAll_merging s.epoch s.node hobs
  obtain ⟨root, hroot⟩ := List.length_eq_one_iff.1 hone
  refine ⟨hmerging, ?_⟩
  show s.builder.pq = [s.builder.pq.headD 0]
  rw [State.builder, hroot]
  rfl

/-- The writes of a BUILD that finishes with the builder `b` from `leaves` observed symbols (R100). -/
def storeTree (b : Builder) (leaves : Nat) (s : State) : State :=
  { s with
    node  := b.node
    pq    := []
    data  := { s.data with root := b.pq.headD 0, nnode := BitVec.ofNat 10 (2 * leaves - 1) }
    valid := { s.valid with tree := true } }

/-- Where a BUILD that succeeds leaves the machine. -/
def built (s : State) : State := (storeTree s.builder (observed s).length (s.setStage 0x02)).complete none

@[simp] theorem builder_setStage (op : Byte) (s : State) : (s.setStage op).builder = s.builder := rfl
@[simp] theorem observed_setStage (op : Byte) (s : State) : observed (s.setStage op) = observed s := rfl

theorem buildVerdict_eq_none_iff {s : State} : buildVerdict s = none ↔ s.valid.freq = true ∧ observed s ≠ [] := by
  simp [buildVerdict, verdictBranch_eq_none_iff]

/-- With a node in the queue, the last extraction takes it (R100). -/
theorem buildEnds {s : State} (hobs : observed s ≠ []) :
    pqExtractMin (s.builder.key s.epoch) s.builder.pq = some (s.builtRoot, []) := by
  rw [(builder_finished hobs).last]
  simp [pqExtractMin, pqLeast]

/-- The body of BUILD raises the error of its verdict, and stores the tree where there is none. -/
theorem buildBody_eq (s : State) : buildBody s = (buildVerdict s).elim
      (.done (storeTree s.builder (observed s).length s)) .raise := by
  have hlen : (leafInit s.freqAt s.node).pq.length = (observed s).length := leafInit_pq_length _ _
  refine require_eq_verdict (by simp) fun _ => require_eq_verdict ?_ fun hpos => ?_
  · rw [hlen, ← List.length_eq_zero_iff]
    omega
  · rw [hlen, Nat.one_le_iff_ne_zero, Ne, List.length_eq_zero_iff] at hpos
    simp only [hlen]
    rw [← State.builder, buildEnds hpos]
    rfl

theorem exec_build_of_verdict_none {s : State} (h : buildVerdict s = none) : exec .build s = .next (built s) := by
  have hstage : buildVerdict (s.setStage 0x02) = none := h
  refine conclude_runPrimitive_next.2 (.inl ⟨_, ?_, rfl⟩)
  rw [buildBody_eq, hstage, builder_setStage, observed_setStage, Option.elim_none]

theorem exec_build_of_verdict_some {s : State} {e : ErrKind} (h : buildVerdict s = some e) :
    exec .build s = .next (errorEntry 0x02 dropTree e s) := by
  have hstage : buildVerdict (s.setStage 0x02) = some e := h
  exact conclude_runPrimitive_next.2 (.inr ⟨e, by rw [buildBody_eq, hstage]; rfl, rfl⟩)

/-- A BUILD that succeeds has built the tree. -/
theorem exec_build_ok {s t : State} (h : exec .build s = .next t) (hok : t.status.err = 0) :
    buildVerdict s = none ∧ t = built s := by
  cases hverdict : buildVerdict s with
  | none =>
    rw [exec_build_of_verdict_none hverdict] at h
    exact ⟨rfl, (Host.Outcome.next.inj h).symm⟩
  | some e =>
    rw [exec_build_of_verdict_some hverdict] at h
    obtain rfl := Host.Outcome.next.inj h
    exact absurd hok (errKind_code_ne_zero e)

/-- The arena after a success is the finished builder's. -/
theorem nodeAt_built (s : State) : (built s).nodeAt = s.builder.arena s.epoch := rfl

theorem builtSlot_finished {s : State} (hobs : observed s ≠ []) (id : Nat) :
    builtSlot s.freqAt s.builder.merges id ↔
      (id ∈ observed s ∨ (256 ≤ id ∧ id < 256 + ((observed s).length - 1))) := by
  rw [(builder_finished hobs).merges_eq]
  rfl

theorem built_reports {s : State} (hobs : observed s ≠ []) :
    reports s (built s) 0x02 none
      (fun sp id => sp = .node ∧ (id ∈ observed s ∨ (256 ≤ id ∧ id < 256 + ((observed s).length - 1)))) := by
  refine ⟨⟨rfl, rfl, rfl, rfl⟩, ⟨rfl, rfl, rfl, rfl, rfl, rfl, rfl, rfl, rfl⟩, fun sp i hi => ?_⟩
  cases sp with
  | node =>
    exact (builder_finished hobs).merging.other i fun hslot => hi ⟨rfl, (builtSlot_finished hobs i).1 hslot⟩
  | freq | code | treeb | pay | bs | inp | out => rfl

theorem built_valid (s : State) : (built s).valid = { s.valid with tree := true } := rfl

theorem built_data (s : State) :
    (built s).data = { s.data with root := s.builtRoot, nnode := BitVec.ofNat 10 (2 * (observed s).length - 1) } := rfl

theorem built_pq (s : State) : (built s).pq = [] := rfl

/-- Settles O23: the finished builder's merges, and the node left in its queue. -/
theorem buildMergesTheTwoLeastNodes : Obligations.BuildMergesTheTwoLeastNodes := by
  refine fun s => ⟨fun hvalid hobs => ?built, fun e he => ?fails⟩
  case fails => exact ⟨_, exec_build_of_verdict_some he, errorEntry_failsWith e rfl rfl⟩
  case built =>
    have hfinished := builder_finished hobs
    have hmerges := hfinished.merges_eq
    rw [← observed_eq] at hmerges
    refine ⟨built s, exec_build_of_verdict_none (buildVerdict_eq_none_iff.2 ⟨hvalid, hobs⟩), built_reports hobs,
      built_valid s, ?_⟩
    simp only [built_data, built_pq, nodeAt_built, inQueueAt_iff]
    refine ⟨trivial, trivial, fun c hc => ⟨hfinished.merging.leaves c hc, fun hone => ?single⟩, fun htwo => ?root,
      fun k hk => ?merge⟩
    case single =>
      obtain ⟨c', hc'⟩ := List.length_eq_one_iff.1 hone
      rw [hc', List.mem_singleton] at hc
      exact (hfinished.root_eq_of_single hc').trans hc.symm
    case root =>
      rw [hfinished.root_eq_of_merged (by omega)]
      omega
    case merge =>
      have hmerged := hfinished.merging.merged k (by rw [hmerges]; exact hk)
      exact ⟨hmerged.node, hmerged.left, hmerged.right, hmerged.order, hmerged.least⟩

/-! ### The counts decide (R105) -/

theorem pqLeast_congr {key key' : NodeId → Key} {pq : List NodeId} (h : ∀ id ∈ pq, key id = key' id) :
    pqLeast key pq = pqLeast key' pq := by
  induction pq with
  | nil => rfl
  | cons id pq ih =>
    obtain ⟨hid, hpq⟩ := List.forall_mem_cons.1 h
    rw [pqLeast, pqLeast, ih hpq]
    cases hm : pqLeast key' pq with
    | none => rfl
    | some m => simp only [hid, hpq m (pqLeast_spec hm).1]

theorem pqExtractMin_congr {key key' : NodeId → Key} {pq : List NodeId} (h : ∀ id ∈ pq, key id = key' id) :
    pqExtractMin key pq = pqExtractMin key' pq := by
  rw [pqExtractMin_eq, pqExtractMin_eq, pqLeast_congr h]

/-- Two builders with the same queue and the same nodes in the slots built so far. -/
structure BuildAlike (freqOf : Nat → Word) (epoch epoch' : Nat) (b b' : Builder) : Prop where
  pq : b'.pq = b.pq
  merges : b'.merges = b.merges
  slots : ∀ i, builtSlot freqOf b.merges i → b'.arena epoch' i = b.arena epoch i

theorem leafInit_alike (freqOf : Nat → Word) (epoch epoch' : Nat) (node node' : Memory Node) :
    BuildAlike freqOf epoch epoch' (leafInit freqOf node) (leafInit freqOf node') := by
  have hleaves (epoch : Nat) (node : Memory Node) := (leafInit_merging epoch freqOf node).leaves
  obtain ⟨m, hinit, -⟩ := leafInit_spec epoch freqOf node
  obtain ⟨m', hinit', -⟩ := leafInit_spec epoch' freqOf node'
  refine ⟨by rw [hinit, hinit'], by rw [hinit, hinit'], fun i hi => ?_⟩
  rw [hinit] at hi
  obtain hi | hi := hi
  · rw [hleaves epoch node i hi, hleaves epoch' node' i hi]
  · exact absurd hi (by simp)

theorem pqExtractMin_some {key : NodeId → Key} {pq rest : List NodeId} {m : NodeId}
    (h : pqExtractMin key pq = some (m, rest)) : m ∈ pq ∧ rest = pq.erase m := by
  rw [pqExtractMin_eq] at h
  obtain ⟨m', hm, heq⟩ := Option.map_eq_some_iff.1 h
  obtain ⟨rfl, rfl⟩ := Prod.mk.inj heq
  exact ⟨(pqLeast_spec hm).1, rfl⟩

/-- A merge reads the queue and the nodes in it, and no more. -/
theorem mergeStep_alike {freqOf : Nat → Word} {epoch epoch' : Nat} {b b' : Builder}
    (hbuilt : ∀ id ∈ b.pq, builtSlot freqOf b.merges id.toNat) (h : BuildAlike freqOf epoch epoch' b b') :
    BuildAlike freqOf epoch epoch' (mergeStep epoch b) (mergeStep epoch' b') := by
  have hslot {id : NodeId} (hid : id ∈ b.pq) : readNode epoch' b'.node id.toNat = readNode epoch b.node id.toNat :=
    h.slots _ (hbuilt id hid)
  have hextract {pq : List NodeId} (hpq : ∀ id ∈ pq, id ∈ b.pq) :
      pqExtractMin (b'.key epoch') pq = pqExtractMin (b.key epoch) pq :=
    pqExtractMin_congr fun id hid => by rw [Builder.key, Builder.key, pqKey, pqKey, hslot (hpq id hid)]
  rw [mergeStep, mergeStep, h.pq, hextract fun _ => id]
  cases hx : pqExtractMin (b.key epoch) b.pq with
  | none => exact h
  | some r =>
    obtain ⟨x, pq⟩ := r
    obtain ⟨hxmem, rfl⟩ := pqExtractMin_some hx
    dsimp only
    rw [hextract fun _ => List.mem_of_mem_erase]
    cases hy : pqExtractMin (b.key epoch) (b.pq.erase x) with
    | none => exact h
    | some r =>
      obtain ⟨y, pq⟩ := r
      obtain ⟨hymem, rfl⟩ := pqExtractMin_some hy
      dsimp only
      rw [h.merges, hslot hxmem, hslot (List.mem_of_mem_erase hymem)]
      refine ⟨rfl, rfl, fun i hi => ?_⟩
      rw [Builder.arena, Builder.arena, readNode_write, readNode_write]
      by_cases hnew : i = 256 + b.merges
      · rw [if_pos hnew, if_pos hnew]
      · rw [if_neg hnew, if_neg hnew]
        refine h.slots i (hi.imp_right fun ⟨hlow, hhigh⟩ => ⟨hlow, ?_⟩)
        change i < 256 + (b.merges + 1) at hhigh
        omega

theorem mergeLoop_alike {freqOf : Nat → Word} {found : Nat → Node} {epoch epoch' : Nat} {b b' : Builder}
    (hmerging : Merging freqOf found epoch b) (h : BuildAlike freqOf epoch epoch' b b') (bound : Nat) :
    BuildAlike freqOf epoch epoch' (mergeLoop epoch bound b) (mergeLoop epoch' bound b') := by
  induction bound generalizing b b' with
  | zero => exact h
  | succ bound ih =>
    rw [mergeLoop, mergeLoop, h.pq]
    by_cases htwo : 2 ≤ b.pq.length
    · rw [if_pos htwo, if_pos htwo]
      exact ih (hmerging.step htwo) (mergeStep_alike (fun _ hid => hmerging.builtSlot_of_mem hid) h)
    · rw [if_neg htwo, if_neg htwo]
      exact h

/-- From the same counts the merges make the same nodes, whatever the arena held before. -/
theorem mergeAll_alike (freqOf : Nat → Word) (epoch epoch' : Nat) (node node' : Memory Node) :
    BuildAlike freqOf epoch epoch' (mergeAll epoch freqOf node) (mergeAll epoch' freqOf node') := by
  have hinit := leafInit_alike freqOf epoch epoch' node node'
  rw [mergeAll, mergeAll, hinit.pq]
  exact mergeLoop_alike (leafInit_merging epoch freqOf node) hinit _

theorem builder_alike {s s' : State} (h : ∀ c, c < 256 → s.freqAt c = s'.freqAt c) :
    BuildAlike s.freqAt s.epoch s'.epoch s.builder s'.builder := by
  rw [State.builder, State.builder, ← mergeAll_congr h]
  exact mergeAll_alike ..

/-- Settles O25: the same counts give the same verdict and builders alike. -/
theorem buildIsAFunctionOfTheCounts : Obligations.BuildIsAFunctionOfTheCounts := by
  intro s s' t t' hcounts hvalid hvalid' hexec hexec'
  have hobserved : observed s = observed s' := observedIn_congr hcounts
  by_cases hobs : observed s = []
  · have hverdict {u : State} (hv : u.valid.freq = true) (hu : observed u = []) :
        buildVerdict u = some .treeConstructionFailure := by
      simp [buildVerdict, hv, hu]
    rw [exec_build_of_verdict_some (hverdict hvalid hobs)] at hexec
    rw [exec_build_of_verdict_some (hverdict hvalid' (hobserved ▸ hobs))] at hexec'
    obtain rfl := Host.Outcome.next.inj hexec
    obtain rfl := Host.Outcome.next.inj hexec'
    exact ⟨rfl, rfl, rfl, fun hok => absurd hok (errKind_code_ne_zero .treeConstructionFailure)⟩
  · rw [exec_build_of_verdict_none (buildVerdict_eq_none_iff.2 ⟨hvalid, hobs⟩)] at hexec
    rw [exec_build_of_verdict_none (buildVerdict_eq_none_iff.2 ⟨hvalid', hobserved ▸ hobs⟩)] at hexec'
    obtain rfl := Host.Outcome.next.inj hexec
    obtain rfl := Host.Outcome.next.inj hexec'
    have halike := builder_alike hcounts
    simp only [built_data, nodeAt_built, ← hobserved]
    refine ⟨rfl, ?root, trivial, fun _ id hid => ?slot⟩
    case root => rw [State.builtRoot, State.builtRoot, halike.pq]
    case slot => exact (halike.slots id ((builtSlot_finished hobs id).2 hid)).symm

end Sys2Proof.Machine
end

section
/-! PROOFS. BUILD leaves one tree, whose leaves are the observed symbols (R24, R102). -/

namespace Sys2Proof.Machine

/-! ### The slots under a node -/

/-- The slots under `id` form the tree; `ids` are they, in preorder. -/
inductive Spans (arena : Nat → Node) : (id : Nat) → CodeTree → (ids : List Nat) → Prop where
  | leaf {id : Nat} (h : (arena id).leaf = true) : Spans arena id (.leaf (arena id).sym) [id]
  | node {id : Nat} {l r : CodeTree} {idsl idsr : List Nat} (h : (arena id).leaf = false)
      (hl : Spans arena (arena id).left.toNat l idsl) (hr : Spans arena (arena id).right.toNat r idsr) :
      Spans arena id (.node l r) (id :: (idsl ++ idsr))

namespace Spans

variable {arena : Nat → Node} {id : Nat} {t : CodeTree} {ids : List Nat}

theorem length_eq (h : Spans arena id t ids) : ids.length = treeSize t := by
  induction h with
  | leaf h => rfl
  | node h hl hr ihl ihr => simp only [List.length_cons, List.length_append, ihl, ihr, treeSize]; omega

theorem root_mem (h : Spans arena id t ids) : id ∈ ids := by
  cases h <;> exact List.mem_cons_self

theorem congr {arena' : Nat → Node} (h : Spans arena id t ids) (hsame : ∀ i ∈ ids, arena' i = arena i) :
    Spans arena' id t ids := by
  induction h with
  | @leaf id h =>
    have hid : arena' id = arena id := hsame id List.mem_cons_self
    rw [← hid] at h ⊢
    exact .leaf h
  | @node id l r idsl idsr h hl hr ihl ihr =>
    have hid : arena' id = arena id := hsame id List.mem_cons_self
    have hl' := ihl fun i hi => hsame i (List.mem_cons_of_mem _ (List.mem_append_left _ hi))
    have hr' := ihr fun i hi => hsame i (List.mem_cons_of_mem _ (List.mem_append_right _ hi))
    rw [← hid] at h hl' hr'
    exact .node h hl' hr'

theorem treeOf_eq {epoch : Nat} {m : Memory Node} (h : Spans (readNode epoch m) id t ids) {depth : Nat}
    (hdepth : treeHeight t < depth) (hids : ∀ i ∈ ids, i < 511) : treeOf epoch m depth id = .ok t := by
  induction h generalizing depth with
  | @leaf id h =>
    obtain ⟨depth, rfl⟩ := Nat.exists_eq_add_one_of_ne_zero (Nat.ne_zero_of_lt hdepth)
    have hid : ¬ Config.nodeCap ≤ id := Nat.not_le.2 (hids id List.mem_cons_self)
    simp only [treeOf, if_neg hid, h, if_true]
  | @node id l r idsl idsr h hl hr ihl ihr =>
    obtain ⟨depth, rfl⟩ := Nat.exists_eq_add_one_of_ne_zero (Nat.ne_zero_of_lt hdepth)
    have hid : ¬ Config.nodeCap ≤ id := Nat.not_le.2 (hids id List.mem_cons_self)
    rw [treeHeight] at hdepth
    have hleft := ihl (depth := depth) (by omega) fun i hi =>
      hids i (List.mem_cons_of_mem _ (List.mem_append_left _ hi))
    have hright := ihr (depth := depth) (by omega) fun i hi =>
      hids i (List.mem_cons_of_mem _ (List.mem_append_right _ hi))
    simp only [treeOf, if_neg hid, h, hleft, hright, Bool.false_eq_true, if_false]

theorem reachableIds_eq {s : State} (h : Spans s.nodeAt id t ids) {depth : Nat} (hdepth : treeHeight t < depth) :
    reachableIds s depth id = some ids := by
  induction h generalizing depth with
  | leaf h =>
    obtain ⟨depth, rfl⟩ := Nat.exists_eq_add_one_of_ne_zero (Nat.ne_zero_of_lt hdepth)
    simp only [reachableIds, h, if_true]
  | node h hl hr ihl ihr =>
    obtain ⟨depth, rfl⟩ := Nat.exists_eq_add_one_of_ne_zero (Nat.ne_zero_of_lt hdepth)
    rw [treeHeight] at hdepth
    have hleft := ihl (depth := depth) (by omega)
    have hright := ihr (depth := depth) (by omega)
    simp only [reachableIds, h, hleft, hright, Bool.false_eq_true, if_false]

end Spans

/-- A tree that fits the arena is not too deep for the traversal stack. -/
theorem treeHeight_lt_of_size {t : CodeTree} (h : treeSize t ≤ 511) : treeHeight t < Config.codeMaxLen + 1 := by
  have hheight := two_mul_treeHeight_lt t
  show treeHeight t < 256
  omega

theorem tree_of_spans {s : State} {t : CodeTree} {ids : List Nat} (h : Spans s.nodeAt s.data.root.toNat t ids)
    (hids : ∀ i ∈ ids, i < 511) (hsize : treeSize t ≤ 511) : s.tree = .ok t :=
  h.treeOf_eq (treeHeight_lt_of_size hsize) hids

theorem treeOk_of_spans {s : State} {t : CodeTree} {ids : List Nat} (h : Spans s.nodeAt s.data.root.toNat t ids)
    (hnodup : ids.Nodup) (hids : ∀ i ∈ ids, i < 511) (hsize : treeSize t ≤ 511)
    (hnnode : s.data.nnode.toNat = treeSize t) : TreeOk s :=
  ⟨t, ids, tree_of_spans h hids hsize, h.reachableIds_eq (treeHeight_lt_of_size hsize), hnodup, hids,
    h.length_eq.trans hnnode.symm, hnnode.symm, hnnode.trans_le hsize⟩

/-! ### The trees under the queue -/

/-- A member of the queue, with the tree under it and the slots of that tree. -/
structure Grown where
  root : NodeId
  tree : CodeTree
  ids  : List Nat

/-- The sum of the frequencies of a tree's symbols. -/
def treeWeight (freqOf : Nat → Word) (t : CodeTree) : Nat :=
  ((treeSymbols t).map fun c => (freqOf c.toNat).toNat).sum

@[simp] theorem treeWeight_leaf (freqOf : Nat → Word) (sym : Byte) :
    treeWeight freqOf (.leaf sym) = (freqOf sym.toNat).toNat := by
  simp [treeWeight, treeSymbols]

@[simp] theorem treeWeight_node (freqOf : Nat → Word) (l r : CodeTree) :
    treeWeight freqOf (.node l r) = treeWeight freqOf l + treeWeight freqOf r := by
  simp [treeWeight, treeSymbols]

/-- The trees under the members of a queue: they share no slots, they are made of slots built so far, their leaves are
the observed symbols, each once, and each root has its tree's weight as its frequency (log 11). -/
structure Forest (freqOf : Nat → Word) (epoch : Nat) (b : Builder) (trees : List Grown) : Prop where
  roots : b.pq.Perm (trees.map Grown.root)
  spans : ∀ g ∈ trees, Spans (b.arena epoch) g.root.toNat g.tree g.ids
  nodup : (trees.flatMap Grown.ids).Nodup
  slots : ∀ g ∈ trees, ∀ i ∈ g.ids, builtSlot freqOf b.merges i
  symbols : (trees.flatMap fun g => treeSymbols g.tree).Perm ((observedIn freqOf).map (BitVec.ofNat 8))
  weight : ∀ g ∈ trees, (b.arena epoch g.root.toNat).freq = BitVec.ofNat 32 (treeWeight freqOf g.tree)

theorem Forest.perm {freqOf : Nat → Word} {epoch : Nat} {b : Builder} {trees trees' : List Grown}
    (h : Forest freqOf epoch b trees) (hperm : trees.Perm trees') : Forest freqOf epoch b trees' where
  roots := h.roots.trans (hperm.map _)
  spans := fun g hg => h.spans g (hperm.mem_iff.2 hg)
  nodup := (hperm.flatMap_right _).nodup_iff.1 h.nodup
  slots := fun g hg => h.slots g (hperm.mem_iff.2 hg)
  symbols := (hperm.flatMap_right _).symm.trans h.symbols
  weight := fun g hg => h.weight g (hperm.mem_iff.2 hg)

/-- The Leaf of a symbol as a tree. -/
def leafGrown (c : Nat) : Grown := ⟨BitVec.ofNat 9 c, .leaf (BitVec.ofNat 8 c), [c]⟩

theorem leafInit_forest (epoch : Nat) (freqOf : Nat → Word) (node : Memory Node) :
    Forest freqOf epoch (leafInit freqOf node) ((observedIn freqOf).map leafGrown) := by
  have hleaves := (leafInit_merging epoch freqOf node).leaves
  obtain ⟨m, hinit, -⟩ := leafInit_spec epoch freqOf node
  have hid {c : Nat} (hc : c ∈ observedIn freqOf) : (BitVec.ofNat 9 c).toNat = c :=
    toNat_slotId ((mem_observedIn.1 hc).1.trans (by decide))
  refine ⟨?roots, ?spans, ?nodup, ?slots, ?symbols, ?weight⟩
  case roots =>
    rw [hinit, List.map_map]
    exact .refl _
  case spans =>
    rintro g hg
    obtain ⟨c, hc, rfl⟩ := List.mem_map.1 hg
    have hleaf := hleaves c hc
    rw [leafGrown, hid hc]
    have hspan : Spans ((leafInit freqOf node).arena epoch) c _ _ := .leaf (by rw [hleaf]; rfl)
    rwa [hleaf] at hspan
  case nodup =>
    rw [List.flatMap_map]
    simpa [leafGrown] using nodup_observedIn freqOf
  case slots =>
    rintro g hg i hi
    obtain ⟨c, hc, rfl⟩ := List.mem_map.1 hg
    obtain rfl := List.mem_singleton.1 hi
    exact .inl hc
  case symbols =>
    rw [List.flatMap_map, List.map_eq_flatMap]
    exact .refl _
  case weight =>
    rintro g hg
    obtain ⟨c, hc, rfl⟩ := List.mem_map.1 hg
    have hsym : (BitVec.ofNat 8 c).toNat = c := by
      have hlt := (mem_observedIn.1 hc).1
      rw [BitVec.toNat_ofNat]
      omega
    rw [leafGrown, hid hc, hleaves c hc, treeWeight_leaf, hsym, BitVec.ofNat_toNat, BitVec.setWidth_eq]
    rfl

/-- Two members of the queue, with their trees, in front of the other trees. -/
theorem exists_perm_cons_cons {pq : List NodeId} {trees : List Grown} (hroots : pq.Perm (trees.map Grown.root))
    {x y : NodeId} (hx : x ∈ pq) (hy : y ∈ pq) (hxy : x ≠ y) :
    ∃ gx gy others, trees.Perm (gx :: gy :: others) ∧ gx.root = x ∧ gy.root = y := by
  obtain ⟨gx, hgx, rfl⟩ := List.mem_map.1 (hroots.mem_iff.1 hx)
  obtain ⟨gy, hgy, rfl⟩ := List.mem_map.1 (hroots.mem_iff.1 hy)
  obtain ⟨before, after, rfl⟩ := List.append_of_mem hgx
  have hfirst : (before ++ gx :: after).Perm (gx :: (before ++ after)) := List.perm_middle
  have hgy' : gy ∈ before ++ after :=
    (List.mem_cons.1 (hfirst.mem_iff.1 hgy)).resolve_left fun e => hxy (e ▸ rfl)
  obtain ⟨before', after', heq⟩ := List.append_of_mem hgy'
  refine ⟨gx, gy, before' ++ after', hfirst.trans ?_, rfl, rfl⟩
  rw [heq]
  exact (List.perm_middle).cons gx

/-- The tree that a merge makes of two. -/
def mergedGrown (slot : Nat) (gx gy : Grown) : Grown :=
  ⟨BitVec.ofNat 9 slot, .node gx.tree gy.tree, slot :: (gx.ids ++ gy.ids)⟩

section

variable {freqOf : Nat → Word} {found : Nat → Node} {epoch : Nat} {b : Builder}

/-- A merge makes one tree of two. -/
theorem mergeStep_forest {gx gy : Grown} {others : List Grown} (hmerging : Merging freqOf found epoch b)
    (h : Forest freqOf epoch b (gx :: gy :: others))
    (hstep : mergeStep epoch b =
      ⟨b.node.write (256 + b.merges) (mergedNode (b.arena epoch) gx.root gy.root),
        (b.pq.erase gx.root).erase gy.root ++ [BitVec.ofNat 9 (256 + b.merges)], b.merges + 1⟩) :
    Forest freqOf epoch (mergeStep epoch b) (mergedGrown (256 + b.merges) gx gy :: others) := by
  have hmerges := hmerging.merges_lt (by rw [h.roots.length_eq]; exact Nat.succ_pos _)
  have hid : (BitVec.ofNat 9 (256 + b.merges)).toNat = 256 + b.merges := by rw [BitVec.toNat_ofNat]; omega
  have harena := Merging.step_arena hstep
  have hnew : (mergeStep epoch b).arena epoch (256 + b.merges) = mergedNode (b.arena epoch) gx.root gy.root := by
    rw [harena, if_pos rfl]
  have hsame {i : Nat} (hi : builtSlot freqOf b.merges i) : (mergeStep epoch b).arena epoch i = b.arena epoch i := by
    rw [harena, if_neg (builtSlot_lt hi).ne]
  have hgx : gx ∈ gx :: gy :: others := List.mem_cons_self
  have hgy : gy ∈ gx :: gy :: others := List.mem_cons_of_mem _ List.mem_cons_self
  have hothers {g : Grown} (hg : g ∈ others) : g ∈ gx :: gy :: others :=
    List.mem_cons_of_mem _ (List.mem_cons_of_mem _ hg)
  have hspans {g : Grown} (hg : g ∈ gx :: gy :: others) :
      Spans ((mergeStep epoch b).arena epoch) g.root.toNat g.tree g.ids :=
    (h.spans g hg).congr fun i hi => hsame (h.slots g hg i hi)
  have hweight {g : Grown} (hg : g ∈ gx :: gy :: others) :
      (b.arena epoch g.root.toNat).freq = BitVec.ofNat 32 (treeWeight freqOf g.tree) := h.weight g hg
  have hmergesSucc := Merging.step_merges hstep
  refine ⟨?roots, ?spans, ?nodup, ?slots, ?symbols, ?weight⟩
  case roots =>
    have hrest : ((b.pq.erase gx.root).erase gy.root).Perm (others.map Grown.root) := by
      simpa using (h.roots.erase gx.root).erase gy.root
    rw [hstep]
    exact (List.perm_append_singleton _ _).trans (hrest.cons _)
  case spans =>
    refine List.forall_mem_cons.2 ⟨?_, fun g hg => hspans (hothers hg)⟩
    rw [mergedGrown, hid]
    refine .node ?_ ?_ ?_ <;> rw [hnew]
    · rfl
    · exact hspans hgx
    · exact hspans hgy
  case nodup =>
    rw [List.flatMap_cons, mergedGrown, List.cons_append, List.append_assoc]
    refine List.nodup_cons.2 ⟨fun hmem => ?_, h.nodup⟩
    obtain ⟨g, hg, hi⟩ := List.mem_flatMap.1 (show 256 + b.merges ∈ (gx :: gy :: others).flatMap Grown.ids from hmem)
    exact absurd (builtSlot_lt (h.slots g hg _ hi)) (Nat.lt_irrefl _)
  case slots =>
    rw [hmergesSucc]
    refine List.forall_mem_cons.2 ⟨fun i hi => ?_, fun g hg i hi => ?_⟩
    swap; · exact builtSlot_mono (Nat.le_succ _) (h.slots g (hothers hg) i hi)
    obtain rfl | hi := List.mem_cons.1 hi
    · exact builtSlot_merge (Nat.lt_succ_self _)
    · obtain hi | hi := List.mem_append.1 hi
      · exact builtSlot_mono (Nat.le_succ _) (h.slots gx hgx i hi)
      · exact builtSlot_mono (Nat.le_succ _) (h.slots gy hgy i hi)
  case symbols =>
    rw [List.flatMap_cons, mergedGrown, treeSymbols, List.append_assoc]
    exact h.symbols
  case weight =>
    refine List.forall_mem_cons.2 ⟨?_, fun g hg => ?_⟩
    · rw [mergedGrown, hid, hnew, mergedNode, treeWeight_node, BitVec.ofNat_add, ← hweight hgx, ← hweight hgy]
    · rw [hsame (h.slots g (hothers hg) _ (h.spans g (hothers hg)).root_mem), hweight (hothers hg)]

end

/-! ### The weights of the trees, and what the merges cost (R102) -/

/-- The sum of all counts. -/
def totalCount (freqOf : Nat → Word) : Nat := ((List.range 256).map fun c => (freqOf c).toNat).sum

/-- Symbols that were not observed count nothing. -/
theorem sum_observedIn (freqOf : Nat → Word) :
    ((observedIn freqOf).map fun c => (freqOf c).toNat).sum = totalCount freqOf := by
  unfold observedIn totalCount
  rw [show Config.nsym = 256 from rfl]
  generalize List.range 256 = cs
  induction cs with
  | nil => rfl
  | cons c cs ih =>
    by_cases hc : freqOf c = 0
    · rw [List.filter_cons_of_neg (by simpa using hc), ih, List.map_cons, List.sum_cons, hc]
      exact (Nat.zero_add _).symm
    · rw [List.filter_cons_of_pos (by simpa using hc), List.map_cons, List.sum_cons, ih, List.map_cons, List.sum_cons]

theorem sum_map_flatMap {α β : Type} (xs : List α) (f : α → List β) (w : β → Nat) :
    ((xs.flatMap f).map w).sum = (xs.map fun x => ((f x).map w).sum).sum := by
  induction xs with
  | nil => rfl
  | cons x xs ih => rw [List.flatMap_cons, List.map_append, List.sum_append, ih, List.map_cons, List.sum_cons]

/-- The weights of the trees under the queue. -/
def weightsOf (freqOf : Nat → Word) (trees : List Grown) : List Nat := trees.map fun g => treeWeight freqOf g.tree

/-- The trees under the queue weigh as much as all symbols. -/
theorem Forest.sum_weightsOf {freqOf : Nat → Word} {epoch : Nat} {b : Builder} {trees : List Grown}
    (h : Forest freqOf epoch b trees) : (weightsOf freqOf trees).sum = totalCount freqOf := by
  have hflat := sum_map_flatMap trees (fun g => treeSymbols g.tree) fun c => (freqOf c.toNat).toNat
  refine hflat.symm.trans ?_
  rw [(h.symbols.map _).sum_eq, List.map_map, ← sum_observedIn]
  refine congrArg List.sum (List.map_congr_left fun c hc => ?_)
  have hlt := (mem_observedIn.1 hc).1
  simp [Nat.mod_eq_of_lt hlt]

/-- Where no sum of counts wraps, the frequency of a root is its tree's weight (R104). -/
theorem Forest.toNat_freq {freqOf : Nat → Word} {epoch : Nat} {b : Builder} {trees : List Grown}
    (h : Forest freqOf epoch b trees) (htotal : totalCount freqOf < 2 ^ 32) {g : Grown} (hg : g ∈ trees) :
    (b.arena epoch g.root.toNat).freq.toNat = treeWeight freqOf g.tree := by
  have hle : treeWeight freqOf g.tree ≤ (weightsOf freqOf trees).sum :=
    List.le_sum_of_mem (List.mem_map_of_mem (f := fun g : Grown => treeWeight freqOf g.tree) hg)
  rw [h.sum_weightsOf] at hle
  rw [h.weight g hg, BitVec.toNat_ofNat, Nat.mod_eq_of_lt (hle.trans_lt htotal)]

/-- The sum over a tree's leaves of weight times depth (R102 item 7): each merge lengthens every path in it by one. -/
def treeCost (freqOf : Nat → Word) : CodeTree → Nat
  | .leaf _ => 0
  | .node l r => treeCost freqOf l + treeCost freqOf r + (treeWeight freqOf l + treeWeight freqOf r)

def costOf (freqOf : Nat → Word) (trees : List Grown) : Nat := (trees.map fun g => treeCost freqOf g.tree).sum

/-- The weights of the observed symbols. -/
def leafWeights (freqOf : Nat → Word) : List Nat := (observedIn freqOf).map fun c => (freqOf c).toNat

/-- What the merges to come cost and what those done have cost is what all of them cost. -/
def costsAddUp (freqOf : Nat → Word) (trees : List Grown) : Prop :=
  ∀ c, Laws.GreedyCost (weightsOf freqOf trees) c →
    Laws.GreedyCost (leafWeights freqOf) (c + costOf freqOf trees)

theorem costsAddUp_perm {freqOf : Nat → Word} {trees trees' : List Grown} (h : costsAddUp freqOf trees)
    (hperm : trees.Perm trees') : costsAddUp freqOf trees' := by
  intro c hc
  have hweights : (weightsOf freqOf trees' : Multiset Nat) = weightsOf freqOf trees :=
    Multiset.coe_eq_coe.2 (hperm.map _).symm
  have hcost : costOf freqOf trees' = costOf freqOf trees := (hperm.map _).symm.sum_eq
  rw [hweights] at hc
  rw [hcost]
  exact h c hc

theorem costsAddUp_leaves (freqOf : Nat → Word) : costsAddUp freqOf ((observedIn freqOf).map leafGrown) := by
  intro c hc
  have hweights : weightsOf freqOf ((observedIn freqOf).map leafGrown) = leafWeights freqOf := by
    rw [weightsOf, List.map_map]
    refine List.map_congr_left fun c hc => ?_
    have hlt := (mem_observedIn.1 hc).1
    simp [leafGrown, Nat.mod_eq_of_lt hlt]
  have hcost : costOf freqOf ((observedIn freqOf).map leafGrown) = 0 := by
    rw [costOf, List.map_map]
    simp [Function.comp_def, leafGrown, treeCost]
  rw [hweights] at hc
  rwa [hcost, Nat.add_zero]

/-- A merge of the two lightest trees is a merge of the two least weights. -/
theorem costsAddUp_merge {freqOf : Nat → Word} {gx gy : Grown} {others : List Grown} (slot : Nat)
    (hxy : treeWeight freqOf gx.tree ≤ treeWeight freqOf gy.tree)
    (hleast : ∀ g ∈ others, treeWeight freqOf gy.tree ≤ treeWeight freqOf g.tree)
    (h : costsAddUp freqOf (gx :: gy :: others)) : costsAddUp freqOf (mergedGrown slot gx gy :: others) := by
  intro c hc
  have hmerge : Laws.GreedyCost (weightsOf freqOf (gx :: gy :: others))
      (treeWeight freqOf gx.tree + treeWeight freqOf gy.tree + c) := by
    refine .merge _ _ (weightsOf freqOf others) c hxy (fun z hz => ?_) ?_
    · obtain ⟨g, hg, rfl⟩ := List.mem_map.1 (Multiset.mem_coe.1 hz)
      exact hleast g hg
    · rw [← treeWeight_node]
      exact hc
  have hcost : costOf freqOf (mergedGrown slot gx gy :: others) =
      treeWeight freqOf gx.tree + treeWeight freqOf gy.tree + costOf freqOf (gx :: gy :: others) := by
    simp only [costOf, mergedGrown, treeCost, List.map_cons, List.sum_cons]
    omega
  rw [hcost, ← Nat.add_assoc, Nat.add_comm c]
  exact h _ hmerge

/-! ### The finished tree -/

/-- The trees under the queue, and what the merges have cost where no sum of counts wraps. -/
def grows (freqOf : Nat → Word) (epoch : Nat) (b : Builder) : Prop :=
  ∃ trees, Forest freqOf epoch b trees ∧ (totalCount freqOf < 2 ^ 32 → costsAddUp freqOf trees)

theorem mergeStep_grows {freqOf : Nat → Word} {found : Nat → Node} {epoch : Nat} {b : Builder}
    (hmerging : Merging freqOf found epoch b) (htwo : 2 ≤ b.pq.length) (h : grows freqOf epoch b) :
    grows freqOf epoch (mergeStep epoch b) := by
  obtain ⟨trees, hforest, hcost⟩ := h
  obtain ⟨x, y, hx, hy, hxy, horder, hleast, hstep⟩ := hmerging.step_spec htwo
  obtain ⟨gx, gy, others, hperm, rfl, rfl⟩ := exists_perm_cons_cons hforest.roots hx hy hxy
  have hforest := hforest.perm hperm
  refine ⟨_, mergeStep_forest hmerging hforest hstep, fun htotal => ?_⟩
  have hweight {g : Grown} (hg : g ∈ gx :: gy :: others) := hforest.toNat_freq htotal hg
  have hle {g g' : Grown} (hg : g ∈ gx :: gy :: others) (hg' : g' ∈ gx :: gy :: others)
      (hlt : keyLt (slotKey (b.arena epoch) g.root.toNat) (slotKey (b.arena epoch) g'.root.toNat) = true) :
      treeWeight freqOf g.tree ≤ treeWeight freqOf g'.tree := by
    rw [← hweight hg, ← hweight hg']
    obtain hlt | ⟨heq, -⟩ := keyLt_iff.1 hlt
    · exact hlt.le
    · exact heq.le
  have hgy : gy ∈ gx :: gy :: others := List.mem_cons_of_mem _ List.mem_cons_self
  have hroots : (gx.root :: gy.root :: others.map Grown.root).Nodup := hforest.roots.nodup_iff.1 hmerging.nodup
  obtain ⟨hxnotin, hynodup⟩ := List.nodup_cons.1 hroots
  obtain ⟨hynotin, -⟩ := List.nodup_cons.1 hynodup
  refine costsAddUp_merge _ (hle List.mem_cons_self hgy horder) (fun g hg => ?_) (costsAddUp_perm (hcost htotal) hperm)
  have hroot : g.root ∈ others.map Grown.root := List.mem_map_of_mem hg
  have hg' : g ∈ gx :: gy :: others := List.mem_cons_of_mem _ (List.mem_cons_of_mem _ hg)
  exact hle hgy hg' (hleast g.root (hforest.roots.mem_iff.2 (List.mem_map_of_mem hg'))
    (fun e => hxnotin (e ▸ List.mem_cons_of_mem _ hroot)) fun e => hynotin (e ▸ hroot))

/-- The merges leave one tree; where no sum of counts wraps, its cost is that of merging the two least weights again and
again. -/
theorem mergeAll_grown {freqOf : Nat → Word} (epoch : Nat) (node : Memory Node) (hobs : observedIn freqOf ≠ []) :
    ∃ g, Forest freqOf epoch (mergeAll epoch freqOf node) [g] ∧ (mergeAll epoch freqOf node).pq = [g.root] ∧
      (mergeAll epoch freqOf node).merges < 256 ∧
      (totalCount freqOf < 2 ^ 32 → Laws.GreedyCost (leafWeights freqOf) (treeCost freqOf g.tree)) := by
  obtain ⟨hmerging, hone, trees, hforest, hcost⟩ := mergeAll_induction (Q := grows freqOf epoch) hobs
    (fun b => mergeStep_grows) ⟨_, leafInit_forest epoch freqOf node, fun _ => costsAddUp_leaves freqOf⟩
  have hlen : trees.length = 1 := by rw [← hone, hforest.roots.length_eq, List.length_map]
  obtain ⟨g, rfl⟩ := List.length_eq_one_iff.1 hlen
  refine ⟨g, hforest, List.perm_singleton.1 hforest.roots, hmerging.merges_lt (by omega), fun htotal => ?_⟩
  have hall := hcost htotal 0 (.one _)
  simpa [costOf] using hall

/-- The tree that the merges leave is read back from the arena, and it fits. -/
structure Forest.Single (freqOf : Nat → Word) (epoch : Nat) (b : Builder) (g : Grown) : Prop where
  spans : Spans (b.arena epoch) g.root.toNat g.tree g.ids
  nodup : g.ids.Nodup
  ids_lt : ∀ i ∈ g.ids, i < 511
  slots : ∀ i ∈ g.ids, builtSlot freqOf b.merges i
  symbols : (treeSymbols g.tree).Perm ((observedIn freqOf).map (BitVec.ofNat 8))
  size : treeSize g.tree + 1 = 2 * (observedIn freqOf).length

theorem Forest.single {freqOf : Nat → Word} {epoch : Nat} {b : Builder} {g : Grown} (h : Forest freqOf epoch b [g])
    (hmerges : b.merges < 256) : Forest.Single freqOf epoch b g := by
  have hsymbols : (treeSymbols g.tree).Perm ((observedIn freqOf).map (BitVec.ofNat 8)) := by simpa using h.symbols
  refine ⟨h.spans g List.mem_cons_self, by simpa using h.nodup, fun i hi => ?_, h.slots g List.mem_cons_self, hsymbols, ?_⟩
  · have hlt := builtSlot_lt (h.slots g List.mem_cons_self i hi)
    omega
  · rw [treeSize_succ_eq, hsymbols.length_eq, List.length_map]

end Sys2Proof.Machine
end

section
/-! PROOFS. The tree that BUILD leaves, the tree of an input, and how many bits its code takes (R102, R168). -/

namespace Sys2Proof.Machine

/-! ### BUILD (R102) -/

/-- The tree that BUILD finishes with. -/
theorem builder_single {s : State} (hobs : observed s ≠ []) :
    ∃ g, Forest.Single s.freqAt s.epoch s.builder g ∧ s.builtRoot = g.root ∧
      Forest s.freqAt s.epoch s.builder [g] := by
  obtain ⟨g, hforest, hpq, hmerges, -⟩ := mergeAll_grown s.epoch s.node hobs
  refine ⟨g, hforest.single hmerges, ?_, hforest⟩
  rw [State.builtRoot, State.builder, hpq]
  rfl

theorem treeSize_le_of_single {freqOf : Nat → Word} {epoch : Nat} {b : Builder} {g : Grown}
    (h : Forest.Single freqOf epoch b g) : treeSize g.tree ≤ 511 := by
  have hsize := h.size
  have hle := length_observedIn_le freqOf
  omega

section

variable {s : State} {g : Grown} (h : Forest.Single s.freqAt s.epoch s.builder g) (hroot : s.builtRoot = g.root)

include h

theorem nnode_built : (built s).data.nnode.toNat = treeSize g.tree := by
  have hsize := h.size
  have hle := length_observedIn_le s.freqAt
  simp only [built_data, observed_eq, BitVec.toNat_ofNat]
  omega

include hroot

theorem spans_built : Spans (built s).nodeAt (built s).data.root.toNat g.tree g.ids := by
  simp only [built_data, nodeAt_built, hroot]
  exact h.spans

theorem tree_built : (built s).tree = .ok g.tree :=
  tree_of_spans (spans_built h hroot) h.ids_lt (treeSize_le_of_single h)

theorem treeOk_built : TreeOk (built s) :=
  treeOk_of_spans (spans_built h hroot) h.nodup h.ids_lt (treeSize_le_of_single h) (nnode_built h)

end

/-- Settles O24: the forest after the last merge is one tree, of the observed symbols. -/
theorem buildLeavesATreeOfTheObservedSymbols : Obligations.BuildLeavesATreeOfTheObservedSymbols := by
  intro s t hexec hok
  obtain ⟨hverdict, rfl⟩ := exec_build_ok hexec hok
  obtain ⟨-, hobs⟩ := buildVerdict_eq_none_iff.1 hverdict
  obtain ⟨g, hsingle, hroot, hforest⟩ := builder_single hobs
  refine ⟨treeOk_built hsingle hroot, ⟨g.tree, tree_built hsingle hroot, hsingle.symbols, fun htwo c hleaf => ?noLeaf⟩,
    fun htotal => ?frequency⟩
  case noLeaf =>
    have hlen := hsingle.symbols.length_eq
    rw [hleaf, List.length_map, ← observed_eq] at hlen
    simp only [treeSymbols, List.length_singleton] at hlen
    omega
  case frequency =>
    have hweight : treeWeight s.freqAt g.tree = totalCount s.freqAt := by
      simpa [weightsOf] using hforest.sum_weightsOf
    simp only [nodeAt_built, built_data, hroot]
    exact (hforest.toNat_freq htotal List.mem_cons_self).trans hweight

/-! ### The counts of an input (R90) -/

/-- The counts of an input as BUILD reads them. -/
def countsOf (b : List Byte) (i : Nat) : Word := (countTable b).getD i 0

theorem toNat_countsOf {b : List Byte} (hlen : b.length < 2 ^ 32) (c : Byte) :
    (countsOf b c.toNat).toNat = b.count c := by
  rw [countsOf, countTable_getD, BitVec.toNat_ofNat]
  exact Nat.mod_eq_of_lt (List.count_le_length.trans_lt hlen)

/-- The symbols of a byte string, each once, are a list of symbols without repeats that contains every byte of it. -/
theorem sum_count_of_nodup {cs b : List Byte} (hcs : cs.Nodup) (hall : ∀ x ∈ b, x ∈ cs) (f : Byte → Nat) :
    (cs.map fun c => b.count c * f c).sum = (b.map f).sum := by
  rw [← List.sum_toFinset _ hcs, Finset.sum_list_map_count]
  refine (Finset.sum_subset (fun x hx => ?_) fun x _ hx => ?_).symm
  · rw [List.mem_toFinset] at hx ⊢
    exact hall x hx
  · rw [List.mem_toFinset] at hx
    rw [List.count_eq_zero_of_not_mem hx, Nat.zero_mul]

/-- All bytes, in ascending order. -/
theorem nodup_allBytes : ((List.range 256).map (BitVec.ofNat 8)).Nodup := by
  refine List.nodup_range.map_on fun a ha c hc h => ?_
  rw [List.mem_range] at ha hc
  have hnat := congrArg BitVec.toNat h
  rw [BitVec.toNat_ofNat, BitVec.toNat_ofNat] at hnat
  omega

theorem mem_allBytes (c : Byte) : c ∈ (List.range 256).map (BitVec.ofNat 8) :=
  List.mem_map.2 ⟨c.toNat, List.mem_range.2 c.isLt, by simp⟩

/-- The counts of an input add up to its length. -/
theorem totalCount_countsOf {b : List Byte} (hlen : b.length < 2 ^ 32) : totalCount (countsOf b) = b.length := by
  have hsum := sum_count_of_nodup nodup_allBytes (fun x (_ : x ∈ b) => mem_allBytes x) fun _ => 1
  rw [List.map_const', List.sum_replicate, smul_eq_mul, Nat.mul_one, List.map_map] at hsum
  rw [← hsum]
  refine congrArg List.sum (List.map_congr_left fun c hc => ?_)
  have hc : (BitVec.ofNat 8 c).toNat = c := by
    have hlt := List.mem_range.1 hc
    rw [BitVec.toNat_ofNat]
    omega
  have hcount := toNat_countsOf hlen (BitVec.ofNat 8 c)
  rw [hc] at hcount
  rw [hcount, Function.comp_apply, Nat.mul_one]

theorem mem_observedIn_countsOf {b : List Byte} (hlen : b.length < 2 ^ 32) (c : Byte) :
    c.toNat ∈ observedIn (countsOf b) ↔ c ∈ b := by
  rw [mem_observedIn, ← List.count_pos_iff, ← toNat_countsOf hlen, Nat.pos_iff_ne_zero]
  refine ⟨fun ⟨_, h⟩ h0 => h (BitVec.eq_of_toNat_eq h0), fun h => ⟨c.isLt, fun h0 => h (by rw [h0]; rfl)⟩⟩

theorem observedIn_countsOf_ne_nil {b : List Byte} (hlen : b.length < 2 ^ 32) (hb : b ≠ []) :
    observedIn (countsOf b) ≠ [] := by
  obtain ⟨c, hc⟩ := List.exists_mem_of_ne_nil b hb
  exact List.ne_nil_of_mem ((mem_observedIn_countsOf hlen c).2 hc)

/-! ### The tree of an input (R102) -/

/-- The tree of an input is the one that the merges of its counts leave, whatever the arena. -/
theorem treeOfInput_eq {b : List Byte} {g : Grown}
    (hpq : (mergeAll 0 (countsOf b) []).pq = [g.root])
    (hsingle : Forest.Single (countsOf b) 0 (mergeAll 0 (countsOf b) []) g) : treeOfInput b = some g.tree := by
  have htree : treeOf 0 (mergeAll 0 (countsOf b) []).node (Config.codeMaxLen + 1) g.root.toNat = .ok g.tree :=
    hsingle.spans.treeOf_eq (treeHeight_lt_of_size (treeSize_le_of_single hsingle)) hsingle.ids_lt
  have hextract : pqExtractMin ((mergeAll 0 (countsOf b) []).key 0) (mergeAll 0 (countsOf b) []).pq =
      some (g.root, []) := by
    rw [hpq]
    simp [pqExtractMin, pqLeast]
  unfold treeOfInput
  rw [show (fun i => (countTable b).getD i 0) = countsOf b from rfl]
  simp only [hextract, htree]

theorem treeOfInput_grown {b : List Byte} (hlen : b.length < 2 ^ 32) (hb : b ≠ []) :
    ∃ g, treeOfInput b = some g.tree ∧ Forest.Single (countsOf b) 0 (mergeAll 0 (countsOf b) []) g ∧
      (totalCount (countsOf b) < 2 ^ 32 → Laws.GreedyCost (leafWeights (countsOf b)) (treeCost (countsOf b) g.tree)) := by
  obtain ⟨g, hforest, hpq, hmerges, hcost⟩ := mergeAll_grown 0 [] (observedIn_countsOf_ne_nil hlen hb)
  have hsingle := hforest.single hmerges
  exact ⟨g, treeOfInput_eq hpq hsingle, hsingle, hcost⟩

theorem treeOfInput_nil : treeOfInput [] = none := by
  have hobs : observedIn (countsOf []) = [] := by
    refine List.eq_nil_iff_forall_not_mem.2 fun c hc => ?_
    obtain ⟨hlt, hne⟩ := mem_observedIn.1 hc
    have hcount := toNat_countsOf (b := []) (by decide) (BitVec.ofNat 8 c)
    rw [BitVec.toNat_ofNat, Nat.mod_eq_of_lt hlt, List.count_nil] at hcount
    exact hne (BitVec.eq_of_toNat_eq hcount)
  obtain ⟨m, hinit, -⟩ := leafInit_spec 0 (countsOf []) []
  have hpq : (mergeAll 0 (countsOf []) []).pq = [] := by
    rw [mergeAll, hinit, hobs]
    rfl
  unfold treeOfInput
  rw [show (fun i => (countTable []).getD i 0) = countsOf [] from rfl]
  simp only [hpq, pqExtractMin_nil]

/-- The leaves of the tree of an input are its bytes, each once. -/
theorem nodup_treeSymbols_of_perm {t : CodeTree} {freqOf : Nat → Word}
    (h : (treeSymbols t).Perm ((observedIn freqOf).map (BitVec.ofNat 8))) : (treeSymbols t).Nodup :=
  h.nodup_iff.2 (nodup_allBytes.sublist ((List.filter_sublist).map _))

theorem mem_treeSymbols_of_perm {t : CodeTree} {b : List Byte} (hlen : b.length < 2 ^ 32)
    (h : (treeSymbols t).Perm ((observedIn (countsOf b)).map (BitVec.ofNat 8))) (c : Byte) :
    c ∈ treeSymbols t ↔ c ∈ b := by
  rw [h.mem_iff, List.mem_map, ← mem_observedIn_countsOf hlen]
  constructor
  · rintro ⟨i, hi, rfl⟩
    have hlt := (mem_observedIn.1 hi).1
    rwa [BitVec.toNat_ofNat, Nat.mod_eq_of_lt hlt]
  · exact fun hc => ⟨_, hc, by simp⟩

/-- Settles O44: the merges of the counts leave a tree, of the symbols counted. -/
theorem everyInputHasATree : Obligations.EveryInputHasATree := by
  intro b hb hlen
  have hlen : b.length < 2 ^ 32 := hlen.trans (by decide)
  obtain ⟨g, htree, hsingle, -⟩ := treeOfInput_grown hlen hb
  refine ⟨g.tree, htree, nodup_treeSymbols_of_perm hsingle.symbols, mem_treeSymbols_of_perm hlen hsingle.symbols, ?_⟩
  have hsize := treeSize_succ_eq g.tree
  omega

/-! ### The length of the code of an input (R168) -/

/-- The cost of a tree is the sum over its leaves of weight times depth. -/
theorem treeCost_eq (freqOf : Nat → Word) (t : CodeTree) :
    treeCost freqOf t = ((codes t).map fun p => (freqOf p.1.toNat).toNat * p.2.length).sum := by
  have hlonger (c : CodeTree) (b : Bool) :
      (((codes c).map fun p => (p.1, b :: p.2)).map fun p => (freqOf p.1.toNat).toNat * p.2.length).sum =
        ((codes c).map fun p => (freqOf p.1.toNat).toNat * p.2.length).sum + treeWeight freqOf c := by
    rw [treeWeight, ← map_fst_codes, List.map_map, List.map_map, ← List.sum_map_add]
    rfl
  induction t with
  | leaf sym => rfl
  | node l r ihl ihr =>
    rw [codes_node, List.map_append, List.sum_append, hlonger, hlonger, ← ihl, ← ihr, treeCost]
    omega

theorem length_enc (code : Byte → List Bool) (b : List Byte) :
    (enc code b).length = (b.map fun x => (code x).length).sum := List.length_flatMap

/-- Where no symbol has two leaves, a symbol's code is the path of its leaf, or "0" at a leaf root (R111). -/
theorem codeIn_of_mem_codes {t : CodeTree} (hnodup : (treeSymbols t).Nodup) {p : Byte × List Bool} (hp : p ∈ codes t) :
    codeIn t p.1 = nonEmptyCode p.2 := by
  obtain ⟨before, after, hcodes⟩ := List.append_of_mem hp
  have hafter : ∀ q ∈ after, q.1 ≠ p.1 := by
    rw [← map_fst_codes, hcodes, List.map_append, List.map_cons] at hnodup
    have hnotin := (List.nodup_cons.1 (List.nodup_append.1 hnodup).2.1).1
    exact fun q hq heq => hnotin (heq ▸ List.mem_map_of_mem hq)
  rw [codeIn, codeOf_eq_last hcodes hafter, Option.getD_some]

/-- In a tree with two leaves or more no path is empty. -/
theorem path_ne_nil {l r : CodeTree} {p : Byte × List Bool} (hp : p ∈ codes (.node l r)) : p.2 ≠ [] := by
  obtain ⟨q, -, rfl⟩ | ⟨q, -, rfl⟩ := mem_codes_node.1 hp <;> exact List.cons_ne_nil _ _

/-- With two leaves or more the code of an input has as many bits as its tree costs. -/
theorem length_enc_of_node {b : List Byte} {t l r : CodeTree} (hlen : b.length < 2 ^ 32)
    (hnodup : (treeSymbols t).Nodup) (hmem : ∀ c, c ∈ treeSymbols t ↔ c ∈ b) (ht : t = .node l r) :
    (enc (codeIn t) b).length = treeCost (countsOf b) t := by
  rw [length_enc, ← sum_count_of_nodup hnodup (fun x hx => (hmem x).2 hx), treeCost_eq, ← map_fst_codes, List.map_map]
  refine congrArg List.sum (List.map_congr_left fun p hp => ?_)
  have hne : p.2 ≠ [] := path_ne_nil (ht ▸ hp)
  rw [Function.comp_apply, codeIn_of_mem_codes hnodup hp, nonEmptyCode, if_neg hne, toNat_countsOf hlen]

/-- Every byte takes at least one bit. -/
theorem length_le_length_enc {b : List Byte} {t : CodeTree} (hmem : ∀ c, c ∈ treeSymbols t ↔ c ∈ b) :
    b.length ≤ (enc (codeIn t) b).length := by
  rw [length_enc]
  refine (List.length_le_sum_of_one_le _ ?_).trans_eq' (List.length_map _)
  intro n hn
  obtain ⟨x, hx, rfl⟩ := List.mem_map.1 hn
  exact List.length_pos_iff.2 (codeOf_ne_nil (codeOf_of_mem_treeSymbols ((hmem x).2 hx)))

/-- Every byte of an input takes one bit in a tree of one leaf. -/
theorem length_enc_of_leaf {b : List Byte} {sym : Byte} (hall : ∀ x ∈ b, x ∈ treeSymbols (.leaf sym)) :
    (enc (codeIn (.leaf sym)) b).length = b.length := by
  have hone : b.map (fun x => (codeIn (.leaf sym) x).length) = b.map fun _ => 1 := by
    refine List.map_congr_left fun x hx => ?_
    obtain rfl := List.mem_singleton.1 (hall x hx)
    rw [codeIn_of_mem_codes (t := .leaf x) (p := (x, [])) (List.nodup_singleton _) (List.mem_singleton_self _)]
    rfl
  rw [length_enc, hone, List.map_const', List.sum_replicate, smul_eq_mul, Nat.mul_one]

/-- Settles O45: merging the two least weights costs no more than a fixed-length code of the 256 symbols. -/
theorem inputsCodeFitsEightBitsAByte : Obligations.InputsCodeFitsEightBitsAByte := by
  intro b t hlen htree
  have hlen : b.length < 2 ^ 32 := hlen.trans (by decide)
  have hb : b ≠ [] := by
    rintro rfl
    rw [treeOfInput_nil] at htree
    cases htree
  obtain ⟨g, hg, hsingle, hcost⟩ := treeOfInput_grown hlen hb
  obtain rfl : g.tree = t := Option.some.inj (hg.symm.trans htree)
  have hnodup := nodup_treeSymbols_of_perm hsingle.symbols
  have hmem := mem_treeSymbols_of_perm hlen hsingle.symbols
  refine ⟨length_le_length_enc hmem, ?_⟩
  cases ht : g.tree with
  | leaf sym =>
    rw [ht] at hmem
    rw [length_enc_of_leaf fun x hx => (hmem x).2 hx]
    omega
  | node l r =>
    have htotal := totalCount_countsOf hlen
    have hbound := (hcost (htotal.trans_lt hlen)).le_mul_sum 8 (by
      rw [Multiset.coe_card, leafWeights, List.length_map]
      exact length_observedIn_le _)
    rw [Multiset.sum_coe, leafWeights, sum_observedIn, htotal] at hbound
    rw [← ht, length_enc_of_node hlen hnodup hmem ht]
    exact hbound

end Sys2Proof.Machine
end

section
/-! PROOFS. What each primitive stores when it ends well, with what is known of it (R91 to R176). -/

namespace Sys2Proof.Machine

/-! ### The loops of ENCODE and WALK -/

theorem encodeLoop_fits {codeAt : Byte → Code} {cap : Nat} {input : List Byte} {before bits : List Bool}
    (hbefore : before.length ≤ cap) (h : encodeLoop codeAt cap input before = .ok bits) : bits.length ≤ cap := by
  induction input generalizing before with
  | nil =>
    obtain rfl := Except.ok.inj h
    exact hbefore
  | cons b rest ih =>
    by_cases hcode : (codeAt b).len = 0
    · rw [encodeLoop_cons_noCode hcode] at h
      cases h
    · by_cases hroom : before.length + (codeBits (codeAt b)).length ≤ cap
      · rw [encodeLoop_cons_of_fits hcode hroom] at h
        exact ih (by rwa [List.length_append]) h
      · rw [encodeLoop_cons_full hcode (Nat.not_le.1 hroom)] at h
        cases h

theorem walkLoop_fits {s : State} {bits : List Bool} {cur last : NodeId} {before syms : List Byte}
    (hbefore : before.length ≤ s.par.outCap) (h : walkLoop s bits cur before = .ended last syms) :
    syms.length ≤ s.par.outCap := by
  induction bits generalizing cur before with
  | nil =>
    obtain ⟨-, rfl⟩ := Walked.ended.inj h
    exact hbefore
  | cons b bits ih =>
    cases hstep : walkStep s cur b with
    | noNode => simp [walkLoop, hstep] at h
    | absent =>
      rw [walkLoop_absent hstep] at h
      cases h
    | move nxt =>
      rw [walkLoop_move hstep] at h
      exact ih hbefore h
    | emit sym =>
      by_cases hroom : before.length < s.par.outCap
      · rw [walkLoop_emit hstep hroom] at h
        exact ih (by rwa [List.length_append]) h
      · rw [walkLoop_full hstep hroom] at h
        cases h

/-! ### The stores -/

/-- What a primitive that ends well leaves before its completion. -/
inductive Stores (s : State) : State → Prop where
  | nothing : Stores s s
  | counts (hverdict : freqVerdict s = none) : Stores s (storeCounts s)
  | tree (hverdict : buildVerdict s = none) : Stores s (storeTree s.builder (observed s).length s)
  | codes (t : CodeTree) (hvalid : s.valid.tree = true) (htree : s.tree = .ok t) : Stores s (storeCodes t s)
  | codeBits (bits : List Bool) (hfits : bits.length ≤ s.par.bsCap) : Stores s (storeCodeBits bits s)
  | treeBytes (t : CodeTree) (hlen : (ser t).length ≤ 767) : Stores s (storeTreeBytes t s)
  | payload (hlen : s.data.bsLen.toNat ≤ s.par.bsCap) : Stores s (storePayload s)
  | container (hverdict : wrcontVerdict s = none) (htree : s.data.treeLen.toNat ≤ 767)
      (hpay : s.data.payLen.toNat ≤ s.par.payCap) : Stores s (storeContainer s)
  | fields (hverdict : rdcontVerdict s = none) : Stores s (storeFields s)
  | loaded (t : CodeTree) (hsize : treeSize t ≤ 511) : Stores s (loadTree t s)
  | bits (hlen : s.data.payLen.toNat ≤ s.par.payCap) : Stores s (storeBits s)
  | symbols (syms : List Byte) (hfits : syms.length ≤ s.par.outCap) : Stores s (storeSymbols syms s)
  | invalidated : Stores s (invalidateAll s)

theorem encodeBody_stores {s t : State} (h : encodeBody s = .done t) : Stores s t := by
  rw [encodeBody_eq, verdict_elim_done] at h
  obtain ⟨-, hends⟩ := h
  cases hloop : encodeLoop (fun b => s.codeAt b.toNat) s.par.bsCap s.input [] with
  | error e => rw [hloop] at hends; cases hends
  | ok bits =>
    rw [hloop] at hends
    obtain rfl := Effect.done.inj hends
    exact .codeBits bits (encodeLoop_fits (Nat.zero_le _) hloop)

theorem sertreeBody_stores {s t : State} (h : sertreeBody s = .done t) : Stores s t := by
  obtain ⟨-, h⟩ := require_done.1 h
  cases htree : s.tree with
  | error f => rw [htree] at h; cases h
  | ok tr =>
    rw [htree] at h
    obtain ⟨hlen, h⟩ := within_done.1 h
    obtain rfl := Effect.done.inj h
    exact .treeBytes tr hlen

theorem packBody_stores {s t : State} (h : packBody s = .done t) : Stores s t := by
  obtain ⟨-, h⟩ := require_done.1 h
  obtain ⟨hlen, h⟩ := within_done.1 h
  obtain rfl := Effect.done.inj h
  exact .payload hlen

theorem unpackBody_stores {s t : State} (h : unpackBody s = .done t) : Stores s t := by
  obtain ⟨-, h⟩ := require_done.1 h
  obtain ⟨hlen, h⟩ := within_done.1 h
  obtain rfl := Effect.done.inj h
  exact .bits hlen

theorem wrcontBody_stores {s t : State} (h : wrcontBody s = .done t) : Stores s t := by
  rw [wrcontBody_eq, verdict_elim_done] at h
  obtain ⟨hverdict, h⟩ := h
  obtain ⟨htree, h⟩ := within_done.1 h
  obtain ⟨hpay, h⟩ := within_done.1 h
  obtain rfl := Effect.done.inj h
  exact .container hverdict htree hpay

theorem walkBody_stores {s t : State} (h : walkBody s = .done t) : Stores s t := by
  rw [walkBody_eq, verdict_elim_done] at h
  obtain ⟨-, h⟩ := h
  obtain ⟨-, hends⟩ := within_done.1 h
  cases hloop : walkLoop s s.bitString s.data.root [] with
  | noNode => rw [hloop] at hends; cases hends
  | raised e => rw [hloop] at hends; cases hends
  | ended cur syms =>
    rw [hloop, walkEnds] at hends
    obtain ⟨-, hdone⟩ := require_done.1 hends
    obtain rfl := Effect.done.inj hdone
    exact .symbols syms (walkLoop_fits (Nat.zero_le _) hloop)

theorem Primitive.body_stores {i : Instr} {op : Byte} {drop : State → State} {body : State → Effect}
    (hprim : Primitive i op drop body) {s t : State} (h : body s = .done t) : Stores s t := by
  cases hprim with
  | nop => cases h; exact .nothing
  | freq =>
    rw [freqBody_eq, verdict_elim_done] at h
    obtain ⟨hverdict, hdone⟩ := h
    obtain rfl := Effect.done.inj hdone
    exact .counts hverdict
  | build =>
    rw [buildBody_eq, verdict_elim_done] at h
    obtain ⟨hverdict, hdone⟩ := h
    obtain rfl := Effect.done.inj hdone
    exact .tree hverdict
  | gencode =>
    obtain ⟨hvalid, tr, htree, rfl⟩ := gencodeBody_done.1 h
    exact .codes tr hvalid htree
  | encode => exact encodeBody_stores h
  | sertree => exact sertreeBody_stores h
  | pack => exact packBody_stores h
  | wrcont => exact wrcontBody_stores h
  | rdcont =>
    rw [rdcontBody_eq, verdict_elim_done] at h
    obtain ⟨hverdict, hdone⟩ := h
    obtain rfl := Effect.done.inj hdone
    exact .fields hverdict
  | destree =>
    obtain ⟨-, tr, -, hsize, rfl⟩ := destreeBody_done.1 h
    exact .loaded tr hsize
  | unpack => exact unpackBody_stores h
  | walk => exact walkBody_stores h
  | clear => cases h; exact .invalidated

end Sys2Proof.Machine
end

section
/-! PROOFS. Steps keep the counts' sum (R34 item 1). -/

namespace Sys2Proof.Machine

theorem freqInv_storeCounts {s : State} (hwf : s.par.wf = true) (hverdict : freqVerdict s = none) :
    FreqInv (storeCounts s) := by
  have hlen : s.data.inLen.toNat ≤ s.par.inCap ∧ 1 ≤ s.data.inLen.toNat := by
    simp only [freqVerdict, verdictBranch_eq_none_iff] at hverdict
    omega
  have hcounts : ((List.range Config.nsym).map fun c => ((storeCounts s).freqAt c).toNat).sum =
      totalCount (countsOf s.input) := by
    refine congrArg List.sum (List.map_congr_left fun c hc => ?_)
    have hat : (storeCounts s).freqAt c = _ := freqAt_storeCounts s s.status.stage c
    rw [hat, if_pos (show c < 256 from List.mem_range.1 hc)]
    rfl
  refine ⟨hwf, fun _ => ?_⟩
  have hfits := (capacities_fit hwf).1
  rw [hcounts, totalCount_countsOf (by rw [length_input]; omega), length_input]
  exact hlen.symm

theorem freqInv_keptByCommands : KeptByCommands FreqInv where
  stage _ _ hs := hs
  drop hprim s hs := by
    cases hprim with
    | freq => exact ⟨hs.1, nofun⟩
    | _ => exact hs
  body hprim s t hs h := by
    cases hprim.body_stores h with
    | counts hverdict => exact freqInv_storeCounts hs.1 hverdict
    | invalidated => exact ⟨hs.1, nofun⟩
    | _ => exact hs
  invalidate _ hs := ⟨hs.1, nofun⟩
  complete _ _ hs := hs

theorem freqInv_keptByRecords : KeptByRecords FreqInv where
  more _ _ _ _ _ hs := hs
  commit _ _ _ hs := hs

theorem freqInv_keptByHost : KeptByHost FreqInv where
  ports h hs := by
    rw [portsOnly] at h
    rw [h]
    exact hs
  reset _ hs := ⟨hs.1, nofun⟩
  accept _ _ _ hs := hs
  doneWritten _ _ _ hs := hs
  elogWritten _ _ hs := hs
  inWritten _ _ _ _ hs := hs

/-- Settles O56: FREQ counts every input byte once, and nothing else writes the counts. -/
theorem stepKeepsTheCountsInvariant : Obligations.StepKeepsTheCountsInvariant := fun _ _ hs h =>
  step_keeps freqInv_keptByCommands freqInv_keptByRecords freqInv_keptByHost hs h

end Sys2Proof.Machine
end

section
/-! PROOFS. Steps keep the codes prefix-free (R34 item 3). -/

namespace Sys2Proof.Machine

theorem codeOk_storeCodes {s : State} {t : CodeTree} (htree : s.tree = .ok t) : CodeOk (storeCodes t s) := by
  have hat (c : Byte) : (storeCodes t s).codeAt c.toNat = (codeOf t c).elim ⟨0, 0⟩ codeOfBits :=
    codeAt_storeCodes_symbol t s s.status.stage c
  have hsymbol {c : Nat} (hc : c < Config.nsym) : ∃ b : Byte, b.toNat = c := ⟨BitVec.ofNat 8 c, Nat.mod_eq_of_lt hc⟩
  have hcoded {c : Byte} (hc : ((storeCodes t s).codeAt c.toNat).len ≠ 0) :
      codeOf t c = some (codeBits ((storeCodes t s).codeAt c.toNat)) :=
    codeOf_of_len_ne_zero (op := s.status.stage) htree hc
  refine ⟨?some, fun a b ha hb hne hcodea hcodeb => ?prefixFree, fun c k hc hk => ?filler⟩
  case some =>
    obtain ⟨c, hc⟩ : ∃ c, c ∈ treeSymbols t := by
      refine List.exists_mem_of_length_pos ?_
      have hsize := treeSize_succ_eq t
      omega
    exact ⟨c.toNat, c.isLt, len_codeAt_generated_ne_zero htree hc⟩
  case prefixFree =>
    obtain ⟨a, rfl⟩ := hsymbol ha
    obtain ⟨b, rfl⟩ := hsymbol hb
    exact codeOf_prefixFree (fun e => hne (congrArg BitVec.toNat e)) (hcoded hcodea) (hcoded hcodeb)
  case filler =>
    obtain ⟨c, rfl⟩ := hsymbol hc
    rw [hat c] at hk ⊢
    cases hcode : codeOf t c with
    | none => simp
    | some code =>
      have hlen := length_codeOf_lt htree hcode
      rw [hcode, Option.elim_some, toNat_len_codeOfBits hlen] at hk
      exact getLsbD_codeOfBits_filler hlen hk

theorem codeInv_keptByCommands : KeptByCommands CodeInv where
  stage _ _ hs := hs
  drop hprim s hs := by
    cases hprim with
    | gencode => exact nofun
    | _ => exact hs
  body hprim s t hs h := by
    cases hprim.body_stores h with
    | codes t _ htree => exact fun _ => codeOk_storeCodes htree
    | invalidated => exact nofun
    | _ => exact hs
  invalidate _ _ := nofun
  complete _ _ hs := hs

theorem codeInv_keptByRecords : KeptByRecords CodeInv where
  more _ _ _ _ _ hs := hs
  commit _ _ _ hs := hs

theorem codeInv_keptByHost : KeptByHost CodeInv where
  ports h hs := by
    rw [portsOnly] at h
    rw [h]
    exact hs
  reset _ _ := nofun
  accept _ _ _ hs := hs
  doneWritten _ _ _ hs := hs
  elogWritten _ _ hs := hs
  inWritten _ _ _ _ hs := hs

/-- Settles O58: GENCODE leaves the codes of a tree, and nothing else writes them. -/
theorem stepKeepsTheCodesPrefixFree : Obligations.StepKeepsTheCodesPrefixFree := fun _ _ hs h =>
  step_keeps codeInv_keptByCommands codeInv_keptByRecords codeInv_keptByHost hs h

end Sys2Proof.Machine
end

section
/-! PROOFS. The reset states meet every invariant (R34, R35, R230). -/

namespace Sys2Proof.Machine

theorem memoryInv_of_empty {s : State} (hfreq : s.freq = []) (hnode : s.node = []) (hcode : s.code = [])
    (htreeb : s.treeb = []) (hpay : s.pay = []) (hbs : s.bs = []) (hinp : s.inp = []) (hout : s.out = [])
    (hstack : s.work.stack.length ≤ Config.stackCap) (hparsing : s.parsing = false) : MemoryInv s := by
  have hempty {α : Type} {m : Memory α} (cap : Nat) (hm : m = []) : m.wf ∧ m.below cap := by
    rw [hm]
    exact ⟨.nil, nofun⟩
  exact ⟨hempty _ hfreq, hempty _ hnode, hempty _ hcode, hempty _ htreeb, hempty _ hpay, hempty _ hbs, hempty _ hinp,
    hempty _ hout, hstack, fun h => absurd (hparsing.symm.trans h) Bool.noConfusion⟩

theorem registerInv_of_zero {s : State} (hwf : s.par.wf = true) (hstatus : s.status = ⟨false, false, 0, 0⟩)
    (helog : s.elog = 0) (hvalid : s.valid = ⟨false, false, false, false, false, false, false⟩)
    (hdata : s.data = ⟨0, 0, 0, 0, 0, 0, 0, 0⟩) (hpq : s.pq = []) (hparsing : s.parsing = false) : RegisterInv s := by
  constructor <;> simp [hwf, hstatus, helog, hvalid, hdata, hpq, hparsing]

theorem memoryInv_hostReset (s : State) : MemoryInv (hostReset s) :=
  memoryInv_of_empty rfl rfl rfl rfl rfl rfl rfl rfl (restingWork_stack s) rfl

/-- Settles O59: no flag is set, no element is listed, no command is under way. -/
theorem resetMeetsTheInvariants : Obligations.ResetMeetsTheInvariants := by
  refine ⟨memoryInv_of_empty rfl rfl rfl rfl rfl rfl rfl rfl (Nat.zero_le _) rfl,
    registerInv_of_zero (by decide) rfl rfl rfl rfl rfl rfl, ⟨by decide, nofun⟩, ⟨nofun, nofun⟩, nofun, fun s hwf => ?_⟩
  exact ⟨memoryInv_hostReset s, registerInv_of_zero hwf rfl rfl rfl rfl rfl rfl, ⟨hwf, nofun⟩, ⟨nofun, nofun⟩, nofun⟩

end Sys2Proof.Machine
end

section
/-! PROOFS. Steps keep lengths, flags, queue and status within their bounds (R34 items 2 and 4 to 9). -/

namespace Sys2Proof.Machine

/-! ### What the primitives store -/

theorem toNat_ofNat_le (n x : Nat) : (BitVec.ofNat n x).toNat ≤ x := by
  rw [BitVec.toNat_ofNat]
  exact Nat.mod_le _ _

theorem registerInv_storeTree {s : State} (hs : RegisterInv s) (b : Builder) (leaves : Nat) :
    RegisterInv (storeTree b leaves s) :=
  { hs with noTree := nofun, queue := rfl }

theorem registerInv_storeCodeBits {s : State} (hs : RegisterInv s) {bits : List Bool}
    (hfits : bits.length ≤ s.par.bsCap) : RegisterInv (storeCodeBits bits s) :=
  { hs with bits := fun _ => (toNat_ofNat_le ..).trans hfits, noBits := nofun }

theorem registerInv_storeTreeBytes {s : State} (hs : RegisterInv s) {t : CodeTree} (hlen : (ser t).length ≤ 767) :
    RegisterInv (storeTreeBytes t s) where
  __ := hs
  treeb _ := by
    have hcount : (storeTreeBytes t s).data.treeLen.toNat = (ser t).length :=
      storeTreeBytes_treeLen hlen s s.status.stage
    have hser := length_ser_succ t
    have hsize := treeSize_succ_eq t
    have hpos := treeSize_pos t
    omega
  noTreeb := nofun

theorem registerInv_storePayload {s : State} (hs : RegisterInv s) (hlen : s.data.bsLen.toNat ≤ s.par.bsCap) :
    RegisterInv (storePayload s) where
  __ := hs
  pay _ := by
    refine ⟨packed_payLen_le hlen, fun hzero => BitVec.eq_of_toNat_eq ?_⟩
    have hbits : (s.data.bsLen.toNat + 7) / 8 = 0 := (packed_payLen s).symm.trans (congrArg BitVec.toNat hzero)
    have hempty : s.data.bsLen.toNat = 0 := by omega
    exact (packed_pad s).trans (by rw [hempty]; rfl)
  noPay := nofun

/-- Where WRCONT's tests are passed OUT has room for the container. -/
theorem containerLen_le {s : State} (hverdict : wrcontVerdict s = none) :
    12 + s.data.treeLen.toNat + s.data.payLen.toNat ≤ s.par.outCap := by
  obtain ⟨-, -, -, hroom⟩ := wrcontVerdict_eq_none_iff.1 hverdict
  exact hroom

theorem registerInv_storeContainer {s : State} (hs : RegisterInv s) (hverdict : wrcontVerdict s = none) :
    RegisterInv (storeContainer s) :=
  { hs with out := fun _ => (toNat_ofNat_le ..).trans (containerLen_le hverdict), noOut := nofun }

theorem registerInv_storeFields {s : State} (hs : RegisterInv s) (hverdict : rdcontVerdict s = none) :
    RegisterInv (storeFields s) := by
  obtain ⟨htree, -, hpay⟩ := containerRead_counts hverdict
  change (storeFields s).data.treeLen.toNat = _ at htree
  change (storeFields s).data.payLen.toNat = _ at hpay
  obtain ⟨-, hcap, hsum, -, hT, hP, hTcap⟩ := rdcontVerdict_eq_none_iff.1 hverdict
  refine { hs with
    treeb := fun _ => ?tree, noTreeb := nofun
    pay := fun _ => ⟨?payload, fun hzero => ?empty⟩, noPay := nofun }
  case tree => omega
  case payload =>
    rw [hpay, Params.payCap]
    exact le_trans (by omega) hcap
  case empty =>
    have hnone : 0 = s.inWord (8 + s.inWord 0) := (congrArg BitVec.toNat hzero).symm.trans hpay
    omega

theorem registerInv_storeBits {s : State} (hs : RegisterInv s) (hlen : s.data.payLen.toNat ≤ s.par.payCap) :
    RegisterInv (storeBits s) :=
  { hs with bits := fun _ => unpacked_bsLen_le hs.params hlen, noBits := nofun }

theorem registerInv_storeSymbols {s : State} (hs : RegisterInv s) {syms : List Byte}
    (hfits : syms.length ≤ s.par.outCap) : RegisterInv (storeSymbols syms s) :=
  { hs with out := fun _ => (toNat_ofNat_le ..).trans hfits, noOut := nofun }

theorem registerInv_commitTree {s : State} (hs : RegisterInv s) (root : NodeId) (p : Parser) :
    RegisterInv (commitTree root p s) :=
  { hs with noTree := nofun }

theorem registerInv_invalidateAll {s : State} (hs : RegisterInv s) : RegisterInv (invalidateAll s) where
  __ := hs
  noTree _ := ⟨rfl, rfl⟩
  bits := nofun
  noBits _ := rfl
  treeb := nofun
  noTreeb _ := rfl
  pay := nofun
  noPay _ := ⟨rfl, rfl⟩
  out := nofun
  noOut _ := rfl

theorem registerInv_stores {s t : State} (hs : RegisterInv s) (h : Stores s t) : RegisterInv t := by
  cases h with
  | nothing => exact hs
  | counts hverdict => exact { hs with }
  | tree hverdict => exact registerInv_storeTree hs _ _
  | codes tr hvalid htree => exact { hs with }
  | codeBits bits hfits => exact registerInv_storeCodeBits hs hfits
  | treeBytes tr hlen => exact registerInv_storeTreeBytes hs hlen
  | payload hlen => exact registerInv_storePayload hs hlen
  | container hverdict htree hpay => exact registerInv_storeContainer hs hverdict
  | fields hverdict => exact registerInv_storeFields hs hverdict
  | loaded tr hsize => exact registerInv_commitTree hs _ _
  | bits hlen => exact registerInv_storeBits hs hlen
  | symbols syms hfits => exact registerInv_storeSymbols hs hfits
  | invalidated => exact registerInv_invalidateAll hs

/-! ### Everything else -/

theorem registerInv_drop {i : Instr} {op : Byte} {drop : State → State} {body : State → Effect}
    (hprim : Primitive i op drop body) {s : State} (hs : RegisterInv s) : RegisterInv (drop s) := by
  cases hprim with
  | nop => exact hs
  | clear => exact hs
  | freq => exact { hs with }
  | gencode => exact { hs with }
  | build => exact { hs with noTree := fun _ => ⟨rfl, rfl⟩ }
  | destree => exact { hs with noTree := fun _ => ⟨rfl, rfl⟩ }
  | encode => exact { hs with bits := nofun, noBits := fun _ => rfl }
  | unpack => exact { hs with bits := nofun, noBits := fun _ => rfl }
  | sertree => exact { hs with treeb := nofun, noTreeb := fun _ => rfl }
  | pack => exact { hs with pay := nofun, noPay := fun _ => ⟨rfl, rfl⟩ }
  | wrcont => exact { hs with out := nofun, noOut := fun _ => rfl }
  | walk => exact { hs with out := nofun, noOut := fun _ => rfl }
  | rdcont =>
    exact { hs with treeb := nofun, noTreeb := fun _ => rfl, pay := nofun, noPay := fun _ => ⟨rfl, rfl⟩ }

theorem registerInv_complete {s : State} (hs : RegisterInv s) (e : Option ErrKind) : RegisterInv (s.complete e) where
  __ := hs
  elog := by
    rw [complete_elog, BitVec.getLsbD_or, hs.elog, elogBit_getLsbD]
    rfl
  err := errCode_le e
  done := nofun
  parsing := nofun

theorem registerInv_keptByCommands : KeptByCommands RegisterInv where
  stage _ _ hs := { hs with }
  drop hprim _ hs := registerInv_drop hprim hs
  body hprim _ _ hs h := registerInv_stores hs (hprim.body_stores h)
  invalidate _ hs := registerInv_invalidateAll hs
  complete e _ hs := registerInv_complete hs e

theorem registerInv_keptByRecords : KeptByRecords RegisterInv where
  more _ _ _ _ _ hs := { hs with }
  commit _ _ _ hs := registerInv_commitTree hs _ _

theorem registerInv_keptByHost : KeptByHost RegisterInv where
  ports h hs := by
    rw [portsOnly] at h
    rw [h]
    exact { hs with }
  reset _ hs := registerInv_of_zero hs.params rfl rfl rfl rfl rfl rfl
  accept _ _ _ hs := { hs with done := fun _ => rfl, parsing := fun _ => rfl }
  doneWritten _ _ hb hs := { hs with done := fun h => absurd (hb.symm.trans h) Bool.noConfusion }
  elogWritten s v hs := { hs with elog := by rw [getLsbD_elogAfterWrite, hs.elog, Bool.false_and] }
  inWritten _ _ _ _ hs := { hs with }

/-- Settles O55: each primitive stores lengths within its buffers, and each failure zeroes those it invalidates. -/
theorem stepKeepsTheRegisterInvariant : Obligations.StepKeepsTheRegisterInvariant := fun _ _ hs h =>
  step_keeps registerInv_keptByCommands registerInv_keptByRecords registerInv_keptByHost hs h

end Sys2Proof.Machine
end

section
/-! PROOFS. Steps keep the memories in their form, inside their capacities (R50, log 2). -/

namespace Sys2Proof.Machine

/-! ### Memories in their form -/

/-- The one form, inside a capacity. -/
abbrev Memory.fits {α : Type} (m : Memory α) (cap : Nat) : Prop := m.wf ∧ m.below cap

theorem writeRange_fits {α : Type} {m : Memory α} {cap : Nat} (h : m.fits cap) {xs : List α} (hlen : xs.length ≤ cap) :
    (m.writeRange 0 xs).fits cap :=
  ⟨writeRange_wf m h.1 0 xs, writeRange_below m cap h.2 0 xs (by omega)⟩

theorem write_fits {α : Type} {m : Memory α} {cap i : Nat} (h : m.fits cap) (v : α) (hi : i < cap) :
    (m.write i v).fits cap :=
  ⟨write_wf m h.1 i v, write_below m cap h.2 i v hi⟩

/-- A merge writes a slot of the arena. -/
theorem mergeStep_fits {freqOf : Nat → Word} {found : Nat → Node} {epoch : Nat} {b : Builder}
    (hmerging : Merging freqOf found epoch b) (htwo : 2 ≤ b.pq.length) (hb : b.node.fits Config.nodeCap) :
    (mergeStep epoch b).node.fits Config.nodeCap := by
  obtain ⟨x, y, -, -, -, -, -, hstep⟩ := hmerging.step_spec htwo
  have hcount := hmerging.count
  have hle := length_observedIn_le freqOf
  rw [hstep]
  exact write_fits hb _ (show 256 + b.merges < 511 by omega)

theorem builder_fits {s : State} (hobs : observed s ≠ []) (h : s.node.fits Config.nodeCap) :
    s.builder.node.fits Config.nodeCap := by
  have hinit : (leafInit s.freqAt s.node).node.fits Config.nodeCap := by
    obtain ⟨m, hinit, -, hwf, hbelow⟩ := leafInit_spec s.epoch s.freqAt s.node
    rw [hinit]
    exact ⟨hwf h.1, hbelow Config.nodeCap (by decide) h.2⟩
  obtain ⟨-, -, hfits⟩ := mergeAll_induction (epoch := s.epoch) (Q := fun b => b.node.fits Config.nodeCap) hobs
    (fun _ => mergeStep_fits) hinit
  exact hfits

theorem preorderNodes_below {t : CodeTree} (hsize : treeSize t ≤ 511) :
    (cellsFrom 0 (preorderNodes t 0)).below Config.nodeCap := by
  intro c hc
  have hrange := cellsFrom_mem _ _ c hc
  rw [length_preorderNodes] at hrange
  show c.1 < 511
  omega

/-! ### What the primitives store -/

theorem memoryInv_stores {s t : State} (hs : MemoryInv s) (h : Stores s t) : MemoryInv t := by
  obtain ⟨hfreq, hnode, hcode, htreeb, hpay, hbs, hinp, hout, hwork⟩ := hs
  cases h with
  | nothing => exact ⟨hfreq, hnode, hcode, htreeb, hpay, hbs, hinp, hout, hwork⟩
  | invalidated => exact ⟨hfreq, hnode, hcode, htreeb, hpay, hbs, hinp, hout, hwork⟩
  | counts hverdict =>
    exact ⟨writeRange_fits hfreq (length_countTable _).le, hnode, hcode, htreeb, hpay, hbs, hinp, hout, hwork⟩
  | tree hverdict =>
    obtain ⟨-, hobs⟩ := buildVerdict_eq_none_iff.1 hverdict
    exact ⟨hfreq, builder_fits hobs hnode, hcode, htreeb, hpay, hbs, hinp, hout, hwork⟩
  | codes tr hvalid htree =>
    exact ⟨hfreq, hnode, writeRange_fits hcode (length_codeTable tr).le, htreeb, hpay, hbs, hinp, hout, hwork⟩
  | codeBits bits hfits =>
    exact ⟨hfreq, hnode, hcode, htreeb, hpay, writeRange_fits hbs hfits, hinp, hout, hwork⟩
  | treeBytes tr hlen =>
    exact ⟨hfreq, hnode, hcode, writeRange_fits htreeb hlen, hpay, hbs, hinp, hout, hwork⟩
  | payload hlen =>
    have hbytes : (packBytes s.bitString).length ≤ s.par.payCap := by
      have hfits := packed_payLen_le hlen
      rwa [packed_payLen, ← length_bitString, ← length_packBytes] at hfits
    exact ⟨hfreq, hnode, hcode, htreeb, writeRange_fits hpay hbytes, hbs, hinp, hout, hwork⟩
  | container hverdict htree hlen =>
    have hbytes : (cont s.treeBytes s.data.pad.toNat s.payload).length ≤ s.par.outCap := by
      rw [length_cont, length_treeBytes, length_payload]
      exact containerLen_le hverdict
    exact ⟨hfreq, hnode, hcode, htreeb, hpay, hbs, hinp, writeRange_fits hout hbytes, hwork⟩
  | fields hverdict =>
    obtain ⟨-, hcap, hsum, -, -, -, hT⟩ := rdcontVerdict_eq_none_iff.1 hverdict
    have hP : s.inWord (8 + s.inWord 0) ≤ s.par.inCap := le_trans (by omega) hcap
    exact ⟨hfreq, hnode, hcode, writeRange_fits htreeb ((length_slice ..).trans_le hT),
      writeRange_fits hpay ((length_slice ..).trans_le hP), hbs, hinp, hout, hwork⟩
  | loaded tr hsize =>
    exact ⟨hfreq, ⟨overlay_wf _ _ hnode.1, overlay_below _ _ _ hnode.2 (preorderNodes_below hsize)⟩, hcode, htreeb, hpay,
      hbs, hinp, hout, hwork⟩
  | bits hlen =>
    have hbits : (unpackBits s.payload s.data.pad.toNat).length ≤ s.par.bsCap := by
      rw [length_unpackBits, length_payload, Params.bsCap]
      exact (Nat.sub_le _ _).trans (Nat.mul_le_mul_left 8 hlen)
    exact ⟨hfreq, hnode, hcode, htreeb, hpay, writeRange_fits hbs hbits, hinp, hout, hwork⟩
  | symbols syms hfits =>
    exact ⟨hfreq, hnode, hcode, htreeb, hpay, hbs, hinp, writeRange_fits hout hfits, hwork⟩

/-! ### Everything else -/

theorem memoryInv_complete {s : State} (hs : MemoryInv s) (e : Option ErrKind) : MemoryInv (s.complete e) := by
  obtain ⟨hfreq, hnode, hcode, htreeb, hpay, hbs, hinp, hout, -⟩ := hs
  exact ⟨hfreq, hnode, hcode, htreeb, hpay, hbs, hinp, hout, restingWork_stack s, nofun⟩

theorem memoryInv_keptByCommands : KeptByCommands MemoryInv where
  stage _ _ hs := hs
  drop hprim _ hs := by cases hprim <;> exact hs
  body hprim _ _ hs h := memoryInv_stores hs (hprim.body_stores h)
  invalidate _ hs := hs
  complete e _ hs := memoryInv_complete hs e

/-- A record that leaves the parse under way leaves it in its middle. -/
theorem parseRecord_more {i : Instr} {p q : Parser} (hp : ParserOk p) (h : parseRecord i p = .more q) : ParserOk q := by
  cases i with
  | internal => exact parseInternal_more hp h
  | leaf sym => exact parseLeaf_more hp h
  | _ => cases h

/-- Only a Leaf completes a tree. -/
theorem parseRecord_root {i : Instr} {p q : Parser} {root : NodeId} (h : parseRecord i p = .root root q) :
    ∃ sym, i = .leaf sym := by
  cases i with
  | leaf sym => exact ⟨sym, rfl⟩
  | internal =>
    rw [parseRecord, parseInternal] at h
    split at h <;> cases h
  | _ => cases h

theorem memoryInv_keptByRecords : KeptByRecords MemoryInv where
  more s n hparsing _ hmore hs := by
    obtain ⟨hfreq, hnode, hcode, htreeb, hpay, hbs, hinp, hout, -, hparser⟩ := hs
    have hok := parseRecord_more (hparser hparsing) hmore
    exact ⟨hfreq, hnode, hcode, htreeb, hpay, hbs, hinp, hout, hok.room, fun _ => hok⟩
  commit s hparsing hroot hs := by
    obtain ⟨hfreq, hnode, hcode, htreeb, hpay, hbs, hinp, hout, hwork⟩ := hs
    obtain ⟨sym, rfl⟩ := parseRecord_root hroot
    have hdraft := parseLeaf_root (hwork.2 hparsing) hroot
    exact ⟨hfreq, ⟨overlay_wf _ _ hnode.1, overlay_below _ _ _ hnode.2 hdraft.2⟩, hcode, htreeb, hpay, hbs, hinp, hout,
      hwork⟩

theorem memoryInv_keptByHost : KeptByHost MemoryInv where
  ports h hs := by
    rw [portsOnly] at h
    rw [h]
    exact hs
  reset s _ := memoryInv_hostReset s
  accept _ _ _ hs := hs
  doneWritten _ _ _ hs := hs
  elogWritten _ _ hs := hs
  inWritten s i b hi hs := by
    obtain ⟨hfreq, hnode, hcode, htreeb, hpay, hbs, hinp, hout, hwork⟩ := hs
    exact ⟨hfreq, hnode, hcode, htreeb, hpay, hbs, write_fits hinp b hi, hout, hwork⟩

/-- Settles O54: each write is a run of elements that the memory has room for. -/
theorem stepKeepsTheMemoriesInForm : Obligations.StepKeepsTheMemoriesInForm := fun _ _ hs h =>
  step_keeps memoryInv_keptByCommands memoryInv_keptByRecords memoryInv_keptByHost hs h

end Sys2Proof.Machine
end

section
/-! PROOFS. Steps keep a tree under ROOT while TREE_V = 1 (R24). -/

namespace Sys2Proof.Machine

/-! ### What the tree depends on -/

theorem reachableIds_congr {s t : State} (h : t.nodeAt = s.nodeAt) (depth id : Nat) :
    reachableIds t depth id = reachableIds s depth id := by
  induction depth generalizing id with
  | zero => rfl
  | succ depth ih => simp only [reachableIds, h, ih]

theorem treeOk_congr {s t : State} (hs : TreeOk s) (hepoch : t.epoch = s.epoch) (hnode : t.node = s.node)
    (hroot : t.data.root = s.data.root) (hnnode : t.data.nnode = s.data.nnode) : TreeOk t := by
  have hat : t.nodeAt = s.nodeAt := by
    funext i
    rw [State.nodeAt, State.nodeAt, hepoch, hnode]
  have htree : t.tree = s.tree := by rw [State.tree, State.tree, hepoch, hnode, hroot]
  simpa only [TreeOk, htree, reachableIds_congr hat, hroot, hnnode] using hs

/-- The tree stays, and the parse stays or has ended. -/
theorem treeInv_congr {s t : State} (hs : TreeInv s) (hvalid : t.valid.tree = s.valid.tree) (hepoch : t.epoch = s.epoch)
    (hnode : t.node = s.node) (hroot : t.data.root = s.data.root) (hnnode : t.data.nnode = s.data.nnode)
    (hparsing : t.parsing = true → s.parsing = true ∧ t.parser = s.parser) : TreeInv t := by
  obtain ⟨htree, hparse⟩ := hs
  refine ⟨fun hv => treeOk_congr (htree (hvalid.symm.trans hv)) hepoch hnode hroot hnnode, fun hp => ?_⟩
  obtain ⟨hp, hparser⟩ := hparsing hp
  rw [hparser]
  exact hparse hp

/-! ### Records one after another -/

theorem feedRecords_cons {i : Instr} {p q : Parser} (h : parseRecord i p = .more q) (rs : List Instr) :
    feedRecords (i :: rs) p = feedRecords rs q := by
  cases i with
  | internal =>
    change parseInternal p = .more q at h
    rw [feedRecords, h]
  | leaf sym =>
    change parseLeaf sym p = .more q at h
    rw [feedRecords, h]
  | _ => cases h

/-- Records that leave a subtree expected were parsed one by one. -/
theorem feedRecords_cons_more {i : Instr} {rs : List Instr} {p r : Parser} (h : feedRecords (i :: rs) p = .more r) :
    i.isRecord = true ∧ ∃ q, parseRecord i p = .more q ∧ feedRecords rs q = .more r := by
  cases i with
  | internal =>
    cases hstep : parseInternal p with
    | more q =>
      rw [feedRecords_cons (i := .internal) hstep] at h
      exact ⟨rfl, q, hstep, h⟩
    | _ => rw [feedRecords, hstep] at h; cases h
  | leaf sym =>
    cases hstep : parseLeaf sym p with
    | more q =>
      rw [feedRecords_cons (i := .leaf sym) hstep] at h
      exact ⟨rfl, q, hstep, h⟩
    | _ => rw [feedRecords, hstep] at h; cases h
  | _ => cases h

theorem feedRecords_append {rs : List Instr} {p q : Parser} (h : feedRecords rs p = .more q) (rs' : List Instr) :
    feedRecords (rs ++ rs') p = feedRecords rs' q := by
  induction rs generalizing p with
  | nil =>
    obtain rfl := ParseStep.more.inj h
    rfl
  | cons i rs ih =>
    obtain ⟨-, u, hstep, hrest⟩ := feedRecords_cons_more h
    rw [List.cons_append, feedRecords_cons hstep, ih hrest]

/-- The bytes of a record go through the parser as the record does. -/
theorem parseBytes_record {i : Instr} (hi : i.isRecord = true) (rest : List Byte) (p : Parser) :
    parseBytes (recordBytes i ++ rest) p = continueParse rest (parseRecord i p) := by
  cases i with
  | leaf sym => exact parseBytes_leaf sym rest p
  | internal =>
    show parseBytes (0x30#8 :: rest) p = continueParse rest (parseInternal p)
    unfold parseBytes
    rw [if_pos rfl]
    cases hstep : parseInternal p with
    | more q => rfl
    | full => rfl
    | root id q =>
      obtain ⟨sym, hsym⟩ := parseRecord_root (i := .internal) hstep
      cases hsym
  | _ => cases hi

theorem parseBytes_feedRecords {rs : List Instr} {p q : Parser} (h : feedRecords rs p = .more q) (rest : List Byte) :
    parseBytes (rs.flatMap recordBytes ++ rest) p = parseBytes rest q := by
  induction rs generalizing p with
  | nil =>
    obtain rfl := ParseStep.more.inj h
    rfl
  | cons i rs ih =>
    obtain ⟨hi, u, hstep, hrest⟩ := feedRecords_cons_more h
    rw [List.flatMap_cons, List.append_assoc, parseBytes_record hi, hstep]
    exact ih hrest

/-- A record that completes the tree after others has completed that of all their bytes. -/
theorem commitTree_of_root {rs : List Instr} {i : Instr} {s : State} {p : Parser} {root : NodeId}
    (hfeed : feedRecords rs Parser.start = .more s.parser) (hroot : parseRecord i s.parser = .root root p) :
    ∃ t, treeSize t ≤ 511 ∧ commitTree root p s = loadTree t s := by
  obtain ⟨sym, rfl⟩ := parseRecord_root hroot
  have hparsed : parseBytes (rs.flatMap recordBytes ++ recordBytes (.leaf sym)) Parser.start = some (root, p) := by
    rw [parseBytes_feedRecords hfeed, ← List.append_nil (recordBytes _), parseBytes_record rfl, hroot]
    rfl
  obtain ⟨t, -, hsize, heq⟩ := parseBytes_start_eq_some.1 hparsed
  obtain ⟨rfl, rfl⟩ := Prod.mk.inj heq
  exact ⟨t, hsize, rfl⟩

/-! ### The steps -/

theorem treeInv_loadTree {s : State} (hs : TreeInv s) {t : CodeTree} (hsize : treeSize t ≤ 511) :
    TreeInv (loadTree t s) :=
  ⟨fun _ => treeOk_congr (treeOk_loadTree hsize s s.status.stage) rfl rfl rfl rfl, hs.2⟩

theorem treeInv_storeTree {s : State} (hs : TreeInv s) (hobs : observed s ≠ []) :
    TreeInv (storeTree s.builder (observed s).length s) := by
  obtain ⟨g, hsingle, hroot, -⟩ := builder_single hobs
  exact ⟨fun _ => treeOk_congr (treeOk_built hsingle hroot) rfl rfl rfl rfl, hs.2⟩

theorem treeInv_stores {s t : State} (hs : TreeInv s) (h : Stores s t) : TreeInv t := by
  cases h with
  | tree hverdict => exact treeInv_storeTree hs (buildVerdict_eq_none_iff.1 hverdict).2
  | loaded tr hsize => exact treeInv_loadTree hs hsize
  | invalidated => exact ⟨nofun, hs.2⟩
  | _ => exact treeInv_congr hs rfl rfl rfl rfl rfl fun hp => ⟨hp, rfl⟩

theorem treeInv_drop {i : Instr} {op : Byte} {drop : State → State} {body : State → Effect}
    (hprim : Primitive i op drop body) {s : State} (hs : TreeInv s) : TreeInv (drop s) := by
  cases hprim with
  | build => exact ⟨nofun, hs.2⟩
  | destree => exact ⟨nofun, hs.2⟩
  | _ => exact treeInv_congr hs rfl rfl rfl rfl rfl fun hp => ⟨hp, rfl⟩

theorem treeInv_keptByCommands : KeptByCommands TreeInv where
  stage _ _ hs := treeInv_congr hs rfl rfl rfl rfl rfl fun hp => ⟨hp, rfl⟩
  drop hprim _ hs := treeInv_drop hprim hs
  body hprim _ _ hs h := treeInv_stores hs (hprim.body_stores h)
  invalidate _ hs := ⟨nofun, hs.2⟩
  complete _ _ hs := treeInv_congr hs rfl rfl rfl rfl rfl nofun

theorem treeInv_keptByRecords : KeptByRecords TreeInv where
  more {i p} s n hparsing _ hmore hs := by
    obtain ⟨rs, hfeed⟩ := hs.2 hparsing
    refine ⟨fun hv => treeOk_congr (hs.1 hv) rfl rfl rfl rfl, fun _ => ⟨rs ++ [i], ?_⟩⟩
    rw [feedRecords_append hfeed, feedRecords_cons hmore]
    rfl
  commit s hparsing hroot hs := by
    obtain ⟨rs, hfeed⟩ := hs.2 hparsing
    obtain ⟨t, hsize, hload⟩ := commitTree_of_root hfeed hroot
    rw [hload]
    exact treeInv_loadTree hs hsize

theorem treeInv_keptByHost : KeptByHost TreeInv where
  ports h hs := by
    rw [portsOnly] at h
    rw [h]
    exact treeInv_congr hs rfl rfl rfl rfl rfl fun hp => ⟨hp, rfl⟩
  reset _ _ := ⟨nofun, nofun⟩
  accept _ _ _ hs := treeInv_congr hs rfl rfl rfl rfl rfl fun hp => ⟨hp, rfl⟩
  doneWritten _ _ _ hs := treeInv_congr hs rfl rfl rfl rfl rfl fun hp => ⟨hp, rfl⟩
  elogWritten _ _ hs := treeInv_congr hs rfl rfl rfl rfl rfl fun hp => ⟨hp, rfl⟩
  inWritten _ _ _ _ hs := treeInv_congr hs rfl rfl rfl rfl rfl fun hp => ⟨hp, rfl⟩

/-- Settles O57: BUILD and DESTREE leave a tree, the records of a parse lead to one, and nothing else writes the arena. -/
theorem stepKeepsTheTreeInvariant : Obligations.StepKeepsTheTreeInvariant := fun _ _ hs h =>
  step_keeps treeInv_keptByCommands treeInv_keptByRecords treeInv_keptByHost hs h

end Sys2Proof.Machine
end

section
/-! PROOFS. Where the invariants hold no step stops (R196, R214). -/

namespace Sys2Proof.Machine

/-! ### No body stops -/

theorem verdict_elim_ne_stop {v : Option ErrKind} {t : State} {f : Fault} :
    v.elim (Effect.done t) Effect.raise ≠ .stop f := by
  cases v <;> nofun

section

variable {s : State} (hreg : RegisterInv s) (htree : TreeInv s) {f : Fault}

include htree in
theorem gencodeBody_ne_stop : gencodeBody s ≠ .stop f := by
  intro h
  obtain ⟨hvalid, h⟩ := require_stop.1 h
  obtain ⟨t, ids, hok, -⟩ := htree.1 hvalid
  rw [hok] at h
  cases h

include htree in
theorem sertreeBody_ne_stop : sertreeBody s ≠ .stop f := by
  intro h
  obtain ⟨hvalid, -⟩ := require_stop.1 h
  obtain ⟨t, ids, hok, -, -, -, -, hsize, hcap⟩ := htree.1 hvalid
  rw [sertreeBody_of_tree hvalid hok (length_ser_le (hsize.trans_le hcap))] at h
  cases h

theorem encodeBody_ne_stop : encodeBody s ≠ .stop f := by
  rw [encodeBody_eq]
  cases encodeVerdict s with
  | some e => nofun
  | none =>
    rw [Option.elim_none]
    cases encodeLoop (fun b => s.codeAt b.toNat) s.par.bsCap s.input [] <;> nofun

include hreg in
theorem packBody_ne_stop : packBody s ≠ .stop f := by
  intro h
  obtain ⟨hvalid, -⟩ := require_stop.1 h
  rw [packBody_of_bits hvalid (hreg.bits hvalid)] at h
  cases h

include hreg in
theorem unpackBody_ne_stop : unpackBody s ≠ .stop f := by
  intro h
  obtain ⟨hvalid, -⟩ := require_stop.1 h
  rw [unpackBody_of_payload hvalid (hreg.pay hvalid).1] at h
  cases h

include hreg in
theorem wrcontBody_ne_stop : wrcontBody s ≠ .stop f := by
  cases hverdict : wrcontVerdict s with
  | some e =>
    rw [wrcontBody_eq, hverdict]
    nofun
  | none =>
    obtain ⟨htreeb, hpay, -⟩ := wrcontVerdict_eq_none_iff.1 hverdict
    rw [wrcontBody_of_verdict_none hverdict (hreg.treeb htreeb).2 (hreg.pay hpay).1]
    nofun

include hreg in
theorem destreeBody_ne_stop : destreeBody s ≠ .stop f := by
  intro h
  obtain ⟨hvalid, -⟩ := require_stop.1 h
  by_cases hbytes : ∃ t, s.treeBytes = ser t ∧ treeSize t ≤ 511
  · obtain ⟨t, hser, hsize⟩ := hbytes
    rw [destreeBody_done.2 ⟨hvalid, t, hser, hsize, rfl⟩] at h
    cases h
  · rw [destreeBody_malformed hvalid (hreg.treeb hvalid).2 hbytes] at h
    cases h

include hreg htree in
theorem walkBody_ne_stop : walkBody s ≠ .stop f := by
  intro h
  cases hverdict : walkVerdict s with
  | some e =>
    rw [walkBody_of_verdict_some hverdict] at h
    cases h
  | none =>
    obtain ⟨htreeV, hbs, -⟩ := walkVerdict_eq_none_iff.1 hverdict
    obtain ⟨t, ids, hok, -⟩ := htree.1 htreeV
    have hlen := hreg.bits hbs
    by_cases hfull : overflowsOut t s.bitString s.par.outCap
    · rw [walkBody_of_overflow hverdict hlen hok hfull] at h
      cases h
    · cases hwalk : walkTree t s.bitString t with
      | none =>
        rw [walkBody_of_noWalk hverdict hlen hok hfull hwalk] at h
        cases h
      | some syms =>
        have hroom : syms.length ≤ s.par.outCap :=
          length_le_of_not_overflowsOut hfull (k := s.bitString.length) (by rwa [List.take_length])
        rw [walkBody_of_walk hverdict hlen hok hwalk hroom] at h
        cases h

include hreg htree in
theorem Primitive.body_ne_stop {i : Instr} {op : Byte} {drop : State → State} {body : State → Effect}
    (hprim : Primitive i op drop body) : body s ≠ .stop f := by
  cases hprim with
  | nop => nofun
  | clear => nofun
  | freq => rw [freqBody_eq]; exact verdict_elim_ne_stop
  | build => rw [buildBody_eq]; exact verdict_elim_ne_stop
  | rdcont => rw [rdcontBody_eq]; exact verdict_elim_ne_stop
  | gencode => exact gencodeBody_ne_stop htree
  | encode => exact encodeBody_ne_stop
  | sertree => exact sertreeBody_ne_stop htree
  | pack => exact packBody_ne_stop hreg
  | wrcont => exact wrcontBody_ne_stop hreg
  | destree => exact destreeBody_ne_stop hreg
  | unpack => exact unpackBody_ne_stop hreg
  | walk => exact walkBody_ne_stop hreg htree

end

/-! ### No command and no record stops -/

/-- What the bodies need to go on. -/
def Sound (s : State) : Prop := RegisterInv s ∧ TreeInv s

theorem sound_keptByCommands : KeptByCommands Sound where
  stage op s hs := ⟨registerInv_keptByCommands.stage op s hs.1, treeInv_keptByCommands.stage op s hs.2⟩
  drop hprim _ hs := ⟨registerInv_drop hprim hs.1, treeInv_drop hprim hs.2⟩
  body hprim _ _ hs h := ⟨registerInv_stores hs.1 (hprim.body_stores h), treeInv_stores hs.2 (hprim.body_stores h)⟩
  invalidate s hs := ⟨registerInv_invalidateAll hs.1, treeInv_keptByCommands.invalidate s hs.2⟩
  complete e s hs := ⟨registerInv_complete hs.1 e, treeInv_keptByCommands.complete e s hs.2⟩

theorem Primitive.ends {i : Instr} {op : Byte} {drop : State → State} {body : State → Effect}
    (hprim : Primitive i op drop body) {s : State} (hs : Sound s) : ∃ t e, runPrimitive op drop body s = .ended t e := by
  obtain ⟨hreg, htree⟩ := sound_keptByCommands.stage op s hs
  cases hb : body (s.setStage op) with
  | done t => exact ⟨t, none, runPrimitive_done hb⟩
  | raise e => exact ⟨_, some e, runPrimitive_raise hb⟩
  | stop f => exact absurd hb (hprim.body_ne_stop hreg htree)

/-- Parts that all end and keep a property end one after another. -/
theorem runAll_ends {P : State → Prop} {ps : List (State → Ran)}
    (hps : ∀ p ∈ ps, ∀ s, P s → ∃ t e, p s = .ended t e ∧ P t) {s : State} (hs : P s) :
    ∃ t e, runAll ps s = .ended t e := by
  induction ps generalizing s with
  | nil => exact ⟨s, none, rfl⟩
  | cons p ps ih =>
    obtain ⟨hp, hps⟩ := List.forall_mem_cons.1 hps
    obtain ⟨t, e, ht, hPt⟩ := hp s hs
    cases e with
    | some e => exact ⟨t, some e, runAll_cons_failed ht⟩
    | none =>
      rw [runAll_cons_ok ht]
      exact ih hps hPt

theorem exec_command_next {i : Instr} (hi : i.isRecord = false) {s : State} (hs : Sound s) : ∃ t, exec i s = .next t := by
  obtain ⟨op, drop, body, hprim⟩ | ⟨ps, hmacro⟩ := command_cases hi
  · obtain ⟨t, e, hended⟩ := hprim.ends hs
    exact ⟨_, by rw [hprim.exec_eq, hended]; rfl⟩
  · obtain ⟨t, e, hended⟩ := runAll_ends (P := Sound) (ps := ps) (fun p hp u hu => by
      obtain ⟨j, op, drop, body, hprim, rfl, -⟩ := hmacro.part_primitive hp
      obtain ⟨v, e, hv⟩ := hprim.ends hu
      exact ⟨v, e, hv, sound_keptByCommands.runPrimitive hprim hu hv⟩) (sound_keptByCommands.invalidate s hs)
    exact ⟨_, by rw [hmacro.exec_eq, hended]; rfl⟩

theorem exec_record_next {i : Instr} (hi : i.isRecord = true) (s : State) : ∃ t, exec i s = .next t := by
  obtain ⟨n, hexec⟩ := exec_record hi s
  rw [hexec]
  cases parseRecord i s.parser with
  | more p => exact ⟨_, rfl⟩
  | full => exact ⟨_, rfl⟩
  | root id p =>
    by_cases hlast : s.work.tpos.toNat + n = s.data.treeLen.toNat
    · exact ⟨_, conclude_runPrimitive_next.2 (.inl ⟨_, require_of hlast, rfl⟩)⟩
    · exact ⟨_, conclude_runPrimitive_next.2 (.inr ⟨_, require_of_not hlast, rfl⟩)⟩

/-! ### The steps -/

theorem engineTurn_stepsOn {s : State} (hs : Sound s) : ∃ t, engineTurn s = .next t := by
  rcases engineTurn_cases s with ⟨-, hturn⟩ | ⟨i, -, -, hturn⟩ | ⟨e, -, -, hturn⟩
  · exact ⟨_, hturn⟩
  · rw [hturn]
    cases hi : i.isRecord with
    | false => exact exec_command_next hi hs
    | true => exact exec_record_next hi s
  · exact ⟨_, hturn⟩

/-- Outside a parse a busy engine's turn completes its command. -/
theorem engineTurn_completes {s t : State} (hb : s.status.busy = true) (hp : s.parsing = false)
    (h : engineTurn s = .next t) : completesTo s t := by
  rcases engineTurn_cases s with ⟨hrest, -⟩ | ⟨i, -, hfetch, hturn⟩ | ⟨e, -, -, hturn⟩
  · exact absurd (hrest.symm.trans hb) Bool.noConfusion
  · exact exec_command_completes ((fetch_ok hfetch).trans hp) (hturn.symm.trans h)
  · obtain rfl := Host.Outcome.next.inj (hturn.symm.trans h)
    exact undecodable_completesTo s

/-- Settles O60: a body stops only on a length or a tree that the invariants exclude. -/
theorem noStepStopsAndEveryCommandCompletes : Obligations.NoStepStopsAndEveryCommandCompletes := by
  intro s hreg htree
  have hsound (rest : List Turn) : Sound { s with agenda := rest } :=
    ⟨registerInv_keptByHost.ports rfl hreg, treeInv_keptByHost.ports rfl htree⟩
  refine ⟨fun hnarrow => ?steps, fun rest hturn hb hp => ?completes⟩
  case steps =>
    rcases step_cases s with ⟨rest, -, hstep⟩ | ⟨x, rest, hturn, hstep⟩ | ⟨low, width, v, rest, -, hstep⟩
    · rw [stepsOn, hstep]
      exact engineTurn_stepsOn (hsound rest)
    · rw [stepsOn, hstep]
      exact hostTurn_next x _ fun idx offset bytes hx => hnarrow idx offset bytes rest (hx ▸ hturn)
    · exact ⟨_, hstep⟩
  case completes =>
    obtain ⟨t, ht⟩ := engineTurn_stepsOn (hsound rest)
    obtain ⟨u, e, -, hcomplete⟩ := engineTurn_completes (s := { s with agenda := rest }) hb hp ht
    exact ⟨t, (step_of_engineNext hturn).trans ht, by rw [hcomplete]; rfl, by rw [hcomplete]; rfl⟩

end Sys2Proof.Machine
end

section
/-! PROOFS. COMPRESS, by way of its commands issued one by one (R190). -/

namespace Sys2Proof.Machine

/-- The commands that COMPRESS stands for (R89, R190). -/
def compressCommands : List Instr := [.clear, .freq, .build, .gencode, .encode, .sertree, .pack, .wrcont]

/-- Where the commands end, COMPRESS ends, with working registers of its own (R31). -/
theorem exec_compress_of_runCommands {s u : State} (h : runCommands compressCommands s = .next u) :
    ∃ w n, exec .compress s = .next { u with work := w, tick := n } := by
  have halike : EndAlike (exec .compress s) (runCommands compressCommands s) :=
    runAll_endsLike_runCommands compressParts (x := invalidateAll (s.setStage 0x1F)) rfl
  rw [h] at halike
  cases hexec : exec .compress s with
  | next t =>
    rw [hexec] at halike
    obtain ⟨v, hv, hsame⟩ := halike.next_left
    obtain rfl := Host.Outcome.next.inj hv
    exact ⟨t.work, t.tick, by rw [← hsame]⟩
  | fault f => cases (halike.fault_iff f).1 hexec
  | refused r => exact absurd hexec (conclude_not_refused _ r)

theorem runCommands_compress (s : State) :
    runCommands compressCommands s =
      runCommands [.freq, .build, .gencode, .encode, .sertree, .pack, .wrcont] (cleared s) :=
  runCommands_cons_ok (exec_clear s) rfl

/-! ### FREQ and BUILD -/

theorem freqVerdict_eq_none_iff {s : State} :
    freqVerdict s = none ↔
      s.ctrl.srcOk = true ∧ s.data.inLen.toNat ≤ s.par.inCap ∧ 1 ≤ s.data.inLen.toNat := by
  simp [freqVerdict, verdictBranch_eq_none_iff, Nat.one_le_iff_ne_zero]

theorem inLen_le {s : State} (hverdict : freqVerdict s = none) : s.data.inLen.toNat ≤ s.par.inCap := by
  obtain ⟨-, hcap, -⟩ := freqVerdict_eq_none_iff.1 hverdict
  exact hcap

/-- An input that fits IN is shorter than the counts can tell (R4). -/
theorem length_input_lt {s : State} (hwf : s.par.wf = true) (hcap : s.data.inLen.toNat ≤ s.par.inCap) :
    s.input.length < 2 ^ 29 := by
  rw [Params.wf, decide_eq_true_eq] at hwf
  rw [length_input]
  omega

/-- Where FREQ leaves the machine. -/
def counted (s : State) : State := (storeCounts (s.setStage 0x01)).complete none

theorem freqAt_counted (s : State) {c : Nat} (hc : c < 256) : (counted s).freqAt c = countsOf s.input c :=
  (freqAt_storeCounts s 0x01 c).trans (if_pos hc)

theorem observed_counted (s : State) : observed (counted s) = observedIn (countsOf s.input) :=
  observedIn_congr fun _ hc => freqAt_counted s hc

/-- BUILD after FREQ makes the nodes that the merges of the input's counts make. -/
theorem builder_counted (s : State) :
    BuildAlike (countsOf s.input) 0 s.epoch (mergeAll 0 (countsOf s.input) []) (counted s).builder := by
  have hcounts := mergeAll_congr (fun c hc => freqAt_counted s (c := c) hc) s.epoch s.node
  rw [State.builder, show (counted s).epoch = s.epoch from rfl, show (counted s).node = s.node from rfl, hcounts]
  exact mergeAll_alike ..

/-- The root that BUILD finds after FREQ. -/
def rootOfInput (b : List Byte) : NodeId := (mergeAll 0 (countsOf b) []).pq.headD 0

theorem builtRoot_counted (s : State) : (counted s).builtRoot = rootOfInput s.input := by
  rw [State.builtRoot, (builder_counted s).pq, rootOfInput]

/-- The tree of an input: its leaves are the input's bytes, it fits the arena, and BUILD after FREQ leaves it. -/
structure IsTreeOf (tr : CodeTree) (b : List Byte) : Prop where
  tree : treeOfInput b = some tr
  mem : ∀ c, c ∈ treeSymbols tr ↔ c ∈ b
  size : treeSize tr ≤ 511
  built : ∀ s : State, s.input = b → (built (counted s)).tree = .ok tr

theorem exists_isTreeOf {b : List Byte} (hlen : b.length < 2 ^ 32) (hb : b ≠ []) : ∃ tr, IsTreeOf tr b := by
  obtain ⟨g, hforest, hpq, hmerges, -⟩ := mergeAll_grown 0 [] (observedIn_countsOf_ne_nil hlen hb)
  have hsingle := hforest.single hmerges
  have hsize := treeSize_le_of_single hsingle
  refine ⟨g.tree, treeOfInput_eq hpq hsingle, mem_treeSymbols_of_perm hlen hsingle.symbols, hsize, fun s hs => ?_⟩
  subst hs
  have hroot : (counted s).builtRoot = g.root := by
    rw [builtRoot_counted, rootOfInput, hpq]
    rfl
  have hspans : Spans (built (counted s)).nodeAt (built (counted s)).data.root.toNat g.tree g.ids := by
    simp only [built_data, hroot]
    exact hsingle.spans.congr fun i hi => (builder_counted s).slots i (hsingle.slots i hi)
  exact tree_of_spans hspans hsingle.ids_lt hsize

/-- The tree of an input is one. -/
theorem isTreeOf_of_treeOfInput {b : List Byte} {tr : CodeTree} (hlen : b.length < 2 ^ 32)
    (h : treeOfInput b = some tr) : IsTreeOf tr b := by
  have hb : b ≠ [] := by
    rintro rfl
    rw [treeOfInput_nil] at h
    cases h
  obtain ⟨tr', htr'⟩ := exists_isTreeOf hlen hb
  obtain rfl := Option.some.inj (htr'.tree.symm.trans h)
  exact htr'

/-! ### The registers after each command -/

/-- Where SERTREE leaves the machine. -/
def serialized (tr : CodeTree) (s : State) : State := (storeTreeBytes tr (s.setStage 0x05)).complete none

section

variable (tr : CodeTree) (s : State)

@[simp] theorem counted_par : (counted s).par = s.par := rfl
@[simp] theorem counted_ctrl : (counted s).ctrl = s.ctrl := rfl
@[simp] theorem counted_input : (counted s).input = s.input := rfl
@[simp] theorem counted_valid : (counted s).valid = { s.valid with freq := true } := rfl
@[simp] theorem counted_data : (counted s).data = s.data := rfl

@[simp] theorem built_par : (built s).par = s.par := rfl
@[simp] theorem built_ctrl : (built s).ctrl = s.ctrl := rfl
@[simp] theorem built_input : (built s).input = s.input := rfl

@[simp] theorem generated_par : (generated tr s).par = s.par := rfl
@[simp] theorem generated_ctrl : (generated tr s).ctrl = s.ctrl := rfl
@[simp] theorem generated_input : (generated tr s).input = s.input := rfl
@[simp] theorem generated_valid : (generated tr s).valid = { s.valid with code := true } := rfl
@[simp] theorem generated_data : (generated tr s).data = s.data := rfl
@[simp] theorem generated_tree : (generated tr s).tree = s.tree := rfl

@[simp] theorem encoded_par : (encoded s).par = s.par := rfl
@[simp] theorem encoded_ctrl : (encoded s).ctrl = s.ctrl := rfl
@[simp] theorem encoded_valid : (encoded s).valid = { s.valid with bs := true } := rfl
@[simp] theorem encoded_data :
    (encoded s).data = { s.data with bsLen := BitVec.ofNat 32 (enc s.codeOfByte s.input).length } := rfl
@[simp] theorem encoded_tree : (encoded s).tree = s.tree := rfl

@[simp] theorem serialized_par : (serialized tr s).par = s.par := rfl
@[simp] theorem serialized_ctrl : (serialized tr s).ctrl = s.ctrl := rfl
@[simp] theorem serialized_valid : (serialized tr s).valid = { s.valid with treeb := true } := rfl
@[simp] theorem serialized_data :
    (serialized tr s).data = { s.data with treeLen := BitVec.ofNat 10 (ser tr).length } := rfl
@[simp] theorem serialized_tree : (serialized tr s).tree = s.tree := rfl
@[simp] theorem serialized_bitString : (serialized tr s).bitString = s.bitString := rfl

@[simp] theorem packed_par : (packed s).par = s.par := rfl
@[simp] theorem packed_ctrl : (packed s).ctrl = s.ctrl := rfl
@[simp] theorem packed_valid : (packed s).valid = { s.valid with pay := true } := rfl
theorem packed_data :
    (packed s).data = { s.data with
      payLen := BitVec.ofNat 32 (packBytes s.bitString).length
      pad := BitVec.ofNat 3 (padCount s.data.bsLen.toNat) } := rfl
@[simp] theorem packed_tree : (packed s).tree = s.tree := rfl
@[simp] theorem packed_treeBytes : (packed s).treeBytes = s.treeBytes := rfl

end

/-! ### The state before WRCONT -/

/-- Where FREQ, BUILD and GENCODE leave the machine. -/
def codesReady (tr : CodeTree) (s : State) : State := generated tr (built (counted s))

/-- Where FREQ, BUILD, GENCODE and ENCODE leave the machine. -/
def bitsReady (tr : CodeTree) (s : State) : State := encoded (codesReady tr s)

/-- Where FREQ, BUILD, GENCODE, ENCODE, SERTREE and PACK leave the machine. -/
def readyToWrite (tr : CodeTree) (s : State) : State := packed (serialized tr (bitsReady tr s))

@[simp] theorem codesReady_par (tr : CodeTree) (s : State) : (codesReady tr s).par = s.par := by simp [codesReady]
@[simp] theorem codesReady_input (tr : CodeTree) (s : State) : (codesReady tr s).input = s.input := by simp [codesReady]
@[simp] theorem bitsReady_par (tr : CodeTree) (s : State) : (bitsReady tr s).par = s.par := by simp [bitsReady]

@[simp] theorem readyToWrite_par (tr : CodeTree) (s : State) : (readyToWrite tr s).par = s.par := by
  simp [readyToWrite]

@[simp] theorem readyToWrite_ctrl (tr : CodeTree) (s : State) : (readyToWrite tr s).ctrl = s.ctrl := by
  simp [readyToWrite, bitsReady, codesReady]

theorem readyToWrite_valid (tr : CodeTree) (s : State) :
    (readyToWrite tr s).valid = ⟨true, true, true, true, true, true, s.valid.out⟩ := by
  simp [readyToWrite, bitsReady, codesReady, built_valid]

/-- The data registers that FREQ to PACK leave from an input. -/
def compressedData (found : DataRegs) (tr : CodeTree) (b : List Byte) : DataRegs :=
  { found with
    treeLen := BitVec.ofNat 10 (ser tr).length
    pad := BitVec.ofNat 3 (padCount (enc (codeIn tr) b).length)
    payLen := BitVec.ofNat 32 (packBytes (enc (codeIn tr) b)).length
    bsLen := BitVec.ofNat 32 (enc (codeIn tr) b).length
    root := rootOfInput b
    nnode := BitVec.ofNat 10 (2 * (observedIn (countsOf b)).length - 1) }

section

variable {s : State} {tr : CodeTree} (htree : IsTreeOf tr s.input)

include htree

theorem readyToWrite_tree : (readyToWrite tr s).tree = .ok tr := by
  simp [readyToWrite, bitsReady, codesReady, htree.built s rfl]

theorem enc_codesReady : enc (codesReady tr s).codeOfByte (codesReady tr s).input = enc (codeIn tr) s.input := by
  rw [codesReady_input, codesReady]
  exact enc_generated (htree.built s rfl) fun x hx => (htree.mem x).2 hx

theorem readyToWrite_treeBytes : (readyToWrite tr s).treeBytes = ser tr := by
  rw [readyToWrite, packed_treeBytes, serialized]
  exact storeTreeBytes_treeBytes (length_ser_le htree.size) (bitsReady tr s) 0x05

theorem readyToWrite_treeLen : (readyToWrite tr s).data.treeLen.toNat ≤ 767 := by
  rw [← length_treeBytes, readyToWrite_treeBytes htree]
  exact length_ser_le htree.size

variable (hwf : s.par.wf = true) (hcap : s.data.inLen.toNat ≤ s.par.inCap)

include hwf hcap

/-- The code of the input fits BS (R168). -/
theorem length_enc_le : (enc (codeIn tr) s.input).length ≤ s.par.bsCap := by
  have hfits := (inputsCodeFitsEightBitsAByte s.input tr (length_input_lt hwf hcap) htree.tree).2
  rw [length_input] at hfits
  exact hfits.trans (Nat.mul_le_mul_left 8 hcap)

theorem length_enc_codesReady_lt : (enc (codesReady tr s).codeOfByte (codesReady tr s).input).length < 2 ^ 32 := by
  rw [enc_codesReady htree]
  exact (length_enc_le htree hwf hcap).trans_lt (bsCap_fits hwf)

theorem bitsReady_bsLen : (bitsReady tr s).data.bsLen.toNat = (enc (codeIn tr) s.input).length := by
  rw [bitsReady, encoded_bsLen (length_enc_codesReady_lt htree hwf hcap), enc_codesReady htree]

theorem bitsReady_bitString : (bitsReady tr s).bitString = enc (codeIn tr) s.input := by
  rw [bitsReady, encoded_bitString (length_enc_codesReady_lt htree hwf hcap), enc_codesReady htree]

theorem readyToWrite_payload : (readyToWrite tr s).payload = packBytes (enc (codeIn tr) s.input) := by
  rw [readyToWrite, packed_payload, serialized_bitString, bitsReady_bitString htree hwf hcap]

theorem readyToWrite_data : (readyToWrite tr s).data = compressedData s.data tr s.input := by
  rw [readyToWrite, packed_data, serialized_bitString, bitsReady_bitString htree hwf hcap, serialized_data,
    bitsReady_bsLen htree hwf hcap, bitsReady, encoded_data, enc_codesReady htree, codesReady, generated_data, built_data,
    counted_data, builtRoot_counted, observed_counted, compressedData]

theorem readyToWrite_pad : (readyToWrite tr s).data.pad.toNat = padCount (enc (codeIn tr) s.input).length := by
  rw [readyToWrite, packed_pad, serialized_data, bitsReady_bsLen htree hwf hcap]

theorem readyToWrite_payLen : (readyToWrite tr s).data.payLen.toNat ≤ s.par.payCap := by
  have hbits : (serialized tr (bitsReady tr s)).data.bsLen.toNat ≤ (serialized tr (bitsReady tr s)).par.bsCap := by
    rw [serialized_data, bitsReady_bsLen htree hwf hcap, serialized_par, bitsReady_par]
    exact length_enc_le htree hwf hcap
  have hfits := packed_payLen_le hbits
  rwa [serialized_par, bitsReady_par] at hfits

/-- What WRCONT writes is the container of the input. -/
theorem readyToWrite_cont :
    cont (readyToWrite tr s).treeBytes (readyToWrite tr s).data.pad.toNat (readyToWrite tr s).payload =
      containerOf tr s.input := by
  rw [readyToWrite_treeBytes htree, readyToWrite_pad htree hwf hcap, readyToWrite_payload htree hwf hcap, containerOf]

theorem length_containerOf :
    (containerOf tr s.input).length =
      12 + (readyToWrite tr s).data.treeLen.toNat + (readyToWrite tr s).data.payLen.toNat := by
  rw [← readyToWrite_cont htree hwf hcap, length_cont, length_treeBytes, length_payload]

end

end Sys2Proof.Machine
end

section
/-! PROOFS. How COMPRESS ends (R190). -/

namespace Sys2Proof.Machine

/-! ### How far the commands come -/

/-- Where the tests of FREQ are passed there is an input. -/
theorem input_ne_nil {s : State} (hverdict : freqVerdict s = none) : s.input ≠ [] := by
  obtain ⟨-, -, hpos⟩ := freqVerdict_eq_none_iff.1 hverdict
  rw [← length_input] at hpos
  exact List.length_pos_iff.1 hpos

theorem length_input_lt_word (s : State) : s.input.length < 2 ^ 32 := by
  rw [length_input]
  exact s.data.inLen.isLt

theorem observed_counted_ne_nil {s : State} (hverdict : freqVerdict s = none) : observed (counted s) ≠ [] := by
  rw [observed_counted]
  exact observedIn_countsOf_ne_nil (length_input_lt_word s) (input_ne_nil hverdict)

theorem exec_build_counted {s : State} (hverdict : freqVerdict s = none) :
    exec .build (counted s) = .next (built (counted s)) :=
  exec_build_of_verdict_none
    (buildVerdict_eq_none_iff.2 ⟨by rw [counted_valid], observed_counted_ne_nil hverdict⟩)

theorem runCommands_noInput {s : State} {e : ErrKind} (h : freqVerdict s = some e) (is : List Instr) :
    runCommands (.freq :: is) s = .next (errorEntry 0x01 dropFreq e s) :=
  runCommands_cons_failed (exec_freq_of_verdict_some h) (errKind_code_ne_zero e)

section

variable {s : State} {tr : CodeTree} (htree : IsTreeOf tr s.input)

include htree

theorem exec_gencode_built : exec .gencode (built (counted s)) = .next (codesReady tr s) :=
  exec_gencode_of_tree (by rw [built_valid]) (htree.built s rfl)

variable (hverdict : freqVerdict s = none) (hwf : s.par.wf = true)

include hverdict hwf

theorem exec_encode_codesReady : exec .encode (codesReady tr s) = .next (bitsReady tr s) := by
  obtain ⟨hsrc, hcap, -⟩ := freqVerdict_eq_none_iff.1 hverdict
  refine exec_encode_of_codes (encodeVerdict_eq_none_iff.2 ⟨?valid, ?src, ?cap⟩) (fun b hb => ?codes) ?room
  case valid => rw [codesReady, generated_valid]
  case src => rwa [codesReady, generated_ctrl, built_ctrl, counted_ctrl]
  case cap => rwa [codesReady_par, codesReady, generated_data, built_data, counted_data]
  case codes =>
    rw [codesReady_input] at hb
    exact len_codeAt_generated_ne_zero (htree.built s rfl) ((htree.mem b).2 hb)
  case room =>
    rw [enc_codesReady htree, codesReady_par]
    exact length_enc_le htree hwf hcap

/-- WRCONT is reached with every usable input. -/
theorem runCommands_readyToWrite :
    runCommands [.freq, .build, .gencode, .encode, .sertree, .pack, .wrcont] s =
      runCommands [.wrcont] (readyToWrite tr s) := by
  obtain ⟨-, hcap, -⟩ := freqVerdict_eq_none_iff.1 hverdict
  have hsertree : exec .sertree (bitsReady tr s) = .next (serialized tr (bitsReady tr s)) :=
    exec_sertree_of_tree (by simp [bitsReady, codesReady, built_valid])
      (by simp [bitsReady, codesReady, htree.built s rfl]) (length_ser_le htree.size)
  have hpack : exec .pack (serialized tr (bitsReady tr s)) = .next (readyToWrite tr s) := by
    refine exec_pack_of_bits (by simp [bitsReady]) ?_
    rw [serialized_data, bitsReady_bsLen htree hwf hcap, serialized_par, bitsReady_par]
    exact length_enc_le htree hwf hcap
  rw [runCommands_cons_ok (exec_freq_of_verdict_none hverdict) rfl, ← counted,
    runCommands_cons_ok (exec_build_counted hverdict) rfl,
    runCommands_cons_ok (exec_gencode_built htree) rfl,
    runCommands_cons_ok (exec_encode_codesReady htree hverdict hwf) rfl, runCommands_cons_ok hsertree rfl,
    runCommands_cons_ok hpack rfl]

end

/-! ### The ends -/

/-- The tests of WRCONT on what the other commands of COMPRESS leave: the container of the input fits OUT (R152). -/
def containerVerdict (s : State) (tr : CodeTree) : Option ErrKind :=
  if s.ctrl.dstOk = false then some .ioOpenFailure
  else if s.par.outCap < (containerOf tr s.input).length then some .bufferOverflow
  else none

theorem wrcontVerdict_readyToWrite {s : State} {tr : CodeTree} (htree : IsTreeOf tr s.input) (hwf : s.par.wf = true)
    (hcap : s.data.inLen.toNat ≤ s.par.inCap) : wrcontVerdict (readyToWrite tr s) = containerVerdict s tr := by
  simp [wrcontVerdict, containerVerdict, readyToWrite_valid, length_containerOf htree hwf hcap]

@[simp] theorem containerWritten_valid (s : State) : (containerWritten s).valid = { s.valid with out := true } := rfl
@[simp] theorem containerWritten_tree (s : State) : (containerWritten s).tree = s.tree := rfl

/-- FREQ fails: no output is valid. -/
theorem exec_compress_noInput {s : State} {e : ErrKind} (h : freqVerdict s = some e) :
    ∃ w n, exec .compress s = .next { errorEntry 0x01 dropFreq e (cleared s) with work := w, tick := n } :=
  exec_compress_of_runCommands ((runCommands_compress s).trans (runCommands_noInput (s := cleared s) h _))

section

variable {s : State} {tr : CodeTree} (hwf : s.par.wf = true) (hverdict : freqVerdict s = none)
  (htree : IsTreeOf tr s.input)

include hwf hverdict htree

theorem runCommands_compress_wrcont :
    runCommands compressCommands s = runCommands [.wrcont] (readyToWrite tr (cleared s)) :=
  (runCommands_compress s).trans (runCommands_readyToWrite (s := cleared s) htree hverdict hwf)

theorem wrcontVerdict_compress : wrcontVerdict (readyToWrite tr (cleared s)) = containerVerdict s tr :=
  wrcontVerdict_readyToWrite (s := cleared s) htree hwf (inLen_le hverdict)

/-- WRCONT fails: all other outputs are valid. -/
theorem exec_compress_notWritten {e : ErrKind} (h : containerVerdict s tr = some e) :
    ∃ w n, exec .compress s =
      .next { errorEntry 0x07 dropOutput e (readyToWrite tr (cleared s)) with work := w, tick := n } := by
  refine exec_compress_of_runCommands ((runCommands_compress_wrcont hwf hverdict htree).trans ?_)
  exact runCommands_cons_failed (exec_wrcont_of_verdict_some ((wrcontVerdict_compress hwf hverdict htree).trans h))
    (errKind_code_ne_zero e)

/-- The container is written. -/
theorem exec_compress_written (h : containerVerdict s tr = none) :
    ∃ w n, exec .compress s =
      .next { containerWritten (readyToWrite tr (cleared s)) with work := w, tick := n } := by
  have hcap := inLen_le hverdict
  refine exec_compress_of_runCommands ((runCommands_compress_wrcont hwf hverdict htree).trans ?_)
  refine runCommands_cons_ok (exec_wrcont_of_verdict_none ((wrcontVerdict_compress hwf hverdict htree).trans h) ?_ ?_) rfl
  · exact readyToWrite_treeLen (s := cleared s) htree
  · exact (readyToWrite_payLen (s := cleared s) htree hwf hcap).trans_eq (by rw [readyToWrite_par])

end

/-- Where the tests of FREQ are passed the input has its tree. -/
theorem exists_isTreeOf_input {s : State} (hverdict : freqVerdict s = none) : ∃ tr, IsTreeOf tr s.input :=
  exists_isTreeOf (length_input_lt_word s) (input_ne_nil hverdict)

theorem isTreeOf_input {s : State} {tr : CodeTree} (h : treeOfInput s.input = some tr) : IsTreeOf tr s.input :=
  isTreeOf_of_treeOfInput (length_input_lt_word s) h

theorem valid_readyToWrite_cleared (tr : CodeTree) (s : State) :
    (readyToWrite tr (cleared s)).valid = ⟨true, true, true, true, true, true, false⟩ := readyToWrite_valid tr (cleared s)

/-- Settles O47: FREQ fails, or WRCONT does, which is reached with every usable input. -/
theorem compressReportsItsFailures : Obligations.CompressReportsItsFailures := by
  refine fun s hwf => ⟨fun e he => ?noInput, fun tr e hverdict htree hfits he => ?notWritten⟩
  case noInput =>
    obtain ⟨w, n, hexec⟩ := exec_compress_noInput he
    exact ⟨_, hexec, rfl, rfl, rfl⟩
  case notWritten =>
    have hcontainer : containerVerdict s tr = some e := by
      obtain ⟨hdst, rfl⟩ | ⟨hdst, hfull, rfl⟩ := he
      · rw [containerVerdict, if_pos hdst]
      · rw [containerVerdict, if_neg (by rw [hdst]; decide), if_pos hfull]
    obtain ⟨w, n, hexec⟩ := exec_compress_notWritten hwf hverdict (isTreeOf_input htree) hcontainer
    refine ⟨_, hexec, rfl, ?_, rfl⟩
    show { (readyToWrite tr (cleared s)).valid with out := false } = _
    rw [valid_readyToWrite_cleared]

/-- Settles O46: COMPRESS ends in one of three ways, two of them failures. -/
theorem compressReportsNoOtherError : Obligations.CompressReportsNoOtherError := by
  intro s t hwf hexec hfailed
  cases hverdict : freqVerdict s with
  | some e =>
    obtain ⟨w, n, hends⟩ := exec_compress_noInput hverdict
    obtain rfl := Host.Outcome.next.inj (hexec.symm.trans hends)
    exact .inl ⟨e, rfl, rfl, rfl⟩
  | none =>
    obtain ⟨tr, htree⟩ := exists_isTreeOf_input hverdict
    refine .inr ⟨rfl, ?_⟩
    cases hcontainer : containerVerdict s tr with
    | none =>
      obtain ⟨w, n, hends⟩ := exec_compress_written hwf hverdict htree hcontainer
      obtain rfl := Host.Outcome.next.inj (hexec.symm.trans hends)
      exact absurd rfl hfailed
    | some e =>
      obtain ⟨w, n, hends⟩ := exec_compress_notWritten hwf hverdict htree hcontainer
      obtain rfl := Host.Outcome.next.inj (hexec.symm.trans hends)
      refine ⟨rfl, ?_⟩
      rw [containerVerdict] at hcontainer
      by_cases hdst : s.ctrl.dstOk = false
      · rw [if_pos hdst] at hcontainer
        obtain rfl := Option.some.inj hcontainer
        exact .inl ⟨hdst, rfl⟩
      · rw [if_neg hdst] at hcontainer
        by_cases hfull : s.par.outCap < (containerOf tr s.input).length
        · rw [if_pos hfull] at hcontainer
          obtain rfl := Option.some.inj hcontainer
          have hcap := inLen_le hverdict
          refine .inr ⟨by simpa using hdst, rfl, ?_⟩
          exact hfull.trans_eq (length_containerOf (s := cleared s) htree hwf hcap)
        · rw [if_neg hfull] at hcontainer
          cases hcontainer

/-! ### The container of the input -/

/-- A command that writes neither IN nor OUT, after others that do not either. -/
theorem reports_then {s t u : State} {op op' : Byte} {w : Space → Nat → Prop}
    (h : reports s t op none (fun sp _ => sp ∉ [.inp, .out])) (h' : reports t u op' none w)
    (hw : ∀ sp i, w sp i → sp ∉ [.inp, .out]) : reports s u op' none (fun sp _ => sp ∉ [.inp, .out]) :=
  reports_trans h h' fun sp i => Or.rec id (hw sp i)

theorem readyToWrite_reports (tr : CodeTree) {s : State} (hverdict : freqVerdict s = none) :
    reports s (readyToWrite tr (cleared s)) 0x06 none (fun sp _ => sp ∉ [.inp, .out]) := by
  have hobs : observed (counted (cleared s)) ≠ [] := observed_counted_ne_nil (s := cleared s) hverdict
  have hcounted := reports_trans (written := fun sp _ => sp ∉ [.inp, .out]) (cleared_reports s)
    (storeCounts_reports (cleared s) 0x01) (by rintro sp i (h | ⟨rfl, -⟩); exacts [h.elim, by decide])
  have hbuilt := reports_then hcounted (built_reports hobs) (by rintro sp i ⟨rfl, -⟩; decide)
  have hcodes := reports_then hbuilt (storeCodes_reports tr _ 0x03) (by rintro sp i ⟨rfl, -⟩; decide)
  have hbits := reports_then hcodes (encoded_reports _) (by rintro sp i ⟨rfl, -⟩; decide)
  have hbytes := reports_then hbits (storeTreeBytes_reports tr _ 0x05) (by rintro sp i ⟨rfl, -⟩; decide)
  exact reports_then hbytes (packed_reports _) (by rintro sp i ⟨rfl, -⟩; decide)

section

variable {s : State} {tr : CodeTree} (hwf : s.par.wf = true) (hverdict : freqVerdict s = none)
  (htree : IsTreeOf tr s.input)

include hverdict htree hwf

theorem compressed_reports :
    reports s (containerWritten (readyToWrite tr (cleared s))) 0x07 none
      (fun sp k => sp ≠ .inp ∧ (sp = .out → k < (containerOf tr s.input).length)) := by
  have hcap := inLen_le hverdict
  refine reports_trans (readyToWrite_reports tr hverdict) (containerWritten_reports _) fun sp i h => ?_
  obtain h | ⟨rfl, h⟩ := h
  · exact ⟨by rintro rfl; simp at h, by rintro rfl; simp at h⟩
  · exact ⟨by decide, fun _ => h.trans_eq (length_containerOf (s := cleared s) htree hwf hcap).symm⟩

/-- A container that fits OUT is what OUT holds afterwards. -/
theorem compressed_output (h : containerVerdict s tr = none) :
    (containerWritten (readyToWrite tr (cleared s))).output = containerOf tr s.input := by
  have hcap := inLen_le hverdict
  have hfits := containerLen_le ((wrcontVerdict_compress hwf hverdict htree).trans h)
  have hlt : (readyToWrite tr (cleared s)).par.outCap < 2 ^ 32 := by
    rw [readyToWrite_par, cleared_par]
    exact (capacities_fit hwf).2
  rw [containerWritten_output (hfits.trans_lt hlt)]
  exact readyToWrite_cont (s := cleared s) htree hwf hcap

end

/-- Settles O43: all commands succeed, and WRCONT writes the container of what they leave. -/
theorem compressWritesTheContainerOfTheInput : Obligations.CompressWritesTheContainerOfTheInput := by
  intro s tr hwf hsrc hdst hpos hcap htree hfits hroom
  have hverdict := freqVerdict_eq_none_iff.2 ⟨hsrc, hcap, hpos⟩
  have htree := isTreeOf_input htree
  have hcontainer : containerVerdict s tr = none := by
    rw [containerVerdict, if_neg (by rw [hdst]; decide), if_neg (Nat.not_lt.2 hroom)]
  have hexec := exec_compress_written hwf hverdict htree hcontainer
  have hreports := compressed_reports hwf hverdict htree
  have houtput := compressed_output hwf hverdict htree hcontainer
  have hvalid : (containerWritten (readyToWrite tr (cleared s))).valid = ⟨true, true, true, true, true, true, true⟩ := by
    rw [containerWritten_valid, valid_readyToWrite_cleared]
  have hread : (containerWritten (readyToWrite tr (cleared s))).tree = .ok tr :=
    (containerWritten_tree _).trans (readyToWrite_tree (s := cleared s) htree)
  generalize containerWritten (readyToWrite tr (cleared s)) = u at *
  obtain ⟨w, n, hexec⟩ := hexec
  obtain ⟨⟨hstatus, helog, -⟩, hhost, hsame⟩ := hreports
  exact ⟨_, hexec, hstatus, helog.trans BitVec.or_zero, hvalid, houtput, hread, hhost, fun k => hsame .inp k (by simp),
    fun k hk => hsame .out k (by simpa using hk)⟩

end Sys2Proof.Machine
end

section
/-! PROOFS. DECOMPRESS after COMPRESS (R178). -/

namespace Sys2Proof.Machine

/-- A COMPRESS that succeeds has written the container of its input. -/
theorem exec_compress_ok {s t : State} (hwf : s.par.wf = true) (hexec : exec .compress s = .next t)
    (hok : t.status.err = 0) : s.input ≠ [] ∧ ∃ tr, IsTreeOf tr s.input ∧ t.output = containerOf tr s.input := by
  cases hverdict : freqVerdict s with
  | some e =>
    obtain ⟨w, n, hends⟩ := exec_compress_noInput hverdict
    obtain rfl := Host.Outcome.next.inj (hexec.symm.trans hends)
    exact absurd hok (errKind_code_ne_zero e)
  | none =>
    obtain ⟨tr, htree⟩ := exists_isTreeOf_input hverdict
    refine ⟨input_ne_nil hverdict, tr, htree, ?_⟩
    cases hcontainer : containerVerdict s tr with
    | some e =>
      obtain ⟨w, n, hends⟩ := exec_compress_notWritten hwf hverdict htree hcontainer
      obtain rfl := Host.Outcome.next.inj (hexec.symm.trans hends)
      exact absurd hok (errKind_code_ne_zero e)
    | none =>
      have hends := exec_compress_written hwf hverdict htree hcontainer
      have houtput := compressed_output hwf hverdict htree hcontainer
      generalize containerWritten (readyToWrite tr (cleared s)) = u at *
      obtain ⟨w, n, hends⟩ := hends
      obtain rfl := Host.Outcome.next.inj (hexec.symm.trans hends)
      exact houtput

theorem padCount_le (n : Nat) : padCount n ≤ 7 := by
  unfold padCount
  omega

/-- Settles O49: RDCONT reads the fields of the container back, and the walk on the code of the input gives the input. -/
theorem compressThenDecompressIsTheIdentity : Obligations.CompressThenDecompressIsTheIdentity := by
  intro s t u hwf hwfu hexec hok hsrc hdst hinLen hinput hcap hroom
  obtain ⟨hne, tr, htree, houtput⟩ := exec_compress_ok hwf hexec hok
  have hinput : u.input = containerOf tr s.input := hinput.trans houtput
  have hser := length_ser_succ tr
  have hsymbols := treeSize_succ_eq tr
  have hsize := treeSize_pos tr
  have hpayload : 1 ≤ (packBytes (enc (codeIn tr) s.input)).length := by
    have hbits := length_le_length_enc htree.mem
    have hpos := List.length_pos_iff.2 hne
    rw [length_packBytes]
    omega
  obtain ⟨hverdict, -⟩ := containerRead_of_input_eq_cont hsrc hcap hinput (by omega) (length_ser_le htree.size)
    (padCount_le _) hpayload
  obtain ⟨-, -, hwalks⟩ := decompressDecodesTheContainer u hwfu
  obtain ⟨-, -, -, hdecoded⟩ := hwalks tr _ _ hverdict hinput (padCount_le _) htree.size
  rw [unpackBits_packBytes] at hdecoded
  obtain ⟨v, hv, hstatus, -, -, hout, -⟩ := hdecoded s.input hdst (walkTree_enc fun x hx => (htree.mem x).2 hx)
    (by rwa [length_input])
  refine ⟨v, hv, by rw [hstatus], BitVec.eq_of_toNat_eq ?_, hout⟩
  rw [← length_output, hout, length_input]

end Sys2Proof.Machine
end

section
/-! PROOFS. The result of COMPRESS or DECOMPRESS depends only on CTRL, IN_LEN, the input bytes and the capacities (R195). -/

namespace Sys2Proof.Machine

/-! ### What the result depends on, and what it is -/

/-- Two states with the same capacities, CTRL, IN_LEN and input bytes. -/
structure SameInput (s s' : State) : Prop where
  par : s.par = s'.par
  ctrl : s.ctrl = s'.ctrl
  inLen : s.data.inLen = s'.data.inLen
  input : s.input = s'.input

/-- What the result of COMPRESS or DECOMPRESS is to the host. -/
def sameResult (t t' : State) : Prop :=
  t.status = t'.status ∧ t.valid = t'.valid ∧ t.data = t'.data ∧ t.output = t'.output

/-- Both states end the command, with the same result. -/
def endsAlike (i : Instr) (s s' : State) : Prop :=
  ∃ t t', exec i s = .next t ∧ exec i s' = .next t' ∧ sameResult t t'

/-- Where OUT_LEN is 0 there is no output to compare. -/
theorem output_eq_of_empty {t t' : State} (h : t.data.outLen = 0) (h' : t'.data.outLen = 0) : t.output = t'.output := by
  rw [State.output, State.output, h, h']
  rfl

/-- A primitive whose failure invalidates the output ends alike where it failed alike. -/
theorem sameResult_errorEntry {op : Byte} {drop : State → State} {e : ErrKind} {s s' : State} {w w' : Work} {n n' : Nat}
    (hstage : (drop (s.setStage op)).status.stage = (drop (s'.setStage op)).status.stage)
    (hvalid : (drop (s.setStage op)).valid = (drop (s'.setStage op)).valid)
    (hdata : (drop (s.setStage op)).data = (drop (s'.setStage op)).data)
    (hempty : (drop (s.setStage op)).data.outLen = 0) :
    sameResult { errorEntry op drop e s with work := w, tick := n }
      { errorEntry op drop e s' with work := w', tick := n' } := by
  refine ⟨?_, hvalid, hdata, output_eq_of_empty hempty (by rw [hdata] at hempty; exact hempty)⟩
  show (⟨false, true, e.code, _⟩ : StatusReg) = ⟨false, true, e.code, _⟩
  rw [hstage]

/-! ### COMPRESS -/

theorem containerWritten_data (s : State) :
    (containerWritten s).data =
      { s.data with outLen := BitVec.ofNat 32 (12 + s.data.treeLen.toNat + s.data.payLen.toNat) } := rfl

section

variable {s s' : State} (h : SameInput s s')

include h

theorem freqVerdict_congr : freqVerdict s = freqVerdict s' := by
  rw [freqVerdict, freqVerdict, h.ctrl, h.par, h.inLen]

theorem containerVerdict_congr (tr : CodeTree) : containerVerdict s tr = containerVerdict s' tr := by
  rw [containerVerdict, containerVerdict, h.ctrl, h.par, h.input]

theorem cleared_data_congr : (cleared s).data = (cleared s').data := by rw [cleared_data, cleared_data, h.inLen]

theorem data_readyToWrite_congr (hwf : s.par.wf = true) (hverdict : freqVerdict s = none) {tr : CodeTree}
    (htree : IsTreeOf tr s.input) :
    (readyToWrite tr (cleared s)).data = (readyToWrite tr (cleared s')).data := by
  have hcap := inLen_le hverdict
  rw [readyToWrite_data (s := cleared s) htree hwf hcap,
    readyToWrite_data (s := cleared s') (show IsTreeOf tr s'.input from h.input ▸ htree)
      (show s'.par.wf = true from h.par ▸ hwf)
      (show s'.data.inLen.toNat ≤ s'.par.inCap from h.inLen ▸ h.par ▸ hcap),
    cleared_data_congr h, cleared_input, cleared_input, h.input]

theorem compress_endsAlike (hwf : s.par.wf = true) : endsAlike .compress s s' := by
  have hwf' : s'.par.wf = true := h.par ▸ hwf
  cases hverdict : freqVerdict s with
  | some e =>
    obtain ⟨w, n, hends⟩ := exec_compress_noInput hverdict
    obtain ⟨w', n', hends'⟩ := exec_compress_noInput ((freqVerdict_congr h).symm.trans hverdict)
    exact ⟨_, _, hends, hends', sameResult_errorEntry rfl rfl (cleared_data_congr h) rfl⟩
  | none =>
    have hverdict' := (freqVerdict_congr h).symm.trans hverdict
    obtain ⟨tr, htree⟩ := exists_isTreeOf_input hverdict
    have htree' : IsTreeOf tr s'.input := h.input ▸ htree
    have hdata := data_readyToWrite_congr h hwf hverdict htree
    have hvalid := valid_readyToWrite_cleared tr s
    have hvalid' := valid_readyToWrite_cleared tr s'
    cases hcontainer : containerVerdict s tr with
    | some e =>
      have hends := exec_compress_notWritten hwf hverdict htree hcontainer
      have hends' := exec_compress_notWritten hwf' hverdict' htree' ((containerVerdict_congr h tr).symm.trans hcontainer)
      generalize readyToWrite tr (cleared s) = r at *
      generalize readyToWrite tr (cleared s') = r' at *
      obtain ⟨w, n, hends⟩ := hends
      obtain ⟨w', n', hends'⟩ := hends'
      refine ⟨_, _, hends, hends', sameResult_errorEntry rfl ?_ ?_ rfl⟩
      · rw [dropOutput_valid, dropOutput_valid, setStage_valid, setStage_valid, hvalid, hvalid']
      · rw [dropOutput_data, dropOutput_data, setStage_data, setStage_data, hdata]
    | none =>
      have hcontainer' := (containerVerdict_congr h tr).symm.trans hcontainer
      have hends := exec_compress_written hwf hverdict htree hcontainer
      have hends' := exec_compress_written hwf' hverdict' htree' hcontainer'
      have houtput := compressed_output hwf hverdict htree hcontainer
      have houtput' := compressed_output hwf' hverdict' htree' hcontainer'
      rw [h.input, ← houtput'] at houtput
      generalize readyToWrite tr (cleared s) = r at *
      generalize readyToWrite tr (cleared s') = r' at *
      obtain ⟨w, n, hends⟩ := hends
      obtain ⟨w', n', hends'⟩ := hends'
      refine ⟨_, _, hends, hends', rfl, ?_, ?_, houtput⟩
      · show (containerWritten r).valid = (containerWritten r').valid
        rw [containerWritten_valid, containerWritten_valid, hvalid, hvalid']
      · show (containerWritten r).data = (containerWritten r').data
        rw [containerWritten_data, containerWritten_data, hdata]

end

/-! ### DECOMPRESS -/

section

variable {s s' : State} (h : SameInput s s')

include h

theorem inAt_congr {i : Nat} (hi : i < s.data.inLen.toNat) : s.inAt i = s'.inAt i := by
  have hslice := h.input
  rw [State.input, State.input, ← h.inLen, slice_eq_slice_iff] at hslice
  simpa using hslice i hi

theorem inWord_congr {a : Nat} (ha : a + 4 ≤ s.data.inLen.toNat) : s.inWord a = s'.inWord a := by
  rw [State.inWord, State.inWord, inAt_congr h (by omega), inAt_congr h (by omega), inAt_congr h (by omega),
    inAt_congr h (by omega)]

/-- RDCONT tests no byte beyond the input. -/
theorem rdcontVerdict_congr : rdcontVerdict s = rdcontVerdict s' := by
  rw [rdcontVerdict, rdcontVerdict, ← h.ctrl, ← h.par, ← h.inLen]
  by_cases hcount : s.data.inLen.toNat < 4
  · simp [hcount]
  · rw [← inWord_congr h (a := 0) (by omega)]
    by_cases hfields : s.data.inLen.toNat < 4 + s.inWord 0 + 8
    · simp [hfields]
    · rw [← inWord_congr h (a := 4 + s.inWord 0) (by omega), ← inWord_congr h (a := 8 + s.inWord 0) (by omega)]

theorem containerRead_congr (hverdict : rdcontVerdict s = none) :
    (containerRead s).treeBytes = (containerRead s').treeBytes ∧
      (containerRead s).data.pad = (containerRead s').data.pad ∧
      (containerRead s).payload = (containerRead s').payload := by
  have hverdict' := (rdcontVerdict_congr h).symm.trans hverdict
  obtain ⟨htree, hpad, hpayload⟩ := containerRead_fields hverdict (h.input.trans (input_eq_cont_containerRead hverdict'))
  have hlt := (containerRead s).data.pad.isLt
  have hlt' := (containerRead s').data.pad.isLt
  exact ⟨htree, BitVec.eq_of_toNat_eq (le32_inj (by omega) (by omega) hpad), hpayload⟩

theorem SameInput.cleared : SameInput (cleared s) (Machine.cleared s') where
  par := h.par
  ctrl := h.ctrl
  inLen := h.inLen
  input := h.input

/-- RDCONT on cleared registers leaves the same ones. -/
theorem data_containerRead_congr (hdata : s.data = s'.data) (hverdict : rdcontVerdict s = none) :
    (containerRead s).data = (containerRead s').data := by
  obtain ⟨htree, hpad, hpayload⟩ := containerRead_congr h hverdict
  have hfields (u : State) : (containerRead u).data = { u.data with
    treeLen := (containerRead u).data.treeLen, pad := (containerRead u).data.pad
    payLen := (containerRead u).data.payLen } := rfl
  rw [hfields s, hfields s', hdata, treeLen_eq_of_treeBytes_eq htree, hpad, payLen_eq_of_payload_eq hpayload]

end

/-! ### WALK on the same tree and the same bits -/

theorem cleared_valid (s : State) : (cleared s).valid = ⟨false, false, false, false, false, false, false⟩ := rfl

/-- Two states in which WALK does the same, with the same registers around it. -/
structure WalkAlike (tr : CodeTree) (s s' : State) : Prop where
  par : s.par = s'.par
  ctrl : s.ctrl = s'.ctrl
  valid : s.valid = s'.valid
  data : s.data = s'.data
  bits : s.bitString = s'.bitString
  fits : s.data.bsLen.toNat ≤ s.par.bsCap
  tree : s.tree = .ok tr
  tree' : s'.tree = .ok tr

theorem WalkAlike.walkBody {tr : CodeTree} {s s' : State} (h : WalkAlike tr s s') :
    (∃ e, walkBody s = .raise e ∧ walkBody s' = .raise e) ∨
      ∃ syms, syms.length ≤ s.par.outCap ∧ walkBody s = .done (storeSymbols syms s) ∧
        walkBody s' = .done (storeSymbols syms s') := by
  have hsame : walkVerdict s = walkVerdict s' := by rw [walkVerdict, walkVerdict, h.valid, h.ctrl]
  cases hverdict : walkVerdict s with
  | some e => exact .inl ⟨e, walkBody_of_verdict_some hverdict, walkBody_of_verdict_some (hsame.symm.trans hverdict)⟩
  | none =>
    have hverdict' := hsame.symm.trans hverdict
    have hfits' : s'.data.bsLen.toNat ≤ s'.par.bsCap := h.data ▸ h.par ▸ h.fits
    by_cases hfull : overflowsOut tr s.bitString s.par.outCap
    · exact .inl ⟨_, walkBody_of_overflow hverdict h.fits h.tree hfull,
        walkBody_of_overflow hverdict' hfits' h.tree' (h.bits ▸ h.par ▸ hfull)⟩
    · cases hwalk : walkTree tr s.bitString tr with
      | none =>
        exact .inl ⟨_, walkBody_of_noWalk hverdict h.fits h.tree hfull hwalk,
          walkBody_of_noWalk hverdict' hfits' h.tree' (h.bits ▸ h.par ▸ hfull) (h.bits ▸ hwalk)⟩
      | some syms =>
        have hroom : syms.length ≤ s.par.outCap :=
          length_le_of_not_overflowsOut hfull (k := s.bitString.length) (by rwa [List.take_length])
        exact .inr ⟨syms, hroom, walkBody_of_walk hverdict h.fits h.tree hwalk hroom,
          walkBody_of_walk hverdict' hfits' h.tree' (h.bits ▸ hwalk) (h.par ▸ hroom)⟩

theorem WalkAlike.setStage {tr : CodeTree} {s s' : State} (h : WalkAlike tr s s') (op : Byte) :
    WalkAlike tr (s.setStage op) (s'.setStage op) where
  par := h.par
  ctrl := h.ctrl
  valid := h.valid
  data := h.data
  bits := h.bits
  fits := h.fits
  tree := h.tree
  tree' := h.tree'

/-- DECOMPRESS ends alike where WALK, its last command, is reached alike. -/
theorem WalkAlike.endsAlike {tr : CodeTree} {s s' r r' : State} (h : WalkAlike tr r r') (hwf : r.par.wf = true)
    (hrun : runCommands decompressCommands s = runCommands [.walk] r)
    (hrun' : runCommands decompressCommands s' = runCommands [.walk] r') : endsAlike .decompress s s' := by
  obtain ⟨e, hbody, hbody'⟩ | ⟨syms, hroom, hbody, hbody'⟩ := (h.setStage 0x0B).walkBody
  · have hends {u c : State} (hrun : runCommands decompressCommands u = runCommands [.walk] c)
        (hbody : Machine.walkBody (c.setStage 0x0B) = .raise e) :
        runCommands decompressCommands u = .next (errorEntry 0x0B dropOutput e c) :=
      hrun.trans (runCommands_cons_failed (conclude_runPrimitive_next.2 (.inr ⟨e, hbody, rfl⟩)) (errKind_code_ne_zero e))
    obtain ⟨w, n, hexec⟩ := exec_decompress_of_runCommands (hends hrun hbody)
    obtain ⟨w', n', hexec'⟩ := exec_decompress_of_runCommands (hends hrun' hbody')
    refine ⟨_, _, hexec, hexec', sameResult_errorEntry rfl ?_ ?_ rfl⟩
    · rw [dropOutput_valid, dropOutput_valid, setStage_valid, setStage_valid, h.valid]
    · rw [dropOutput_data, dropOutput_data, setStage_data, setStage_data, h.data]
  · have hends {u c : State} (hrun : runCommands decompressCommands u = runCommands [.walk] c)
        (hbody : Machine.walkBody (c.setStage 0x0B) = .done (storeSymbols syms (c.setStage 0x0B))) :
        runCommands decompressCommands u = .next (walked syms c) :=
      hrun.trans (runCommands_cons_ok (conclude_runPrimitive_next.2 (.inl ⟨_, hbody, rfl⟩)) rfl)
    obtain ⟨w, n, hexec⟩ := exec_decompress_of_runCommands (hends hrun hbody)
    obtain ⟨w', n', hexec'⟩ := exec_decompress_of_runCommands (hends hrun' hbody')
    have hlt : syms.length < 2 ^ 32 := hroom.trans_lt (capacities_fit (p := r.par) hwf).2
    refine ⟨_, _, hexec, hexec', rfl, ?_, ?_, (walked_output hlt r).trans (walked_output hlt r').symm⟩
    · show { r.valid with out := true } = { r'.valid with out := true }
      rw [h.valid]
    · show { r.data with outLen := BitVec.ofNat 32 syms.length } = { r'.data with outLen := BitVec.ofNat 32 syms.length }
      rw [h.data]

theorem readyToWalk_ctrl (tr : CodeTree) (s : State) : (readyToWalk tr s).ctrl = s.ctrl := rfl

theorem readyToWalk_valid (tr : CodeTree) (s : State) :
    (readyToWalk tr s).valid = { s.valid with tree := true, bs := true, treeb := true, pay := true } := rfl

theorem readyToWalk_data (tr : CodeTree) (s : State) :
    (readyToWalk tr s).data = { (containerRead s).data with
      root := 0
      nnode := BitVec.ofNat 10 (treeSize tr)
      bsLen := BitVec.ofNat 32 (unpackBits (containerRead s).payload (containerRead s).data.pad.toNat).length } := rfl

section

variable {s s' : State} (h : SameInput s s') (hwf : s.par.wf = true) (hverdict : rdcontVerdict (cleared s) = none)

include h hwf hverdict

theorem decompress_endsAlike_of_tree {tr : CodeTree} (hsize : treeSize tr ≤ 511)
    (htree : (containerRead (cleared s)).treeBytes = ser tr) : endsAlike .decompress s s' := by
  have hverdict' := (rdcontVerdict_congr h.cleared).symm.trans hverdict
  obtain ⟨htrees, -, hpayloads⟩ := containerRead_congr h.cleared hverdict
  have hdatas := data_containerRead_congr h.cleared (cleared_data_congr h) hverdict
  have hinput := input_eq_cont_containerRead hverdict
  have hinput' := input_eq_cont_containerRead hverdict'
  rw [htree] at hinput
  rw [← htrees, htree] at hinput'
  have hpad (u : State) : (containerRead u).data.pad.toNat ≤ 7 := Nat.le_of_lt_succ (containerRead u).data.pad.isLt
  have halike : WalkAlike tr (readyToWalk tr (cleared s)) (readyToWalk tr (cleared s')) := by
    refine ⟨?par, ?ctrl, ?valid, ?data, ?bits, readyToWalk_bsLen hverdict hwf, readyToWalk_tree hsize _,
      readyToWalk_tree hsize _⟩
    case par => rw [readyToWalk_par, readyToWalk_par, cleared_par, cleared_par, h.par]
    case ctrl => rw [readyToWalk_ctrl, readyToWalk_ctrl, cleared_ctrl, cleared_ctrl, h.ctrl]
    case valid => rw [readyToWalk_valid, readyToWalk_valid, cleared_valid, cleared_valid]
    case data => rw [readyToWalk_data, readyToWalk_data, hdatas, hpayloads]
    case bits =>
      rw [readyToWalk_bitString hverdict hinput hwf (hpad _),
        readyToWalk_bitString hverdict' hinput' (show s'.par.wf = true from h.par ▸ hwf) (hpad _), hdatas, hpayloads]
  exact halike.endsAlike hwf ((runCommands_decompress s).trans (runCommands_tree hverdict hinput hsize))
    ((runCommands_decompress s').trans (runCommands_tree hverdict' hinput' hsize))

omit hwf in
theorem decompress_endsAlike_of_malformed
    (hbytes : ¬ ∃ tr, (containerRead (cleared s)).treeBytes = ser tr ∧ treeSize tr ≤ 511) :
    endsAlike .decompress s s' := by
  have hverdict' := (rdcontVerdict_congr h.cleared).symm.trans hverdict
  have htrees := (containerRead_congr h.cleared hverdict).1
  have hdatas := data_containerRead_congr h.cleared (cleared_data_congr h) hverdict
  have hlarge : ∀ tr, (containerRead (cleared s)).treeBytes = ser tr → 511 < treeSize tr := fun tr htree =>
    Nat.not_le.1 fun hsize => hbytes ⟨tr, htree, hsize⟩
  have hends := exec_decompress_of_runCommands ((runCommands_decompress s).trans
    (runCommands_malformed hverdict (input_eq_cont_containerRead hverdict) hlarge))
  have hends' := exec_decompress_of_runCommands ((runCommands_decompress s').trans
    (runCommands_malformed hverdict' (input_eq_cont_containerRead hverdict') (htrees ▸ hlarge)))
  obtain ⟨w, n, hexec⟩ := hends
  obtain ⟨w', n', hexec'⟩ := hends'
  refine ⟨_, _, hexec, hexec', sameResult_errorEntry rfl rfl ?_ rfl⟩
  rw [dropTree_data, dropTree_data, setStage_data, setStage_data, hdatas]

end

theorem decompress_endsAlike {s s' : State} (h : SameInput s s') (hwf : s.par.wf = true) :
    endsAlike .decompress s s' := by
  cases hverdict : rdcontVerdict (cleared s) with
  | some e =>
    have hverdict' := (rdcontVerdict_congr h.cleared).symm.trans hverdict
    obtain ⟨w, n, hexec⟩ := exec_decompress_of_runCommands
      ((runCommands_decompress s).trans (runCommands_badContainer hverdict))
    obtain ⟨w', n', hexec'⟩ := exec_decompress_of_runCommands
      ((runCommands_decompress s').trans (runCommands_badContainer hverdict'))
    refine ⟨_, _, hexec, hexec', sameResult_errorEntry rfl rfl ?_ rfl⟩
    rw [dropContainer_data, dropContainer_data, setStage_data, setStage_data, cleared_data_congr h]
  | none =>
    by_cases hbytes : ∃ tr, (containerRead (cleared s)).treeBytes = ser tr ∧ treeSize tr ≤ 511
    · obtain ⟨tr, htree, hsize⟩ := hbytes
      exact decompress_endsAlike_of_tree h hwf hverdict hsize htree
    · exact decompress_endsAlike_of_malformed h hverdict hbytes

/-! ### COMPRESS or DECOMPRESS -/

theorem macro_endsAlike {i : Instr} (hi : i = .compress ∨ i = .decompress) {s s' : State} (h : SameInput s s')
    (hwf : s.par.wf = true) : endsAlike i s s' := by
  obtain rfl | rfl := hi
  · exact compress_endsAlike h hwf
  · exact decompress_endsAlike h hwf

/-- Settles O50: each command in the sequence is reached alike from the same input, and the last one ends alike. -/
theorem macroResultsDependOnlyOnTheInput : Obligations.MacroResultsDependOnlyOnTheInput := by
  intro i s s' t t' hi hpar hwf hctrl hinLen hinput hexec hexec'
  obtain ⟨u, u', hu, hu', hsame⟩ := macro_endsAlike hi ⟨hpar, hctrl, hinLen, hinput⟩ hwf
  obtain rfl := Host.Outcome.next.inj (hexec.symm.trans hu)
  obtain rfl := Host.Outcome.next.inj (hexec'.symm.trans hu')
  exact hsame

end Sys2Proof.Machine
end

section
/-! PROOFS. A failed command issued again fails with the same code at the same stage (R186, R211, R213). -/

namespace Sys2Proof.Machine

/-! ### The error that a body raises -/

def Effect.error? : Effect → Option ErrKind
  | .raise e => some e
  | .done _ => none
  | .stop _ => none

@[simp] theorem Effect.error?_raise (e : ErrKind) : (Effect.raise e).error? = some e := rfl
@[simp] theorem Effect.error?_done (s : State) : (Effect.done s).error? = none := rfl
@[simp] theorem Effect.error?_stop (f : Fault) : (Effect.stop f).error? = none := rfl

theorem Effect.error?_eq_some {x : Effect} {e : ErrKind} : x.error? = some e ↔ x = .raise e := by
  cases x <;> simp

theorem error?_require (c : Prop) [Decidable c] (e : ErrKind) (k : Unit → Effect) :
    (require c e k).error? = if c then (k ()).error? else some e := by
  by_cases hc : c <;> simp [require, hc]

theorem error?_within (sp : Space) (n cap : Nat) (k : Unit → Effect) :
    (within sp n cap k).error? = if n ≤ cap then (k ()).error? else none := by
  by_cases hn : n ≤ cap <;> simp [within, hn]

theorem error?_verdict (v : Option ErrKind) (d : Effect) :
    (v.elim d .raise).error? = v.elim d.error? some := by
  cases v <;> rfl

/-! ### What decides it -/

theorem freqBody_error? (s : State) : (freqBody s).error? = freqVerdict s := by
  rw [freqBody_eq, error?_verdict]
  cases freqVerdict s <;> rfl

theorem buildBody_error? (s : State) : (buildBody s).error? = buildVerdict s := by
  rw [buildBody_eq, error?_verdict]
  cases buildVerdict s <;> rfl

theorem rdcontBody_error? (s : State) : (rdcontBody s).error? = rdcontVerdict s := by
  rw [rdcontBody_eq, error?_verdict]
  cases rdcontVerdict s <;> rfl

theorem wrcontBody_error? (s : State) : (wrcontBody s).error? = wrcontVerdict s := by
  rw [wrcontBody_eq, error?_verdict, error?_within, error?_within]
  cases wrcontVerdict s <;> simp

theorem gencodeBody_error? (s : State) :
    (gencodeBody s).error? = if s.valid.tree = true then none else some .sequenceError := by
  rw [gencodeBody, error?_require]
  cases s.tree <;> rfl

theorem sertreeBody_error? (s : State) :
    (sertreeBody s).error? = if s.valid.tree = true then none else some .sequenceError := by
  rw [sertreeBody, error?_require]
  cases s.tree <;> simp [error?_within]

theorem packBody_error? (s : State) :
    (packBody s).error? = if s.valid.bs = true then none else some .sequenceError := by
  simp [packBody, error?_require, error?_within]

theorem unpackBody_error? (s : State) :
    (unpackBody s).error? = if s.valid.pay = true then none else some .sequenceError := by
  simp [unpackBody, error?_require, error?_within]

theorem encodeEnds_error? (s : State) (r : Except ErrKind (List Bool)) :
    (encodeEnds s r).error? =
      match r with
      | .error e => some e
      | .ok _ => none := by
  cases r <;> rfl

theorem encodeBody_error? (s : State) :
    (encodeBody s).error? = (encodeVerdict s).elim
      (encodeEnds s (encodeLoop (fun b => s.codeAt b.toNat) s.par.bsCap s.input [])).error? some := by
  rw [encodeBody_eq, error?_verdict]

theorem destreeBody_error? (s : State) :
    (destreeBody s).error? =
      if s.valid.treeb = true then
        if s.data.treeLen.toNat ≤ Config.treebCap ∧ parseBytes s.treeBytes Parser.start = none then some .malformedTree
        else none
      else some .sequenceError := by
  rw [destreeBody, error?_require, error?_within]
  cases parseBytes s.treeBytes Parser.start <;> simp

/-- The walk reads the arena and ROOT, which a failing WALK leaves. -/
theorem walkLoop_congr {s t : State} (hstep : walkStep t = walkStep s) (hcap : t.par.outCap = s.par.outCap)
    (hroot : t.data.root = s.data.root) (bits : List Bool) (cur : NodeId) (syms : List Byte) :
    walkLoop t bits cur syms = walkLoop s bits cur syms := by
  induction bits generalizing cur syms with
  | nil => rfl
  | cons b bits ih => simp only [walkLoop, hstep, hcap, hroot, ih]

theorem walkBody_error? (s : State) :
    (walkBody s).error? = (walkVerdict s).elim
      (if s.data.bsLen.toNat ≤ s.par.bsCap then (walkEnds s (walkLoop s s.bitString s.data.root [])).error? else none)
      some := by
  rw [walkBody_eq, error?_verdict, error?_within]

theorem walkEnds_error? (s : State) (r : Walked) :
    (walkEnds s r).error? =
      match r with
      | .noNode => none
      | .raised e => some e
      | .ended cur _ => if cur = s.data.root then none else some .invalidCodeWalk := by
  cases r with
  | ended cur syms => rw [walkEnds, error?_require]; rfl
  | _ => rfl

/-! ### The command again -/

/-- The error entry leaves all that decides the error. -/
theorem Primitive.error?_again {i : Instr} {op : Byte} {drop : State → State} {body : State → Effect}
    (hprim : Primitive i op drop body) (s : State) (e : ErrKind) :
    (body ((errorEntry op drop e s).setStage op)).error? = (body (s.setStage op)).error? := by
  cases hprim with
  | nop => rfl
  | clear => rfl
  | freq => rw [freqBody_error?, freqBody_error?]; rfl
  | build => rw [buildBody_error?, buildBody_error?]; rfl
  | rdcont => rw [rdcontBody_error?, rdcontBody_error?]; rfl
  | wrcont => rw [wrcontBody_error?, wrcontBody_error?]; rfl
  | gencode => rw [gencodeBody_error?, gencodeBody_error?]; rfl
  | sertree => rw [sertreeBody_error?, sertreeBody_error?]; rfl
  | pack => rw [packBody_error?, packBody_error?]; rfl
  | unpack => rw [unpackBody_error?, unpackBody_error?]; rfl
  | destree => rw [destreeBody_error?, destreeBody_error?]; rfl
  | encode =>
    rw [encodeBody_error?, encodeBody_error?, encodeEnds_error?, encodeEnds_error?]
    rfl
  | walk =>
    rw [walkBody_error?, walkBody_error?, walkEnds_error?, walkEnds_error?,
      walkLoop_congr (s := s.setStage 0x0B) (t := (errorEntry 0x0B dropOutput e s).setStage 0x0B) rfl rfl rfl]
    rfl

theorem Primitive.fails_again {i : Instr} {op : Byte} {drop : State → State} {body : State → Effect}
    (hprim : Primitive i op drop body) {s t : State} (hexec : exec i s = .next t) (hfailed : t.status.err ≠ 0) :
    ∃ u, exec i t = .next u ∧ u.status.err = t.status.err ∧ u.status.stage = t.status.stage := by
  obtain ⟨e, hraise, rfl⟩ := hprim.exec_failed hexec hfailed
  have hagain : body ((errorEntry op drop e s).setStage op) = .raise e := by
    rw [← Effect.error?_eq_some, hprim.error?_again, hraise, Effect.error?_raise]
  have hexec' : exec i (errorEntry op drop e s) = .next (errorEntry op drop e (errorEntry op drop e s)) := by
    rw [hprim.exec_eq]
    exact conclude_runPrimitive_next.2 (.inr ⟨e, hagain, rfl⟩)
  have hstage (u : State) : (errorEntry op drop e u).status.stage = op :=
    congrArg (fun v : State => v.status.stage) (hprim.drop_writes (u.setStage op))
  exact ⟨_, hexec', rfl, (hstage _).trans (hstage _).symm⟩

/-- Settles O19: the error entry leaves what a primitive tests, and COMPRESS and DECOMPRESS start again from the same input. -/
theorem failedCommandsFailAgain : Obligations.FailedCommandsFailAgain := by
  intro i s t hi hwf hexec hfailed
  obtain ⟨op, drop, body, hprim⟩ | ⟨ps, hmacro⟩ := command_cases hi
  · exact hprim.fails_again hexec hfailed
  · have hkind : i = .compress ∨ i = .decompress := by
      cases hmacro with
      | compress => exact .inl rfl
      | decompress => exact .inr rfl
    obtain ⟨u, e, hwrites, hcomplete⟩ := exec_command_completes hi hexec
    obtain ⟨⟨hpar, hctrl, -, -, hinLen, -⟩, hinp⟩ := hostSideSame_of_commandWrites hwrites e
    rw [← hcomplete] at hpar hctrl hinLen hinp
    have hinput : t.input = s.input := by
      rw [State.input, State.input, hinLen]
      exact slice_congr _ _ _ _ fun k _ => hinp (0 + k)
    obtain ⟨v, v', hv, hv', hstatus, -⟩ := macro_endsAlike hkind (s := s) (s' := t) ⟨hpar.symm, hctrl.symm, hinLen.symm,
      hinput.symm⟩ hwf
    obtain rfl := Host.Outcome.next.inj (hexec.symm.trans hv)
    exact ⟨v', hv', by rw [hstatus], by rw [hstatus]⟩

end Sys2Proof.Machine
end

section
/-! PROOFS. Executing the records one a step ends where DESTREE ends (R123, R125, log 8). -/

namespace Sys2Proof.Machine

/-! ### The bytes of a record -/

theorem exec_record_bytes {i : Instr} (hi : i.isRecord = true) (s : State) :
    exec i s = finishRecord (recordBytes i).length (parseRecord i s.parser) s := by
  cases i with
  | internal => rfl
  | leaf sym => rfl
  | _ => cases hi

theorem recordBytes_of_decodeRecord {bytes rest : List Byte} {i : Instr} (h : decodeRecord bytes = .ok (i, rest)) :
    bytes = recordBytes i ++ rest := by
  obtain ⟨rfl, hbytes⟩ | ⟨sym, rfl, hbytes⟩ := decodeRecord_ok h <;> exact hbytes

theorem length_recordBytes_pos {i : Instr} (hi : i.isRecord = true) : 1 ≤ (recordBytes i).length := by
  cases i with
  | internal => exact Nat.le_refl 1
  | leaf sym => exact Nat.le_succ 1
  | _ => cases hi

/-- Where no record can be read the parse of all bytes fails too (R124). -/
theorem parseBytes_of_undecodable {bytes : List Byte} {e : DecodeError} (h : decodeRecord bytes = .error e) (p : Parser) :
    parseBytes bytes p = none := by
  match bytes, h with
  | [], _ => rfl
  | m :: rest, h =>
    have hinternal : m ≠ 0x30#8 := by
      rintro rfl
      cases h
    unfold parseBytes
    rw [if_neg hinternal]
    by_cases hleaf : m = 0x31#8
    · subst hleaf
      cases rest with
      | nil => rfl
      | cons sym rest => cases h
    · rw [if_neg hleaf]

/-! ### A parse that runs to its end -/

theorem run_succ_of_step {M : Host.Core} {s t : M.State} (h : M.step s = .next t) (n : Nat) :
    M.run (n + 1) s = M.run n t := by
  rw [Host.Core.run, h]

theorem run_succ {s t : State} (h : step s = .next t) (n : Nat) :
    Host.Core.run Sys2Proof.core (n + 1) s = Host.Core.run Sys2Proof.core n t :=
  run_succ_of_step (M := Sys2Proof.core) h n

/-- At rest, with nothing on the agenda, the machine stays as it is (R56). -/
theorem run_atRest {s : State} (hagenda : s.agenda = []) (hb : s.status.busy = false) (n : Nat) :
    Host.Core.run Sys2Proof.core n s = .next s := by
  have hstep : step s = .next s := by
    rw [step_of_engineNext (.inl ⟨hagenda, rfl⟩), ← hagenda]
    exact engineTurn_atRest hb
  induction n with
  | zero => rfl
  | succ n ih => exact (run_succ hstep n).trans ih

/-- How DESTREE ends, by the result of its parse. -/
def parseEnds (s : State) : Option (NodeId × Parser) → State
  | none => malformedRecord s
  | some (root, p) => (commitTree root p (s.setStage 0x09)).complete none

/-- The completion overwrites the parser (R31). -/
theorem parseEnds_keepParsing (s : State) (n : Nat) (p : Parser) (r : Option (NodeId × Parser)) :
    parseEnds (s.keepParsing n p) r = parseEnds s r := by
  obtain _ | ⟨root, q⟩ := r <;> rfl

theorem parseEnds_startParse (s : State) (r : Option (NodeId × Parser)) : parseEnds s.startParse r = parseEnds s r := by
  obtain _ | ⟨root, q⟩ := r <;> rfl

/-- One step that ends the parse, and then rest. -/
theorem run_of_parseEnds {s : State} {r : Option (NodeId × Parser)} (hagenda : s.agenda = [])
    (hstep : step s = .next (parseEnds s r)) (n : Nat) :
    Host.Core.run Sys2Proof.core (n + 1) s = .next (parseEnds s r) := by
  rw [run_succ hstep]
  refine run_atRest ?_ ?_ n
  · obtain _ | ⟨root, p⟩ := r <;> exact hagenda
  · obtain _ | ⟨root, p⟩ := r <;> rfl

/-- A record that ends the parse ends it as the parse of all bytes does. -/
theorem finishRecord_ends {s : State} {k : Nat} {left : List Byte} {r : ParseStep} (hmore : ∀ q, r ≠ .more q)
    (hleft : left = [] ↔ s.work.tpos.toNat + k = s.data.treeLen.toNat) :
    finishRecord k r s = .next (parseEnds s (continueParse left r)) := by
  cases r with
  | more q => exact absurd rfl (hmore q)
  | full => rfl
  | root id p =>
    rw [finishRecord, continueParse]
    by_cases hlast : s.work.tpos.toNat + k = s.data.treeLen.toNat
    · rw [if_pos (hleft.2 hlast)]
      exact conclude_runPrimitive_next.2 (.inl ⟨_, require_of hlast, rfl⟩)
    · rw [if_neg fun h => hlast (hleft.1 h)]
      exact conclude_runPrimitive_next.2 (.inr ⟨_, require_of_not hlast, rfl⟩)

/-- The rest of the tree-bytes after one record. -/
theorem treeBytesLeft_keepParsing {s : State} {i : Instr} {left : List Byte} (hlen : s.data.treeLen.toNat ≤ 767)
    (hbytes : s.treeBytesLeft = recordBytes i ++ left) (hi : i.isRecord = true) (q : Parser) :
    s.work.tpos.toNat + (recordBytes i).length + left.length = s.data.treeLen.toNat ∧
      (s.keepParsing (recordBytes i).length q).treeBytesLeft = left := by
  have hpos := length_recordBytes_pos hi
  have hcount := congrArg List.length hbytes
  rw [State.treeBytesLeft, length_slice, List.length_append] at hcount
  have htpos : (s.work.tpos + BitVec.ofNat 10 (recordBytes i).length).toNat =
      s.work.tpos.toNat + (recordBytes i).length := by
    rw [BitVec.toNat_add, BitVec.toNat_ofNat]
    omega
  refine ⟨by omega, ?_⟩
  have hsplit : s.data.treeLen.toNat - s.work.tpos.toNat = (recordBytes i).length + left.length := hcount
  rw [State.treeBytesLeft, hsplit, slice_append] at hbytes
  have hright := (List.append_inj hbytes (length_slice ..)).2
  rw [State.treeBytesLeft]
  refine Eq.trans ?_ hright
  show slice s.treebAt (s.work.tpos + BitVec.ofNat 10 (recordBytes i).length).toNat
    (s.data.treeLen.toNat - (s.work.tpos + BitVec.ofNat 10 (recordBytes i).length).toNat) = _
  rw [htpos, show s.data.treeLen.toNat - (s.work.tpos.toNat + (recordBytes i).length) = left.length by omega]

/-- From any point of a parse the machine runs to where the parse of the bytes left ends. -/
theorem run_parse {s : State} {n : Nat} (hagenda : s.agenda = []) (hb : s.status.busy = true) (hp : s.parsing = true)
    (hlen : s.data.treeLen.toNat ≤ 767) (hn : s.treeBytesLeft.length < n) :
    Host.Core.run Sys2Proof.core n s = .next (parseEnds s (parseBytes s.treeBytesLeft s.parser)) := by
  induction n generalizing s with
  | zero => exact absurd hn (Nat.not_lt_zero _)
  | succ n ih =>
    have hturn : step s = engineTurn s := by
      rw [step_of_engineNext (.inl ⟨hagenda, rfl⟩), ← hagenda]
    cases hdecode : decodeRecord s.treeBytesLeft with
    | error e =>
      refine run_of_parseEnds hagenda ?_ n
      rw [parseBytes_of_undecodable hdecode, hturn]
      simp [engineTurn, fetch, undecodable, hb, hp, hdecode, parseEnds]
    | ok r =>
      obtain ⟨i, left⟩ := r
      have hi := isRecord_of_decodeRecord hdecode
      have hbytes := recordBytes_of_decodeRecord hdecode
      have hstep : step s = finishRecord (recordBytes i).length (parseRecord i s.parser) s := by
        rw [hturn, engineTurn_fetched hb (fetch_record hp hdecode), exec_record_bytes hi]
      have hparse : parseBytes s.treeBytesLeft s.parser = continueParse left (parseRecord i s.parser) := by
        rw [hbytes, parseBytes_record hi]
      rw [hparse]
      by_cases hmore : ∃ q, parseRecord i s.parser = .more q
      · obtain ⟨q, hq⟩ := hmore
        obtain ⟨hcount, hleft⟩ := treeBytesLeft_keepParsing hlen hbytes hi q
        have hshort : left.length < n := by
          rw [hbytes, List.length_append] at hn
          have hpos := length_recordBytes_pos hi
          omega
        rw [hq] at hstep ⊢
        rw [run_succ hstep]
        have hrest := ih (s := s.keepParsing (recordBytes i).length q) hagenda hb hp hlen (by rwa [hleft])
        rw [hleft] at hrest
        exact hrest.trans (congrArg _ (parseEnds_keepParsing ..))
      · refine run_of_parseEnds hagenda (hstep.trans (finishRecord_ends (fun q hq => hmore ⟨q, hq⟩) ?_)) n
        have hcount := (treeBytesLeft_keepParsing hlen hbytes hi s.parser).1
        rw [← List.length_eq_zero_iff]
        omega

theorem exec_destree_eq_parseEnds {s : State} (hvalid : s.valid.treeb = true) (hlen : s.data.treeLen.toNat ≤ 767) :
    exec .destree s = .next (parseEnds s (parseBytes s.treeBytes Parser.start)) := by
  have hbody : destreeBody (s.setStage 0x09) =
      match parseBytes s.treeBytes Parser.start with
      | none => .raise .malformedTree
      | some (root, p) => .done (commitTree root p (s.setStage 0x09)) :=
    (require_of hvalid).trans (within_of hlen)
  cases hparse : parseBytes s.treeBytes Parser.start with
  | none =>
    rw [hparse] at hbody
    exact conclude_runPrimitive_next.2 (.inr ⟨_, hbody, rfl⟩)
  | some r =>
    rw [hparse] at hbody
    exact conclude_runPrimitive_next.2 (.inl ⟨_, hbody, rfl⟩)

/-- Settles O53: the records run to where the parse of all tree-bytes ends, and the completion overwrites the parser. -/
theorem recordByRecordParseIsDestree : Obligations.RecordByRecordParseIsDestree := by
  intro s n hagenda hb hp hvalid hlen hn
  have hleft : s.startParse.treeBytesLeft = s.treeBytes := rfl
  rw [exec_destree_eq_parseEnds hvalid hlen,
    run_parse (s := s.startParse) hagenda hb rfl hlen (by rw [hleft, length_treeBytes]; omega), hleft,
    parseEnds_startParse]
  rfl

end Sys2Proof.Machine
end

section
/-! PROOFS. A Leaf record closes subtrees (R123, R125, log 8). -/

namespace Sys2Proof.Machine

namespace Parser

/-! ### What a Leaf closes -/

/-- The innermost open nodes whose right child is under way. -/
def closing (p : Parser) : List NodeId := (p.stack.takeWhile (fun e => e.2)).map (fun e => e.1)

/-- The entries of the stack that stay open. -/
def stillOpen (p : Parser) : List (NodeId × Bool) := p.stack.dropWhile (fun e => e.2)

/-- The slot of the next node. -/
def nextId (p : Parser) : NodeId := p.nalloc.setWidth 9

/-- The last node that a Leaf completes: the outermost of those it closes, or the Leaf itself. -/
def lastClosed (p : Parser) : NodeId := p.closing.getLast?.getD p.nextId

/-- The slots after a Leaf and the right children that it completes. -/
def closedDraft (sym : Byte) (p : Parser) : Memory Node :=
  recordRights p.nextId p.closing (p.draft.write p.nalloc.toNat ⟨true, sym, 0, 0, 0⟩)

theorem stack_eq (p : Parser) : p.stack = p.closing.map (fun id => (id, true)) ++ p.stillOpen := by
  have hclosing : p.closing.map (fun id => (id, true)) = p.stack.takeWhile (fun e => e.2) := by
    rw [closing, List.map_map]
    refine (List.map_congr_left fun e he => ?_).trans (List.map_id _)
    exact Prod.ext rfl (List.mem_takeWhile_imp he).symm
  rw [hclosing, stillOpen, List.takeWhile_append_dropWhile]

theorem parseLeaf_eq {p : Parser} (hslot : p.nalloc.toNat < 511) (sym : Byte) :
    parseLeaf sym p = closeSubtree (p.nalloc + 1) p.lastClosed p.stillOpen (p.closedDraft sym) := by
  rw [parseLeaf, if_neg (show ¬ Config.nodeCap ≤ p.nalloc.toNat from Nat.not_le.2 hslot), stack_eq,
    closeSubtree_rights]
  rfl

/-! ### The slots afterwards -/

section

variable {p : Parser} (hp : ParserOk p)

include hp

/-- The nodes closed are distinct from each other and from those that stay open. -/
theorem nodup_closing : (p.closing ++ p.stillOpen.map Prod.fst).Nodup := by
  have hnodup := hp.nodup
  rw [stack_eq, List.map_append, List.map_map] at hnodup
  simpa [Function.comp_def] using hnodup

theorem lt_of_mem_closing {id : NodeId} (h : id ∈ p.closing) : id.toNat < p.nalloc.toNat :=
  hp.opened (id, true) (by rw [stack_eq]; exact List.mem_append_left _ (List.mem_map_of_mem h))

theorem lt_of_mem_stillOpen {e : NodeId × Bool} (h : e ∈ p.stillOpen) : e.1.toNat < p.nalloc.toNat :=
  hp.opened e (by rw [stack_eq]; exact List.mem_append_right _ h)

theorem closedDraft_leaf (sym : Byte) : (p.closedDraft sym).read? p.nalloc.toNat = some ⟨true, sym, 0, 0, 0⟩ := by
  rw [closedDraft, recordRights_out _ _ _ _ fun id hid => (lt_of_mem_closing hp hid).ne', read?_write, if_pos rfl]

/-- Each node closed keeps its left child and gets its right one. -/
theorem closedDraft_rights (sym : Byte) {e : NodeId × NodeId} (he : e ∈ p.closing.zip (p.nextId :: p.closing)) :
    ∃ l, p.draft.read? e.1.toNat = some ⟨false, 0, 0, l, 0⟩ ∧
      (p.closedDraft sym).read? e.1.toNat = some ⟨false, 0, 0, l, e.2⟩ := by
  have hmem := (List.of_mem_zip he).1
  obtain ⟨l, hl⟩ := hp.left (e.1, true) (by rw [stack_eq]; exact List.mem_append_left _ (List.mem_map_of_mem hmem)) rfl
  refine ⟨l, hl, ?_⟩
  rw [closedDraft, recordRights_in _ _ _ (List.nodup_append.1 (nodup_closing hp)).1 e he, read?_write,
    if_neg (lt_of_mem_closing hp hmem).ne, hl]
  rfl

omit hp in
theorem closedDraft_untouched (sym : Byte) {k : Nat} (hleaf : k ≠ p.nalloc.toNat)
    (hclosing : ∀ id ∈ p.closing, k ≠ id.toNat) : (p.closedDraft sym).read? k = p.draft.read? k := by
  rw [closedDraft, recordRights_out _ _ _ _ hclosing, read?_write, if_neg hleaf]

/-- A node that stays open is none of those closed. -/
theorem ne_of_stillOpen {parent : NodeId} {right : Bool} {rest : List (NodeId × Bool)}
    (h : p.stillOpen = (parent, right) :: rest) {id : NodeId} (hid : id ∈ p.closing) : id.toNat ≠ parent.toNat := by
  have hnodup := nodup_closing hp
  rw [h, List.map_cons] at hnodup
  intro heq
  exact (List.nodup_append.1 hnodup).2.2 id hid parent List.mem_cons_self (BitVec.eq_of_toNat_eq heq)

end

end Parser

/-! ### The arena after a commit -/

theorem nodeAt_commitTree {s : State} {p : Parser} (hwf : p.draft.wf) (root : NodeId) (op : Byte) (k : Nat) :
    ((commitTree root p (s.setStage op)).complete none).nodeAt k = (p.draft.read? k).getD (s.nodeAt k) := by
  show ((Memory.overlay s.node p.draft).read? k).getD _ = _
  rw [read?_overlay _ _ hwf]
  cases p.draft.read? k <;> rfl

theorem commitTree_reports (s : State) (root : NodeId) (p : Parser) (op : Byte) :
    reports s ((commitTree root p (s.setStage op)).complete none) op none (fun sp _ => sp = .node) := by
  refine ⟨⟨rfl, rfl, rfl, rfl⟩, ⟨rfl, rfl, rfl, rfl, rfl, rfl, rfl, rfl, rfl⟩, fun sp i hi => ?_⟩
  cases sp with
  | node => exact absurd rfl hi
  | freq | code | treeb | pay | bs | inp | out => rfl

/-! ### The Leaf record -/

section

variable {s : State} (sym : Byte) (hslot : s.work.nalloc.toNat < 511)

include hslot

theorem exec_leaf_open {parent : NodeId} {rest : List (NodeId × Bool)}
    (hopen : s.parser.stillOpen = (parent, false) :: rest) :
    exec (.leaf sym) s = .next (s.keepParsing 2 ⟨s.work.nalloc + 1, (parent, true) :: rest,
      (s.parser.closedDraft sym).write parent.toNat ⟨false, 0, 0, s.parser.lastClosed, 0⟩⟩) := by
  show finishRecord 2 (parseLeaf sym s.parser) s = _
  rw [Parser.parseLeaf_eq hslot, hopen]
  rfl

theorem parseLeaf_closed (hopen : s.parser.stillOpen = []) :
    parseLeaf sym s.parser = .root s.parser.lastClosed ⟨s.work.nalloc + 1, [], s.parser.closedDraft sym⟩ := by
  rw [Parser.parseLeaf_eq hslot, hopen]
  rfl

theorem exec_leaf_root (hopen : s.parser.stillOpen = []) (hlast : s.work.tpos.toNat + 2 = s.data.treeLen.toNat) :
    exec (.leaf sym) s = .next ((commitTree s.parser.lastClosed ⟨s.work.nalloc + 1, [], s.parser.closedDraft sym⟩
      (s.setStage 0x09)).complete none) := by
  show finishRecord 2 (parseLeaf sym s.parser) s = _
  rw [parseLeaf_closed sym hslot hopen]
  exact conclude_runPrimitive_next.2 (.inl ⟨_, require_of hlast, rfl⟩)

theorem exec_leaf_leftover (hopen : s.parser.stillOpen = [])
    (hlast : s.work.tpos.toNat + 2 ≠ s.data.treeLen.toNat) : exec (.leaf sym) s = .next (malformedRecord s) := by
  show finishRecord 2 (parseLeaf sym s.parser) s = _
  rw [parseLeaf_closed sym hslot hopen]
  exact conclude_runPrimitive_next.2 (.inr ⟨_, require_of_not hlast, rfl⟩)

end

theorem exec_leaf_full {s : State} (sym : Byte) (hfull : 511 ≤ s.work.nalloc.toNat) :
    exec (.leaf sym) s = .next (malformedRecord s) := by
  have hnone : parseLeaf sym s.parser = .full := if_pos hfull
  show finishRecord 2 (parseLeaf sym s.parser) s = _
  rw [hnone]
  rfl

/-- Settles O52: the right children recorded, the node left to close is a left child, or the root. -/
theorem leafRecordClosesSubtrees : Obligations.LeafRecordClosesSubtrees := by
  intro s sym id closing stillOpen rightChildren lastClosed untouched
  have hmalformed := errorEntry_failsWith (op := 0x09) (drop := dropTree) (s := s) .malformedTree rfl rfl
  refine ⟨fun hslot hp => ⟨fun parent rest hopen => ?stillOpen, fun hopen hlast => ?root, fun hopen hlast =>
    ⟨_, exec_leaf_leftover sym hslot hopen hlast, hmalformed⟩⟩, fun hfull =>
    ⟨_, exec_leaf_full sym hfull, hmalformed⟩⟩
  case stillOpen =>
    have hparent : parent.toNat < id := Parser.lt_of_mem_stillOpen hp (e := (parent, false)) (by
      show (parent, false) ∈ s.parser.stillOpen
      rw [show s.parser.stillOpen = (parent, false) :: rest from hopen]
      exact List.mem_cons_self)
    refine ⟨_, exec_leaf_open sym hslot hopen, rfl, ?_, fun e he => ?_, ?_, fun k hk hne => ?_⟩
    · exact (read?_write ..).trans ((if_neg hparent.ne').trans (Parser.closedDraft_leaf hp sym))
    · obtain ⟨l, hl, hright⟩ := Parser.closedDraft_rights hp sym he
      have hne := Parser.ne_of_stillOpen hp hopen (List.of_mem_zip he).1
      exact ⟨l, hl, (read?_write ..).trans ((if_neg hne).trans hright)⟩
    · exact (read?_write ..).trans (if_pos rfl)
    · exact (read?_write ..).trans ((if_neg hne).trans (Parser.closedDraft_untouched (p := s.parser) sym hk.1 hk.2))
  case root =>
    have hdraft := (parseLeaf_root hp (parseLeaf_closed sym hslot hopen)).1
    refine ⟨_, exec_leaf_root sym hslot hopen hlast, commitTree_reports .., rfl, rfl, rfl, ?_, fun e he => ?_,
      fun k hk => ?_⟩
    · rw [nodeAt_commitTree hdraft, show (s.parser.closedDraft sym).read? id = _ from Parser.closedDraft_leaf hp sym]
      rfl
    · obtain ⟨l, hl, hright⟩ := Parser.closedDraft_rights hp sym he
      exact ⟨l, hl, by rw [nodeAt_commitTree hdraft, hright]; rfl⟩
    · rw [nodeAt_commitTree hdraft, Parser.closedDraft_untouched (p := s.parser) sym hk.1 hk.2]
      rfl

end Sys2Proof.Machine
end
